-- ==== Sys2Proof/Word.lean ====
section
/-! DEFINITION. The word types of the HS3120: bytes, words, byte masks and byte addresses (00_scope.md, Conventions). -/

namespace Sys2Proof

/-- A byte, 8 bits. -/
abbrev Byte := BitVec 8

/-- A word, 32 bits; byte 0, at the lowest address, is bits 7..0. -/
abbrev Word := BitVec 32

/-- The byte mask of one beat: bit i enables byte i. -/
abbrev Mask := BitVec 4

/-- A byte address of the 16 MiB upstream space, as a request carries it. -/
abbrev Addr := BitVec 24

/-- A saturating 16-bit count (R8, R140, R89, R170). -/
abbrev Count := BitVec 16

/-- A window slot, 0..15 (R1). -/
abbrev Slot16 := Fin 16

end Sys2Proof
end

