-- ==== Sys2Proof/Syntax.lean ====
section
/-! DEFINITION. The commands of the HS3120: one constructor of `Instr` for each row of spec/opcode_table.json. -/

namespace Sys2Proof

/-- The two upstream ports: A, the controller port, and B, the link port. -/
inductive Port where
  | a
  | b
deriving DecidableEq, Repr

/-- The kind of a request or of a memory access (R127, R146). -/
inductive AccessKind where
  | read
  | write
deriving DecidableEq, Repr

/-- The privilege a request carries; SUPERVISOR is the higher (R2). -/
inductive Privilege where
  | user
  | supervisor
deriving DecidableEq, Repr

/-- One beat of a request: its byte mask and, for a write, its data word (R127). -/
structure Beat where
  mask : Mask
  data : Word
deriving DecidableEq, Repr

/-- A request as a master presents it (R127 and the request layout table); its beat count is the length of `beats`. -/
structure Request where
  kind : AccessKind
  address : Addr
  beats : List Beat
  privilege : Privilege
  locked : Bool
deriving DecidableEq, Repr

/-- The four monitored strobe inputs (R89). -/
inductive Strobe where
  | tsa
  | tsb
  | fms
  | fme
deriving DecidableEq, Repr

/-- The levels of the strap pins; high is true (R183). -/
structure Straps where
  cfgEn : Bool
  rtyA : Bool
  rtyB : Bool
deriving DecidableEq, Repr

/-- What the pins of the management link do in a frame before its end (R174): MSEL is asserted, MCLK rises with a level on MDI, MCLK
falls. -/
inductive LinkEdge where
  | select
  | rise (mdi : Bool)
  | fall
deriving DecidableEq, Repr

/-- What comes in on the management link and has no row of its own. A whole frame that names nothing: its command byte names no command
(R176 step 1), or its action byte names no action of WINDOW_CTRL, TIMER or SOFT_RESET (R178, R180; log 19). Or one edge of any frame
(log 20). -/
inductive UnnamedFrame where
  | command (code : Byte)
  | windowCtrl (window action : Byte)
  | timer (action : Byte) (period : Word)
  | softReset (target : Byte)
  | edge (e : LinkEdge)
deriving DecidableEq, Repr

/-- What the flash returns (R181): the first byte after a read command, or one edge of FCLK, the next one, with the level of FDI, which a
rising edge samples (log 41). -/
inductive FlashInput where
  | byte (x : Byte)
  | edge (fdi : Bool)
deriving DecidableEq, Repr

/-- The commands. Management commands carry their argument bytes as the frame does (R174, R178, R179). -/
inductive Instr where
  /-- PORT_REQUEST (R17). -/
  | portRequest (port : Port) (request : Request)
  /-- ORDERING_END (R136). -/
  | orderingEnd (port : Port)
  /-- QUEUE_SPACE_ENTRY (R132). -/
  | queueSpaceEntry (port : Port)
  /-- POOL_WAIT_SERVICE (R44). -/
  | poolWaitService
  /-- READ_ADMITTED (R72). -/
  | readAdmitted (port : Port)
  /-- LOCK_RESERVATION_HANDOFF (R153): to the port named. -/
  | lockReservationHandoff (port : Port)
  /-- ARBITER_GRANT (R149). -/
  | arbiterGrant
  /-- MEMORY_COMPLETION (R147): the MERR indication and, for a READ, the data. -/
  | memoryCompletion (merr : Bool) (data : Word)
  /-- ITEM_START (R71). -/
  | itemStart
  /-- CONSUMER_HOLD_SET (R72). -/
  | consumerHoldSet
  /-- HOLD_LIMIT_EXPIRY (R139). -/
  | holdLimitExpiry (port : Port)
  /-- POOL_WAIT_EXPIRY (R46). -/
  | poolWaitExpiry (port : Port)
  /-- LOCK_LIMIT_EXPIRY (R157). -/
  | lockLimitExpiry (port : Port)
  /-- WATCHDOG_EXPIRY (R113). -/
  | watchdogExpiry (window : Slot16)
  /-- STROBE_PULSE (R89): the input, and the bus clock periods that pass before the edge (log 5). -/
  | strobePulse (strobe : Strobe) (after : Nat)
  /-- ACQUISITION_TIMEOUT (R92). -/
  | acquisitionTimeout (strobe : Strobe)
  /-- SYNC_LOST (R95). -/
  | syncLost (strobe : Strobe)
  /-- LCT_EXPIRY (R98). -/
  | lctExpiry
  /-- READ_ID (R177). -/
  | readId
  /-- READ_STATUS (R177). -/
  | readStatus
  /-- READ_FLAGS (R165). -/
  | readFlags
  /-- CLEAR_FLAGS (R163). -/
  | clearFlags (mask : BitVec 40)
  /-- SET_ENABLE (R165, R179). -/
  | setEnable (mask : BitVec 40) (value : Byte)
  /-- SET_LEVEL (R165, R179). -/
  | setLevel (mask : BitVec 40) (level : Byte)
  /-- SET_THRESHOLD (R165, R179). -/
  | setThreshold (threshold : Byte)
  /-- READ_LOG (R171). -/
  | readLog
  /-- READ_WINDOW (R6, R178). -/
  | readWindow (window : Byte)
  /-- WINDOW_CTRL ENABLE (R11). -/
  | enable (window : Byte)
  /-- WINDOW_CTRL DISABLE (R12). -/
  | disable (window : Byte)
  /-- WINDOW_CTRL PAUSE (R13). -/
  | pause (window : Byte)
  /-- WINDOW_CTRL RESUME (R14). -/
  | resume (window : Byte)
  /-- WINDOW_CTRL REARM (R121). -/
  | rearm (window : Byte)
  /-- SELECT_SOURCE (R106). -/
  | selectSource (window source : Byte)
  /-- COMMIT_NOW (R69). -/
  | commitNow (window : Byte)
  /-- TIMER START (R99); the period bytes are taken and ignored (R178). -/
  | timerStart (period : Word)
  /-- TIMER STOP (R101); the period bytes are taken and ignored (R178). -/
  | timerStop (period : Word)
  /-- TIMER PERIOD (R100). -/
  | timerPeriod (period : Word)
  /-- READ_SOURCES (R107). -/
  | readSources
  /-- READ_PORTS (R140). -/
  | readPorts
  /-- READ_RESET_CAUSE (R180). -/
  | readResetCause
  /-- SOFT_RESET DATAPATH (R180). -/
  | softResetDatapath
  /-- SOFT_RESET FULL (R180). -/
  | softResetFull
  /-- UNKNOWN_COMMAND (R176), and the edges of a frame (log 20). -/
  | unknownCommand (frame : UnnamedFrame)
  /-- FRAME_ABORT (R175): MSEL is deasserted. -/
  | frameAbort
  /-- PWR_RST, its assertion (R185). -/
  | pwrRst
  /-- RST_IN, its assertion (R185). -/
  | rstIn
  /-- LINK_RESET, an assertion of LRQ (R185). -/
  | linkReset
  /-- RESET_RELEASE (R183): both inputs are deasserted; the strap levels are those sampled if STRAPS follows at once. -/
  | resetRelease (straps : Straps)
  /-- SETTLE_END (R183), with the strap levels that STRAPS samples. -/
  | settleEnd (straps : Straps)
  /-- FLASH_ANSWER (R181): the first byte returned after a read command, and the edges of any flash read (log 41). -/
  | flashAnswer (input : FlashInput)
  /-- FLASH_RETRY_WAIT_END (R181). -/
  | flashRetryWaitEnd
  /-- FLASH_TIMEOUT (R181). -/
  | flashTimeout
  /-- IMAGE_READ_COMPLETE (R181): the words of the image from word 3 on. -/
  | imageReadComplete (words : List Word)
  /-- RST_OUT_RELEASE (R184). -/
  | rstOutRelease
  /-- HEADER_READ_COMPLETE (R181): the three header words. -/
  | headerReadComplete (word0 word1 word2 : Word)
  /-- PWR_RST_RELEASE (R175). -/
  | pwrRstRelease
deriving DecidableEq, Repr

end Sys2Proof
end

