-- ==== Sys2Proof/Decode.lean ====
section
/-! DEFINITION. decodeTableWord (the opcode table gives no row any bits), and the frames of the management link: the
codes and argument bytes of the management frame layout table (10_configuration_image..., R174). -/

namespace Sys2Proof

/-- No row of spec/opcode_table.json gives bits, so no word spells a command. -/
def decodeTableWord (_nbits _w : Nat) : Option Instr := none

/-- The argument length of a command byte; 0 for a byte that names no command (R174). -/
def argumentLength (code : Byte) : Nat :=
  match code.toNat with
  | 0x11 => 5
  | 0x12 => 6
  | 0x13 => 6
  | 0x14 => 1
  | 0x20 => 1
  | 0x21 => 2
  | 0x22 => 2
  | 0x23 => 1
  | 0x30 => 5
  | 0x41 => 1
  | _ => 0

/-- Four bytes, most significant first, as a word (R174). -/
def wordOfBytes (b0 b1 b2 b3 : Byte) : Word := b0 ++ b1 ++ b2 ++ b3

/-- Five bytes, most significant first, as a flag mask: position p is bit p (management frame layout table). -/
def maskOfBytes (b0 b1 b2 b3 b4 : Byte) : BitVec 40 := b0 ++ b1 ++ b2 ++ b3 ++ b4

/-- The bytes of a word, most significant first. -/
def bytesOfWord (w : Word) : List Byte :=
  [w.extractLsb' 24 8, w.extractLsb' 16 8, w.extractLsb' 8 8, w.extractLsb' 0 8]

/-- The bytes of a flag mask, most significant first. -/
def bytesOfMask (m : BitVec 40) : List Byte :=
  [m.extractLsb' 32 8, m.extractLsb' 24 8, m.extractLsb' 16 8, m.extractLsb' 8 8, m.extractLsb' 0 8]

/-- WINDOW_CTRL's action byte. -/
def decodeWindowCtrl (w action : Byte) : Instr :=
  match action.toNat with
  | 1 => .enable w
  | 2 => .disable w
  | 3 => .pause w
  | 4 => .resume w
  | 5 => .rearm w
  | _ => .unknownCommand (.windowCtrl w action)

/-- TIMER's action byte. -/
def decodeTimer (action : Byte) (period : Word) : Instr :=
  match action.toNat with
  | 1 => .timerStart period
  | 2 => .timerStop period
  | 3 => .timerPeriod period
  | _ => .unknownCommand (.timer action period)

/-- SOFT_RESET's byte. -/
def decodeSoftReset (target : Byte) : Instr :=
  match target.toNat with
  | 1 => .softResetDatapath
  | 2 => .softResetFull
  | _ => .unknownCommand (.softReset target)

/-- The command that the bytes of a frame spell: `none` while the command has not been taken (R174, R175); bytes after
the argument are ignored. -/
def decodeFrame (bytes : List Byte) : Option Instr :=
  match bytes with
  | [] => none
  | code :: args =>
    match code.toNat with
    | 0x01 => some .readId
    | 0x02 => some .readStatus
    | 0x10 => some .readFlags
    | 0x11 =>
      match args with
      | b0 :: b1 :: b2 :: b3 :: b4 :: _ => some (.clearFlags (maskOfBytes b0 b1 b2 b3 b4))
      | _ => none
    | 0x12 =>
      match args with
      | b0 :: b1 :: b2 :: b3 :: b4 :: v :: _ => some (.setEnable (maskOfBytes b0 b1 b2 b3 b4) v)
      | _ => none
    | 0x13 =>
      match args with
      | b0 :: b1 :: b2 :: b3 :: b4 :: v :: _ => some (.setLevel (maskOfBytes b0 b1 b2 b3 b4) v)
      | _ => none
    | 0x14 =>
      match args with
      | t :: _ => some (.setThreshold t)
      | _ => none
    | 0x15 => some .readLog
    | 0x20 =>
      match args with
      | w :: _ => some (.readWindow w)
      | _ => none
    | 0x21 =>
      match args with
      | w :: a :: _ => some (decodeWindowCtrl w a)
      | _ => none
    | 0x22 =>
      match args with
      | w :: s :: _ => some (.selectSource w s)
      | _ => none
    | 0x23 =>
      match args with
      | w :: _ => some (.commitNow w)
      | _ => none
    | 0x30 =>
      match args with
      | a :: b0 :: b1 :: b2 :: b3 :: _ => some (decodeTimer a (wordOfBytes b0 b1 b2 b3))
      | _ => none
    | 0x31 => some .readSources
    | 0x32 => some .readPorts
    | 0x40 => some .readResetCause
    | 0x41 =>
      match args with
      | t :: _ => some (decodeSoftReset t)
      | _ => none
    | _ => some (.unknownCommand (.command code))

/-- The bytes of the frame that carries a command; `none` for the rows that no frame carries. -/
def encodeFrame (i : Instr) : Option (List Byte) :=
  match i with
  | .readId => some [0x01]
  | .readStatus => some [0x02]
  | .readFlags => some [0x10]
  | .clearFlags m => some (0x11 :: bytesOfMask m)
  | .setEnable m v => some (0x12 :: bytesOfMask m ++ [v])
  | .setLevel m v => some (0x13 :: bytesOfMask m ++ [v])
  | .setThreshold t => some [0x14, t]
  | .readLog => some [0x15]
  | .readWindow w => some [0x20, w]
  | .enable w => some [0x21, w, 1]
  | .disable w => some [0x21, w, 2]
  | .pause w => some [0x21, w, 3]
  | .resume w => some [0x21, w, 4]
  | .rearm w => some [0x21, w, 5]
  | .selectSource w s => some [0x22, w, s]
  | .commitNow w => some [0x23, w]
  | .timerStart p => some (0x30 :: 1 :: bytesOfWord p)
  | .timerStop p => some (0x30 :: 2 :: bytesOfWord p)
  | .timerPeriod p => some (0x30 :: 3 :: bytesOfWord p)
  | .readSources => some [0x31]
  | .readPorts => some [0x32]
  | .readResetCause => some [0x40]
  | .softResetDatapath => some [0x41, 1]
  | .softResetFull => some [0x41, 2]
  | .unknownCommand (.command c) => some [c]
  | .unknownCommand (.windowCtrl w a) => some [0x21, w, a]
  | .unknownCommand (.timer a p) => some (0x30 :: a :: bytesOfWord p)
  | .unknownCommand (.softReset t) => some [0x41, t]
  | .unknownCommand (.edge _) => none
  | .portRequest _ _ | .orderingEnd _ | .queueSpaceEntry _ | .poolWaitService | .readAdmitted _
  | .lockReservationHandoff _ | .arbiterGrant | .memoryCompletion _ _ | .itemStart | .consumerHoldSet
  | .holdLimitExpiry _ | .poolWaitExpiry _ | .lockLimitExpiry _ | .watchdogExpiry _ | .strobePulse _ _
  | .acquisitionTimeout _ | .syncLost _ | .lctExpiry | .frameAbort | .pwrRst | .rstIn | .linkReset
  | .resetRelease _ | .settleEnd _ | .flashAnswer _ | .flashRetryWaitEnd | .flashTimeout
  | .imageReadComplete _ | .rstOutRelease | .headerReadComplete _ _ _ | .pwrRstRelease => none

end Sys2Proof
end

