-- ==== Sys2Proof/Config.lean ====
section
/-! DEFINITION. The values the manual leaves open: opaque constants, read at the counter `freeIndex` of the state. -/

namespace Sys2Proof

/-- FREE VALUE. Whether the commit event of a closing write is taken before the end of the lock that the same locked
write closes (R40, R41, R60: events that arrive together are taken in either order). Log 14. -/
opaque Config.closeEventFirst : Nat → Bool

/-- FREE VALUE. The byte that READ_LOG returns at a position of a field that the record does not hold
(R171 marks the field absent and the layout states no value for its bytes). Log 16. -/
opaque Config.absentByte : Nat → Nat → Byte

end Sys2Proof
end

