-- ==== Sys2Proof/Machine/State.lean ====
section
/-! DEFINITION. The state of the HS3120 as plain data, and the state that the power-on reset leaves. -/

namespace Sys2Proof.Machine

/-! ## The window table (01_exchange_windows.md) -/

/-- A window's commit source (R3, R6). -/
inductive Source where
  | tsa
  | tsb
  | fms
  | fme
  | lct
  | close
  | manual
deriving DecidableEq, Repr

/-- The fallback setting (R3). -/
inductive Fallback where
  | hold
  | lct
deriving DecidableEq, Repr

/-- The close policy (R3). -/
inductive ClosePolicy where
  | loose
  | strict
deriving DecidableEq, Repr

/-- The trip mode (R4). -/
inductive TripMode where
  | immediate
  | atEvent
deriving DecidableEq, Repr

/-- Where a safe image stands in its window: word offset and count 1..64 (R4). -/
structure SafeImage where
  offset : Nat
  count : Nat
deriving DecidableEq, Repr

/-- A window descriptor (R1 to R4): its eight words as loaded, and the fields they hold. -/
structure Descriptor where
  words : List Word
  base : Nat
  length : Nat
  producer : Port
  consumerReads : Bool
  producerMin : Privilege
  consumerMin : Privilege
  startRunning : Bool
  statusBlock : Bool
  source : Source
  fallback : Fallback
  closePolicy : ClosePolicy
  closeOffset : Option Nat
  quota : Nat
  watchdogPeriod : Option Nat
  tripMode : TripMode
  autoRearm : Bool
  safeImage : Option SafeImage
deriving DecidableEq, Repr

/-- The four window states (R6). -/
inductive WindowState where
  | off
  | running
  | paused
  | tripped
deriving DecidableEq, Repr

/-- The nine saturating counters of a window (R8). -/
structure WindowCounters where
  commits : Count
  emptyEvents : Count
  skippedEvents : Count
  late : Count
  overrun : Count
  quotaRefusals : Count
  trips : Count
  discarded : Count
  drainErrors : Count
deriving DecidableEq, Repr

/-- The runtime record of a slot (R6), with the hold request (R72), the draining epoch number (R62) and the report marks
(R84) that the commit engine keeps beside it. -/
structure Runtime where
  state : WindowState
  selected : Source
  effective : Source
  openEpoch : Word
  lastCommitted : Word
  drainingEpoch : Option Word
  closeMark : Bool
  safeLoadPending : Bool
  consumerHold : Bool
  holdRequest : Bool
  deferredCommit : Bool
  safeAfterItem : Bool
  lateSince : Bool
  overrunSince : Bool
  watchdog : Option Nat
  counters : WindowCounters
deriving DecidableEq, Repr

/-- One slot of the window table: empty or defined, with its runtime record (R1). -/
structure Window where
  desc : Option Descriptor
  rt : Runtime
deriving DecidableEq, Repr

/-! ## The staging store (02_the_staging_store.md) -/

/-- Which epoch of its window a staging entry belongs to (R27). -/
inductive EpochTag where
  | opened
  | draining
deriving DecidableEq, Repr

/-- A staging entry (R27). A data byte whose mask bit is clear holds no value; it is kept 0 and never read (log 26). -/
structure Entry where
  window : Slot16
  offset : Nat
  mask : Mask
  data : Word
  epoch : EpochTag
deriving DecidableEq, Repr

/-- A waiter of the pool-wait list (R43): its port, its window and its need as last computed; its beats stand in its port's current
request, its hold timer in its port. `checkedAt` is the model's own: the free count at its last check as the head, none before it
(log 30). -/
structure Waiter where
  port : Port
  window : Slot16
  need : Nat
  checkedAt : Option Nat
deriving DecidableEq, Repr

/-! ## The commit engine (03_commit_engine.md) -/

/-- The kind of a commit queue item (R70). -/
inductive ItemKind where
  | epoch
  | safe
deriving DecidableEq, Repr

/-- The phase of a running item (R71). -/
inductive ItemPhase where
  | starting
  | writing
  | status
deriving DecidableEq, Repr

/-- The progress record of a running item (R71), with the count of safe-image words written (R79, R81), the formed status
block and the count of its words written (R82). -/
structure Progress where
  phase : ItemPhase
  planned : Nat
  written : Nat
  writeError : Bool
  safeDone : Nat
  block : List Word
  statusDone : Nat
deriving DecidableEq, Repr

/-- An item of the commit queue (R70); `progress` is present from the moment the item starts (R71). -/
structure Item where
  window : Slot16
  kind : ItemKind
  progress : Option Progress
deriving DecidableEq, Repr

/-! ## The memory port and the arbiter (07_memory_port_arbitration_and_locked_sequences.md) -/

/-- A requester at the memory arbiter (R148). -/
inductive Requester where
  | channel (p : Port)
  | engine
deriving DecidableEq, Repr

/-- An access at the memory port (R146). -/
structure Access where
  kind : AccessKind
  address : Nat
  mask : Mask
  data : Word
deriving DecidableEq, Repr

/-- To whom a completion is handed (R147): a posted slot, a written-through beat (a lock's closing write too), a read word, a
drain write, a safe-image word or a status word. -/
inductive Owner where
  | posted (p : Port)
  | through (p : Port)
  | read (p : Port)
  | drain (w : Slot16)
  | safeWord (w : Slot16)
  | statusWord (w : Slot16)
deriving DecidableEq, Repr

/-- The outstanding access, its owner (which tells its issuer) and its dropped mark (R146). -/
structure Outstanding where
  access : Access
  owner : Owner
  dropped : Bool
deriving DecidableEq, Repr

/-- The exclusive memory lock (R151). -/
inductive ExclusiveLock where
  | free
  | reserved (p : Port)
  | held (p : Port)
deriving DecidableEq, Repr

/-- The memory port and its arbiter (R146, R149, R151). -/
structure MemoryPort where
  outstanding : Option Outstanding
  rotation : List Requester
  exclusive : ExclusiveLock
deriving DecidableEq, Repr

/-! ## The port units (06_port_requests_and_responses.md) -/

/-- The kind of a port (R129). -/
inductive PortKind where
  | retryCapable
  | holdOnly
deriving DecidableEq, Repr

/-- The cause a request is held on (R137). -/
inductive HoldCause where
  | consumerHold
  | queueSpace
  | poolWait
  | lockWait
deriving DecidableEq, Repr

/-- The phase of a request in progress (R127). -/
inductive Phase where
  | ordering
  | held (cause : HoldCause)
  | performing
deriving DecidableEq, Repr

/-- What classification made of a request that it did not refuse (R17). -/
inductive Class where
  | plainRead
  | plainWrite
  | statusRead
  | producerRead (w : Slot16)
  | producerWrite (w : Slot16)
  | consumerRead (w : Slot16)
deriving DecidableEq, Repr

/-- The request in progress (R127): its class, its phase, the beats performed, the words read so far (R130), whether a
written-through beat failed (R135), and whether it is a lock's closing write (R156). -/
structure Current where
  request : Request
  cls : Class
  phase : Phase
  done : Nat
  words : List Word
  failed : Bool
  closing : Bool
deriving DecidableEq, Repr

/-- A slot of a posted-write queue (R131). -/
structure PostedSlot where
  address : Nat
  mask : Mask
  data : Word
deriving DecidableEq, Repr

/-- The kind of a lock (R151). -/
inductive LockKind where
  | exclusive
  | window (w : Slot16)
deriving DecidableEq, Repr

/-- A port's lock record (R151). The limit of a CLOSING record runs only while a producer closing write is taken (R156). -/
inductive LockRecord where
  | noLock
  | opening (kind : LockKind) (word : Nat)
  | opened (kind : LockKind) (word : Nat) (remaining : Nat)
  | closing (kind : LockKind) (word : Nat) (remaining : Option Nat)
  | broken (word : Nat)
deriving DecidableEq, Repr

/-- The four saturating counters of a port (R140). -/
structure PortCounters where
  retries : Count
  holdTimeouts : Count
  refusals : Count
  postedLost : Count
deriving DecidableEq, Repr

/-- The three responses (R128). -/
inductive Response where
  | okay
  | retry
  | error
deriving DecidableEq, Repr

/-- An answer as the port last drove it: the response and, for a read answered OKAY, its words. -/
structure PortAnswer where
  response : Response
  words : List Word
deriving DecidableEq, Repr

/-- A port unit (R127); its hold limit and confined flag stand in the configuration in force. -/
structure PortUnit where
  kind : PortKind
  current : Option Current
  holdTimer : Option Nat
  queue : List PostedSlot
  lock : LockRecord
  counters : PortCounters
  answer : Option PortAnswer
deriving DecidableEq, Repr

/-! ## The timing unit (04_timing_sources.md) -/

/-- The state of a presence monitor (R89). -/
inductive MonitorState where
  | absent
  | acquiring
  | present
  | lost
deriving DecidableEq, Repr

/-- A presence monitor (R89). The reference is kept as the bus clock periods that have passed since it (log 7). -/
structure Monitor where
  state : MonitorState
  count : Nat
  since : Option Nat
  glitches : Count
  losses : Count
deriving DecidableEq, Repr

/-- The four monitors. -/
structure Monitors where
  tsa : Monitor
  tsb : Monitor
  fms : Monitor
  fme : Monitor
deriving DecidableEq, Repr

/-- The local cycle timer (R98). -/
structure Lct where
  running : Bool
  period : Nat
  next : Option Nat
  remaining : Option Nat
deriving DecidableEq, Repr

/-! ## The fault unit (08_fault_reporting_and_the_interrupt_output.md) -/

/-- The sixteen fault kinds, in the order of R167. -/
inductive FaultKind where
  | access
  | holdTimeout
  | pool
  | quota
  | late
  | overrun
  | trip
  | commitWrite
  | lockBroken
  | lockLate
  | lockMisuse
  | memoryRead
  | memoryPosted
  | syncLost
  | config
  | linkReset
deriving DecidableEq, Repr

/-- The details of an ACCESS record (R23, R167). -/
inductive AccessDetail where
  | malformed
  | lockMisuse
  | limit
  | statusWrite
  | confined
  | role
  | privilege
deriving DecidableEq, Repr

/-- The details of an OVERRUN record (R63, R65). -/
inductive OverrunDetail where
  | itemPending
  | secondDefer
deriving DecidableEq, Repr

/-- The details of a COMMIT_WRITE record (R76, R79, R85). -/
inductive CommitWriteDetail where
  | entry
  | safeWord
  | statusWord
deriving DecidableEq, Repr

/-- The details of a LOCK_MISUSE record (R155). -/
inductive LockMisuseDetail where
  | wrongWord
  | secondLock
  | unlocked
deriving DecidableEq, Repr

/-- The details of a MEMORY_POSTED record (R134, R135, R156). -/
inductive PostedDetail where
  | posted
  | through
  | locked
deriving DecidableEq, Repr

/-- The causes that end a configuration load (R181). -/
inductive ConfigCause where
  | flashTimeout
  | badHeader
  | badLength
  | badCrc
  | badField
  | safeTotal
  | overlap
deriving DecidableEq, Repr

/-- The detail of a LINK_RESET record (R168); `item` is `none` for NONE. -/
structure LinkResetSummary where
  item : Option ItemKind
  written : Nat
  planned : Nat
  postedLost : Nat
  answered : Bool
deriving DecidableEq, Repr

/-- The detail of a fault record (R167). -/
inductive Detail where
  | access (d : AccessDetail)
  | hold (c : HoldCause)
  | overrun (d : OverrunDetail)
  | trip (m : TripMode)
  | commitWrite (d : CommitWriteDetail)
  | lockMisuse (d : LockMisuseDetail)
  | posted (d : PostedDetail)
  | sync (s : Strobe)
  | config (c : ConfigCause)
  | linkReset (s : LinkResetSummary)
deriving DecidableEq, Repr

/-- What a block offers to the log: a record less its number and time (R167). -/
structure Report where
  kind : FaultKind
  detail : Option Detail
  window : Option Slot16
  port : Option Port
  address : Option Nat
  epoch : Option Word
deriving DecidableEq, Repr

/-- A stored fault record (R167). -/
structure FaultRecord where
  sequence : BitVec 16
  time : Word
  report : Report
deriving DecidableEq, Repr

/-- The fault unit (R161, R164, R167, R169, R170). Flag p is bit p of `flags` and `enables` and bits 2p+1..2p of `levels`. -/
structure FaultUnit where
  flags : BitVec 40
  enables : BitVec 40
  levels : BitVec 80
  threshold : BitVec 2
  log : List FaultRecord
  nextSequence : BitVec 16
  overflow : Count
deriving DecidableEq, Repr

/-- Device time (R166), kept at the resolution of the bus clock (R90): whole microseconds, the bus clock periods since the
last of them, and the board's bus clock periods for each microsecond (log 6). -/
structure Clock where
  deviceTime : Word
  sub : Nat
  perUs : Nat
deriving DecidableEq, Repr

/-! ## The management link (09_management_link.md) -/

/-- The frame phase of the management link unit (R174). -/
inductive FramePhase where
  | idle
  | command
  | argument
  | turnaround
  | response
deriving DecidableEq, Repr

/-- The management link unit (R174): its phase, the level of MSEL, the bytes received in COMMAND and ARGUMENT and the bits of
the byte in hand, the answer formed when the command was taken (status byte, then data), the rising edges of MCLK since then,
and MDO, which has no level where no rule gives one: MSEL deasserted, and before the command is taken (log 20). -/
structure Link where
  phase : FramePhase
  msel : Bool
  received : List Byte
  bits : List Bool
  response : List Byte
  clocks : Nat
  mdo : Option Bool
deriving DecidableEq, Repr

/-! ## The start-up and reset controller (10_configuration_image_start_up_and_reset_sources.md) -/

/-- The start-up states (R183). -/
inductive StartState where
  | reset
  | settle
  | straps
  | load
  | ready
deriving DecidableEq, Repr

/-- What the flash read is doing (R181). -/
inductive Loader where
  | idle
  | awaiting
  | retryWait (remaining : Nat)
  | header
  | image (word0 word1 word2 : Word)
deriving DecidableEq, Repr

/-- The flash link (R181; FSEL stands in the start-up record): the level of FCLK, the level of FDO, which has none where no rule gives
one, the bits of the read command that the flash has taken, the bytes shifted in of the part of the image in hand, and the bits of the
byte in hand (log 41). -/
structure FlashLink where
  fclk : Bool
  fdo : Option Bool
  sent : Nat
  received : List Byte
  bits : List Bool
deriving DecidableEq, Repr

/-- The four sources that write the reset-cause record (R186). -/
inductive ResetSource where
  | pwrRst
  | rstIn
  | softDatapath
  | softFull
deriving DecidableEq, Repr

/-- The commit item that a reset cut short (R186). -/
structure CutItem where
  window : Slot16
  kind : ItemKind
  written : Nat
  planned : Nat
deriving DecidableEq, Repr

/-- The reset-cause record (R186). -/
structure ResetCause where
  source : ResetSource
  item : Option CutItem
  postedLost : Nat
deriving DecidableEq, Repr

/-- The start-up and reset controller (R181 to R186). -/
structure Startup where
  state : StartState
  transparent : Bool
  settled : Bool
  settleTimer : Option Nat
  rstOut : Bool
  rstOutTimer : Option Nat
  pwrRst : Bool
  rstIn : Bool
  loader : Loader
  flashTimer : Option Nat
  fsel : Bool
  flash : FlashLink
  cause : ResetCause
deriving DecidableEq, Repr

/-- The device section in force (10 layout tables): the loaded image's, or transparent mode's (R182). -/
structure DeviceConfig where
  holdLimitA : Nat
  holdLimitB : Nat
  confinedA : Bool
  confinedB : Bool
  lockLimit : Nat
  statusArea : Option Nat
  lctRuns : Bool
  lctPeriod : Nat
  periodTsa : Nat
  periodTsb : Nat
  periodFms : Nat
  periodFme : Nat
  enables : BitVec 40
  levels : BitVec 80
  threshold : BitVec 2
deriving DecidableEq, Repr

/-! ## The whole part -/

/-- Everything the manual gives the part, and `freeIndex`, the model's own counter for the free values of Config (log 31). -/
structure Device where
  windows : Vector Window 16
  entries : List Entry
  poolWait : List Waiter
  safeStore : List Word
  commitQueue : List Item
  mem : MemoryPort
  portA : PortUnit
  portB : PortUnit
  monitors : Monitors
  lct : Lct
  fault : FaultUnit
  clock : Clock
  link : Link
  startup : Startup
  straps : Straps
  config : DeviceConfig
  freeIndex : Nat
deriving DecidableEq, Repr

/-- The state of the model: the part, and the queue of commands that wait, first in, first out. -/
structure State where
  dev : Device
  pending : List Instr
deriving DecidableEq, Repr

/-- No command stops this block: an error of the part is a flag, a record or an answer (08, R128, R176), so there is no fault. -/
inductive Fault where
deriving DecidableEq, Repr

/-- Why a command has no meaning. -/
inductive Refusal where
  /-- Raised by an arm of exec whose command has no meaning in this model; safe, since nothing is claimed of it. -/
  | notModelled (mnemonic : String)
deriving DecidableEq, Repr

/-! ## After reset -/

/-- Nine counters at 0 (R25). -/
def WindowCounters.zero : WindowCounters := ⟨0, 0, 0, 0, 0, 0, 0, 0, 0⟩

/-- The runtime record of an OFF window with no history (R25); its sources are never read while the slot is empty (log 9). -/
def Runtime.off : Runtime where
  state := .off
  selected := .manual
  effective := .manual
  openEpoch := 0
  lastCommitted := 0
  drainingEpoch := none
  closeMark := false
  safeLoadPending := false
  consumerHold := false
  holdRequest := false
  deferredCommit := false
  safeAfterItem := false
  lateSince := false
  overrunSince := false
  watchdog := none
  counters := .zero

/-- An empty slot (R1). -/
def Window.empty : Window := ⟨none, .off⟩

/-- Four port counters at 0 (R142). -/
def PortCounters.zero : PortCounters := ⟨0, 0, 0, 0⟩

/-- A port unit after the power-on reset: HOLD_ONLY until STRAPS (R129), nothing in progress (R142). -/
def PortUnit.reset : PortUnit where
  kind := .holdOnly
  current := none
  holdTimer := none
  queue := []
  lock := .noLock
  counters := .zero
  answer := none

/-- A monitor after a reset (R108). -/
def Monitor.reset : Monitor := ⟨.absent, 0, none, 0, 0⟩

/-- The four monitors after a reset (R108). -/
def Monitors.reset : Monitors := ⟨.reset, .reset, .reset, .reset⟩

/-- The settings of transparent mode (R182); also in force from a full reset to READY (log 25). -/
def DeviceConfig.transparent : DeviceConfig where
  holdLimitA := 100
  holdLimitB := 100
  confinedA := false
  confinedB := false
  lockLimit := 32
  statusArea := none
  lctRuns := false
  lctPeriod := 1000
  periodTsa := 1000
  periodTsb := 1000
  periodFms := 1000
  periodFme := 1000
  enables := 0
  levels := 0
  threshold := 0

/-- The fault unit after the power-on reset (R172, R173). -/
def FaultUnit.reset : FaultUnit where
  flags := 0
  enables := 0
  levels := 0
  threshold := 0
  log := []
  nextSequence := 1
  overflow := 0

/-- The management link unit in IDLE, at a level of MSEL (R174, R175). -/
def Link.idle (msel : Bool) : Link := ⟨.idle, msel, [], [], [], 0, none⟩

/-- The flash link before the first edge of a read, and while FSEL is deasserted: FCLK high (R181, log 41). -/
def FlashLink.idle : FlashLink := ⟨true, none, 0, [], []⟩

/-- The rotation order that the resets set (R150). -/
def Requester.order : List Requester := [.channel .a, .channel .b, .engine]

/-- The part as PWR_RST leaves it, while it is asserted (R183 to R186 and the chapters' reset rules; log 9). -/
def Device.reset : Device where
  windows := Vector.replicate 16 .empty
  entries := []
  poolWait := []
  safeStore := []
  commitQueue := []
  mem := ⟨none, Requester.order, .free⟩
  portA := .reset
  portB := .reset
  monitors := .reset
  lct := ⟨false, 1000, none, none⟩
  fault := .reset
  clock := ⟨0, 0, 100⟩
  link := .idle false
  startup :=
    { state := .reset, transparent := false, settled := false, settleTimer := none
      rstOut := true, rstOutTimer := none, pwrRst := true, rstIn := false
      loader := .idle, flashTimer := none, fsel := false, flash := .idle
      cause := ⟨.pwrRst, none, 0⟩ }
  straps := ⟨false, false, false⟩
  config := .transparent
  freeIndex := 0

/-- The machine right after reset: PWR_RST has been taken and is asserted, and no command waits. -/
def State.reset : State := ⟨.reset, []⟩

/-- A command's effect on the part: the queue is left as it is. -/
def State.onDevice (s : State) (f : Device → Device) : State := { s with dev := f s.dev }

end Sys2Proof.Machine
end

