-- ==== Sys2Proof/Machine/Flags.lean ====
section
/-! DEFINITION. The fault unit: factor flags, enables, levels, threshold, the outputs and the fault log (08). -/

namespace Sys2Proof.Machine

/-- An increase of a saturating count by one (00 Conventions, R8). -/
def satInc (c : Count) : Count := if c = 65535#16 then c else c + 1#16

/-- An increase of a saturating count by a number of events. -/
def satAdd (c : Count) (n : Nat) : Count := BitVec.ofNat 16 (min 65535 (c.toNat + n))

/-- The forty factor flags (R161). -/
inductive Flag where
  | cmt (w : Slot16)
  | wex (w : Slot16)
  | access
  | hold
  | pool
  | lock
  | memory
  | sync
  | logFull
  | config
deriving DecidableEq, Repr

/-- A flag's position in the flag mask (management frame layout table). -/
def Flag.position : Flag → Nat
  | .cmt w => w.val
  | .wex w => 16 + w.val
  | .access => 32
  | .hold => 33
  | .pool => 34
  | .lock => 35
  | .memory => 36
  | .sync => 37
  | .logFull => 38
  | .config => 39

/-- Setting a flag (R161): set whatever its enable and level. -/
def FaultUnit.set (u : FaultUnit) (f : Flag) : FaultUnit :=
  { u with flags := u.flags ||| BitVec.twoPow 40 f.position }

/-- Whether a flag is set. -/
def FaultUnit.isSet (u : FaultUnit) (f : Flag) : Bool := u.flags.getLsbD f.position

/-- The level of the flag at a position: two bits, the lowest position lowest. -/
def FaultUnit.level (u : FaultUnit) (p : Nat) : BitVec 2 := u.levels.extractLsb' (2 * p) 2

/-- A flag is active when it is set, enabled, and its level is above the threshold (R164). -/
def FaultUnit.active (u : FaultUnit) (p : Nat) : Bool :=
  u.flags.getLsbD p && u.enables.getLsbD p && decide (u.threshold.toNat < (u.level p).toNat)

/-- The forty positions. -/
def flagPositions : List Nat := List.range 40

/-- IRQ (R164): asserted exactly when a flag is active; it has no latch. -/
def FaultUnit.irq (u : FaultUnit) : Bool := flagPositions.any u.active

/-- LVL1 and LVL0 (R164): the highest level of an active flag, 0 when none is active. -/
def FaultUnit.lvl (u : FaultUnit) : Nat :=
  flagPositions.foldl (fun m p => if u.active p then max m (u.level p).toNat else m) 0

/-- CLEAR_FLAGS (R163): the flags named become clear. -/
def FaultUnit.clear (u : FaultUnit) (mask : BitVec 40) : FaultUnit := { u with flags := u.flags &&& ~~~mask }

/-- SET_ENABLE (R165): the flags named take the value as their enable. -/
def FaultUnit.setEnables (u : FaultUnit) (mask : BitVec 40) (value : Bool) : FaultUnit :=
  { u with enables := if value then u.enables ||| mask else u.enables &&& ~~~mask }

/-- A flag mask with each of its lowest n positions doubled, so that it selects two level bits. -/
def doubled (mask : BitVec 40) : Nat → BitVec 80
  | 0 => 0
  | n + 1 => doubled mask n ||| (if mask.getLsbD n then 3#80 <<< (2 * n) else 0)

/-- SET_LEVEL (R165): the flags named take the level. -/
def FaultUnit.setLevels (u : FaultUnit) (mask : BitVec 40) (level : BitVec 2) : FaultUnit :=
  { u with levels := (u.levels &&& ~~~doubled mask 40) ||| (level.replicate 40 &&& doubled mask 40) }

/-- The sequence number after another: from 65535 it wraps to 1 (R169). -/
def sequenceAfter (n : BitVec 16) : BitVec 16 := if n = 65535#16 then 1#16 else n + 1#16

/-- Offering a record to the log (R169, R170): stored with the next number, or lost with LOG_FULL and the overflow count. -/
def FaultUnit.offer (u : FaultUnit) (time : Word) (r : Report) : FaultUnit :=
  if u.log.length < 16 then
    { u with log := u.log ++ [⟨u.nextSequence, time, r⟩], nextSequence := sequenceAfter u.nextSequence }
  else
    { u.set .logFull with overflow := satInc u.overflow }

/-- The resets of R172: flags clear, enables no, levels 0, threshold 0; the log, its number and its overflow count stand. -/
def FaultUnit.clearAll (u : FaultUnit) : FaultUnit :=
  { u with flags := 0, enables := 0, levels := 0, threshold := 0 }

/-- The enables, levels and threshold of a configuration (R165). -/
def FaultUnit.configure (u : FaultUnit) (c : DeviceConfig) : FaultUnit :=
  { u with enables := c.enables, levels := c.levels, threshold := c.threshold }

end Sys2Proof.Machine
end

