-- ==== Sys2Proof/Machine/Operands.lean ====
section
/-! DEFINITION. Operand forms: bytes under a mask, the form of a request, the words a request and a window cover, and the byte
encodings of the management frame layout table (10). -/

namespace Sys2Proof.Machine

/-! ## Bytes and masks -/

/-- The bits of a word that a byte mask enables: bit i of the mask enables byte i, byte 0 lowest (R127). -/
def maskBits (m : Mask) : Word :=
  (if m.getLsbD 0 then 0x000000FF#32 else 0#32) ||| (if m.getLsbD 1 then 0x0000FF00#32 else 0#32) |||
  (if m.getLsbD 2 then 0x00FF0000#32 else 0#32) ||| (if m.getLsbD 3 then 0xFF000000#32 else 0#32)

/-- The enabled bytes of a word, the others 0 (R128). -/
def selectBytes (m : Mask) (w : Word) : Word := w &&& maskBits m

/-- The enabled bytes of `new` laid over `old` (R37, R52). -/
def layBytes (m : Mask) (new old : Word) : Word := (new &&& maskBits m) ||| (old &&& ~~~maskBits m)

/-- The lowest n bytes of a number, most significant byte first (R174). -/
def beBytes : Nat → Nat → List Byte
  | 0, _ => []
  | n + 1, x => BitVec.ofNat 8 (x >>> (8 * n)) :: beBytes n x

/-- A Boolean as a byte. -/
def boolByte (b : Bool) : Byte := if b then 1 else 0

/-- A Boolean as a bit of a byte. -/
def bitByte (b : Bool) (i : Nat) : Byte := if b then BitVec.twoPow 8 i else 0

/-! ## Windows and requests -/

/-- The sixteen slots in ascending order. -/
def allWindows : List Slot16 := [0, 1, 2, 3, 4, 5, 6, 7, 8, 9, 10, 11, 12, 13, 14, 15]

/-- The other port. -/
def otherPort : Port → Port
  | .a => .b
  | .b => .a

/-- The range of a window: base up to base + 4 × length − 1 (R2). -/
def Descriptor.covers (ds : Descriptor) (a : Nat) : Bool := decide (ds.base ≤ a) && decide (a < ds.base + 4 * ds.length)

/-- The byte address of the word at an offset (R2). -/
def Descriptor.wordAddress (ds : Descriptor) (offset : Nat) : Nat := ds.base + 4 * offset

/-- The word offset of a byte address of the window. -/
def Descriptor.offsetOf (ds : Descriptor) (a : Nat) : Nat := (a - ds.base) / 4

/-- The full period of a window's watchdog in microseconds, none without a period (R4, R110). -/
def Descriptor.fullPeriod (ds : Descriptor) : Option Nat := ds.watchdogPeriod.map (· * 10)

/-- The number of words of a window's safe image, 0 without one (R71). -/
def Descriptor.safeCount (ds : Descriptor) : Nat :=
  match ds.safeImage with
  | some i => i.count
  | none => 0

/-- The byte address of beat i (R127). -/
def beatAddress (r : Request) (i : Nat) : Nat := r.address.toNat + 4 * i

/-- The byte addresses of the words of a request, in ascending order. -/
def requestAddresses (r : Request) : List Nat := (List.range r.beats.length).map (beatAddress r)

/-- Whether a request is malformed (R18). -/
def requestMalformed (r : Request) : Bool :=
  decide (r.address.toNat % 4 ≠ 0) || r.beats.any (fun b => b.mask == 0#4) ||
  decide (r.beats.length = 0) || decide (8 < r.beats.length) ||
  decide (0xFFFFFC < r.address.toNat + 4 * (r.beats.length - 1)) ||
  (r.locked && decide (1 < r.beats.length))

/-- A privilege meets a minimum: USER is met by both, SUPERVISOR by SUPERVISOR only (R2). -/
def meetsPrivilege (p minimum : Privilege) : Bool :=
  match minimum with
  | .user => true
  | .supervisor => p == .supervisor

/-- Whether the beats from word offset k on cover the word at an offset with at least one byte (R39). -/
def coversOffset (k : Nat) (beats : List Beat) (offset : Nat) : Bool :=
  match beats with
  | [] => false
  | b :: rest => (decide (k = offset) && b.mask != 0#4) || coversOffset (k + 1) rest offset

/-- The word that a lock record has locked while it is OPENING, OPEN or CLOSING (R151). -/
def LockRecord.heldWord : LockRecord → Option Nat
  | .noLock => none
  | .opening _ a => some a
  | .opened _ a _ => some a
  | .closing _ a _ => some a
  | .broken _ => none

/-- The lock limit remaining, while it runs (R156, R157). -/
def LockRecord.limit : LockRecord → Option Nat
  | .noLock => none
  | .opening _ _ => none
  | .opened _ _ r => some r
  | .closing _ _ r => r
  | .broken _ => none

/-- The window of a lock of kind WINDOW (R151). -/
def LockKind.slot? : LockKind → Option Slot16
  | .exclusive => none
  | .window w => some w

/-- The window of a lock record of kind WINDOW. -/
def LockRecord.window? : LockRecord → Option Slot16
  | .noLock => none
  | .opening k _ => k.slot?
  | .opened k _ _ => k.slot?
  | .closing k _ _ => k.slot?
  | .broken _ => none

/-- A strobe as a commit source. -/
def strobeSource : Strobe → Source
  | .tsa => .tsa
  | .tsb => .tsb
  | .fms => .fms
  | .fme => .fme

/-- The strobe of a monitored source (R102). -/
def Source.strobe? : Source → Option Strobe
  | .tsa => some .tsa
  | .tsb => some .tsb
  | .fms => some .fms
  | .fme => some .fme
  | .lct | .close | .manual => none

/-- The source that a source byte names (layout table: 0 TSA .. 6 MANUAL). -/
def Source.ofByte (b : Byte) : Option Source :=
  match b.toNat with
  | 0 => some .tsa
  | 1 => some .tsb
  | 2 => some .fms
  | 3 => some .fme
  | 4 => some .lct
  | 5 => some .close
  | 6 => some .manual
  | _ => none

/-! ## Codes of the layout tables -/

def Source.code : Source → Byte
  | .tsa => 0
  | .tsb => 1
  | .fms => 2
  | .fme => 3
  | .lct => 4
  | .close => 5
  | .manual => 6

def WindowState.code : WindowState → Byte
  | .off => 0
  | .running => 1
  | .paused => 2
  | .tripped => 3

def StartState.code : StartState → Byte
  | .reset => 0
  | .settle => 1
  | .straps => 2
  | .load => 3
  | .ready => 4

def MonitorState.code : MonitorState → Byte
  | .absent => 0
  | .acquiring => 1
  | .present => 2
  | .lost => 3

def ResetSource.code : ResetSource → Byte
  | .pwrRst => 1
  | .rstIn => 2
  | .softDatapath => 3
  | .softFull => 4

def ItemPhase.code : ItemPhase → Byte
  | .starting => 0
  | .writing => 1
  | .status => 2

/-- The phase code of a port: 0 when no request is in progress. -/
def phaseCode : Option Phase → Byte
  | none => 0
  | some .ordering => 1
  | some (.held _) => 2
  | some .performing => 3

def PortKind.code : PortKind → Byte
  | .retryCapable => 0
  | .holdOnly => 1

def LockKind.bit : LockKind → Byte
  | .exclusive => 0
  | .window _ => 0x10

/-- The lock byte: bits 2..0 the state, bit 4 kind WINDOW. -/
def LockRecord.code : LockRecord → Byte
  | .noLock => 0
  | .opening k _ => 1 ||| k.bit
  | .opened k _ _ => 2 ||| k.bit
  | .closing k _ _ => 3 ||| k.bit
  | .broken _ => 4

def ExclusiveLock.code : ExclusiveLock → Byte
  | .free => 0
  | .reserved .a => 1
  | .reserved .b => 2
  | .held .a => 3
  | .held .b => 4

def FaultKind.code : FaultKind → Byte
  | .access => 0
  | .holdTimeout => 1
  | .pool => 2
  | .quota => 3
  | .late => 4
  | .overrun => 5
  | .trip => 6
  | .commitWrite => 7
  | .lockBroken => 8
  | .lockLate => 9
  | .lockMisuse => 10
  | .memoryRead => 11
  | .memoryPosted => 12
  | .syncLost => 13
  | .config => 14
  | .linkReset => 15

/-- The item kind of a LINK_RESET summary: 0 NONE, 1 EPOCH, 2 SAFE. -/
def summaryKindCode : Option ItemKind → Byte
  | none => 0
  | some .epoch => 1
  | some .safe => 2

/-- The detail code, byte 8 of a record: each kind's details from 0 in the order of R167. A pool wait is no detail of a
HOLD_TIMEOUT record (R139), so its code is never used. -/
def Detail.code : Detail → Byte
  | .access .malformed => 0
  | .access .lockMisuse => 1
  | .access .limit => 2
  | .access .statusWrite => 3
  | .access .confined => 4
  | .access .role => 5
  | .access .privilege => 6
  | .hold .consumerHold => 0
  | .hold .queueSpace => 1
  | .hold .lockWait => 2
  | .hold .poolWait => 3
  | .overrun .itemPending => 0
  | .overrun .secondDefer => 1
  | .trip .immediate => 0
  | .trip .atEvent => 1
  | .commitWrite .entry => 0
  | .commitWrite .safeWord => 1
  | .commitWrite .statusWord => 2
  | .lockMisuse .wrongWord => 0
  | .lockMisuse .secondLock => 1
  | .lockMisuse .unlocked => 2
  | .posted .posted => 0
  | .posted .through => 1
  | .posted .locked => 2
  | .sync .tsa => 0
  | .sync .tsb => 1
  | .sync .fms => 2
  | .sync .fme => 3
  | .config .flashTimeout => 0
  | .config .badHeader => 1
  | .config .badLength => 2
  | .config .badCrc => 3
  | .config .badField => 4
  | .config .safeTotal => 5
  | .config .overlap => 6
  | .linkReset s =>
    summaryKindCode s.item ||| bitByte s.answered 2 ||| (BitVec.ofNat 8 s.postedLost <<< 4)

/-- The management status codes (layout table). -/
inductive Status where
  | done
  | refusedState
  | refusedArgument
  | notReady
  | unknownCommand
  | empty
deriving DecidableEq, Repr

def Status.code : Status → Byte
  | .done => 0
  | .refusedState => 1
  | .refusedArgument => 2
  | .notReady => 3
  | .unknownCommand => 4
  | .empty => 5

/-- The slot that a window index byte names; none above 15 (R178). -/
def slotOfByte (b : Byte) : Option Slot16 := if h : b.toNat < 16 then some ⟨b.toNat, h⟩ else none

end Sys2Proof.Machine
end

