-- ==== Sys2Proof/Machine/Ops.lean ====
section
/-! DEFINITION. The named operations over the part's state: accessors, the passing of time, flags and records, answers,
the exclusive memory lock and the outstanding access. -/

namespace Sys2Proof.Machine

/-! ## Accessors -/

def Device.win (d : Device) (w : Slot16) : Window := d.windows[w]

def Device.modWin (d : Device) (w : Slot16) (f : Window → Window) : Device :=
  { d with windows := d.windows.set w (f d.windows[w]) }

def Device.modRt (d : Device) (w : Slot16) (f : Runtime → Runtime) : Device :=
  d.modWin w fun x => { x with rt := f x.rt }

/-- One change made to every slot. -/
def Device.modWins (d : Device) (f : Slot16 → Window → Window) : Device :=
  { d with windows := Vector.ofFn fun i => f i d.windows[i] }

def Device.rt (d : Device) (w : Slot16) : Runtime := (d.win w).rt

def Device.port (d : Device) : Port → PortUnit
  | .a => d.portA
  | .b => d.portB

def Device.modPort (d : Device) (p : Port) (f : PortUnit → PortUnit) : Device :=
  match p with
  | .a => { d with portA := f d.portA }
  | .b => { d with portB := f d.portB }

def Device.holdLimit (d : Device) : Port → Nat
  | .a => d.config.holdLimitA
  | .b => d.config.holdLimitB

def Device.confined (d : Device) : Port → Bool
  | .a => d.config.confinedA
  | .b => d.config.confinedB

def Monitors.get (m : Monitors) : Strobe → Monitor
  | .tsa => m.tsa
  | .tsb => m.tsb
  | .fms => m.fms
  | .fme => m.fme

def Monitors.set (m : Monitors) (x : Strobe) (v : Monitor) : Monitors :=
  match x with
  | .tsa => { m with tsa := v }
  | .tsb => { m with tsb := v }
  | .fms => { m with fms := v }
  | .fme => { m with fme := v }

/-- The expected period P of a monitor in microseconds (R89). -/
def Device.period (d : Device) : Strobe → Nat
  | .tsa => d.config.periodTsa
  | .tsb => d.config.periodTsb
  | .fms => d.config.periodFms
  | .fme => d.config.periodFme

def Device.setMonitor (d : Device) (x : Strobe) (v : Monitor) : Device :=
  { d with monitors := d.monitors.set x v }

def Device.modCounters (d : Device) (w : Slot16) (f : WindowCounters → WindowCounters) : Device :=
  d.modRt w fun r => { r with counters := f r.counters }

/-! ## Staging entries (R27 to R31) -/

def Entry.isOpen (e : Entry) (w : Slot16) : Bool := e.window == w && e.epoch == .opened

def Entry.isDraining (e : Entry) (w : Slot16) : Bool := e.window == w && e.epoch == .draining

/-- The open epoch list of a window (R29). -/
def Device.openList (d : Device) (w : Slot16) : List Entry := d.entries.filter (·.isOpen w)

/-- The draining epoch list of a window (R29). -/
def Device.drainList (d : Device) (w : Slot16) : List Entry := d.entries.filter (·.isDraining w)

/-- The free count (R31). -/
def Device.freeCount (d : Device) : Nat := 256 - d.entries.length

/-! ## Flags and records -/

def Device.setFlag (d : Device) (f : Flag) : Device := { d with fault := d.fault.set f }

/-- Offering a record, stamped with device time (R166, R167). -/
def Device.offer (d : Device) (r : Report) : Device :=
  { d with fault := d.fault.offer d.clock.deviceTime r }

/-- An event that sets a flag and writes a record at one moment (R161). -/
def Device.raise (d : Device) (f : Flag) (r : Report) : Device := (d.setFlag f).offer r

/-- A record about a window and one of its epochs. -/
def windowReport (k : FaultKind) (detail : Option Detail) (w : Slot16) (epoch : Word) : Report :=
  { kind := k, detail := detail, window := some w, port := none, address := none, epoch := some epoch }

/-! ## Bits on a serial link (R174, R181) -/

/-- Eight bits as a byte, the first the most significant. -/
def byteOfBits (bits : List Bool) : Byte := bits.foldl (fun x b => (x <<< 1) ||| (BitVec.ofBool b).setWidth 8) 0

/-- A bit of bytes as they are shifted out, most significant bit first; 0 once they have been shifted out. -/
def serialBit (bytes : List Byte) (n : Nat) : Bool :=
  match bytes[n / 8]? with
  | some x => x.getLsbD (7 - n % 8)
  | none => false

/-! ## The passing of time (log 4, log 6) -/

/-- Bus clock periods until a microsecond timer reaches 0: it counts down at each increase of device time (R166). -/
def Clock.untilZero (c : Clock) (us : Nat) : Nat := if us = 0 then 0 else us * c.perUs - c.sub

/-- Bus clock periods until a monitor's loss deadline, 1.5P after its reference (R90). -/
def Device.untilLoss (d : Device) (x : Strobe) : Option Nat :=
  (d.monitors.get x).since.map fun e => (3 * d.period x * d.clock.perUs + 1) / 2 - e

/-- The rest of a 1 ms wait for the flash, if one runs (R181). -/
def Loader.wait? : Loader → Option Nat
  | .idle => none
  | .awaiting => none
  | .retryWait r => some r
  | .header => none
  | .image _ _ _ => none

/-- The microsecond timers that run. -/
def Device.timers (d : Device) : List Nat :=
  (allWindows.filterMap fun w => (d.rt w).watchdog) ++
  [d.portA.holdTimer, d.portB.holdTimer, d.portA.lock.limit, d.portB.lock.limit, d.lct.remaining,
   d.startup.settleTimer, d.startup.rstOutTimer, d.startup.loader.wait?, d.startup.flashTimer].filterMap id

/-- Bus clock periods until each thing that is due: the timers and the loss deadlines. -/
def Device.dueTimes (d : Device) : List Nat :=
  d.timers.map d.clock.untilZero ++ [Strobe.tsa, .tsb, .fms, .fme].filterMap d.untilLoss

def LockRecord.elapse (us : Nat) : LockRecord → LockRecord
  | .noLock => .noLock
  | .opening k a => .opening k a
  | .opened k a r => .opened k a (r - us)
  | .closing k a r => .closing k a (r.map (· - us))
  | .broken a => .broken a

def PortUnit.elapse (us : Nat) (u : PortUnit) : PortUnit :=
  { u with holdTimer := u.holdTimer.map (· - us), lock := u.lock.elapse us }

def Monitor.elapse (n : Nat) (m : Monitor) : Monitor := { m with since := m.since.map (· + n) }

def Monitors.elapse (n : Nat) (m : Monitors) : Monitors :=
  ⟨m.tsa.elapse n, m.tsb.elapse n, m.fms.elapse n, m.fme.elapse n⟩

def Loader.elapse (us : Nat) : Loader → Loader
  | .idle => .idle
  | .awaiting => .awaiting
  | .retryWait r => .retryWait (r - us)
  | .header => .header
  | .image a b c => .image a b c

def Startup.elapse (us : Nat) (u : Startup) : Startup :=
  { u with
    settleTimer := u.settleTimer.map (· - us)
    rstOutTimer := u.rstOutTimer.map (· - us)
    loader := u.loader.elapse us
    flashTimer := u.flashTimer.map (· - us) }

def Window.elapse (us : Nat) (x : Window) : Window :=
  { x with rt := { x.rt with watchdog := x.rt.watchdog.map (· - us) } }

/-- n bus clock periods pass: device time and every timer count whole microseconds, the monitors count bus clocks. -/
def Device.advance (d : Device) (n : Nat) : Device :=
  let total := d.clock.sub + n
  let us := total / d.clock.perUs
  { d with
    clock := { d.clock with deviceTime := d.clock.deviceTime + BitVec.ofNat 32 us, sub := total % d.clock.perUs }
    windows := Vector.ofFn fun i => (d.windows[i]).elapse us
    portA := d.portA.elapse us
    portB := d.portB.elapse us
    monitors := d.monitors.elapse n
    lct := { d.lct with remaining := d.lct.remaining.map (· - us) }
    startup := d.startup.elapse us }

/-- Time runs to an expiry t bus clocks ahead and `f` takes it there; nothing happens if another timer is due before it, so
that this expiry is not the next. That no grant is made in this time, even with the memory port free and an eligible request pending (R149),
is the model's choice (log 4). -/
def Device.atTime (d : Device) (t : Nat) (f : Device → Device) : Device :=
  if t = 0 then f d
  else if d.dueTimes.all (fun x => decide (t ≤ x)) then f (d.advance t)
  else d

/-- The expiry of a microsecond timer. -/
def Device.atExpiry (d : Device) (remaining : Nat) (f : Device → Device) : Device :=
  d.atTime (d.clock.untilZero remaining) f

/-- Time runs for n bus clocks, or up to the first thing that is due if that is sooner (log 5). That no grant is made in this time, even with
the memory port free and an eligible request pending (R149), is the model's choice (log 5). -/
def Device.elapseUpTo (d : Device) (n : Nat) : Device :=
  let t := d.dueTimes.foldl min n
  if t = 0 then d else d.advance t

/-! ## Answers on the ports (R128, R129) -/

/-- The one answer of a request: it is no longer in progress and its hold timer is stopped. -/
def Device.answer (d : Device) (p : Port) (r : Response) (words : List Word) : Device :=
  d.modPort p fun u => { u with current := none, holdTimer := none, answer := some ⟨r, words⟩ }

/-- Where a rule answers RETRY or ERROR, the port's kind decides (R129). -/
def PortKind.refusal : PortKind → Response
  | .retryCapable => .retry
  | .holdOnly => .error

def Device.countRefusal (d : Device) (p : Port) : Device :=
  d.modPort p fun u => { u with counters := { u.counters with refusals := satInc u.counters.refusals } }

/-- The answer of an expired hold limit (R139, R46): RETRY counts a retry, ERROR counts a hold timeout. -/
def Device.answerExpired (d : Device) (p : Port) : Device :=
  match (d.port p).kind with
  | .retryCapable =>
    (d.modPort p fun u => { u with counters := { u.counters with retries := satInc u.counters.retries } }).answer p .retry []
  | .holdOnly =>
    (d.modPort p fun u => { u with counters := { u.counters with holdTimeouts := satInc u.counters.holdTimeouts } }).answer p .error []

def Device.setLock (d : Device) (p : Port) (l : LockRecord) : Device := d.modPort p fun u => { u with lock := l }

/-- A request goes on to a phase. -/
def Device.setPhase (d : Device) (p : Port) (ph : Phase) : Device :=
  d.modPort p fun u => { u with current := u.current.map fun c => { c with phase := ph } }

/-- A request starts to wait on a hold cause: its port's hold timer starts with the hold limit (R137). -/
def Device.hold (d : Device) (p : Port) (c : HoldCause) : Device :=
  (d.modPort p fun u => { u with holdTimer := some (d.holdLimit p) }).setPhase p (.held c)

/-- A hold cause has cleared: the timer is stopped and the request goes on to PERFORMING (R137). -/
def Device.release (d : Device) (p : Port) : Device :=
  (d.modPort p fun u => { u with holdTimer := none }).setPhase p .performing

/-- A request as it starts in a phase: nothing performed yet. -/
def newCurrent (r : Request) (c : Class) (ph : Phase) (closing : Bool) : Current :=
  ⟨r, c, ph, 0, [], false, closing⟩

/-- A request is in progress at a port, in a phase. -/
def Device.begin (d : Device) (p : Port) (r : Request) (c : Class) (ph : Phase) (closing : Bool) : Device :=
  d.modPort p fun u => { u with current := some (newCurrent r c ph closing) }

/-! ## The memory port -/

/-- The requester that an access was granted to (R146). -/
def Owner.issuer : Owner → Requester
  | .posted p => .channel p
  | .through p => .channel p
  | .read p => .channel p
  | .drain _ => .engine
  | .safeWord _ => .engine
  | .statusWord _ => .engine

/-- Whether an access is the commit engine's for an item of a window. -/
def Owner.isOf (o : Owner) (w : Slot16) : Bool :=
  match o with
  | .drain v => v == w
  | .safeWord v => v == w
  | .statusWord v => v == w
  | .posted _ => false
  | .through _ => false
  | .read _ => false

/-- The outstanding access becomes dropped if its owner is one whose request or item has ended (R146). -/
def Device.dropIf (d : Device) (f : Owner → Bool) : Device :=
  { d with mem := { d.mem with outstanding := d.mem.outstanding.map fun o => { o with dropped := o.dropped || f o.owner } } }

/-- Whether the outstanding access is this owner's and not dropped. -/
def Device.inFlight (d : Device) (o : Owner) : Bool :=
  match d.mem.outstanding with
  | some x => x.owner == o && !x.dropped
  | none => false

/-- The release of the exclusive memory lock by a port that HOLDS it (R153); the reservation that a held read of the other
port then receives is the event LOCK_RESERVATION_HANDOFF. -/
def Device.releaseExclusive (d : Device) (p : Port) : Device :=
  if d.mem.exclusive = .held p then { d with mem := { d.mem with exclusive := .free } } else d

/-! ## The management link (R174) -/

/-- A command has been taken: TURNAROUND, during which MDO reads 0, with the answer formed and no clock yet. That MDO is 0 from the taking
(rising) edge on, and not only from the next falling edge, is the model's choice (log 20). -/
def Link.taken (response : List Byte) : Link := ⟨.turnaround, true, [], [], response, 0, some false⟩

/-- The answer formed at the moment a command is taken; the unit enters TURNAROUND. Only DONE carries data. -/
def Device.respond (d : Device) (st : Status) (data : List Byte) : Device :=
  { d with link := .taken (st.code :: (if st = .done then data else [])) }

end Sys2Proof.Machine
end

