-- ==== Sys2Proof/Machine/Classify.lean ====
section
/-! DEFINITION. Classification of a request against the window table: steps 2 to 5 of R17 (R19 to R22), the windows a status
read touches (R20), and the holds a read waits on (R72, R73). -/

namespace Sys2Proof.Machine

/-- Where a word lies (R19). -/
inductive Place where
  | window (w : Slot16)
  | status
  | outside
deriving DecidableEq, Repr

/-- What steps 2 to 5 make of a request: handed on as a class, or ERROR with a detail and the record's window. -/
inductive Verdict where
  | handOn (c : Class)
  | refuse (d : AccessDetail) (w : Option Slot16)
deriving DecidableEq, Repr

/-- Whether a byte address lies in a slot's range while its window is defined and not OFF (R19). -/
def Device.liesIn (d : Device) (a : Nat) (w : Slot16) : Bool :=
  match (d.win w).desc with
  | some ds => (d.rt w).state != .off && ds.covers a
  | none => false

/-- The non-OFF window that a byte address lies in (R19); the ranges of defined windows are disjoint (R5). -/
def Device.windowAt (d : Device) (a : Nat) : Option Slot16 := allWindows.find? (d.liesIn a)

/-- Whether a byte address lies in the 256 bytes of the status area (R19). -/
def Device.inStatusArea (d : Device) (a : Nat) : Bool :=
  match d.config.statusArea with
  | some b => decide (b ≤ a) && decide (a < b + 256)
  | none => false

def Device.place (d : Device) (a : Nat) : Place :=
  match d.windowAt a with
  | some w => .window w
  | none => if d.inStatusArea a then .status else .outside

/-- Where the request lies, none when it straddles (R19). -/
def Device.requestPlace (d : Device) (r : Request) : Option Place :=
  match requestAddresses r with
  | [] => none
  | a :: rest => if rest.all (fun x => d.place x == d.place a) then some (d.place a) else none

/-- Step 5: role first, then privilege (R22). -/
def Device.classifyInWindow (d : Device) (p : Port) (r : Request) (w : Slot16) : Verdict :=
  match (d.win w).desc with
  | none => .refuse .role (some w)
  | some ds =>
    if ds.producer = p then
      if meetsPrivilege r.privilege ds.producerMin then
        match r.kind with
        | .read => .handOn (.producerRead w)
        | .write => .handOn (.producerWrite w)
      else .refuse .privilege (some w)
    else if r.kind = .write ∨ r.locked ∨ ¬ds.consumerReads then .refuse .role (some w)
    else if meetsPrivilege r.privilege ds.consumerMin then .handOn (.consumerRead w)
    else .refuse .privilege (some w)

/-- Steps 2 to 5 of classification (R19, R20, R21, R22). -/
def Device.classify (d : Device) (p : Port) (r : Request) : Verdict :=
  match d.requestPlace r with
  | none => .refuse .limit ((requestAddresses r).findSome? d.windowAt)
  | some .status => if r.kind = .read ∧ ¬r.locked then .handOn .statusRead else .refuse .statusWrite none
  | some .outside =>
    if d.confined p then .refuse .confined none
    else match r.kind with
      | .read => .handOn .plainRead
      | .write => .handOn .plainWrite
  | some (.window w) => d.classifyInWindow p r w

/-- Whether a window is defined with its status block setting on (R4). -/
def Device.statusBlockOn (d : Device) (w : Slot16) : Bool :=
  match (d.win w).desc with
  | some ds => ds.statusBlock
  | none => false

/-- The windows with status block on whose status block a request touches (R20, R72). -/
def Device.touchedBlocks (d : Device) (r : Request) : List Slot16 :=
  match d.config.statusArea with
  | none => []
  | some base =>
    allWindows.filter fun w =>
      d.statusBlockOn w &&
      (requestAddresses r).any fun a => decide (base + 16 * w.val ≤ a) && decide (a < base + 16 * w.val + 16)

/-- The windows whose hold a request waits on (R137). -/
def Device.waitsOn (d : Device) (c : Current) : List Slot16 :=
  match c.cls with
  | .consumerRead w => [w]
  | .statusRead => d.touchedBlocks c.request
  | .plainRead => []
  | .plainWrite => []
  | .producerRead _ => []
  | .producerWrite _ => []

/-- Whether a window's hold request or consumer hold is raised (R72, R73). -/
def Device.raised (d : Device) (w : Slot16) : Bool := (d.rt w).holdRequest || (d.rt w).consumerHold

/-- Whether a read finds a hold raised (R73). -/
def Device.readBlocked (d : Device) (c : Current) : Bool := (d.waitsOn c).any d.raised

/-- Whether a port's read of the window, or of its status block, is admitted and still in progress (R72). -/
def Device.admittedOn (d : Device) (p : Port) (w : Slot16) : Bool :=
  match (d.port p).current with
  | some c => c.phase == .performing && (d.waitsOn c).contains w
  | none => false

end Sys2Proof.Machine
end

