-- ==== Sys2Proof/Machine/Engine.lean ====
section
/-! DEFINITION. The commit engine: the commit rule (R60 to R69), the end of a lock (R64, R156), the commit queue and its items
(R70 to R81), status blocks (R82 to R85), discards and items cut short (R56, R57, R86). -/

namespace Sys2Proof.Machine

/-! ## Effective sources (R102) -/

/-- The effective source of a window from its selected source, its fallback and the monitor concerned (R102). -/
def Monitors.effective (m : Monitors) (selected : Source) (fallback : Fallback) : Source :=
  match selected.strobe? with
  | none => selected
  | some x =>
    if (m.get x).state = .present then selected
    else match fallback with
      | .hold => selected
      | .lct => .lct

/-- The effective source of a defined window is computed afresh; an empty slot has none (R102). -/
def Window.refresh (m : Monitors) (x : Window) : Window :=
  match x.desc with
  | none => x
  | some ds => { x with rt := { x.rt with effective := m.effective x.rt.selected ds.fallback } }

def Device.refreshWindow (d : Device) (w : Slot16) : Device := d.modWin w (Window.refresh d.monitors)

/-- Every window whose selected source is a source has its effective source computed afresh (R95, R102). -/
def Device.refreshSource (d : Device) (x : Source) : Device :=
  d.modWins fun _ win => if win.rt.selected = x then win.refresh d.monitors else win

def Device.refreshAll (d : Device) : Device := d.modWins fun _ win => win.refresh d.monitors

/-! ## The commit rule -/

/-- The outcome byte of COMMIT_NOW (R69). -/
inductive Outcome8 where
  | committed
  | deferred
  | overrun
  | late
  | empty
  | skipped
  | safeQueued
  | ignored
deriving DecidableEq, Repr

def Outcome8.code : Outcome8 → Byte
  | .committed => 0
  | .deferred => 1
  | .overrun => 2
  | .late => 3
  | .empty => 4
  | .skipped => 5
  | .safeQueued => 6
  | .ignored => 7

/-- What the rows of R61 and R68 decide: SAFE_QUEUED either joins the queue or finds its item there, OVERRUN is a second
deferral or meets an item. -/
inductive Decision where
  | ignored
  | skipped
  | safeJoins
  | safeServes
  | deferred
  | secondDefer
  | itemPending
  | late
  | empty
  | committed
deriving DecidableEq, Repr

def Decision.outcome : Decision → Outcome8
  | .ignored => .ignored
  | .skipped => .skipped
  | .safeJoins => .safeQueued
  | .safeServes => .safeQueued
  | .deferred => .deferred
  | .secondDefer => .overrun
  | .itemPending => .overrun
  | .late => .late
  | .empty => .empty
  | .committed => .committed

/-- The item of a window in the commit queue (R70: at most one). -/
def Device.itemOf (d : Device) (w : Slot16) : Option Item := d.commitQueue.find? (·.window == w)

/-- Whether the producer of a window has an open lock on a word of it (R63, R151). -/
def Device.producerLockOn (d : Device) (w : Slot16) : Bool :=
  match (d.win w).desc with
  | none => false
  | some ds =>
    match (d.port ds.producer).lock.heldWord with
    | none => false
    | some a => ds.covers a

/-- Row 3 of R61 (R68). -/
def Device.decideTripped (d : Device) (w : Slot16) (ds : Descriptor) : Decision :=
  if ds.tripMode = .atEvent ∧ (d.rt w).safeLoadPending then
    match (d.itemOf w).map Item.kind with
    | none => .safeJoins
    | some .safe => .safeServes
    | some .epoch => .skipped
  else .skipped

/-- The commit rule: the rows of R61 from the top. An empty slot is OFF (R1). -/
def Device.decideCommit (d : Device) (w : Slot16) : Decision :=
  match (d.win w).desc with
  | none => .ignored
  | some ds =>
    match (d.rt w).state with
    | .off => .ignored
    | .paused => .skipped
    | .tripped => d.decideTripped w ds
    | .running =>
      if d.producerLockOn w then
        if (d.rt w).deferredCommit then .secondDefer else .deferred
      else if (d.itemOf w).isSome ∨ (d.rt w).drainingEpoch.isSome then .itemPending
      else if ds.closePolicy = .strict ∧ ¬(d.rt w).closeMark then .late
      else if (d.openList w).isEmpty then .empty
      else .committed

/-- The epoch number after another: from 0xFFFFFFFF it becomes 1 (R62). -/
def epochAfter (e : Word) : Word := if e = 0xFFFFFFFF#32 then 1#32 else e + 1#32

/-- An item joins the tail of the commit queue (R70). -/
def Device.join (d : Device) (w : Slot16) (k : ItemKind) : Device :=
  { d with commitQueue := d.commitQueue ++ [⟨w, k, none⟩] }

/-- The open entries of a window become its draining entries, in place (R49). -/
def Device.swapEpoch (d : Device) (w : Slot16) : Device :=
  { d with entries := d.entries.map fun e => if e.isOpen w then { e with epoch := .draining } else e }

/-- Outcome COMMITTED (R62). -/
def Device.commitEpoch (d : Device) (w : Slot16) : Device :=
  ((d.swapEpoch w).modRt w fun r =>
    { r with closeMark := false, drainingEpoch := some r.openEpoch, openEpoch := epochAfter r.openEpoch }).join w .epoch

/-- Outcome OVERRUN (R63, R65). -/
def Device.countOverrun (d : Device) (w : Slot16) (k : OverrunDetail) : Device :=
  (d.modRt w fun r =>
    { r with overrunSince := true, counters := { r.counters with overrun := satInc r.counters.overrun } }).raise (.wex w)
    (windowReport .overrun (some (.overrun k)) w (d.rt w).openEpoch)

/-- Outcome LATE (R66). -/
def Device.countLate (d : Device) (w : Slot16) : Device :=
  (d.modRt w fun r =>
    { r with lateSince := true, counters := { r.counters with late := satInc r.counters.late } }).raise (.wex w)
    (windowReport .late none w (d.rt w).openEpoch)

/-- The effect of each outcome (R62 to R68). -/
def Device.applyDecision (d : Device) (w : Slot16) : Decision → Device
  | .ignored => d
  | .skipped => d.modCounters w fun c => { c with skippedEvents := satInc c.skippedEvents }
  | .safeJoins => (d.modRt w fun r => { r with safeLoadPending := false }).join w .safe
  | .safeServes => d.modRt w fun r => { r with safeLoadPending := false }
  | .deferred => d.modRt w fun r => { r with deferredCommit := true }
  | .secondDefer => d.countOverrun w .secondDefer
  | .itemPending => d.countOverrun w .itemPending
  | .late => d.countLate w
  | .empty => d.modCounters w fun c => { c with emptyEvents := satInc c.emptyEvents }
  | .committed => d.commitEpoch w

/-- A commit event of a window is taken (R60, R61). -/
def Device.commitEvent (d : Device) (w : Slot16) : Device := d.applyDecision w (d.decideCommit w)

/-- One event for several windows, in ascending window number (R60, R103): the receivers are those whose effective source it
is at the moment the event is taken. -/
def Device.deliver (d : Device) (x : Source) : Device :=
  (allWindows.filter fun w => (d.win w).desc.isSome && (d.rt w).effective == x).foldl Device.commitEvent d

/-! ## The end of a lock (R64, R156) -/

/-- The deferred event of one window at the end of a lock on a word: taken if the mark is yes and the range holds the word, whichever
port's lock it was (R156; R64 speaks of the producer's lock: log 34). -/
def Device.takeDeferredOf (word : Nat) (d : Device) (w : Slot16) : Device :=
  match (d.win w).desc with
  | none => d
  | some ds =>
    if (d.rt w).deferredCommit ∧ ds.covers word then
      (d.modRt w fun r => { r with deferredCommit := false }).commitEvent w
    else d

def Device.takeDeferred (d : Device) (word : Nat) : Device := allWindows.foldl (Device.takeDeferredOf word) d

/-- A lock ends: its record passes to NONE or BROKEN, the exclusive memory lock is released if the port HOLDS it, and the end
is handed to the commit engine (R156, R157). -/
def Device.endLock (d : Device) (p : Port) (final : LockRecord) : Device :=
  match (d.port p).lock.heldWord with
  | none => d.setLock p final
  | some a => ((d.setLock p final).releaseExclusive p).takeDeferred a

/-! ## Status blocks and the completion of an item -/

def flagBit (b : Bool) : BitVec 1 := BitVec.ofBool b

/-- The four words of a status block at its forming (R83 and the status block layout table). -/
def statusWords (d : Device) (w : Slot16) (k : ItemKind) (pr : Progress) : List Word :=
  let r := d.rt w
  let epoch : Word :=
    match k with
    | .epoch => r.drainingEpoch.getD r.lastCommitted
    | .safe => r.lastCommitted
  let word1 : Word :=
    r.state.code ++ 0#2 ++ flagBit (r.state == .paused) ++ flagBit pr.writeError ++ flagBit r.overrunSince ++
    flagBit r.lateSince ++ flagBit (k == .safe) ++ flagBit (r.state == .tripped) ++ BitVec.ofNat 16 pr.written
  let word2 : Word := r.counters.overrun ++ r.counters.late
  [epoch, word1, word2, d.clock.deviceTime]

/-- One change made to the item of a window. -/
def Device.modItem (d : Device) (w : Slot16) (f : Item → Item) : Device :=
  { d with commitQueue := d.commitQueue.map fun it => if it.window = w then f it else it }

def Device.removeItem (d : Device) (w : Slot16) : Device :=
  { d with commitQueue := d.commitQueue.filter fun it => it.window != w }

/-- The hold and the hold request clear together (R72). -/
def Device.clearHold (d : Device) (w : Slot16) : Device :=
  d.modRt w fun r => { r with consumerHold := false, holdRequest := false }

/-- An EPOCH item completes (R77); a SAFE item that waited for it joins the tail (R80). -/
def Device.completeEpoch (d : Device) (w : Slot16) : Device :=
  let d1 := (((d.clearHold w).modRt w fun r =>
    { r with
      lastCommitted := r.drainingEpoch.getD r.lastCommitted
      drainingEpoch := none
      counters := { r.counters with commits := satInc r.counters.commits } }).setFlag (.cmt w)).removeItem w
  if (d.rt w).safeAfterItem then (d1.modRt w fun r => { r with safeAfterItem := false }).join w .safe else d1

/-- A SAFE item completes (R79). -/
def Device.completeSafe (d : Device) (w : Slot16) : Device :=
  ((d.clearHold w).setFlag (.cmt w)).removeItem w

def Device.completeItem (d : Device) (w : Slot16) : ItemKind → Device
  | .epoch => d.completeEpoch w
  | .safe => d.completeSafe w

/-- Entry to phase STATUS: the block is formed and the report marks it has taken clear (R82, R84); without a status block the
item completes (R77, R79). -/
def Device.enterStatus (d : Device) (w : Slot16) (k : ItemKind) (pr : Progress) : Device :=
  if d.statusBlockOn w ∧ d.config.statusArea.isSome then
    (d.modItem w fun it =>
      { it with progress := some { pr with phase := .status, block := statusWords d w k pr, statusDone := 0 } }).modRt w
      fun r => { r with lateSince := false, overrunSince := false }
  else d.completeItem w k

/-- The item of a window goes on to STATUS when its data writes have all completed (R71, R75). -/
def Device.checkWritten (d : Device) (w : Slot16) : Device :=
  match d.itemOf w with
  | some ⟨_, k, some pr⟩ => if pr.phase = .writing ∧ pr.written = pr.planned then d.enterStatus w k pr else d
  | _ => d

/-! ## Starting an item -/

/-- The data writes an item is to make (R71). -/
def Device.plannedOf (d : Device) (w : Slot16) : ItemKind → Nat
  | .epoch => (d.drainList w).length
  | .safe =>
    match (d.win w).desc with
    | some ds => ds.safeCount
    | none => 0

/-- ITEM_START (R71): the head of the queue opens its progress record and raises its window's hold request. -/
def Device.startItem (d : Device) : Device :=
  match d.commitQueue with
  | ⟨w, k, none⟩ :: rest =>
    { d with commitQueue := ⟨w, k, some ⟨.starting, d.plannedOf w k, 0, false, 0, [], 0⟩⟩ :: rest }.modRt w
      fun r => { r with holdRequest := true }
  | _ => d

/-- Whether the running item is in STARTING and no admitted read of its window is in progress (R72). -/
def Device.holdCanBeSet (d : Device) : Bool :=
  match d.commitQueue with
  | ⟨w, _, some pr⟩ :: _ => pr.phase == .starting && !d.admittedOn .a w && !d.admittedOn .b w
  | _ => false

/-- CONSUMER_HOLD_SET (R72): the consumer hold is set and the item enters WRITING; with nothing to write it goes on to STATUS. -/
def Device.setConsumerHold (d : Device) : Device :=
  if d.holdCanBeSet then
    match d.commitQueue with
    | ⟨w, k, some pr⟩ :: rest =>
      ({ d with commitQueue := ⟨w, k, some { pr with phase := .writing }⟩ :: rest }.modRt w
        fun r => { r with consumerHold := true }).checkWritten w
    | _ => d
  else d

/-! ## Completions of the engine's writes (R75, R76, R79, R81, R85) -/

def Device.modProgress (d : Device) (w : Slot16) (f : Progress → Progress) : Device :=
  d.modItem w fun it => { it with progress := it.progress.map f }

/-- A write of an item completed with MERR: WEX and a COMMIT_WRITE record. -/
def Device.raiseWrite (d : Device) (w : Slot16) (k : CommitWriteDetail) (address : Nat) (epoch : Word) : Device :=
  d.raise (.wex w)
    { kind := .commitWrite, detail := some (.commitWrite k), window := some w, port := none, address := some address,
      epoch := some epoch }

/-- A drain write completes with MERR (R76). -/
def Device.drainError (d : Device) (w : Slot16) (address : Nat) : Device :=
  (((d.modCounters w fun c => { c with drainErrors := satInc c.drainErrors }).modProgress w
    fun pr => { pr with writeError := true }).raiseWrite w .entry address ((d.rt w).drainingEpoch.getD 0))

/-- A drain write completes (R75): its entry leaves the store and the written count rises. After a cut drain (R81) this was
its last write, and the draining epoch is gone. The pool-wait list is checked after the whole completion (R51; the order is the
model's, log 35). -/
def Device.drainCompleted (d : Device) (w : Slot16) (address : Nat) (merr : Bool) : Device :=
  let d1 := if merr then d.drainError w address else d
  let d2 := { d1 with entries := d1.entries.eraseP (·.isDraining w) }.modProgress w
    fun pr => { pr with written := pr.written + 1 }
  let d3 := if (d.itemOf w).map Item.kind = some ItemKind.safe then d2.modRt w fun r => { r with drainingEpoch := none } else d2
  d3.checkWritten w

/-- A safe-image word completes (R79). -/
def Device.safeWordCompleted (d : Device) (w : Slot16) (address : Nat) (merr : Bool) : Device :=
  let d1 :=
    if merr then
      (d.modProgress w fun pr => { pr with writeError := true }).raiseWrite w .safeWord address (d.rt w).openEpoch
    else d
  (d1.modProgress w fun pr => { pr with written := pr.written + 1, safeDone := pr.safeDone + 1 }).checkWritten w

/-- A status word completes (R82, R85): the item completes with the fourth. -/
def Device.statusWordCompleted (d : Device) (w : Slot16) (address : Nat) (merr : Bool) : Device :=
  match d.itemOf w with
  | some ⟨_, k, some pr⟩ =>
    let d1 := if merr then d.raiseWrite w .statusWord address (pr.block.headD 0) else d
    if pr.statusDone + 1 < 4 then d1.modProgress w fun q => { q with statusDone := q.statusDone + 1 }
    else d1.completeItem w k
  | _ => d

/-! ## Discards and items cut short (R56, R57, R80, R81, R86) -/

/-- All but the first of the elements that satisfy a test leave the list. -/
def keepFirst (f : Entry → Bool) : List Entry → List Entry
  | [] => []
  | e :: es => if f e then e :: es.filter (fun x => !f x) else e :: keepFirst f es

/-- An IMMEDIATE trip discards the draining entries that have not been written; the one whose write is in progress stays
(R56). -/
def Device.discardDraining (d : Device) (w : Slot16) : Device :=
  let kept :=
    if d.inFlight (.drain w) then keepFirst (·.isDraining w) d.entries
    else d.entries.filter fun e => !e.isDraining w
  { d with entries := kept }.modCounters w
    fun c => { c with discarded := satAdd c.discarded (d.entries.length - kept.length) }

/-- The entries of a window that leave it uncounted or counted at DISABLE: all but the one whose write is in progress (R57). -/
def Device.discardCount (d : Device) (w : Slot16) : Nat :=
  (d.entries.filter fun e => e.window == w).length - (if d.inFlight (.drain w) then 1 else 0)

/-- Every entry of a window leaves the store (R57, R58). -/
def Device.discardAll (d : Device) (w : Slot16) : Device :=
  { d with entries := d.entries.filter fun e => e.window != w }

/-- The item of a window leaves the queue; a write it has in progress is left outstanding and dropped (R86). -/
def Device.cutItem (d : Device) (w : Slot16) : Device := (d.removeItem w).dropIf (·.isOf w)

/-- The item of a window becomes a SAFE item that still has its place, and the draining epoch is discarded (R80). -/
def Device.convertItem (d : Device) (w : Slot16) (progress : Option Progress) : Device :=
  ((d.discardDraining w).modItem w fun it => { it with kind := .safe, progress := progress }).modRt w
    fun r => { r with drainingEpoch := none }

/-- The running drain continues as the safe load (R81). -/
def Device.continueAsSafe (d : Device) (w : Slot16) (pr : Progress) (safeCount : Nat) : Device :=
  let inProgress := d.inFlight (.drain w)
  let planned := pr.written + (if inProgress then 1 else 0) + safeCount
  let d1 := (d.discardDraining w).modItem w fun it =>
    { it with kind := .safe, progress := some { pr with planned := planned, safeDone := 0 } }
  if inProgress then d1
  else (d1.modRt w fun r => { r with drainingEpoch := none }).checkWritten w

/-- An IMMEDIATE trip asks for a safe load (R80). -/
def Device.immediateSafeLoad (d : Device) (w : Slot16) : Device :=
  let safeCount := d.plannedOf w .safe
  match d.itemOf w with
  | none => d.join w .safe
  | some ⟨_, .safe, _⟩ => d
  | some ⟨_, .epoch, none⟩ => d.convertItem w none
  | some ⟨_, .epoch, some pr⟩ =>
    match pr.phase with
    | .starting => d.convertItem w (some { pr with planned := safeCount })
    | .writing => d.continueAsSafe w pr safeCount
    | .status => d.modRt w fun r => { r with safeAfterItem := true }

end Sys2Proof.Machine
end

