-- ==== Sys2Proof/Machine/Store.lean ====
section
/-! DEFINITION. The staging store: producer writes, their acceptance, the pool-wait list, and the producer's read overlay (02). -/

namespace Sys2Proof.Machine

/-- Whether a window's open epoch has an entry for a word offset. -/
def hasOpen (w : Slot16) (offset : Nat) (es : List Entry) : Bool := es.any fun e => e.isOpen w && e.offset == offset

/-- A merge lays the beat over its open entry (R37). -/
def Entry.merge (e : Entry) (b : Beat) : Entry :=
  { e with mask := e.mask ||| b.mask, data := layBytes b.mask b.data e.data }

/-- One beat staged (R36): a merge keeps its entry's place, a new word joins the tail. -/
def stageBeat (w : Slot16) (offset : Nat) (b : Beat) (es : List Entry) : List Entry :=
  if hasOpen w offset es then es.map fun e => if e.isOpen w && e.offset == offset then e.merge b else e
  else es ++ [⟨w, offset, b.mask, selectBytes b.mask b.data, .opened⟩]

/-- The beats of a request staged in ascending address order (R36). -/
def stageBeats (w : Slot16) : Nat → List Beat → List Entry → List Entry
  | _, [], es => es
  | k, b :: rest, es => stageBeats w (k + 1) rest (stageBeat w k b es)

/-- The need of a request: its beats whose word has no open entry (R33). -/
def needOf (w : Slot16) : Nat → List Beat → List Entry → Nat
  | _, [], _ => 0
  | k, _ :: rest, es => (if hasOpen w k es then 0 else 1) + needOf w (k + 1) rest es

/-- The word offset of a request's first beat in its window. -/
def Device.firstOffset (d : Device) (w : Slot16) (r : Request) : Nat :=
  match (d.win w).desc with
  | some ds => ds.offsetOf r.address.toNat
  | none => 0

def Device.need (d : Device) (w : Slot16) (r : Request) : Nat := needOf w (d.firstOffset w r) r.beats d.entries

/-- Whether a request covers the closing word of its window (R39). -/
def Device.coversClosing (d : Device) (w : Slot16) (r : Request) : Bool :=
  match (d.win w).desc with
  | some ds =>
    match ds.closeOffset with
    | some c => coversOffset (d.firstOffset w r) r.beats c
    | none => false
  | none => false

/-- The watchdog of a window restarts with its full period, or stays stopped without one (R110, R111). -/
def Device.restartWatchdog (d : Device) (w : Slot16) : Device :=
  match (d.win w).desc with
  | some ds => d.modRt w fun r => { r with watchdog := ds.fullPeriod }
  | none => d

/-- Re-arm (R16, R121): RUNNING, watchdog from its full period, safe load pending clear. -/
def Device.rearm (d : Device) (w : Slot16) : Device :=
  (d.modRt w fun r => { r with state := .running, safeLoadPending := false }).restartWatchdog w

/-- The auto re-arm setting of a window (R4). -/
def Device.autoRearm (d : Device) (w : Slot16) : Bool :=
  match (d.win w).desc with
  | some ds => ds.autoRearm
  | none => false

/-- The staging, answer, watchdog and close mark of an acceptance, and the re-arm that a closing write may be
(R36 to R39, R122 steps 1 and 2). That the re-arm comes before the end of a lock that the same write closes is the model's
choice (log 33). -/
def Device.stageWrite (d : Device) (p : Port) (w : Slot16) (r : Request) : Device :=
  let closes := d.coversClosing w r
  let d1 := { d with entries := stageBeats w (d.firstOffset w r) r.beats d.entries }.answer p .okay []
  let d2 := if (d.rt w).state = .running then d1.restartWatchdog w else d1
  let d3 := if closes then d2.modRt w fun x => { x with closeMark := true } else d2
  if closes && (d.rt w).state == .tripped && d.autoRearm w then d3.rearm w else d3

/-- Whether the acceptance is a commit event too (R40, R122 step 3): a closing write that leaves the window RUNNING with
effective source CLOSE. -/
def Device.closeEvent (d : Device) (w : Slot16) (r : Request) : Bool :=
  d.coversClosing w r && (d.rt w).state == .running && (d.rt w).effective == .close

/-- Acceptance of a producer write (R36 to R41, R122, R156). When the write closes a lock and is a commit event too, the
order of the two is a free value (log 14). -/
def Device.acceptWrite (d : Device) (p : Port) (w : Slot16) (r : Request) (closing : Bool) : Device :=
  let d1 := d.stageWrite p w r
  match closing, d1.closeEvent w r with
  | false, false => d1
  | false, true => d1.commitEvent w
  | true, false => d1.endLock p .noLock
  | true, true =>
    let d2 := { d1 with freeIndex := d1.freeIndex + 1 }
    if Config.closeEventFirst d1.freeIndex then (d2.commitEvent w).endLock p .noLock
    else (d2.endLock p .noLock).commitEvent w

/-- A closing write that was not accepted: the record returns to OPEN with its limit running (R156). -/
def Device.reopenLock (d : Device) (p : Port) : Device :=
  match (d.port p).lock with
  | .closing k a (some r) => d.setLock p (.opened k a r)
  | .noLock => d
  | .opening _ _ => d
  | .opened _ _ _ => d
  | .closing _ _ none => d
  | .broken _ => d

/-- Refusal for quota (R34). -/
def Device.refuseQuota (d : Device) (p : Port) (w : Slot16) (r : Request) : Device :=
  ((((d.modCounters w fun c => { c with quotaRefusals := satInc c.quotaRefusals }).raise (.wex w)
    { kind := .quota, detail := none, window := some w, port := some p, address := some r.address.toNat,
      epoch := some (d.rt w).openEpoch }).countRefusal p).answer p .error []).reopenLock p

/-- The quota of a window (R4). -/
def Device.quota (d : Device) (w : Slot16) : Nat :=
  match (d.win w).desc with
  | some ds => ds.quota
  | none => 0

/-- A producer write arrives at the store (R33 to R35): quota check, then pool check. -/
def Device.storeWrite (d : Device) (p : Port) (w : Slot16) (r : Request) (closing : Bool) : Device :=
  let need := d.need w r
  if d.quota w < (d.openList w).length + need then d.refuseQuota p w r
  else if need = 0 ∨ (d.poolWait = [] ∧ need ≤ d.freeCount) then d.acceptWrite p w r closing
  else
    let d1 : Device := { d with poolWait := d.poolWait ++ [⟨p, w, need, none⟩] }
    (d1.begin p r (.producerWrite w) .performing closing).hold p .poolWait

/-- A waiter leaves the pool-wait list. -/
def Device.leavePool (d : Device) (p : Port) : Device := { d with poolWait := d.poolWait.filter fun x => x.port != p }

/-- Whether a check of a head is due (R44): it has become the head, or the free count has risen since its last check. -/
def Waiter.checkDue (x : Waiter) (free : Nat) : Bool :=
  match x.checkedAt with
  | none => true
  | some n => decide (n < free)

/-- Whether the head of the pool-wait list is to be checked at this moment (R44). -/
def Device.poolCheckDue (d : Device) : Bool :=
  match d.poolWait with
  | [] => false
  | x :: _ => (d.port x.port).current.isSome && x.checkDue d.freeCount

/-- POOL_WAIT_SERVICE (R44, R45): the head is accepted if the free count covers its need, computed afresh; a check that leaves it
in the list keeps the need as computed (R43). -/
def Device.servePool (d : Device) : Device :=
  match d.poolWait with
  | [] => d
  | x :: rest =>
    match (d.port x.port).current with
    | some c =>
      let need := d.need x.window c.request
      if need ≤ d.freeCount then { d with poolWait := rest }.acceptWrite x.port x.window c.request c.closing
      else if x.checkDue d.freeCount then
        { d with poolWait := { x with need := need, checkedAt := some d.freeCount } :: rest }
      else d
    | none => d

/-- A waiter leaves the list unaccepted and is answered by its port (R46, R47): POOL flag, on a HOLD_ONLY port a POOL record with
the epoch number given; a closing write's lock record returns to OPEN (R156). -/
def Device.expirePool (d : Device) (p : Port) (w : Slot16) (r : Request) (epoch : Word) : Device :=
  let d1 := (d.leavePool p).setFlag .pool
  let d2 :=
    if (d.port p).kind = .holdOnly then
      d1.offer { kind := .pool, detail := none, window := some w, port := some p, address := some r.address.toNat,
                 epoch := some epoch }
    else d1
  (d2.answerExpired p).reopenLock p

/-- The entry of a window's epoch for a word offset. -/
def findEntry (es : List Entry) (test : Entry → Bool) (offset : Nat) : Option Entry :=
  es.find? fun e => test e && e.offset == offset

/-- An entry laid over a word, if there is one (R52). -/
def layEntry (e : Option Entry) (w : Word) : Word :=
  match e with
  | some x => layBytes x.mask x.data w
  | none => w

/-- The producer's read overlay (R52): the draining entry, then the open entry, over the memory data. -/
def Device.overlay (d : Device) (w : Slot16) (offset : Nat) (memory : Word) : Word :=
  layEntry (findEntry d.entries (·.isOpen w) offset) (layEntry (findEntry d.entries (·.isDraining w) offset) memory)

end Sys2Proof.Machine
end

