-- ==== Sys2Proof/Machine/Ports.lean ====
section
/-! DEFINITION. The port units: taking a request (R17, R18, R155, R156, R158), posted writes (R132), the end of ORDERING (R136),
and the expiry of hold and lock limits (R139, R46, R157). -/

namespace Sys2Proof.Machine

/-! ## Posted writes -/

/-- The slots of a plain write's beats from a byte address on, in beat order (R131). -/
def slotsFrom : Nat → List Beat → List PostedSlot
  | _, [] => []
  | a, b :: rest => ⟨a, b.mask, b.data⟩ :: slotsFrom (a + 4) rest

/-- The slots of a plain write (R131). -/
def postedSlots (r : Request) : List PostedSlot := slotsFrom r.address.toNat r.beats

/-- Whether a port's free slots cover a request's beats (R132). -/
def Device.queueFits (d : Device) (p : Port) (r : Request) : Bool :=
  decide ((d.port p).queue.length + r.beats.length ≤ 4)

/-- A plain write enters its port's queue whole, at the tail, and is answered OKAY (R132). -/
def Device.enterQueue (d : Device) (p : Port) (r : Request) : Device :=
  (d.modPort p fun u => { u with queue := u.queue ++ postedSlots r }).answer p .okay []

/-- A plain write is taken: posted, held on queue space, or written through (R132, R135). -/
def Device.takePlainWrite (d : Device) (p : Port) (r : Request) : Device :=
  if 4 < r.beats.length then d.begin p r .plainWrite .ordering false
  else if d.queueFits p r then d.enterQueue p r
  else (d.begin p r .plainWrite .performing false).hold p .queueSpace

/-! ## Step 1 with a lock record (R18, R155, R158) -/

/-- A locked write to a word: the closing write of an open lock, the late closing write of a broken one. -/
def isLockedWriteTo (r : Request) (word : Nat) : Bool :=
  r.locked && r.kind == .write && r.address.toNat == word

/-- An ERROR answer of classification (R23). -/
def Device.refuseAccess (d : Device) (p : Port) (r : Request) (k : AccessDetail) (w : Option Slot16) : Device :=
  ((d.raise .access
    { kind := .access, detail := some (.access k), window := w, port := some p, address := some r.address.toNat,
      epoch := none }).countRefusal p).answer p .error []

/-- The detail of a LOCK_MISUSE record (R155). -/
def misuseDetail (r : Request) : LockMisuseDetail :=
  if r.locked then (match r.kind with | .write => .wrongWord | .read => .secondLock) else .unlocked

/-- A request that is not the closing write of an open lock (R155). -/
def Device.refuseLockMisuse (d : Device) (p : Port) (r : Request) (w : Option Slot16) : Device :=
  ((d.raise .lock
    { kind := .lockMisuse, detail := some (.lockMisuse (misuseDetail r)), window := w, port := some p,
      address := some r.address.toNat, epoch := none }).countRefusal p).answer p .error []

/-- A late closing write (R158): LOCK flag, LOCK_LATE record, refusal, ERROR, and the record becomes NONE. -/
def Device.refuseLockLate (d : Device) (p : Port) (word : Nat) : Device :=
  (((d.raise .lock
    { kind := .lockLate, detail := none, window := d.windowAt word, port := some p, address := some word,
      epoch := none }).countRefusal p).answer p .error []).setLock p .noLock

/-! ## Handing on (R17) -/

/-- The record becomes CLOSING: its limit keeps running for a producer write, and is cancelled for a plain one (R156). -/
def Device.startClosing (d : Device) (p : Port) (limitRuns : Bool) : Device :=
  match (d.port p).lock with
  | .opened k a r => d.setLock p (.closing k a (if limitRuns then some r else none))
  | .noLock => d
  | .opening _ _ => d
  | .closing _ _ _ => d
  | .broken _ => d

/-- A request that classification did not refuse is handed on (R17); `closing` marks a lock's closing write (R156). -/
def Device.handOn (d : Device) (p : Port) (r : Request) (closing : Bool) : Class → Device
  | .plainWrite =>
    if closing then (d.startClosing p false).begin p r .plainWrite .performing true else d.takePlainWrite p r
  | .producerWrite w => (if closing then d.startClosing p true else d).storeWrite p w r closing
  | .plainRead => d.begin p r .plainRead .ordering false
  | .statusRead => d.begin p r .statusRead .ordering false
  | .producerRead w => d.begin p r (.producerRead w) .ordering false
  | .consumerRead w => d.begin p r (.consumerRead w) .ordering false

/-- Steps 2 to 5 and what they lead to. -/
def Device.classifyAndHandOn (d : Device) (p : Port) (r : Request) (closing : Bool) : Device :=
  match d.classify p r with
  | .refuse k w => d.refuseAccess p r k w
  | .handOn c => d.handOn p r closing c

/-- A well-formed request with no lock record: a locked write is LOCK_MISUSE (R18). -/
def Device.takeUnlocked (d : Device) (p : Port) (r : Request) : Device :=
  if r.locked ∧ r.kind = .write then d.refuseAccess p r .lockMisuse none else d.classifyAndHandOn p r false

/-- A well-formed request is checked against its port's lock record (R18, R155, R158). OPENING and CLOSING have a request in
progress, so that no request is taken in them (R155). -/
def Device.takeWellFormed (d : Device) (p : Port) (r : Request) : Device :=
  match (d.port p).lock with
  | .opened k a _ =>
    if isLockedWriteTo r a then d.classifyAndHandOn p r true else d.refuseLockMisuse p r k.slot?
  | .broken a =>
    if isLockedWriteTo r a then d.refuseLockLate p a else (d.setLock p .noLock).takeUnlocked p r
  | .noLock => d.takeUnlocked p r
  | .opening _ _ => d.takeUnlocked p r
  | .closing _ _ _ => d.takeUnlocked p r

/-- A malformed request (R18). It is a request taken, so a BROKEN record turns to NONE (R158, log 12). -/
def Device.takeMalformed (d : Device) (p : Port) (r : Request) : Device :=
  let d1 :=
    match (d.port p).lock with
    | .broken _ => d.setLock p .noLock
    | .noLock => d
    | .opening _ _ => d
    | .opened _ _ _ => d
    | .closing _ _ _ => d
  d1.refuseAccess p r .malformed none

/-- A port takes a request (R17, R18, R127, R141); a port with a request in progress takes none (log 13). -/
def Device.takeRequest (d : Device) (p : Port) (r : Request) : Device :=
  if d.startup.state ≠ .ready then d.answer p (d.port p).kind.refusal []
  else if (d.port p).current.isSome then d
  else if requestMalformed r then d.takeMalformed p r
  else d.takeWellFormed p r

/-! ## Events of a request in progress -/

/-- Whether a request in ORDERING finds its port's queue empty (R136). -/
def Device.orderingDone (d : Device) (p : Port) : Bool :=
  match (d.port p).current with
  | some c => c.phase == .ordering && (d.port p).queue.isEmpty
  | none => false

/-- A locked plain read leaves ORDERING (R152): it reserves a free exclusive memory lock, or is held on lock wait. -/
def Device.openExclusive (d : Device) (p : Port) (r : Request) : Device :=
  let d1 := d.setLock p (.opening .exclusive r.address.toNat)
  match d.mem.exclusive with
  | .free => { d1 with mem := { d1.mem with exclusive := .reserved p } }.setPhase p .performing
  | .reserved _ => d1.hold p .lockWait
  | .held _ => d1.hold p .lockWait

/-- A request leaves ORDERING (R136): to its hold, if it meets one (R73, R137, R152), and else to PERFORMING. -/
def Device.leaveOrdering (d : Device) (p : Port) (c : Current) : Device :=
  match c.cls with
  | .consumerRead _ => if d.readBlocked c then d.hold p .consumerHold else d.setPhase p .performing
  | .statusRead => if d.readBlocked c then d.hold p .consumerHold else d.setPhase p .performing
  | .plainRead => if c.request.locked then d.openExclusive p c.request else d.setPhase p .performing
  | .producerRead w =>
    (if c.request.locked then d.setLock p (.opening (.window w) c.request.address.toNat) else d).setPhase p .performing
  | .plainWrite => d.setPhase p .performing
  | .producerWrite _ => d.setPhase p .performing

/-- ORDERING_END (R136). -/
def Device.endOrdering (d : Device) (p : Port) : Device :=
  if d.orderingDone p then
    match (d.port p).current with
    | some c => d.leaveOrdering p c
    | none => d
  else d

/-- Whether a port's request is held on a cause. -/
def Device.heldOn (d : Device) (p : Port) (k : HoldCause) : Bool :=
  match (d.port p).current with
  | some c => c.phase == .held k
  | none => false

/-- Whether a write held on queue space fits now (R132). -/
def Device.queueReady (d : Device) (p : Port) : Bool :=
  match (d.port p).current with
  | some c => c.phase == .held .queueSpace && d.queueFits p c.request
  | none => false

/-- QUEUE_SPACE_ENTRY (R132). -/
def Device.enterHeldWrite (d : Device) (p : Port) : Device :=
  if d.queueReady p then
    match (d.port p).current with
    | some c => d.enterQueue p c.request
    | none => d
  else d

/-- Whether every hold that a port's held read waits on is clear (R72, R73). -/
def Device.readReady (d : Device) (p : Port) : Bool :=
  match (d.port p).current with
  | some c => c.phase == .held .consumerHold && !d.readBlocked c
  | none => false

/-- READ_ADMITTED (R72, R73). -/
def Device.admitRead (d : Device) (p : Port) : Device := if d.readReady p then d.release p else d

/-- Whether the exclusive memory lock can pass to a port's waiting read (R153). -/
def Device.handoffReady (d : Device) (p : Port) : Bool := d.mem.exclusive == .free && d.heldOn p .lockWait

/-- LOCK_RESERVATION_HANDOFF (R153). -/
def Device.handReservation (d : Device) (p : Port) : Device :=
  if d.handoffReady p then { d with mem := { d.mem with exclusive := .reserved p } }.release p else d

/-! ## Hold limits (R139, R46) -/

/-- The window and epoch of a HOLD_TIMEOUT record (R139). -/
def Device.holdSubject (d : Device) (c : Current) : Option Slot16 × Option Word :=
  match c.cls with
  | .consumerRead w => (some w, some (d.rt w).openEpoch)
  | .statusRead => ((d.touchedBlocks c.request).find? d.raised, none)
  | .plainRead => (none, none)
  | .plainWrite => (none, none)
  | .producerRead _ => (none, none)
  | .producerWrite _ => (none, none)

/-- A HOLD_TIMEOUT record (R139). -/
def Device.holdReport (d : Device) (p : Port) (c : Current) (k : HoldCause) : Report :=
  { kind := .holdTimeout, detail := some (.hold k), window := (d.holdSubject c).1, port := some p,
    address := some c.request.address.toNat, epoch := (d.holdSubject c).2 }

/-- The hold limit of a request held on consumer hold, queue space or lock wait expires (R139); a locked read's record returns
to NONE (R152), after the HOLD_TIMEOUT record (the order is the model's, log 37). -/
def Device.holdExpires (d : Device) (p : Port) (c : Current) (k : HoldCause) : Device :=
  let d1 := d.setFlag .hold
  let d2 := if (d.port p).kind = .holdOnly then d1.offer (d.holdReport p c k) else d1
  let d3 := d2.answerExpired p
  if k = .lockWait then d3.endLock p .noLock else d3

/-- HOLD_LIMIT_EXPIRY at the moment it is due. -/
def Device.holdLimitExpires (d : Device) (p : Port) : Device :=
  match (d.port p).current with
  | none => d
  | some c =>
    match c.phase with
    | .held .poolWait => d
    | .held .consumerHold => d.holdExpires p c .consumerHold
    | .held .queueSpace => d.holdExpires p c .queueSpace
    | .held .lockWait => d.holdExpires p c .lockWait
    | .ordering => d
    | .performing => d

/-- POOL_WAIT_EXPIRY at the moment it is due (R46). -/
def Device.poolWaitExpires (d : Device) (p : Port) : Device :=
  match (d.port p).current with
  | none => d
  | some c =>
    match c.phase, c.cls with
    | .held .poolWait, .producerWrite w => d.expirePool p w c.request (d.rt w).openEpoch
    | _, _ => d

/-! ## The lock limit (R157) -/

/-- A LOCK_BROKEN record: the window and its open epoch number for a WINDOW lock (R157). -/
def Device.brokenReport (d : Device) (p : Port) (word : Nat) (w : Option Slot16) : Report :=
  { kind := .lockBroken, detail := none, window := w, port := some p, address := some word,
    epoch := w.map fun x => (d.rt x).openEpoch }

/-- The lock of a port breaks (R157): the record becomes BROKEN, the exclusive memory lock is released, the end of the lock is
handed on, and the break is reported with the epoch number at its moment (log 15). A closing write that waited in the
pool-wait list is withdrawn and answered as a late one (R158). -/
def Device.breakLock (d : Device) (p : Port) (word : Nat) (w : Option Slot16) (waiting : Bool) : Device :=
  let d1 := if waiting then d.leavePool p else d
  let d2 := (d1.endLock p (.broken word)).raise .lock (d.brokenReport p word w)
  if waiting then d2.refuseLockLate p word else d2

/-- LOCK_LIMIT_EXPIRY at the moment it is due. -/
def Device.lockLimitExpires (d : Device) (p : Port) : Device :=
  match (d.port p).lock with
  | .opened k a _ => d.breakLock p a k.slot? false
  | .closing k a (some _) => d.breakLock p a k.slot? true
  | .closing _ _ none => d
  | .noLock => d
  | .opening _ _ => d
  | .broken _ => d

end Sys2Proof.Machine
end

