-- ==== Sys2Proof/Machine/Arbiter.lean ====
section
/-! DEFINITION. The memory arbiter (R146 to R150): pending requests, the grant, and what a completion does. -/

namespace Sys2Proof.Machine

/-! ## Pending requests (R148) -/

/-- An access with the owner that its completion goes to. -/
abbrev PendingAccess := Access × Owner

/-- The next access of a request in PERFORMING: a read's word (R130), a written-through beat (R135, R156); a producer write
makes none, it is the store's. -/
def nextAccess (p : Port) (c : Current) : Option PendingAccess :=
  match c.phase, c.request.beats[c.done]? with
  | .performing, some b =>
    match c.cls with
    | .plainWrite => some (⟨.write, beatAddress c.request c.done, b.mask, b.data⟩, .through p)
    | .producerWrite _ => none
    | .plainRead => some (⟨.read, beatAddress c.request c.done, b.mask, 0⟩, .read p)
    | .statusRead => some (⟨.read, beatAddress c.request c.done, b.mask, 0⟩, .read p)
    | .producerRead _ => some (⟨.read, beatAddress c.request c.done, b.mask, 0⟩, .read p)
    | .consumerRead _ => some (⟨.read, beatAddress c.request c.done, b.mask, 0⟩, .read p)
  | _, _ => none

/-- A channel's pending request: the head of the posted-write queue, else the next access of the current request. -/
def Device.channelPending (d : Device) (p : Port) : Option PendingAccess :=
  match (d.port p).queue with
  | x :: _ => some (⟨.write, x.address, x.mask, x.data⟩, .posted p)
  | [] => (d.port p).current.bind (nextAccess p)

/-- The first word of a window's safe image in the safe-image store: regions in ascending window index (R123). -/
def Device.regionStart (d : Device) (w : Slot16) : Nat :=
  (allWindows.filter fun v => decide (v < w)).foldl (fun n v => n + d.plannedOf v .safe) 0

/-- The next safe-image word of an item (R79). -/
def Device.safeAccess (d : Device) (w : Slot16) (pr : Progress) : Option PendingAccess :=
  match (d.win w).desc with
  | none => none
  | some ds =>
    match ds.safeImage with
    | none => none
    | some img =>
      match d.safeStore[d.regionStart w + pr.safeDone]? with
      | none => none
      | some x => some (⟨.write, ds.wordAddress (img.offset + pr.safeDone), 15#4, x⟩, .safeWord w)

/-- The next drain write of an item: the head of the draining epoch list (R75). -/
def Device.drainAccess (d : Device) (w : Slot16) : Option PendingAccess :=
  match (d.win w).desc, d.drainList w with
  | some ds, e :: _ => some (⟨.write, ds.wordAddress e.offset, e.mask, e.data⟩, .drain w)
  | _, _ => none

/-- The next word of an item's status block (R82, R83). -/
def Device.statusAccess (d : Device) (w : Slot16) (pr : Progress) : Option PendingAccess :=
  match d.config.statusArea, pr.block[pr.statusDone]? with
  | some base, some x => some (⟨.write, base + 16 * w.val + 4 * pr.statusDone, 15#4, x⟩, .statusWord w)
  | _, _ => none

/-- The commit engine's pending request: the next write of its running item in WRITING or STATUS (R74). -/
def Device.enginePending (d : Device) : Option PendingAccess :=
  match d.commitQueue with
  | ⟨w, k, some pr⟩ :: _ =>
    match pr.phase, k with
    | .starting, _ => none
    | .writing, .epoch => d.drainAccess w
    | .writing, .safe => d.safeAccess w pr
    | .status, _ => d.statusAccess w pr
  | _ => none

def Device.pendingOf (d : Device) : Requester → Option PendingAccess
  | .channel p => d.channelPending p
  | .engine => d.enginePending

/-- Whether a requester is eligible under the exclusive memory lock (R148). -/
def ExclusiveLock.admits : ExclusiveLock → Requester → Bool
  | .free, _ => true
  | .reserved _, _ => true
  | .held p, r => r == .channel p

/-! ## The grant (R149) -/

def Device.eligible (d : Device) (r : Requester) : Bool := d.mem.exclusive.admits r && (d.pendingOf r).isSome

/-- The eligible requester that stands earliest in the rotation order. -/
def Device.winner (d : Device) : Option Requester := d.mem.rotation.find? d.eligible

/-- The granted requester moves to the end of the rotation order. -/
def rotate (order : List Requester) (r : Requester) : List Requester := order.filter (· != r) ++ [r]

/-- At the grant of a read by the port that the exclusive memory lock is RESERVED for, the lock becomes HELD (R152). -/
def ExclusiveLock.atGrant (x : ExclusiveLock) (o : Owner) : ExclusiveLock :=
  match x, o with
  | .reserved p, .read q => if p = q then .held p else .reserved p
  | .reserved p, _ => .reserved p
  | .free, _ => .free
  | .held p, _ => .held p

/-- The access of a requester is issued. -/
def Device.issue (d : Device) (r : Requester) (a : PendingAccess) : Device :=
  { d with mem := ⟨some ⟨a.1, a.2, false⟩, rotate d.mem.rotation r, d.mem.exclusive.atGrant a.2⟩ }

/-- ARBITER_GRANT (R149). -/
def Device.grant (d : Device) : Device :=
  match d.mem.outstanding, d.winner with
  | none, some r =>
    match d.pendingOf r with
    | some a => d.issue r a
    | none => d
  | _, _ => d

/-! ## Completions (R147) -/

/-- MEMORY flag and a MEMORY_POSTED record (R134, R135, R156). -/
def Device.raisePosted (d : Device) (p : Port) (k : PostedDetail) (address : Nat) : Device :=
  d.raise .memory
    { kind := .memoryPosted, detail := some (.posted k), window := none, port := some p, address := some address,
      epoch := none }

/-- A posted write completes (R133, R134). -/
def Device.postedCompleted (d : Device) (p : Port) (address : Nat) (merr : Bool) : Device :=
  let d1 := d.modPort p fun u => { u with queue := u.queue.drop 1 }
  if merr then d1.raisePosted p .posted address else d1

/-- The closing write of a lock, written through, completes (R156). -/
def Device.closingCompleted (d : Device) (p : Port) (address : Nat) (merr : Bool) : Device :=
  let d1 := if merr then d.raisePosted p .locked address else d
  (d1.answer p (if merr then .error else .okay) []).endLock p .noLock

/-- A written-through beat completes (R135). -/
def Device.throughCompleted (d : Device) (p : Port) (c : Current) (address : Nat) (merr : Bool) : Device :=
  if c.closing then d.closingCompleted p address merr
  else
    let d1 := if merr then d.raisePosted p .through address else d
    let failed := c.failed || merr
    if c.done + 1 < c.request.beats.length then
      d1.modPort p fun u => { u with current := some { c with done := c.done + 1, failed := failed } }
    else d1.answer p (if failed then .error else .okay) []

/-- The window and epoch of a MEMORY_READ record: a consumer or producer read carries its window and open epoch (R55, R130). -/
def Device.readSubject (d : Device) : Class → Option Slot16 × Option Word
  | .consumerRead w => (some w, some (d.rt w).openEpoch)
  | .producerRead w => (some w, some (d.rt w).openEpoch)
  | .plainRead => (none, none)
  | .plainWrite => (none, none)
  | .statusRead => (none, none)
  | .producerWrite _ => (none, none)

/-- A read word completes with MERR (R55, R130): MEMORY, a MEMORY_READ record, ERROR; a locked read opens no lock (R152). -/
def Device.readFailed (d : Device) (p : Port) (c : Current) (address : Nat) : Device :=
  let d1 := (d.raise .memory
    { kind := .memoryRead, detail := none, window := (d.readSubject c.cls).1, port := some p, address := some address,
      epoch := (d.readSubject c.cls).2 }).answer p .error []
  if c.request.locked then d1.endLock p .noLock else d1

/-- A word of a read as the answer carries it: laid over for a producer read (R52), the disabled bytes 0 (R128). -/
def Device.readWord (d : Device) (c : Current) (mask : Mask) (data : Word) : Word :=
  match c.cls with
  | .producerRead w => selectBytes mask (d.overlay w (d.firstOffset w c.request + c.done) data)
  | .plainRead => selectBytes mask data
  | .plainWrite => selectBytes mask data
  | .statusRead => selectBytes mask data
  | .producerWrite _ => selectBytes mask data
  | .consumerRead _ => selectBytes mask data

/-- A locked read was answered OKAY: its record opens with the lock limit (R152, R154). -/
def Device.openLock (d : Device) (p : Port) : Device :=
  match (d.port p).lock with
  | .opening k a => d.setLock p (.opened k a d.config.lockLimit)
  | .noLock => d
  | .opened _ _ _ => d
  | .closing _ _ _ => d
  | .broken _ => d

/-- A read word completes without MERR (R130). -/
def Device.readCompleted (d : Device) (p : Port) (c : Current) (mask : Mask) (data : Word) : Device :=
  let words := c.words ++ [d.readWord c mask data]
  if c.done + 1 < c.request.beats.length then
    d.modPort p fun u => { u with current := some { c with done := c.done + 1, words := words } }
  else
    let d1 := d.answer p .okay words
    if c.request.locked then d1.openLock p else d1

/-- The completion reaches its owner (R147). -/
def Device.complete (d : Device) (x : Outstanding) (merr : Bool) (data : Word) : Device :=
  match x.owner with
  | .posted p => d.postedCompleted p x.access.address merr
  | .through p =>
    match (d.port p).current with
    | some c => d.throughCompleted p c x.access.address merr
    | none => d
  | .read p =>
    match (d.port p).current with
    | some c => if merr then d.readFailed p c x.access.address else d.readCompleted p c x.access.mask data
    | none => d
  | .drain w => d.drainCompleted w x.access.address merr
  | .safeWord w => d.safeWordCompleted w x.access.address merr
  | .statusWord w => d.statusWordCompleted w x.access.address merr

/-- MEMORY_COMPLETION (R146, R147): the memory port is free; a dropped completion is handed to no one. -/
def Device.memoryCompletes (d : Device) (merr : Bool) (data : Word) : Device :=
  match d.mem.outstanding with
  | none => d
  | some x =>
    let d1 := { d with mem := { d.mem with outstanding := none } }
    if x.dropped then d1 else d1.complete x merr data

end Sys2Proof.Machine
end

