-- ==== Sys2Proof/Machine/FlashLink.lean ====
section
/-! DEFINITION. The flash link edge by edge: the read command goes out on FDO, bytes come in on FDI (R181). -/

namespace Sys2Proof.Machine

/-- The read command (R181): its byte, then flash address 0, most significant byte first. -/
def readCommand : List Byte := [0x03, 0x00, 0x00, 0x00]

/-- The bits of a byte, the most significant first (R181). -/
def bitsOfByte (x : Byte) : List Bool := [7, 6, 5, 4, 3, 2, 1, 0].map x.getLsbD

/-- Bytes as words, the most significant byte of a word first (R181); bytes that do not yet make a word are left out. -/
def wordsOfBytes : List Byte → List Word
  | b0 :: b1 :: b2 :: b3 :: rest => wordOfBytes b0 b1 b2 b3 :: wordsOfBytes rest
  | _ => []

/-- The link right after the last bit of a byte: FCLK is high, and FDO has no level once the read command has gone out (log 41). -/
def FlashLink.shifted (received : List Byte) : FlashLink := ⟨true, none, 32, received, []⟩

/-- A falling edge of FCLK, on which FDO changes (R181): the next bit of the read command, and no level after the last (log 41). -/
def FlashLink.fall (u : FlashLink) : FlashLink :=
  { u with fclk := false, fdo := if u.sent < 32 then some (serialBit readCommand u.sent) else none }

/-- A bit sampled on FDI (R181): the eighth makes a byte. -/
def FlashLink.sample (u : FlashLink) (fdi : Bool) : FlashLink :=
  if u.bits.length < 7 then { u with bits := u.bits ++ [fdi] }
  else { u with received := u.received ++ [byteOfBits (u.bits ++ [fdi])], bits := [] }

/-- A rising edge of FCLK (R181): the flash takes a bit of the read command, and after its 32 bits the controller samples FDI. -/
def FlashLink.rise (u : FlashLink) (fdi : Bool) : FlashLink :=
  if u.sent < 32 then { u with fclk := true, sent := u.sent + 1 } else { u.sample fdi with fclk := true }

/-- The next edge of FCLK, which the controller drives. -/
def FlashLink.edge (u : FlashLink) (fdi : Bool) : FlashLink := if u.fclk then u.fall else u.rise fdi

/-- Whether the next edge samples the last bit of a byte. -/
def FlashLink.completes (u : FlashLink) : Bool := !u.fclk && decide (32 ≤ u.sent) && decide (7 ≤ u.bits.length)

/-- The bits shifted in are the first bits of these bytes. -/
abbrev FlashLink.Agrees (u : FlashLink) (bytes : List Byte) : Prop :=
  u.received.flatMap bitsOfByte ++ u.bits <+: bytes.flatMap bitsOfByte

end Sys2Proof.Machine
end

