-- ==== Sys2Proof/Machine/Image.lean ====
section
/-! DEFINITION. The configuration image: its CRC, its fields (the layout tables of 10) and the checks of R181. -/

namespace Sys2Proof.Machine

/-! ## Reading words -/

/-- An unsigned field of a word. -/
def field (x : Word) (low width : Nat) : Nat := (x.extractLsb' low width).toNat

/-- A word of the image by its number. -/
def imageWord (ws : List Word) (n : Nat) : Word := ws.getD n 0

/-! ## The CRC -/

/-- One bit fed to the CRC with polynomial x¹⁶ + x¹² + x⁵ + 1 (R181). -/
def crcBit (crc : BitVec 16) (b : Bool) : BitVec 16 :=
  (crc <<< 1) ^^^ (if crc.getLsbD 15 != b then 0x1021#16 else 0#16)

/-- One byte, most significant bit first. -/
def crcByte (crc : BitVec 16) (b : Byte) : BitVec 16 :=
  [7, 6, 5, 4, 3, 2, 1, 0].foldl (fun c i => crcBit c (b.getLsbD i)) crc

/-- The CRC of words in their stored order, most significant byte first, from 0xFFFF (R181). -/
def crcWords (ws : List Word) : BitVec 16 :=
  ws.foldl (fun c x => (beBytes 4 x.toNat).foldl crcByte c) 0xFFFF#16

/-- Check 3: the CRC of all words but the last stands in the last one's bits 15..0, whose bits 31..16 are zero. -/
def crcHolds (ws : List Word) : Bool :=
  imageWord ws (ws.length - 1) == (crcWords (ws.take (ws.length - 1))).setWidth 32

/-! ## The device section -/

/-- The device section of an image (device section layout table). -/
def readDevice (ws : List Word) : DeviceConfig where
  holdLimitA := field (imageWord ws 3) 0 10
  holdLimitB := field (imageWord ws 4) 0 10
  confinedA := (imageWord ws 3).getLsbD 16
  confinedB := (imageWord ws 4).getLsbD 16
  lockLimit := field (imageWord ws 5) 0 8
  statusArea := if (imageWord ws 6).getLsbD 31 then some (field (imageWord ws 6) 0 24) else none
  lctRuns := (imageWord ws 7).getLsbD 31
  lctPeriod := field (imageWord ws 7) 0 20
  periodTsa := field (imageWord ws 8) 0 17
  periodTsb := field (imageWord ws 9) 0 17
  periodFms := field (imageWord ws 10) 0 17
  periodFme := field (imageWord ws 11) 0 17
  enables := (imageWord ws 13).extractLsb' 0 8 ++ imageWord ws 12
  levels := (imageWord ws 16).extractLsb' 0 16 ++ imageWord ws 15 ++ imageWord ws 14
  threshold := (imageWord ws 13).extractLsb' 8 2

def within (low high n : Nat) : Bool := decide (low ≤ n) && decide (n ≤ high)

/-- The ranges of the device section (check 4). -/
def DeviceConfig.valid (c : DeviceConfig) : Bool :=
  within 1 1023 c.holdLimitA && within 1 1023 c.holdLimitB && within 1 255 c.lockLimit &&
  (match c.statusArea with | some b => decide (b % 256 = 0) | none => true) &&
  within 10 1000000 c.lctPeriod &&
  within 10 100000 c.periodTsa && within 10 100000 c.periodTsb && within 10 100000 c.periodFms &&
  within 10 100000 c.periodFme

/-! ## Descriptors -/

/-- The eight descriptor words of a slot: word 17 + 8 × w on. -/
def slotWords (ws : List Word) (w : Nat) : List Word := (ws.drop (17 + 8 * w)).take 8

/-- A descriptor from its eight words (window descriptor layout table); its fields are used only once they have been
checked. -/
def readDescriptor (ws : List Word) : Descriptor where
  words := ws
  base := field (imageWord ws 0) 0 24
  length := field (imageWord ws 1) 0 13
  producer := if (imageWord ws 1).getLsbD 16 then .b else .a
  consumerReads := (imageWord ws 1).getLsbD 17
  producerMin := if (imageWord ws 1).getLsbD 18 then .supervisor else .user
  consumerMin := if (imageWord ws 1).getLsbD 19 then .supervisor else .user
  startRunning := (imageWord ws 1).getLsbD 20
  statusBlock := (imageWord ws 1).getLsbD 21
  source := (Source.ofByte (BitVec.ofNat 8 (field (imageWord ws 2) 0 3))).getD .manual
  fallback := if (imageWord ws 2).getLsbD 4 then .lct else .hold
  closePolicy := if (imageWord ws 2).getLsbD 5 then .strict else .loose
  closeOffset := if (imageWord ws 2).getLsbD 15 then some (field (imageWord ws 2) 16 12) else none
  quota := field (imageWord ws 3) 0 9
  watchdogPeriod := if field (imageWord ws 4) 0 16 = 0 then none else some (field (imageWord ws 4) 0 16)
  tripMode := if (imageWord ws 4).getLsbD 16 then .atEvent else .immediate
  autoRearm := (imageWord ws 4).getLsbD 17
  safeImage :=
    if (imageWord ws 5).getLsbD 31 then some ⟨field (imageWord ws 5) 0 12, field (imageWord ws 5) 16 7⟩ else none

/-- A slot of an image: empty when its length field is 0 (R1). -/
def readSlot (ws : List Word) (w : Nat) : Option Descriptor :=
  if (readDescriptor (slotWords ws w)).length = 0 then none else some (readDescriptor (slotWords ws w))

/-- The checks of a defined descriptor by itself (R5, check 4 of R181). -/
def Descriptor.valid (ds : Descriptor) (statusArea : Option Nat) : Bool :=
  decide (ds.base % 4 = 0) && decide (ds.base + 4 * ds.length ≤ 16777216) && within 1 4096 ds.length &&
  (Source.ofByte (BitVec.ofNat 8 (field (imageWord ds.words 2) 0 3))).isSome &&
  (match ds.closeOffset with
   | some k => decide (k < ds.length)
   | none => ds.closePolicy == .loose) &&
  within 1 256 ds.quota &&
  (match ds.safeImage with
   | some i => within 1 64 i.count && decide (i.offset + i.count ≤ ds.length)
   | none => true) &&
  (!ds.statusBlock || statusArea.isSome) &&
  imageWord ds.words 6 == 0 && imageWord ds.words 7 == 0

/-! ## The image as a whole -/

/-- The sixteen slots of an image. -/
def readSlots (ws : List Word) : List (Option Descriptor) := (List.range 16).map (readSlot ws)

/-- Check 4. -/
def fieldsHold (ws : List Word) : Bool :=
  (readDevice ws).valid &&
  (readSlots ws).all fun s =>
    match s with
    | some ds => ds.valid (readDevice ws).statusArea
    | none => true

/-- The total of the safe-image counts of the defined descriptors (checks 5 and 6). -/
def safeTotal (slots : List (Option Descriptor)) : Nat :=
  slots.foldl (fun n s => n + (match s with | some ds => ds.safeCount | none => 0)) 0

/-- Whether two ranges of bytes are disjoint. -/
def disjoint (a la b lb : Nat) : Bool := decide (a + la ≤ b) || decide (b + lb ≤ a)

/-- Whether a range of bytes shares no byte with any defined window of a list. -/
def clearOf (base length : Nat) (slots : List (Option Descriptor)) : Bool :=
  slots.all fun s =>
    match s with
    | some ds => disjoint base length ds.base (4 * ds.length)
    | none => true

/-- Whether no two defined windows share a byte. -/
def windowsDisjoint : List (Option Descriptor) → Bool
  | [] => true
  | none :: rest => windowsDisjoint rest
  | some ds :: rest => clearOf ds.base (4 * ds.length) rest && windowsDisjoint rest

/-- Check 7. -/
def rangesHold (ws : List Word) : Bool :=
  windowsDisjoint (readSlots ws) &&
  match (readDevice ws).statusArea with
  | some b => clearOf b 256 (readSlots ws)
  | none => true

/-- Checks 1 and 2, on the header (R181). -/
def headerFault (word0 word1 word2 : Word) : Option ConfigCause :=
  if word0 ≠ 0x48533120#32 ∨ word2 ≠ 1#32 then some .badHeader
  else if ¬within 146 658 word1.toNat then some .badLength
  else none

/-- Checks 3 to 7, on a whole image, in their order (R181). -/
def imageFault (ws : List Word) : Option ConfigCause :=
  if ¬crcHolds ws then some .badCrc
  else if ¬fieldsHold ws then some .badField
  else if 512 < safeTotal (readSlots ws) then some .safeTotal
  else if ws.length ≠ 146 + safeTotal (readSlots ws) then some .badLength
  else if ¬rangesHold ws then some .overlap
  else none

/-- The safe-image words of an image, in the order of the safe-image store (R123). -/
def safeWords (ws : List Word) : List Word := (ws.drop 145).take (safeTotal (readSlots ws))

end Sys2Proof.Machine
end

