-- ==== Sys2Proof/Machine/Timing.lean ====
section
/-! DEFINITION. The timing unit: presence monitors (R89 to R97), the local cycle timer (R98 to R101), and the watchdog's trip
(R113 to R116). -/

namespace Sys2Proof.Machine

/-! ## Presence monitors -/

/-- The loss deadline of a monitor has a reference only in ACQUIRING and PRESENT (R90). -/
def Monitor.start (m : Monitor) : Monitor := { m with state := .acquiring, count := 1, since := some 0 }

/-- The exact limits 0.75P and 1.25P, in bus clock periods (R90). -/
def inBand (elapsed period perUs : Nat) : Bool :=
  decide (3 * (period * perUs) ≤ 4 * elapsed) && decide (4 * elapsed ≤ 5 * (period * perUs))

/-- A counted pulse of an ACQUIRING monitor in band (R92): the third counted pulse makes it PRESENT. -/
def Monitor.acquire (m : Monitor) : Monitor :=
  if m.count + 1 = 3 then { m with state := .present, count := 3, since := some 0 }
  else { m with count := m.count + 1, since := some 0 }

/-- The record of a monitor after a pulse (R91 to R94, R96). -/
def Monitor.pulse (m : Monitor) (period perUs : Nat) : Monitor :=
  match m.state with
  | .absent => m.start
  | .lost => m.start
  | .acquiring => if inBand (m.since.getD 0) period perUs then m.acquire else m.start
  | .present =>
    if inBand (m.since.getD 0) period perUs then { m with since := some 0 } else { m with glitches := satInc m.glitches }

/-- Whether a pulse is delivered: in band, in PRESENT (R93). -/
def Monitor.delivers (m : Monitor) (period perUs : Nat) : Bool :=
  m.state == .present && inBand (m.since.getD 0) period perUs

/-- Whether a pulse completes acquisition (R92). -/
def Monitor.completes (m : Monitor) (period perUs : Nat) : Bool :=
  m.state == .acquiring && (m.pulse period perUs).state == .present

/-- A pulse at an input (R89 to R97): its monitor takes it, windows revert when acquisition completes (R104), and an in-band
pulse of a PRESENT monitor is one commit event of each window that takes the source (R93, R103). -/
def Device.pulse (d : Device) (x : Strobe) : Device :=
  let m := d.monitors.get x
  let d1 := d.setMonitor x (m.pulse (d.period x) d.clock.perUs)
  if m.completes (d.period x) d.clock.perUs then d1.refreshSource (strobeSource x)
  else if m.delivers (d.period x) d.clock.perUs then d1.deliver (strobeSource x)
  else d1

/-- The timeout of an ACQUIRING monitor (R92). -/
def Device.acquisitionTimesOut (d : Device) (x : Strobe) : Device :=
  let m := d.monitors.get x
  if m.state = .acquiring then d.setMonitor x { m with state := .absent, count := 0, since := none } else d

/-- The timeout of a PRESENT monitor (R95). -/
def Device.losesSync (d : Device) (x : Strobe) : Device :=
  let m := d.monitors.get x
  if m.state = .present then
    ((d.setMonitor x { m with state := .lost, count := 0, since := none, losses := satInc m.losses }).raise .sync
      { kind := .syncLost, detail := some (.sync x), window := none, port := none, address := none, epoch := none }).refreshSource
      (strobeSource x)
  else d

/-! ## The local cycle timer -/

/-- A next period becomes the period (R98, R99, R101). -/
def Lct.adopt (t : Lct) : Lct := { t with period := t.next.getD t.period, next := none }

/-- A full period begins at this moment (R98, R99). -/
def Lct.begin (t : Lct) : Lct := { t.adopt with running := true, remaining := some t.adopt.period }

/-- TIMER STOP on a timer (R101); a stopped one is left as it is. -/
def Lct.stop (t : Lct) : Lct := if t.running then { t.adopt with running := false, remaining := none } else t

/-- TIMER PERIOD in range (R100). -/
def Lct.setPeriod (t : Lct) (p : Nat) : Lct :=
  if t.running then { t with next := some p } else { t with period := p, next := none }

/-- The LCT expires (R98). -/
def Device.lctExpires (d : Device) : Device :=
  if d.lct.running then { d with lct := d.lct.begin }.deliver .lct else d

/-- Whether a window that is not OFF uses the LCT (R101). -/
def Device.lctInUse (d : Device) : Bool :=
  allWindows.any fun w =>
    (d.win w).desc.isSome && (d.rt w).state != .off && ((d.rt w).selected == .lct || (d.rt w).effective == .lct)

/-- The LCT's configured state, at READY and at SOFT_RESET DATAPATH (R108, R109). -/
def Lct.configured (c : DeviceConfig) : Lct :=
  ⟨c.lctRuns, c.lctPeriod, none, if c.lctRuns then some c.lctPeriod else none⟩

/-! ## The watchdog's trip -/

/-- A watchdog expiry trips a RUNNING window (R15, R113), and the trip mode decides what is asked of the engine
(R115, R116). -/
def Device.trip (d : Device) (w : Slot16) (mode : TripMode) : Device :=
  let d1 := d.modRt w fun r =>
    { r with state := .tripped, watchdog := none, counters := { r.counters with trips := satInc r.counters.trips } }
  let d2 := d1.raise (.wex w) (windowReport .trip (some (.trip mode)) w (d.rt w).openEpoch)
  match mode with
  | .immediate => d2.immediateSafeLoad w
  | .atEvent => d2.modRt w fun r => { r with safeLoadPending := true }

/-- WATCHDOG_EXPIRY at the moment it is due. -/
def Device.watchdogExpires (d : Device) (w : Slot16) : Device :=
  match (d.win w).desc with
  | some ds => if (d.rt w).state = .running then d.trip w ds.tripMode else d
  | none => d

end Sys2Proof.Machine
end

