-- ==== Sys2Proof/Machine/Startup.lean ====
section
/-! DEFINITION. The start-up and reset controller (R181 to R186), and what each reset does to the blocks. -/

namespace Sys2Proof.Machine

/-! ## Windows in their start states (R7, R10, R25) -/

/-- The record of a window that enters RUNNING from OFF (R10, R84): the selected source and the counters stand. -/
def Runtime.enterRunning (r : Runtime) (ds : Descriptor) : Runtime :=
  { r with
    state := .running
    openEpoch := 1
    lastCommitted := 0
    drainingEpoch := none
    closeMark := false
    safeLoadPending := false
    consumerHold := false
    holdRequest := false
    deferredCommit := false
    safeAfterItem := false
    lateSince := false
    overrunSince := false
    watchdog := ds.fullPeriod }

/-- The record of a defined window in its start state (R25). -/
def startRuntime (ds : Descriptor) : Runtime :=
  if ds.startRunning then { Runtime.off with selected := ds.source }.enterRunning ds
  else { Runtime.off with selected := ds.source }

/-- A slot in its start state, its effective source computed against the monitors (R25, R102). -/
def Window.restart (m : Monitors) (x : Window) : Window :=
  match x.desc with
  | some ds => { x with rt := startRuntime ds }.refresh m
  | none => .empty

/-! ## Entry to READY (R182, R184) -/

/-- READY is entered: RST_OUT is released 10 ms later, and the flash read is over (R184). -/
def Startup.enterReady (u : Startup) (transparent : Bool) : Startup :=
  { u with
    state := .ready, transparent := transparent, rstOutTimer := some 10000, loader := .idle, flashTimer := none,
    fsel := false, flash := .idle }

/-- The settings of the configuration in force reach the timing unit and the fault unit (R108, R165). -/
def Device.configure (d : Device) (c : DeviceConfig) : Device :=
  { d with config := c, lct := .configured c, monitors := .reset, fault := d.fault.configure c }

/-- Entry to READY in transparent mode (R182). -/
def Device.enterTransparent (d : Device) : Device :=
  { d.configure .transparent with
    windows := Vector.replicate 16 .empty, safeStore := [], startup := d.startup.enterReady true }

/-- The load ends with a cause (R181, R182): transparent mode, CONFIG and a CONFIG record. -/
def Device.endLoad (d : Device) (k : ConfigCause) : Device :=
  d.enterTransparent.raise .config
    { kind := .config, detail := some (.config k), window := none, port := none, address := none, epoch := none }

/-- The load completes (R181): every block takes its part of the image, and the part enters READY. -/
def Device.completeLoad (d : Device) (ws : List Word) : Device :=
  { d.configure (readDevice ws) with
    windows := Vector.ofFn fun i => ({ desc := readSlot ws i.val, rt := .off } : Window).restart .reset
    safeStore := safeWords ws
    startup := d.startup.enterReady false }

/-! ## Start-up states (R183) -/

def strapKind (high : Bool) : PortKind := if high then .retryCapable else .holdOnly

/-- STRAPS (R129, R183): the straps are sampled once, and the part goes on by CFG_EN at once. -/
def Device.sampleStraps (d : Device) (s : Straps) : Device :=
  let d1 := { d with
    straps := s
    portA := { d.portA with kind := strapKind s.rtyA }
    portB := { d.portB with kind := strapKind s.rtyB } }
  if s.cfgEn then
    { d1 with startup := { d1.startup with
        state := .load, loader := .awaiting, flashTimer := some 50000, fsel := true, flash := .idle } }
  else d1.enterTransparent

/-- RESET is left (R183): SETTLE for 20 ms, or STRAPS at once when the part has settled. MSEL that is still asserted begins no frame
(log 40). -/
def Device.leaveReset (d : Device) (s : Straps) : Device :=
  let d1 := { d with startup := { d.startup with pwrRst := false, rstIn := false } }
  if d1.startup.settled then d1.sampleStraps s
  else { d1 with startup := { d1.startup with state := .settle, settleTimer := some 20000 } }

/-- RESET_RELEASE (R183): both inputs are deasserted. -/
def Device.releaseReset (d : Device) (s : Straps) : Device := if d.startup.state = .reset then d.leaveReset s else d

/-- The end of SETTLE (R183). -/
def Device.endSettle (d : Device) (s : Straps) : Device :=
  { d with startup := { d.startup with settled := true, settleTimer := none } }.sampleStraps s

/-- PWR_RST is deasserted while RST_IN is still asserted (R175, R183): the part stays in RESET. MSEL that is still asserted begins no frame
(log 40). -/
def Device.releasePwrRst (d : Device) : Device :=
  if d.startup.pwrRst ∧ d.startup.rstIn then { d with startup := { d.startup with pwrRst := false } } else d

/-- The first byte after a read command (R181): an answer is the first byte of word 0. -/
def Device.flashAnswers (d : Device) (b : Byte) : Device :=
  if d.startup.loader = .awaiting then
    if b = 0xFF then { d with startup := { d.startup with loader := .retryWait 1000, fsel := false, flash := .idle } }
    else { d with startup := { d.startup with loader := .header, flashTimer := none, flash := .shifted [b] } }
  else d

/-- The 1 ms wait is over and the read command is sent again (R181). -/
def Device.retryFlash (d : Device) : Device :=
  { d with startup := { d.startup with loader := .awaiting, fsel := true, flash := .idle } }

/-- The header has been read (R181): checks 1 and 2. FSEL stays asserted until the entry to READY, and the remaining words follow under
the same read command (log 38). -/
def Device.headerRead (d : Device) (word0 word1 word2 : Word) : Device :=
  if d.startup.loader = .header then
    match headerFault word0 word1 word2 with
    | some k => d.endLoad k
    | none => { d with startup := { d.startup with loader := .image word0 word1 word2, flash := .shifted [] } }
  else d

/-- The rest of the image has been read (R181): checks 3 to 7. A read of another length is no end of this read (log 24). -/
def Device.imageRead (d : Device) (rest : List Word) : Device :=
  match d.startup.loader with
  | .image word0 word1 word2 =>
    if rest.length + 3 = word1.toNat then
      match imageFault (word0 :: word1 :: word2 :: rest) with
      | some k => d.endLoad k
      | none => d.completeLoad (word0 :: word1 :: word2 :: rest)
    else d
  | .idle => d
  | .awaiting => d
  | .retryWait _ => d
  | .header => d

/-- A byte has come in on the flash link (R181): the first one after the read command, the last one of the header or the last one of the
rest of the image ends its read. -/
def Device.flashGathers (d : Device) : Device :=
  match d.startup.loader with
  | .awaiting =>
    match d.startup.flash.received with
    | b :: _ => d.flashAnswers b
    | [] => d
  | .header =>
    match wordsOfBytes d.startup.flash.received with
    | word0 :: word1 :: word2 :: _ => d.headerRead word0 word1 word2
    | _ => d
  | .image _ _ _ => d.imageRead (wordsOfBytes d.startup.flash.received)
  | .idle => d
  | .retryWait _ => d

/-- The next edge of FCLK, with a level on FDI (R181); FCLK has no edge while FSEL is deasserted. -/
def Device.flashEdge (d : Device) (fdi : Bool) : Device :=
  let d1 : Device := { d with startup := { d.startup with flash := d.startup.flash.edge fdi } }
  if d.startup.fsel then
    if d.startup.flash.completes then d1.flashGathers else d1
  else d

/-- A read of whole bytes ends (R181): it does if its bytes begin with the bits that have been shifted in (log 24). -/
def Device.flashReturns (d : Device) (bytes : List Byte) (f : Device → Device) : Device :=
  if d.startup.flash.Agrees bytes then f d else d

/-- RST_OUT is deasserted (R184). -/
def Device.releaseRstOut (d : Device) : Device :=
  { d with startup := { d.startup with rstOut := false, rstOutTimer := none } }

/-! ## Resets -/

/-- A port's slots whose write has not been issued (R142, R144). -/
def Device.unissued (d : Device) (p : Port) : Nat :=
  (d.port p).queue.length - (if d.inFlight (.posted p) then 1 else 0)

/-- A port unit at a reset (R142, R144): a request in progress is answered by the port's kind, the queue and the lock go. -/
def PortUnit.cutShort (u : PortUnit) : PortUnit :=
  { u with
    current := none, holdTimer := none, queue := [], lock := .noLock
    answer := if u.current.isSome then some ⟨u.kind.refusal, []⟩ else u.answer }

/-- The running item, as the reset-cause record takes it (R88, R186). -/
def Device.runningCut (d : Device) : Option CutItem :=
  match d.commitQueue with
  | ⟨w, k, some pr⟩ :: _ => some ⟨w, k, pr.written, pr.planned⟩
  | _ => none

/-- What every one of the four recorded resets does (R59, R88, R142, R150, R160, R172, R186): requests in progress are
answered, queue, store, locks and commit queue emptied, an outstanding access dropped, the flags cleared. -/
def Device.commonReset (d : Device) (source : ResetSource) : Device :=
  { d with
    portA := { d.portA.cutShort with counters := ⟨0, 0, 0, BitVec.ofNat 16 (d.unissued .a)⟩ }
    portB := { d.portB.cutShort with counters := ⟨0, 0, 0, BitVec.ofNat 16 (d.unissued .b)⟩ }
    entries := []
    poolWait := []
    commitQueue := []
    mem := ⟨d.mem.outstanding.map fun o => { o with dropped := true }, Requester.order, .free⟩
    fault := d.fault.clearAll
    startup := { d.startup with cause := ⟨source, d.runningCut, d.unissued .a + d.unissued .b⟩ } }

/-- SOFT_RESET DATAPATH (R25, R109, R126, R172, R185). -/
def Device.datapathReset (d : Device) : Device :=
  let d1 := d.commonReset .softDatapath
  { d1.configure d1.config with windows := Vector.ofFn fun i => (d1.windows[i]).restart .reset }

/-- What RST_IN, SOFT_RESET FULL and PWR_RST add (R25, R108, R125, R166, R183, R184): the configuration goes, the part is in
RESET, RST_OUT is asserted, a flash read is abandoned, device time is 0. -/
def Device.fullReset (d : Device) (source : ResetSource) : Device :=
  let d1 := d.commonReset source
  { d1.configure .transparent with
    windows := Vector.replicate 16 .empty
    safeStore := []
    clock := { d1.clock with deviceTime := 0, sub := 0 }
    startup := { d1.startup with
      state := .reset, transparent := false, settleTimer := none, rstOut := true, rstOutTimer := none
      loader := .idle, flashTimer := none, fsel := false, flash := .idle } }

/-- RST_IN (R185). -/
def Device.rstInReset (d : Device) : Device :=
  let d1 := d.fullReset .rstIn
  { d1 with startup := { d1.startup with rstIn := true } }

/-- A port after PWR_RST (R129, R142): HOLD_ONLY until STRAPS, every counter 0. -/
def PortUnit.powerOn (u : PortUnit) : PortUnit := { u with kind := .holdOnly, counters := .zero }

/-- PWR_RST (R173, R175, R183, R185, R186). The unit goes to IDLE and the level of MSEL stands: a frame that it cut begins no other while
MSEL stays asserted (log 40). -/
def Device.pwrRstReset (d : Device) : Device :=
  let d1 := d.fullReset .pwrRst
  { d1 with
    portA := d1.portA.powerOn
    portB := d1.portB.powerOn
    fault := .reset
    link := .idle d1.link.msel
    startup := { d1.startup with settled := false, pwrRst := true, cause := ⟨.pwrRst, none, 0⟩ } }

/-! ## The link reset (R26, R58, R87, R144, R160, R168) -/

/-- Whether a slot's window is produced by B. -/
def Device.producedByB (d : Device) (w : Slot16) : Bool :=
  match (d.win w).desc with
  | some ds => ds.producer == .b
  | none => false

/-- Whether an outstanding access is channel B's, or the commit engine's for a window produced by B (R150). -/
def Device.cutByLink (d : Device) : Owner → Bool
  | .posted p => p == .b
  | .through p => p == .b
  | .read p => p == .b
  | .drain w => d.producedByB w
  | .safeWord w => d.producedByB w
  | .statusWord w => d.producedByB w

/-- The running item if it belongs to a window produced by B (R87). -/
def Device.linkItem (d : Device) : Option CutItem :=
  match d.runningCut with
  | some c => if d.producedByB c.window then some c else none
  | none => none

/-- The epoch that a LINK_RESET record names for the item (R87, R168). -/
def Device.linkEpoch (d : Device) (c : CutItem) : Word :=
  match c.kind with
  | .epoch => (d.rt c.window).drainingEpoch.getD 0
  | .safe => (d.rt c.window).openEpoch

/-- The LINK_RESET record (R168). -/
def Device.linkReport (d : Device) : Report :=
  { kind := .linkReset
    detail := some (.linkReset
      { item := d.linkItem.map CutItem.kind
        written := (d.linkItem.map CutItem.written).getD 0
        planned := (d.linkItem.map CutItem.planned).getD 0
        postedLost := d.unissued .b
        answered := d.portB.current.isSome })
    window := d.linkItem.map CutItem.window
    port := some .b
    address := d.portB.current.map fun c => c.request.address.toNat
    epoch := d.linkItem.map d.linkEpoch }

/-- The exclusive memory lock at a link reset: Port B's is released (R160). -/
def ExclusiveLock.withoutB : ExclusiveLock → ExclusiveLock
  | .free => .free
  | .reserved .a => .reserved .a
  | .held .a => .held .a
  | .reserved .b => .free
  | .held .b => .free

/-- A link reset is taken (R26, R58, R87, R144, R150, R160); the LINK_RESET record is offered last (R168). -/
def Device.linkReset (d : Device) : Device :=
  let mem := (d.dropIf d.cutByLink).mem
  let d1 : Device := { d with
    windows := Vector.ofFn fun i =>
      if d.producedByB i then (d.windows[i]).restart d.monitors else d.windows[i]
    entries := d.entries.filter fun e => !d.producedByB e.window
    poolWait := d.poolWait.filter fun x => x.port != .b
    commitQueue := d.commitQueue.filter fun it => !d.producedByB it.window
    mem := { mem with exclusive := mem.exclusive.withoutB }
    portB := { d.portB.cutShort with
      counters := { d.portB.counters with postedLost := satAdd d.portB.counters.postedLost (d.unissued .b) } } }
  d1.offer d.linkReport

/-- LINK_RESET: an assertion of LRQ is taken while the part is READY (R185). That one in READY is taken while RST_OUT is still asserted too,
in the 10 ms after the entry to READY, is the model's choice: R184 says that the link engine's assertions during RST_OUT's time are not
taken, and gives as the reason that the part is not READY (log 21). -/
def Device.takeLinkReset (d : Device) : Device := if d.startup.state = .ready then d.linkReset else d

end Sys2Proof.Machine
end

