-- ==== Sys2Proof/Machine/Settle.lean ====
section
/-! DEFINITION. The part's own events: those that the rules take at once (log 2), and the timers that run out (log 4). -/

namespace Sys2Proof.Machine

/-! ## Events that are taken at once -/

/-- An event that the rules take at the moment its condition holds. -/
inductive Urgent where
  | resetRelease
  | reservation (p : Port)
  | orderingEnd (p : Port)
  | queueSpace (p : Port)
  | poolService
  | readAdmitted (p : Port)
  | holdSet
  | itemStart
deriving DecidableEq, Repr

/-- RESET is left at once when neither input is asserted (R183: SOFT_RESET FULL). -/
def Device.resetCanEnd (d : Device) : Bool :=
  d.startup.state == .reset && !d.startup.pwrRst && !d.startup.rstIn

/-- Whether the head of the commit queue has not started (R71: the item at the head is the running item). -/
def Device.itemCanStart (d : Device) : Bool :=
  match d.commitQueue with
  | ⟨_, _, none⟩ :: _ => true
  | _ => false

/-- Whether an event is due at this moment. -/
def Device.isReady (d : Device) : Urgent → Bool
  | .resetRelease => d.resetCanEnd
  | .reservation p => d.handoffReady p
  | .orderingEnd p => d.orderingDone p
  | .queueSpace p => d.queueReady p
  | .poolService => d.poolCheckDue
  | .readAdmitted p => d.readReady p
  | .holdSet => d.holdCanBeSet
  | .itemStart => d.itemCanStart

/-- The order in which events of one moment are taken (log 2). -/
def urgentOrder : List Urgent :=
  [.resetRelease, .reservation .a, .reservation .b, .orderingEnd .a, .orderingEnd .b, .queueSpace .a, .queueSpace .b,
   .poolService, .readAdmitted .a, .readAdmitted .b, .holdSet, .itemStart]

def Device.urgent (d : Device) : Option Urgent := urgentOrder.find? d.isReady

/-- The effect of an event, by the rules of its row. -/
def Device.take (d : Device) : Urgent → Device
  | .resetRelease => d.releaseReset d.straps
  | .reservation p => d.handReservation p
  | .orderingEnd p => d.endOrdering p
  | .queueSpace p => d.enterHeldWrite p
  | .poolService => d.servePool
  | .readAdmitted p => d.admitRead p
  | .holdSet => d.setConsumerHold
  | .itemStart => d.startItem

/-- Events are taken, the first due one each time, until none is due or n have been taken. -/
def Device.settleWithin : Nat → Device → Device
  | 0, d => d
  | n + 1, d =>
    match d.urgent with
    | some u => Device.settleWithin n (d.take u)
    | none => d

/-- No moment brings more events than this: an event ends a wait, a check or a start of a request or an item, and an acceptance brings
seventeen items at the most, one for its own commit event and one for each deferred event at a lock's end (Laws/Settle.lean:
settled_settle). -/
def Device.momentBound (d : Device) : Nat := 4 * d.commitQueue.length + 146

/-- The events of the present moment, all of them, are taken before a command that is none of them (log 2). -/
def Device.settle (d : Device) : Device := d.settleWithin d.momentBound

/-! ## Timers that run out -/

/-- A timer of the part that can run out. -/
inductive Expiry where
  | holdLimit (p : Port)
  | poolWait (p : Port)
  | lockLimit (p : Port)
  | watchdog (w : Slot16)
  | acquisition (x : Strobe)
  | sync (x : Strobe)
  | lct
  | settleEnd (s : Straps)
  | flashRetry
  | flashTimeout
  | rstOut
deriving DecidableEq, Repr

/-- Whether a port's request is held on one of the three causes that R139 answers. -/
def Device.heldByLimit (d : Device) (p : Port) : Bool :=
  d.heldOn p .consumerHold || d.heldOn p .queueSpace || d.heldOn p .lockWait

/-- Bus clock periods until a timer runs out; none while it does not run. -/
def Device.timeLeft (d : Device) : Expiry → Option Nat
  | .holdLimit p => if d.heldByLimit p then (d.port p).holdTimer.map d.clock.untilZero else none
  | .poolWait p => if d.heldOn p .poolWait then (d.port p).holdTimer.map d.clock.untilZero else none
  | .lockLimit p => (d.port p).lock.limit.map d.clock.untilZero
  | .watchdog w => (d.rt w).watchdog.map d.clock.untilZero
  | .acquisition x => if (d.monitors.get x).state = .acquiring then d.untilLoss x else none
  | .sync x => if (d.monitors.get x).state = .present then d.untilLoss x else none
  | .lct => d.lct.remaining.map d.clock.untilZero
  | .settleEnd _ => d.startup.settleTimer.map d.clock.untilZero
  | .flashRetry => d.startup.loader.wait?.map d.clock.untilZero
  | .flashTimeout => d.startup.flashTimer.map d.clock.untilZero
  | .rstOut => d.startup.rstOutTimer.map d.clock.untilZero

/-- What happens when a timer runs out, by the rules of its row. -/
def Device.expire (d : Device) : Expiry → Device
  | .holdLimit p => d.holdLimitExpires p
  | .poolWait p => d.poolWaitExpires p
  | .lockLimit p => d.lockLimitExpires p
  | .watchdog w => d.watchdogExpires w
  | .acquisition x => d.acquisitionTimesOut x
  | .sync x => d.losesSync x
  | .lct => d.lctExpires
  | .settleEnd s => d.endSettle s
  | .flashRetry => d.retryFlash
  | .flashTimeout => d.endLoad .flashTimeout
  | .rstOut => d.releaseRstOut

/-- The watchdogs whose counts the passing of time has brought to 0 expire at that moment, in ascending window number, after the
event that the moment is for (R110, R113, R114; the order is the model's, log 36). -/
def Device.tripExpired (d : Device) : Device :=
  (allWindows.filter fun w => (d.rt w).watchdog == some 0).foldl Device.watchdogExpires d

/-- An expiry is commanded: time runs to it if nothing is due before it (log 4). -/
def Device.runTo (d : Device) (e : Expiry) : Device :=
  match d.timeLeft e with
  | some t => d.atTime t fun x => (x.expire e).tripExpired
  | none => d

/-! ## What the part does by itself (log 3) -/

/-- The order in which timers that run out at one moment are taken (log 3). -/
def Device.expiryOrder (d : Device) : List Expiry :=
  [.holdLimit .a, .holdLimit .b, .poolWait .a, .poolWait .b, .lockLimit .a, .lockLimit .b] ++
  allWindows.map .watchdog ++
  [Strobe.tsa, .tsb, .fms, .fme].flatMap (fun x => [.acquisition x, .sync x]) ++
  [.lct, .settleEnd d.straps, .flashRetry, .flashTimeout, .rstOut]

/-- The first timer that has run out. -/
def Device.dueExpiry (d : Device) : Option Expiry := d.expiryOrder.find? fun e => d.timeLeft e == some 0

/-- With no command waiting: an event of the present moment, a timer that has run out (with the watchdogs at 0, log 36), a grant, or one
bus clock period. -/
def Device.idle (d : Device) : Device :=
  match d.urgent with
  | some u => d.take u
  | none =>
    match d.dueExpiry with
    | some e => (d.expire e).tripExpired
    | none => if d.mem.outstanding.isNone ∧ d.winner.isSome then d.grant else (d.advance 1).tripExpired

end Sys2Proof.Machine
end

