-- ==== Sys2Proof/Machine/Manage.lean ====
section
/-! DEFINITION. The management link: the order of the checks (R174 to R176, R178), window states by command (R9 to R16, R121). -/

namespace Sys2Proof.Machine

/-! ## Taking a command -/

/-- A frame's command is taken (R174), after the events of the moment (log 2): not while PWR_RST is asserted (R175). A whole frame
commanded then leaves the level of MSEL as it stood too, which is the model's choice (log 20). -/
def Device.command (d : Device) (f : Device → Device) : Device :=
  let d1 := d.settle
  if d1.startup.pwrRst then d1 else f d1

/-- Step 2 of R176. -/
def Device.whenReady (d : Device) (f : Device → Device) : Device :=
  if d.startup.state = .ready then f d else d.respond .notReady []

/-- Step 3 of R176. -/
def Device.whenOpaque (d : Device) (f : Device → Device) : Device :=
  if d.startup.transparent then d.respond .refusedState [] else f d

/-- A command that needs READY. -/
def Device.managed (d : Device) (f : Device → Device) : Device := d.command (·.whenReady f)

/-- A command that needs READY and a loaded image. -/
def Device.managedWindow (d : Device) (f : Device → Device) : Device := d.managed (·.whenOpaque f)

/-- Step 4 of R176: an argument outside its values is refused. -/
def Device.requireArg (d : Device) (ok : Bool) (f : Device → Device) : Device :=
  if ok then f d else d.respond .refusedArgument []

/-- Step 5 of R176: the owning block refuses in its present state. -/
def Device.requireState (d : Device) (ok : Bool) (f : Device → Device) : Device :=
  if ok then f d else d.respond .refusedState []

/-- A command that names a defined window (R1, R178): an index above 15 and an empty slot are refused. -/
def Device.onDefined (d : Device) (b : Byte) (f : Slot16 → Descriptor → Device) : Device :=
  match slotOfByte b with
  | none => d.respond .refusedArgument []
  | some w =>
    match (d.win w).desc with
    | none => d.respond .refusedArgument []
    | some ds => f w ds

/-- A command that was carried out: DONE. -/
def Device.done (d : Device) (data : List Byte) : Device := d.respond .done data

/-! ## Window states by command -/

/-- ENABLE of an OFF window (R10, R11): its effective source is computed at once. -/
def Device.enableWindow (d : Device) (w : Slot16) (ds : Descriptor) : Device :=
  (d.modRt w fun r => r.enterRunning ds).refreshWindow w

/-- A waiter of a window that goes to OFF is withdrawn (R24, R47). -/
def Device.withdraw (d : Device) (w : Slot16) : Device :=
  match d.poolWait.find? (·.window == w) with
  | none => d
  | some x =>
    match (d.port x.port).current with
    | some c => d.expirePool x.port w c.request (d.rt w).openEpoch
    | none => d.leavePool x.port

/-- The record of a window after DISABLE (R12, R86). The report marks are kept (R84). -/
def Runtime.goOff (r : Runtime) : Runtime :=
  { r with
    state := .off
    openEpoch := 0
    drainingEpoch := none
    closeMark := false
    safeLoadPending := false
    consumerHold := false
    holdRequest := false
    deferredCommit := false
    safeAfterItem := false
    watchdog := none }

/-- DISABLE of a window that is not OFF (R12, R47, R57, R86). -/
def Device.disableWindow (d : Device) (w : Slot16) : Device :=
  let d1 := d.withdraw w
  let d2 := d1.modCounters w fun c => { c with discarded := satAdd c.discarded (d1.discardCount w) }
  ((d2.discardAll w).cutItem w).modRt w Runtime.goOff

/-- PAUSE of a RUNNING window (R13). -/
def Device.pauseWindow (d : Device) (w : Slot16) : Device :=
  d.modRt w fun r => { r with state := .paused, watchdog := none }

/-- RESUME of a PAUSED window (R14). -/
def Device.resumeWindow (d : Device) (w : Slot16) (ds : Descriptor) : Device :=
  d.modRt w fun r => { r with state := .running, watchdog := ds.fullPeriod }

/-- Whether a source can be selected (R106): a monitored one is PRESENT, the LCT runs. -/
def Device.sourceAvailable (d : Device) (x : Source) : Bool :=
  match x with
  | .tsa => (d.monitors.get .tsa).state == .present
  | .tsb => (d.monitors.get .tsb).state == .present
  | .fms => (d.monitors.get .fms).state == .present
  | .fme => (d.monitors.get .fme).state == .present
  | .lct => d.lct.running
  | .close => true
  | .manual => true

/-- SELECT_SOURCE, accepted (R7, R102, R106). -/
def Device.selectSource (d : Device) (w : Slot16) (x : Source) : Device :=
  (d.modRt w fun r => { r with selected := x }).refreshWindow w

end Sys2Proof.Machine
end

