-- ==== Sys2Proof/Machine/Reports.lean ====
section
/-! DEFINITION. The data bytes of the management answers (the management frame and fault record layout tables of 10). -/

namespace Sys2Proof.Machine

/-- The outputs byte: IRQ in bit 7, LVL1 and LVL0 in bits 1..0. -/
def FaultUnit.outputsByte (u : FaultUnit) : Byte := bitByte u.irq 7 ||| BitVec.ofNat 8 u.lvl

/-- The item byte: bit 7 present, bit 6 SAFE, bit 5 running, bits 3..0 the window. -/
def itemByte (w : Slot16) (k : ItemKind) (running : Bool) : Byte :=
  0x80 ||| bitByte (k == .safe) 6 ||| bitByte running 5 ||| BitVec.ofNat 8 w.val

/-- READ_ID (R177): vendor code, part code, revision, image format version. -/
def idBytes : List Byte := beBytes 2 0x3A7 ++ beBytes 2 0x3120 ++ [2, 1]

/-- The running item as READ_STATUS gives it: 0 when no item is running. -/
def Device.runningItemByte (d : Device) : Byte :=
  match d.commitQueue with
  | ⟨w, k, some _⟩ :: _ => itemByte w k true
  | _ => 0

/-- READ_STATUS (R177). -/
def Device.statusBytes (d : Device) : List Byte :=
  [d.startup.state.code, boolByte d.startup.transparent, d.fault.outputsByte] ++
  beBytes 4 d.clock.deviceTime.toNat ++ beBytes 2 d.freeCount ++
  [BitVec.ofNat 8 d.poolWait.length, BitVec.ofNat 8 d.commitQueue.length, d.runningItemByte,
   BitVec.ofNat 8 d.fault.log.length] ++
  beBytes 2 d.fault.overflow.toNat

/-- READ_FLAGS (R165): states, enables, levels, threshold, outputs. -/
def FaultUnit.flagBytes (u : FaultUnit) : List Byte :=
  beBytes 5 u.flags.toNat ++ beBytes 5 u.enables.toNat ++ beBytes 10 u.levels.toNat ++
  [BitVec.ofNat 8 u.threshold.toNat, u.outputsByte]

/-! ## Fault records (R171) -/

/-- The bytes of an optional field at its position in the record: free values when it is absent (log 16). -/
def optionalBytes (free : Nat → Byte) (position count : Nat) (bytes : Option (List Byte)) : List Byte :=
  match bytes with
  | some bs => bs
  | none => (List.range count).map fun i => free (position + i)

/-- Bytes 8 and 9..12 of a record with a detail; 9..12 are used by LINK_RESET only. -/
def Detail.bytes (free : Nat → Byte) (x : Detail) : List Byte :=
  match x with
  | .linkReset s => x.code :: (beBytes 2 s.written ++ beBytes 2 s.planned)
  | .access _ | .hold _ | .overrun _ | .trip _ | .commitWrite _ | .lockMisuse _ | .posted _ | .sync _ | .config _ =>
    x.code :: optionalBytes free 9 4 none

/-- The presence byte of a record. -/
def Report.presence (r : Report) : Byte :=
  bitByte r.detail.isSome 0 ||| bitByte r.window.isSome 1 ||| bitByte r.port.isSome 2 ||| bitByte r.address.isSome 3 |||
  bitByte r.epoch.isSome 4

def portByte : Port → Byte
  | .a => 0
  | .b => 1

/-- The 23 bytes of a record, with the number of records still in the log (fault record layout table). -/
def FaultRecord.bytes (x : FaultRecord) (remaining : Nat) (free : Nat → Byte) : List Byte :=
  x.report.presence :: beBytes 2 x.sequence.toNat ++ beBytes 4 x.time.toNat ++ [x.report.kind.code] ++
  optionalBytes free 8 5 (x.report.detail.map (Detail.bytes free)) ++
  optionalBytes free 13 1 (x.report.window.map fun w => [BitVec.ofNat 8 w.val]) ++
  optionalBytes free 14 1 (x.report.port.map fun p => [portByte p]) ++
  optionalBytes free 15 3 (x.report.address.map (beBytes 3)) ++
  optionalBytes free 18 4 (x.report.epoch.map fun e => beBytes 4 e.toNat) ++
  [BitVec.ofNat 8 remaining]

/-! ## Windows -/

/-- The marks byte: close, safe load pending, consumer hold, deferred commit, late-since, overrun-since, safe after item. -/
def Runtime.marksByte (r : Runtime) : Byte :=
  bitByte r.closeMark 0 ||| bitByte r.safeLoadPending 1 ||| bitByte r.consumerHold 2 ||| bitByte r.deferredCommit 3 |||
  bitByte r.lateSince 4 ||| bitByte r.overrunSince 5 ||| bitByte r.safeAfterItem 6

/-- The nine counters in the order of R8. -/
def WindowCounters.bytes (c : WindowCounters) : List Byte :=
  [c.commits, c.emptyEvents, c.skippedEvents, c.late, c.overrun, c.quotaRefusals, c.trips, c.discarded, c.drainErrors].flatMap
    fun x => beBytes 2 x.toNat

/-- Item, phase, planned and written; the last three read 0 when the item is not running. -/
def itemBytes : Option Item → List Byte
  | none => [0, 0] ++ beBytes 4 0
  | some ⟨w, k, none⟩ => [itemByte w k false, 0] ++ beBytes 4 0
  | some ⟨w, k, some pr⟩ =>
    [itemByte w k true, pr.phase.code ||| bitByte pr.writeError 7] ++ beBytes 2 pr.planned ++ beBytes 2 pr.written

/-- READ_WINDOW of an empty slot. -/
def emptyWindowBytes : List Byte := List.replicate 33 0 ++ [0xFF, 0xFF] ++ List.replicate 40 0

/-- READ_WINDOW (R6, R110, R178); a stopped watchdog reads 0. -/
def Device.windowBytes (d : Device) (w : Slot16) : List Byte :=
  match (d.win w).desc with
  | none => emptyWindowBytes
  | some ds =>
    let r := d.rt w
    ds.words.flatMap (fun x => beBytes 4 x.toNat) ++ [r.state.code, r.selected.code, r.effective.code] ++
    beBytes 4 r.openEpoch.toNat ++ beBytes 4 r.lastCommitted.toNat ++ [r.marksByte] ++ beBytes 3 (r.watchdog.getD 0) ++
    r.counters.bytes ++ beBytes 2 (d.openList w).length ++ beBytes 2 (d.drainList w).length ++ itemBytes (d.itemOf w)

/-! ## Sources, ports and the reset cause -/

/-- The record of a monitor (R107): the time since its last counted pulse in whole microseconds (R90). -/
def Device.monitorBytes (d : Device) (x : Strobe) : List Byte :=
  let m := d.monitors.get x
  [m.state.code] ++ beBytes 3 (d.period x) ++ [BitVec.ofNat 8 m.count] ++ beBytes 2 m.glitches.toNat ++
  beBytes 2 m.losses.toNat ++
  beBytes 3 (match m.since with | some e => e / d.clock.perUs | none => 0xFFFFFF)

/-- The LCT record (R107); its state byte is 1 when it runs (log 27). -/
def Lct.bytes (t : Lct) : List Byte :=
  [boolByte t.running] ++ beBytes 3 t.period ++ beBytes 3 (t.next.getD 0) ++ beBytes 3 (t.remaining.getD 0xFFFFFF)

/-- READ_SOURCES (R107). -/
def Device.sourceBytes (d : Device) : List Byte :=
  d.monitorBytes .tsa ++ d.monitorBytes .tsb ++ d.monitorBytes .fms ++ d.monitorBytes .fme ++ d.lct.bytes

/-- The queue byte: the occupied slots, and bit 7 when the head is in flight. -/
def Device.queueByte (d : Device) (p : Port) : Byte :=
  BitVec.ofNat 8 (d.port p).queue.length ||| bitByte (d.inFlight (.posted p)) 7

/-- The record of a port (R140). -/
def Device.portBytes (d : Device) (p : Port) : List Byte :=
  let u := d.port p
  [u.kind.code] ++ beBytes 2 (d.holdLimit p) ++ [boolByte (d.confined p), phaseCode (u.current.map Current.phase)] ++
  beBytes 2 (u.holdTimer.getD 0xFFFF) ++ [d.queueByte p, u.lock.code] ++ beBytes 2 u.counters.retries.toNat ++
  beBytes 2 u.counters.holdTimeouts.toNat ++ beBytes 2 u.counters.refusals.toNat ++ beBytes 2 u.counters.postedLost.toNat

/-- READ_PORTS (R140, R151). -/
def Device.portsBytes (d : Device) : List Byte := d.portBytes .a ++ d.portBytes .b ++ [d.mem.exclusive.code]

/-- READ_RESET_CAUSE (R180, R186); the item recorded was the running one (log 29), and with none written and planned read 0
(log 39). -/
def ResetCause.bytes (c : ResetCause) : List Byte :=
  match c.item with
  | none => [c.source.code, 0] ++ beBytes 4 0 ++ [BitVec.ofNat 8 c.postedLost]
  | some i =>
    [c.source.code, itemByte i.window i.kind true] ++ beBytes 2 i.written ++ beBytes 2 i.planned ++
    [BitVec.ofNat 8 c.postedLost]

end Sys2Proof.Machine
end

