-- ==== Sys2Proof/Machine/FaultCommands.lean ====
section
/-! DEFINITION. Management commands of the fault unit (R163, R165, R171, R179). -/

namespace Sys2Proof.Machine

/-- READ_FLAGS (R165). -/
def execReadFlags (s : State) : Host.Outcome State Fault Refusal :=
  .next (s.onDevice fun d => d.managed fun d => d.done d.fault.flagBytes)

/-- CLEAR_FLAGS (R163). -/
def execClearFlags (mask : BitVec 40) (s : State) : Host.Outcome State Fault Refusal :=
  .next (s.onDevice fun d => d.managed fun d => { d with fault := d.fault.clear mask }.done [])

/-- SET_ENABLE (R165, R179). -/
def execSetEnable (mask : BitVec 40) (value : Byte) (s : State) : Host.Outcome State Fault Refusal :=
  .next (s.onDevice fun d => d.managed fun d =>
    d.requireArg (within 0 1 value.toNat) fun d => { d with fault := d.fault.setEnables mask (value == 1) }.done [])

/-- SET_LEVEL (R165, R179). -/
def execSetLevel (mask : BitVec 40) (level : Byte) (s : State) : Host.Outcome State Fault Refusal :=
  .next (s.onDevice fun d => d.managed fun d =>
    d.requireArg (within 0 3 level.toNat) fun d => { d with fault := d.fault.setLevels mask (level.extractLsb' 0 2) }.done [])

/-- SET_THRESHOLD (R165, R179). -/
def execSetThreshold (threshold : Byte) (s : State) : Host.Outcome State Fault Refusal :=
  .next (s.onDevice fun d => d.managed fun d =>
    d.requireArg (within 0 3 threshold.toNat) fun d =>
      { d with fault := { d.fault with threshold := threshold.extractLsb' 0 2 } }.done [])

/-- The oldest record leaves the log and is returned; the bytes of its absent fields are free values (R171, log 16). -/
def Device.takeOldest (d : Device) : Device :=
  match d.fault.log with
  | [] => d.respond .empty []
  | x :: rest =>
    { d with fault := { d.fault with log := rest }, freeIndex := d.freeIndex + 1 }.done
      (x.bytes rest.length (Config.absentByte d.freeIndex))

/-- READ_LOG (R171). -/
def execReadLog (s : State) : Host.Outcome State Fault Refusal :=
  .next (s.onDevice fun d => d.managed Device.takeOldest)

end Sys2Proof.Machine
end

