-- ==== Sys2Proof/Machine/Frames.lean ====
section
/-! DEFINITION. The management link unit between the takings of commands: a frame begins, its bits come in, the answer is
shifted out, the frame ends (R174, R175). -/

namespace Sys2Proof.Machine

/-- MSEL is asserted (R174): a frame begins; MSEL that is asserted already has no such edge, be it that it was asserted while PWR_RST held
the unit (log 40). -/
def Link.select (u : Link) : Link := if u.msel then u else { Link.idle true with phase := .command }

/-- The command that a bit sampled on MDI takes: in COMMAND or ARGUMENT, the bit that completes the frame's last byte (R174). -/
def Link.completes (u : Link) : LinkEdge → Option Instr
  | .rise mdi =>
    if (u.phase = .command ∨ u.phase = .argument) ∧ 7 ≤ u.bits.length then
      decodeFrame (u.received ++ [byteOfBits (u.bits ++ [mdi])])
    else none
  | .select => none
  | .fall => none

/-- A bit sampled on MDI in COMMAND or ARGUMENT that takes no command: the eighth bit makes a byte (R174). -/
def Link.sample (u : Link) (mdi : Bool) : Link :=
  if u.bits.length < 7 then { u with bits := u.bits ++ [mdi] }
  else { u with phase := .argument, received := u.received ++ [byteOfBits (u.bits ++ [mdi])], bits := [] }

/-- A rising edge of MCLK after the command was taken: TURNAROUND lasts one byte time, and MDI is ignored (R174). -/
def Link.count (u : Link) : Link :=
  { u with clocks := u.clocks + 1, phase := if 8 ≤ u.clocks + 1 then .response else u.phase }

/-- A rising edge of MCLK (R174). -/
def Link.rise (u : Link) (mdi : Bool) : Link :=
  match u.phase with
  | .idle => u
  | .command => u.sample mdi
  | .argument => u.sample mdi
  | .turnaround => u.count
  | .response => u.count

/-- A falling edge of MCLK, on which MDO changes (R174): 0 in TURNAROUND, the next bit of the answer in RESPONSE. -/
def Link.fall (u : Link) : Link :=
  match u.phase with
  | .idle => u
  | .command => u
  | .argument => u
  | .turnaround => { u with mdo := some false }
  | .response => { u with mdo := some (serialBit u.response (u.clocks - 8)) }

/-- What an edge that takes no command does to the unit (R174). -/
def Link.edge (u : Link) : LinkEdge → Link
  | .select => u.select
  | .rise mdi => u.rise mdi
  | .fall => u.fall

/-- An edge while PWR_RST is asserted: the unit is held in IDLE, and only the level of MSEL follows the pin (R175). MSEL asserted here begins
no frame, and none at the release of PWR_RST (log 40). -/
def Link.heldEdge (u : Link) : LinkEdge → Link
  | .select => { u with msel := true }
  | .rise _ => u
  | .fall => u

/-- An edge on the management link that takes no command changes the unit only (R175). -/
def Device.linkEdge (d : Device) (e : LinkEdge) : Device :=
  { d with link := if d.startup.pwrRst then d.link.heldEdge e else d.link.edge e }

/-- The command that an edge takes, if it is one at which a command is taken (R174); none while PWR_RST is asserted (R175). -/
def Device.frameTaken (d : Device) (e : LinkEdge) : Option Instr := if d.startup.pwrRst then none else d.link.completes e

/-- MSEL is deasserted: the unit returns to IDLE in any phase, and nothing else changes (R174, R175). -/
def Device.abortFrame (d : Device) : Device := { d with link := .idle false }

end Sys2Proof.Machine
end

