-- ==== Sys2Proof/Machine/ReadCommands.lean ====
section
/-! DEFINITION. Management commands that read (R107, R140, R177, R180). -/

namespace Sys2Proof.Machine

/-- READ_ID (R177): in every start-up state. -/
def execReadId (s : State) : Host.Outcome State Fault Refusal :=
  .next (s.onDevice fun d => d.command fun d => d.done idBytes)

/-- READ_STATUS (R177): in every start-up state. -/
def execReadStatus (s : State) : Host.Outcome State Fault Refusal :=
  .next (s.onDevice fun d => d.command fun d => d.done d.statusBytes)

/-- READ_SOURCES (R107). -/
def execReadSources (s : State) : Host.Outcome State Fault Refusal :=
  .next (s.onDevice fun d => d.managed fun d => d.done d.sourceBytes)

/-- READ_PORTS (R140). -/
def execReadPorts (s : State) : Host.Outcome State Fault Refusal :=
  .next (s.onDevice fun d => d.managed fun d => d.done d.portsBytes)

/-- READ_RESET_CAUSE (R180, R186). -/
def execReadResetCause (s : State) : Host.Outcome State Fault Refusal :=
  .next (s.onDevice fun d => d.managed fun d => d.done d.startup.cause.bytes)

end Sys2Proof.Machine
end

