-- ==== Sys2Proof/Machine/ResetCommands.lean ====
section
/-! DEFINITION. The five resets (R180, R185). -/

namespace Sys2Proof.Machine

/-- SOFT_RESET DATAPATH (R180, R185). -/
def execSoftResetDatapath (s : State) : Host.Outcome State Fault Refusal :=
  .next (s.onDevice fun d => d.managed fun d => d.datapathReset.done [])

/-- SOFT_RESET FULL (R180, R185). -/
def execSoftResetFull (s : State) : Host.Outcome State Fault Refusal :=
  .next (s.onDevice fun d => d.managed fun d => (d.fullReset .softFull).done [])

/-- PWR_RST (R183, R185, R186). -/
def execPwrRst (s : State) : Host.Outcome State Fault Refusal :=
  .next (s.onDevice fun d => d.settle.pwrRstReset)

/-- RST_IN (R183, R185): in any state. -/
def execRstIn (s : State) : Host.Outcome State Fault Refusal :=
  .next (s.onDevice fun d => d.settle.rstInReset)

/-- LINK_RESET (R26, R58, R87, R144, R160, R168, R185). -/
def execLinkReset (s : State) : Host.Outcome State Fault Refusal :=
  .next (s.onDevice fun d => d.settle.takeLinkReset)

end Sys2Proof.Machine
end

