-- ==== Sys2Proof/Machine/TimingCommands.lean ====
section
/-! DEFINITION. Commands of the timing unit and the watchdogs (04, 05). -/

namespace Sys2Proof.Machine

/-- WATCHDOG_EXPIRY (R113). -/
def execWatchdogExpiry (w : Slot16) (s : State) : Host.Outcome State Fault Refusal :=
  .next (s.onDevice fun d => d.settle.runTo (.watchdog w))

/-- A rising edge after some bus clock periods (log 5), and the watchdogs that have reached 0 at its moment (log 36); the monitors take
no pulse before READY (R108). -/
def Device.strobe (d : Device) (x : Strobe) (after : Nat) : Device :=
  let d1 := d.elapseUpTo after
  (if d1.startup.state = .ready then d1.pulse x else d1).tripExpired

/-- STROBE_PULSE (R89 to R97). -/
def execStrobePulse (x : Strobe) (after : Nat) (s : State) : Host.Outcome State Fault Refusal :=
  .next (s.onDevice fun d => d.settle.strobe x after)

/-- ACQUISITION_TIMEOUT (R92). -/
def execAcquisitionTimeout (x : Strobe) (s : State) : Host.Outcome State Fault Refusal :=
  .next (s.onDevice fun d => d.settle.runTo (.acquisition x))

/-- SYNC_LOST (R95). -/
def execSyncLost (x : Strobe) (s : State) : Host.Outcome State Fault Refusal :=
  .next (s.onDevice fun d => d.settle.runTo (.sync x))

/-- LCT_EXPIRY (R98). -/
def execLctExpiry (s : State) : Host.Outcome State Fault Refusal :=
  .next (s.onDevice fun d => d.settle.runTo .lct)

/-- TIMER START (R99); the period bytes are ignored (R178). -/
def execTimerStart (_period : Word) (s : State) : Host.Outcome State Fault Refusal :=
  .next (s.onDevice fun d => d.managed fun d => { d with lct := d.lct.begin }.done [])

/-- TIMER STOP (R101); the period bytes are ignored (R178). -/
def execTimerStop (_period : Word) (s : State) : Host.Outcome State Fault Refusal :=
  .next (s.onDevice fun d => d.managed fun d =>
    d.requireState (!d.lctInUse) fun d => { d with lct := d.lct.stop }.done [])

/-- TIMER PERIOD (R100, R178). -/
def execTimerPeriod (period : Word) (s : State) : Host.Outcome State Fault Refusal :=
  .next (s.onDevice fun d => d.managed fun d =>
    d.requireArg (within 10 1000000 period.toNat) fun d => { d with lct := d.lct.setPeriod period.toNat }.done [])

end Sys2Proof.Machine
end

