-- ==== Sys2Proof/Machine/WindowCommands.lean ====
section
/-! DEFINITION. Management commands of the windows (R9 to R16, R69, R106, R121, R178). -/

namespace Sys2Proof.Machine

/-- READ_WINDOW (R6, R178): an empty slot is reported. -/
def execReadWindow (index : Byte) (s : State) : Host.Outcome State Fault Refusal :=
  .next (s.onDevice fun d => d.managed fun d =>
    match slotOfByte index with
    | none => d.respond .refusedArgument []
    | some w => d.done (d.windowBytes w))

/-- WINDOW_CTRL ENABLE (R11). -/
def execEnable (index : Byte) (s : State) : Host.Outcome State Fault Refusal :=
  .next (s.onDevice fun d => d.managedWindow fun d => d.onDefined index fun w ds =>
    d.requireState ((d.rt w).state == .off) fun d => (d.enableWindow w ds).done [])

/-- DISABLE of a slot (R12, R178): an empty slot and an OFF window are left as they are. -/
def Device.disableSlot (d : Device) (w : Slot16) : Device :=
  match (d.win w).desc with
  | none => d
  | some _ => if (d.rt w).state = .off then d else d.disableWindow w

/-- WINDOW_CTRL DISABLE (R12): always DONE on an index up to 15. -/
def execDisable (index : Byte) (s : State) : Host.Outcome State Fault Refusal :=
  .next (s.onDevice fun d => d.managedWindow fun d =>
    match slotOfByte index with
    | none => d.respond .refusedArgument []
    | some w => (d.disableSlot w).done [])

/-- WINDOW_CTRL PAUSE (R13). -/
def execPause (index : Byte) (s : State) : Host.Outcome State Fault Refusal :=
  .next (s.onDevice fun d => d.managedWindow fun d => d.onDefined index fun w _ =>
    d.requireState ((d.rt w).state == .running) fun d => (d.pauseWindow w).done [])

/-- WINDOW_CTRL RESUME (R14). -/
def execResume (index : Byte) (s : State) : Host.Outcome State Fault Refusal :=
  .next (s.onDevice fun d => d.managedWindow fun d => d.onDefined index fun w ds =>
    d.requireState ((d.rt w).state == .paused) fun d => (d.resumeWindow w ds).done [])

/-- WINDOW_CTRL REARM (R16, R121). -/
def execRearm (index : Byte) (s : State) : Host.Outcome State Fault Refusal :=
  .next (s.onDevice fun d => d.managedWindow fun d => d.onDefined index fun w _ =>
    d.requireState ((d.rt w).state == .tripped) fun d => (d.rearm w).done [])

/-- SELECT_SOURCE (R106): the checks in the order of the table. -/
def Device.trySelect (d : Device) (w : Slot16) (source : Byte) : Device :=
  match Source.ofByte source with
  | none => d.respond .refusedArgument []
  | some x => d.requireState (d.sourceAvailable x) fun d => (d.selectSource w x).done []

/-- SELECT_SOURCE (R106). -/
def execSelectSource (index : Byte) (source : Byte) (s : State) : Host.Outcome State Fault Refusal :=
  .next (s.onDevice fun d => d.managedWindow fun d => d.onDefined index fun w _ => d.trySelect w source)

/-- COMMIT_NOW (R69): the commit rule is applied, and its outcome answered. -/
def execCommitNow (index : Byte) (s : State) : Host.Outcome State Fault Refusal :=
  .next (s.onDevice fun d => d.managedWindow fun d => d.onDefined index fun w _ =>
    (d.commitEvent w).done [(d.decideCommit w).outcome.code])

end Sys2Proof.Machine
end

