-- ==== Sys2Proof/Machine/FrameCommands.lean ====
section
/-! DEFINITION. Frames that no command row stands for, the edges of a frame, and the taking of the command that a frame spells (R174
to R176). -/

namespace Sys2Proof.Machine

/-- The answer to a frame that names nothing (R176 step 1; R178 and R180 for an action or target byte); an edge takes no command by
itself. -/
def Device.answerUnnamed (d : Device) : UnnamedFrame → Device
  | .command _ => d.command fun d => d.respond .unknownCommand []
  | .windowCtrl _ _ => d.managedWindow fun d => d.respond .refusedArgument []
  | .timer _ _ => d.managed fun d => d.respond .refusedArgument []
  | .softReset _ => d.managed fun d => d.respond .refusedArgument []
  | .edge _ => d

/-- The command that a frame spells is taken (R174): it acts as its own row does. -/
def takeFrame (c : Instr) (s : State) : Host.Outcome State Fault Refusal :=
  match c with
  | .readId => execReadId s
  | .readStatus => execReadStatus s
  | .readFlags => execReadFlags s
  | .clearFlags mask => execClearFlags mask s
  | .setEnable mask value => execSetEnable mask value s
  | .setLevel mask level => execSetLevel mask level s
  | .setThreshold value => execSetThreshold value s
  | .readLog => execReadLog s
  | .readWindow index => execReadWindow index s
  | .enable index => execEnable index s
  | .disable index => execDisable index s
  | .pause index => execPause index s
  | .resume index => execResume index s
  | .rearm index => execRearm index s
  | .selectSource index source => execSelectSource index source s
  | .commitNow index => execCommitNow index s
  | .timerStart period => execTimerStart period s
  | .timerStop period => execTimerStop period s
  | .timerPeriod period => execTimerPeriod period s
  | .readSources => execReadSources s
  | .readPorts => execReadPorts s
  | .readResetCause => execReadResetCause s
  | .softResetDatapath => execSoftResetDatapath s
  | .softResetFull => execSoftResetFull s
  | .unknownCommand frame => .next (s.onDevice fun d => d.answerUnnamed frame)
  | .portRequest _ _ | .orderingEnd _ | .queueSpaceEntry _ | .poolWaitService | .readAdmitted _
  | .lockReservationHandoff _ | .arbiterGrant | .memoryCompletion _ _ | .itemStart | .consumerHoldSet
  | .holdLimitExpiry _ | .poolWaitExpiry _ | .lockLimitExpiry _ | .watchdogExpiry _ | .strobePulse _ _
  | .acquisitionTimeout _ | .syncLost _ | .lctExpiry | .frameAbort | .pwrRst | .rstIn | .linkReset
  | .resetRelease _ | .settleEnd _ | .flashAnswer _ | .flashRetryWaitEnd | .flashTimeout
  | .imageReadComplete _ | .rstOutRelease | .headerReadComplete _ _ _ | .pwrRstRelease => .next s

/-- One edge on the management link (R174, R175), after the events of the moment (log 2): it takes the command of the frame that it
completes, or moves the unit on. -/
def takeEdge (e : LinkEdge) (s : State) : Host.Outcome State Fault Refusal :=
  match s.dev.settle.frameTaken e with
  | some c => takeFrame c { s with dev := s.dev.settle }
  | none => .next { s with dev := s.dev.settle.linkEdge e }

/-- UNKNOWN_COMMAND (R176, log 19), and one edge of a frame (R174, log 20). -/
def execUnknownCommand (frame : UnnamedFrame) (s : State) : Host.Outcome State Fault Refusal :=
  match frame with
  | .edge e => takeEdge e s
  | .command code => .next (s.onDevice fun d => d.answerUnnamed (.command code))
  | .windowCtrl window action => .next (s.onDevice fun d => d.answerUnnamed (.windowCtrl window action))
  | .timer action period => .next (s.onDevice fun d => d.answerUnnamed (.timer action period))
  | .softReset target => .next (s.onDevice fun d => d.answerUnnamed (.softReset target))

/-- FRAME_ABORT (R174, R175). -/
def execFrameAbort (s : State) : Host.Outcome State Fault Refusal :=
  .next (s.onDevice fun d => d.settle.abortFrame)

end Sys2Proof.Machine
end

