-- ==== Sys2Proof/Machine/MemoryCommands.lean ====
section
/-! DEFINITION. Commands of the memory port and the commit engine (03, 07). -/

namespace Sys2Proof.Machine

/-- ARBITER_GRANT (R149). -/
def execArbiterGrant (s : State) : Host.Outcome State Fault Refusal :=
  .next (s.onDevice fun d => d.settle.grant)

/-- MEMORY_COMPLETION (R146, R147). -/
def execMemoryCompletion (merr : Bool) (data : Word) (s : State) : Host.Outcome State Fault Refusal :=
  .next (s.onDevice fun d => d.settle.memoryCompletes merr data)

/-- ITEM_START (R71). -/
def execItemStart (s : State) : Host.Outcome State Fault Refusal :=
  .next (s.onDevice fun d => d.startItem)

/-- CONSUMER_HOLD_SET (R72). -/
def execConsumerHoldSet (s : State) : Host.Outcome State Fault Refusal :=
  .next (s.onDevice fun d => d.setConsumerHold)

end Sys2Proof.Machine
end

