-- ==== Sys2Proof/Machine/PortCommands.lean ====
section
/-! DEFINITION. Commands of the two ports: a request, and the events of a request in progress (06, 07). -/

namespace Sys2Proof.Machine

/-- PORT_REQUEST: Port A or Port B takes a request (R17, R18, R127, R141, R155, R158). -/
def execPortRequest (p : Port) (r : Request) (s : State) : Host.Outcome State Fault Refusal :=
  .next (s.onDevice fun d => d.settle.takeRequest p r)

/-- ORDERING_END (R136). -/
def execOrderingEnd (p : Port) (s : State) : Host.Outcome State Fault Refusal :=
  .next (s.onDevice fun d => d.endOrdering p)

/-- QUEUE_SPACE_ENTRY (R132). -/
def execQueueSpaceEntry (p : Port) (s : State) : Host.Outcome State Fault Refusal :=
  .next (s.onDevice fun d => d.enterHeldWrite p)

/-- POOL_WAIT_SERVICE (R44, R45). -/
def execPoolWaitService (s : State) : Host.Outcome State Fault Refusal :=
  .next (s.onDevice fun d => d.servePool)

/-- READ_ADMITTED (R72, R73). -/
def execReadAdmitted (p : Port) (s : State) : Host.Outcome State Fault Refusal :=
  .next (s.onDevice fun d => d.admitRead p)

/-- LOCK_RESERVATION_HANDOFF (R153): to the port named. -/
def execLockReservationHandoff (p : Port) (s : State) : Host.Outcome State Fault Refusal :=
  .next (s.onDevice fun d => d.handReservation p)

/-- HOLD_LIMIT_EXPIRY (R139). -/
def execHoldLimitExpiry (p : Port) (s : State) : Host.Outcome State Fault Refusal :=
  .next (s.onDevice fun d => d.settle.runTo (.holdLimit p))

/-- POOL_WAIT_EXPIRY (R46). -/
def execPoolWaitExpiry (p : Port) (s : State) : Host.Outcome State Fault Refusal :=
  .next (s.onDevice fun d => d.settle.runTo (.poolWait p))

/-- LOCK_LIMIT_EXPIRY (R157). -/
def execLockLimitExpiry (p : Port) (s : State) : Host.Outcome State Fault Refusal :=
  .next (s.onDevice fun d => d.settle.runTo (.lockLimit p))

end Sys2Proof.Machine
end

