-- ==== Sys2Proof/Machine/StartupCommands.lean ====
section
/-! DEFINITION. The events of start-up (R181, R183, R184). -/

namespace Sys2Proof.Machine

/-- RESET_RELEASE (R183). -/
def execResetRelease (straps : Straps) (s : State) : Host.Outcome State Fault Refusal :=
  .next (s.onDevice fun d => d.releaseReset straps)

/-- PWR_RST_RELEASE (R175, R183). -/
def execPwrRstRelease (s : State) : Host.Outcome State Fault Refusal :=
  .next (s.onDevice fun d => d.settle.releasePwrRst)

/-- SETTLE_END (R183). -/
def execSettleEnd (straps : Straps) (s : State) : Host.Outcome State Fault Refusal :=
  .next (s.onDevice fun d => d.settle.runTo (.settleEnd straps))

/-- FLASH_ANSWER (R181), and one edge of a flash read (R181, log 41). -/
def execFlashAnswer (input : FlashInput) (s : State) : Host.Outcome State Fault Refusal :=
  match input with
  | .byte b => .next (s.onDevice fun d => d.settle.flashReturns [b] fun d => d.flashAnswers b)
  | .edge fdi => .next (s.onDevice fun d => d.settle.flashEdge fdi)

/-- FLASH_RETRY_WAIT_END (R181). -/
def execFlashRetryWaitEnd (s : State) : Host.Outcome State Fault Refusal :=
  .next (s.onDevice fun d => d.settle.runTo .flashRetry)

/-- FLASH_TIMEOUT (R181). -/
def execFlashTimeout (s : State) : Host.Outcome State Fault Refusal :=
  .next (s.onDevice fun d => d.settle.runTo .flashTimeout)

/-- HEADER_READ_COMPLETE (R181). -/
def execHeaderReadComplete (word0 : Word) (word1 : Word) (word2 : Word) (s : State) : Host.Outcome State Fault Refusal :=
  .next (s.onDevice fun d => d.settle.flashReturns ([word0, word1, word2].flatMap bytesOfWord) fun d => d.headerRead word0 word1 word2)

/-- IMAGE_READ_COMPLETE (R181). -/
def execImageReadComplete (words : List Word) (s : State) : Host.Outcome State Fault Refusal :=
  .next (s.onDevice fun d => d.settle.flashReturns (words.flatMap bytesOfWord) fun d => d.imageRead words)

/-- RST_OUT_RELEASE (R184). -/
def execRstOutRelease (s : State) : Host.Outcome State Fault Refusal :=
  .next (s.onDevice fun d => d.settle.runTo .rstOut)

end Sys2Proof.Machine
end

