-- ==== Sys2Proof/Machine/Dispatch.lean ====
section
/-! DEFINITION. One arm for each command. -/

namespace Sys2Proof.Machine

def exec (i : Instr) (s : State) : Host.Outcome State Fault Refusal :=
  match i with
  | .portRequest p r => Sys2Proof.Machine.execPortRequest p r s
  | .orderingEnd p => Sys2Proof.Machine.execOrderingEnd p s
  | .queueSpaceEntry p => Sys2Proof.Machine.execQueueSpaceEntry p s
  | .poolWaitService => Sys2Proof.Machine.execPoolWaitService s
  | .readAdmitted p => Sys2Proof.Machine.execReadAdmitted p s
  | .lockReservationHandoff p => Sys2Proof.Machine.execLockReservationHandoff p s
  | .arbiterGrant => Sys2Proof.Machine.execArbiterGrant s
  | .memoryCompletion merr data => Sys2Proof.Machine.execMemoryCompletion merr data s
  | .itemStart => Sys2Proof.Machine.execItemStart s
  | .consumerHoldSet => Sys2Proof.Machine.execConsumerHoldSet s
  | .holdLimitExpiry p => Sys2Proof.Machine.execHoldLimitExpiry p s
  | .poolWaitExpiry p => Sys2Proof.Machine.execPoolWaitExpiry p s
  | .lockLimitExpiry p => Sys2Proof.Machine.execLockLimitExpiry p s
  | .watchdogExpiry w => Sys2Proof.Machine.execWatchdogExpiry w s
  | .strobePulse x after => Sys2Proof.Machine.execStrobePulse x after s
  | .acquisitionTimeout x => Sys2Proof.Machine.execAcquisitionTimeout x s
  | .syncLost x => Sys2Proof.Machine.execSyncLost x s
  | .lctExpiry => Sys2Proof.Machine.execLctExpiry s
  | .readId => Sys2Proof.Machine.execReadId s
  | .readStatus => Sys2Proof.Machine.execReadStatus s
  | .readFlags => Sys2Proof.Machine.execReadFlags s
  | .clearFlags mask => Sys2Proof.Machine.execClearFlags mask s
  | .setEnable mask value => Sys2Proof.Machine.execSetEnable mask value s
  | .setLevel mask level => Sys2Proof.Machine.execSetLevel mask level s
  | .setThreshold threshold => Sys2Proof.Machine.execSetThreshold threshold s
  | .readLog => Sys2Proof.Machine.execReadLog s
  | .readWindow index => Sys2Proof.Machine.execReadWindow index s
  | .enable index => Sys2Proof.Machine.execEnable index s
  | .disable index => Sys2Proof.Machine.execDisable index s
  | .pause index => Sys2Proof.Machine.execPause index s
  | .resume index => Sys2Proof.Machine.execResume index s
  | .rearm index => Sys2Proof.Machine.execRearm index s
  | .selectSource index source => Sys2Proof.Machine.execSelectSource index source s
  | .commitNow index => Sys2Proof.Machine.execCommitNow index s
  | .timerStart period => Sys2Proof.Machine.execTimerStart period s
  | .timerStop period => Sys2Proof.Machine.execTimerStop period s
  | .timerPeriod period => Sys2Proof.Machine.execTimerPeriod period s
  | .readSources => Sys2Proof.Machine.execReadSources s
  | .readPorts => Sys2Proof.Machine.execReadPorts s
  | .readResetCause => Sys2Proof.Machine.execReadResetCause s
  | .softResetDatapath => Sys2Proof.Machine.execSoftResetDatapath s
  | .softResetFull => Sys2Proof.Machine.execSoftResetFull s
  | .unknownCommand frame => Sys2Proof.Machine.execUnknownCommand frame s
  | .frameAbort => Sys2Proof.Machine.execFrameAbort s
  | .pwrRst => Sys2Proof.Machine.execPwrRst s
  | .rstIn => Sys2Proof.Machine.execRstIn s
  | .linkReset => Sys2Proof.Machine.execLinkReset s
  | .resetRelease straps => Sys2Proof.Machine.execResetRelease straps s
  | .settleEnd straps => Sys2Proof.Machine.execSettleEnd straps s
  | .flashAnswer b => Sys2Proof.Machine.execFlashAnswer b s
  | .flashRetryWaitEnd => Sys2Proof.Machine.execFlashRetryWaitEnd s
  | .flashTimeout => Sys2Proof.Machine.execFlashTimeout s
  | .imageReadComplete words => Sys2Proof.Machine.execImageReadComplete words s
  | .rstOutRelease => Sys2Proof.Machine.execRstOutRelease s
  | .headerReadComplete word0 word1 word2 => Sys2Proof.Machine.execHeaderReadComplete word0 word1 word2 s
  | .pwrRstRelease => Sys2Proof.Machine.execPwrRstRelease s

end Sys2Proof.Machine
end

