-- ==== Sys2Proof/Machine/Step.lean ====
section
/-! DEFINITION. One step of the block: the command at the front of its queue, or what the part does by itself. -/

namespace Sys2Proof.Machine

/-- One step: the front command runs on the queue's rest; with no command waiting the part acts by itself (log 3). -/
def step (s : State) : Host.Outcome State Fault Refusal :=
  match s.pending with
  | c :: rest => exec c { s with pending := rest }
  | [] => .next (s.onDevice Device.idle)

/-- The command that a word spells, put at the front of the queue; the table gives no row any bits, so none is spelt. -/
def State.withFetchWord (s : State) (nbits w : Nat) : State :=
  match decodeTableWord nbits w with
  | some c => { s with pending := c :: s.pending }
  | none => s

end Sys2Proof.Machine
end

