-- ==== Sys2Proof/Safety.lean ====
section
/-! DEFINITION. The words the statements are made of: when a command is taken as its rules give it, and what every step keeps. -/

namespace Sys2Proof.Machine

/-! ## When a command is taken -/

/-- No event of the present moment is left to take (log 2). -/
abbrev Settled (d : Device) : Prop := d.urgent = none

/-- READY, PWR_RST not asserted: a management command meets neither step 2 of R176 nor R175's hold. -/
abbrev Serving (d : Device) : Prop := Settled d ∧ d.startup.state = .ready ∧ d.startup.pwrRst = false

/-- READY with a loaded image: step 3 of R176 does not apply either. -/
abbrev ServingWindows (d : Device) : Prop := Serving d ∧ d.startup.transparent = false

/-- A port that can take a request of the rules of READY (R127, R141). -/
abbrev Takes (d : Device) (p : Port) : Prop := Settled d ∧ d.startup.state = .ready ∧ (d.port p).current = none

/-- A port that can take a request, with no sequence in hand (R151). -/
abbrev TakesUnlocked (d : Device) (p : Port) : Prop := Takes d p ∧ (d.port p).lock = .noLock

/-- A timer that runs out t bus clock periods from now, with nothing due before it (log 4). -/
abbrev NextDue (d : Device) (e : Expiry) (t : Nat) : Prop :=
  Settled d ∧ d.timeLeft e = some t ∧ ∀ x ∈ d.dueTimes, t ≤ x

/-- The part t bus clock periods on; no grant is made in them (log 4). -/
def Device.reached (d : Device) (t : Nat) : Device := if t = 0 then d else d.advance t

/-- The part with an answer on the management link: a status byte and data, in TURNAROUND (R174). MDO at 0 from the taking edge on is the
model's choice (log 20). -/
def Device.answering (d : Device) (bytes : List Byte) : Device := { d with link := ⟨.turnaround, true, [], [], bytes, 0, some false⟩ }

/-- The row of the opcode table that an event of the present moment is; RESET is left with the strap levels that State holds (log 22). -/
def Urgent.row (straps : Straps) : Urgent → Instr
  | .resetRelease => .resetRelease straps
  | .reservation p => .lockReservationHandoff p
  | .orderingEnd p => .orderingEnd p
  | .queueSpace p => .queueSpaceEntry p
  | .poolService => .poolWaitService
  | .readAdmitted p => .readAdmitted p
  | .holdSet => .consumerHoldSet
  | .itemStart => .itemStart

/-- The row of the opcode table that a timer which runs out is. -/
def Expiry.row : Expiry → Instr
  | .holdLimit p => .holdLimitExpiry p
  | .poolWait p => .poolWaitExpiry p
  | .lockLimit p => .lockLimitExpiry p
  | .watchdog w => .watchdogExpiry w
  | .acquisition x => .acquisitionTimeout x
  | .sync x => .syncLost x
  | .lct => .lctExpiry
  | .settleEnd straps => .settleEnd straps
  | .flashRetry => .flashRetryWaitEnd
  | .flashTimeout => .flashTimeout
  | .rstOut => .rstOutRelease

/-- What each event of the present moment waits for: neither reset input asserted (R183); the exclusive memory lock FREE and a read held on
lock wait (R153); an empty queue (R136); room for a held write (R132); a waiter at the head not yet checked, or more free entries than
at its last check (R44; how the check is kept is log 30's); no hold raised that a held read waits on (R72, R73); the running item in
STARTING and no admitted read of its window (R72); the item at the head not started (R71). -/
def Due (d : Device) : Urgent → Prop
  | .resetRelease => d.startup.state = .reset ∧ d.startup.pwrRst = false ∧ d.startup.rstIn = false
  | .reservation p => d.mem.exclusive = .free ∧ ∃ c, (d.port p).current = some c ∧ c.phase = .held .lockWait
  | .orderingEnd p => ∃ c, (d.port p).current = some c ∧ c.phase = .ordering ∧ (d.port p).queue = []
  | .queueSpace p => ∃ c, (d.port p).current = some c ∧ c.phase = .held .queueSpace ∧
      (d.port p).queue.length + c.request.beats.length ≤ 4
  | .poolService => ∃ x rest, d.poolWait = x :: rest ∧ (d.port x.port).current ≠ none ∧
      ∀ n, x.checkedAt = some n → n < 256 - d.entries.length
  | .readAdmitted p => ∃ c, (d.port p).current = some c ∧ c.phase = .held .consumerHold ∧
      ∀ w ∈ d.waitsOn c, (d.rt w).holdRequest = false ∧ (d.rt w).consumerHold = false
  | .holdSet => ∃ w k pr rest, d.commitQueue = ⟨w, k, some pr⟩ :: rest ∧ pr.phase = .starting ∧
      ∀ p c, (d.port p).current = some c → c.phase = .performing → w ∉ d.waitsOn c
  | .itemStart => ∃ w k rest, d.commitQueue = ⟨w, k, none⟩ :: rest

/-- Some events of one moment, each the first that is due when it is taken, lead from one state of the part to one in which none is
left (log 2). -/
def Moment : List Urgent → Device → Device → Prop
  | [], d, t => t = d ∧ Settled d
  | u :: us, d, t => d.urgent = some u ∧ Moment us (d.take u) t

/-- The commands that are themselves events of the present moment (log 2). -/
def ownEvent : Instr → Bool
  | .orderingEnd _ => true
  | .queueSpaceEntry _ => true
  | .poolWaitService => true
  | .readAdmitted _ => true
  | .lockReservationHandoff _ => true
  | .itemStart => true
  | .consumerHoldSet => true
  | .resetRelease _ => true
  | .portRequest _ _ | .arbiterGrant | .memoryCompletion _ _ | .holdLimitExpiry _ | .poolWaitExpiry _ | .lockLimitExpiry _
  | .watchdogExpiry _ | .strobePulse _ _ | .acquisitionTimeout _ | .syncLost _ | .lctExpiry | .readId | .readStatus
  | .readFlags | .clearFlags _ | .setEnable _ _ | .setLevel _ _ | .setThreshold _ | .readLog | .readWindow _ | .enable _
  | .disable _ | .pause _ | .resume _ | .rearm _ | .selectSource _ _ | .commitNow _ | .timerStart _ | .timerStop _
  | .timerPeriod _ | .readSources | .readPorts | .readResetCause | .softResetDatapath | .softResetFull
  | .unknownCommand _ | .frameAbort | .pwrRst | .rstIn | .linkReset | .settleEnd _ | .flashAnswer _
  | .flashRetryWaitEnd | .flashTimeout | .imageReadComplete _ | .rstOutRelease | .headerReadComplete _ _ _
  | .pwrRstRelease => false

/-- The commands that a management frame carries (R174). -/
def managementCommand : Instr → Bool
  | .unknownCommand (.edge _) => false
  | .readId | .readStatus | .readFlags | .clearFlags _ | .setEnable _ _ | .setLevel _ _ | .setThreshold _ | .readLog
  | .readWindow _ | .enable _ | .disable _ | .pause _ | .resume _ | .rearm _ | .selectSource _ _ | .commitNow _
  | .timerStart _ | .timerStop _ | .timerPeriod _ | .readSources | .readPorts | .readResetCause | .softResetDatapath
  | .softResetFull | .unknownCommand _ => true
  | .portRequest _ _ | .orderingEnd _ | .queueSpaceEntry _ | .poolWaitService | .readAdmitted _
  | .lockReservationHandoff _ | .arbiterGrant | .memoryCompletion _ _ | .itemStart | .consumerHoldSet
  | .holdLimitExpiry _ | .poolWaitExpiry _ | .lockLimitExpiry _ | .watchdogExpiry _ | .strobePulse _ _
  | .acquisitionTimeout _ | .syncLost _ | .lctExpiry | .pwrRst | .rstIn | .linkReset | .resetRelease _ | .settleEnd _
  | .flashAnswer _ | .flashRetryWaitEnd | .flashTimeout | .imageReadComplete _ | .rstOutRelease
  | .headerReadComplete _ _ _ | .pwrRstRelease | .frameAbort => false

/-- The commands that step 2 of R176 answers NOT_READY before READY. -/
def needsReady : Instr → Bool
  | .readId | .readStatus | .unknownCommand (.command _) => false
  | c => managementCommand c

/-- The commands that step 3 of R176 refuses in transparent mode. -/
def needsImage : Instr → Bool
  | .enable _ | .disable _ | .pause _ | .resume _ | .rearm _ | .selectSource _ _ | .commitNow _
  | .unknownCommand (.windowCtrl _ _) => true
  | _ => false

/-! ## What resets and loads leave -/

/-- The source that R102's table gives a defined window. -/
def tableSource (m : Monitors) (selected : Source) (fallback : Fallback) : Source :=
  match selected, fallback with
  | .tsa, .lct => if m.tsa.state = .present then .tsa else .lct
  | .tsb, .lct => if m.tsb.state = .present then .tsb else .lct
  | .fms, .lct => if m.fms.state = .present then .fms else .lct
  | .fme, .lct => if m.fme.state = .present then .fme else .lct
  | .tsa, .hold => .tsa
  | .tsb, .hold => .tsb
  | .fms, .hold => .fms
  | .fme, .hold => .fme
  | .lct, _ => .lct
  | .close, _ => .close
  | .manual, _ => .manual

/-- An outstanding access becomes dropped (R146). -/
def cutOff (o : Outstanding) : Outstanding := { o with dropped := true }

/-- An outstanding access becomes dropped if its owner has been ended (R146, R150). -/
def cutOffIf (f : Owner → Bool) (o : Outstanding) : Outstanding := { o with dropped := o.dropped || f o.owner }

/-- A port unit that a reset has cut short (R142, R144): the posted-words-lost counter takes the slots not issued. -/
def resetPort (d : Device) (p : Port) : PortUnit :=
  { d.port p with
    current := none, holdTimer := none, queue := [], lock := .noLock
    answer := if (d.port p).current = none then (d.port p).answer
      else some ⟨match (d.port p).kind with | .retryCapable => .retry | .holdOnly => .error, []⟩
    counters := ⟨0, 0, 0,
      BitVec.ofNat 16 ((d.port p).queue.length - if d.inFlight (.posted p) then 1 else 0)⟩ }

/-- A slot in its start state with every monitor ABSENT (R7, R10, R25, R102). -/
def restarted (x : Window) : Window :=
  match x.desc with
  | none => .empty
  | some ds =>
    { desc := some ds
      rt := { Runtime.off with
        state := if ds.startRunning then .running else .off
        openEpoch := if ds.startRunning then 1 else 0
        watchdog := if ds.startRunning then ds.watchdogPeriod.map (· * 10) else none
        selected := ds.source
        effective := tableSource .reset ds.source ds.fallback } }

/-- Transparent mode (R182). -/
def transparentMode (d : Device) : Device :=
  { d with
    windows := Vector.replicate 16 .empty
    safeStore := []
    monitors := ⟨.reset, .reset, .reset, .reset⟩
    lct := ⟨false, 1000, none, none⟩
    fault := { d.fault with enables := 0, levels := 0, threshold := 0 }
    config := .transparent
    startup := { d.startup with
      state := .ready, transparent := true, rstOutTimer := some 10000, loader := .idle, flashTimer := none,
      fsel := false, flash := .idle } }

/-- A load that ended with a cause (R182): transparent mode, CONFIG and a CONFIG record. -/
def failedLoad (d : Device) (k : ConfigCause) : Device :=
  ((transparentMode d).setFlag .config).offer
    { kind := .config, detail := some (.config k), window := none, port := none, address := none, epoch := none }

/-- STRAPS (R129, R183): the port kinds as sampled, then LOAD or transparent READY. -/
def sampled (x : Straps) (d : Device) : Device :=
  let d1 : Device := { d with
    straps := x
    portA := { d.portA with kind := if x.rtyA then .retryCapable else .holdOnly }
    portB := { d.portB with kind := if x.rtyB then .retryCapable else .holdOnly } }
  if x.cfgEn then
    { d1 with startup := { d1.startup with
        state := .load, loader := .awaiting, flashTimer := some 50000, fsel := true, flash := .idle } }
  else transparentMode d1

/-! ## What the store and the commit engine leave -/

/-- A producer write as it stands accepted, before any event it may be (R36 to R39, R122): staged whole and answered OKAY; the watchdog
of a RUNNING window restarts; a write of the closing word sets the close mark, and re-arms a TRIPPED window with auto re-arm. -/
def acceptedWrite (d : Device) (p : Port) (w : Slot16) (ds : Descriptor) (r : Request) : Device :=
  let covers := d.coversClosing w r
  let rearms := covers && (d.rt w).state == .tripped && ds.autoRearm
  ({ d with entries := stageBeats w ((r.address.toNat - ds.base) / 4) r.beats d.entries }.modPort p fun u =>
    { u with current := none, holdTimer := none, answer := some ⟨.okay, []⟩ }).modRt w fun x =>
    { x with
      closeMark := x.closeMark || covers
      watchdog := if (d.rt w).state = WindowState.running ∨ rearms = true then ds.watchdogPeriod.map (· * 10) else x.watchdog
      state := if rearms = true then WindowState.running else x.state
      safeLoadPending := x.safeLoadPending && !rearms }

/-- A lock on a word has ended (R153, R156): its record, the exclusive memory lock if the port HOLDS it, and the deferred events of
the word. -/
def lockEnded (d : Device) (p : Port) (word : Nat) (final : LockRecord) : Device :=
  ({ d.modPort p fun u => { u with lock := final } with
    mem := { d.mem with exclusive := if d.mem.exclusive = .held p then .free else d.mem.exclusive } } : Device).takeDeferred word

/-- The item at the head completes (R77, R79, R80): the hold and its request clear, CMT is set, and the item leaves the queue. -/
def completedItem (d : Device) (w : Slot16) (k : ItemKind) (rest : List Item) : Device :=
  match k with
  | .epoch =>
    { (d.modRt w fun r =>
        { r with
          consumerHold := false, holdRequest := false, safeAfterItem := false, drainingEpoch := none
          lastCommitted := r.drainingEpoch.getD r.lastCommitted
          counters := { r.counters with commits := satInc r.counters.commits } }).setFlag (.cmt w) with
      commitQueue := rest ++ (if (d.rt w).safeAfterItem then [⟨w, .safe, none⟩] else []) }
  | .safe =>
    { (d.modRt w fun r => { r with consumerHold := false, holdRequest := false }).setFlag (.cmt w) with commitQueue := rest }

/-- The item at the head enters STATUS (R77, R79, R82, R84): with a status block it is formed and the report marks clear; without one
the item completes. -/
def statusEntered (d : Device) (w : Slot16) (k : ItemKind) (pr : Progress) (rest : List Item) : Device :=
  if d.statusBlockOn w = true ∧ d.config.statusArea ≠ none then
    { d.modRt w fun r => { r with lateSince := false, overrunSince := false } with
      commitQueue := ⟨w, k, some { pr with phase := .status, block := statusWords d w k pr, statusDone := 0 }⟩ :: rest }
  else completedItem d w k rest

/-- The words of the safe images of the windows below one, which stand before its own in the safe-image store (R123). -/
def wordsBelow (d : Device) (w : Slot16) : Nat :=
  ((allWindows.filter fun v => decide (v < w)).map fun v =>
    match (d.win v).desc with
    | some ds => ds.safeCount
    | none => 0).sum

/-! ## What every step keeps -/

/-- Sequence numbers are consecutive in the order stored, and the next number follows the last one (R169). -/
def numbered : List FaultRecord → BitVec 16 → Bool
  | [], _ => true
  | [x], next => next == sequenceAfter x.sequence
  | x :: y :: rest, next => y.sequence == sequenceAfter x.sequence && numbered (y :: rest) next

/-- The log holds at most sixteen records, numbered consecutively, and the next number is one of 1..65535 (R169). -/
abbrev LogKept (d : Device) : Prop :=
  d.fault.log.length ≤ 16 ∧ numbered d.fault.log d.fault.nextSequence = true ∧ d.fault.nextSequence ≠ 0

/-- Neither posted-write queue holds more than four slots (R131). -/
abbrev QueuesKept (d : Device) : Prop := d.portA.queue.length ≤ 4 ∧ d.portB.queue.length ≤ 4

/-- The store holds at most 256 entries (R31). -/
abbrev StoreKept (d : Device) : Prop := d.entries.length ≤ 256

/-- The commit queue holds at most one item for each window (R70). -/
abbrev ItemsKept (d : Device) : Prop := (d.commitQueue.map Item.window).Nodup

/-- The rotation order holds each of the three requesters once (R149). -/
abbrev RotationKept (d : Device) : Prop :=
  d.mem.rotation.length = 3 ∧ Requester.channel .a ∈ d.mem.rotation ∧ Requester.channel .b ∈ d.mem.rotation ∧
  Requester.engine ∈ d.mem.rotation

/-- Every defined window's effective source is the one the table gives (R102). -/
abbrev SourcesKept (d : Device) : Prop :=
  ∀ w : Slot16, ∀ ds, (d.win w).desc = some ds →
    (d.rt w).effective = tableSource d.monitors (d.rt w).selected ds.fallback

end Sys2Proof.Machine
end

