-- ==== Sys2Proof/WellFormed.lean ====
section
/-! DEFINITION. Which commands are well formed: the operands that the wires and the layouts can carry. -/

namespace Sys2Proof

/-- The command bytes of the management frame layout table. -/
def commandCodes : List Nat :=
  [0x01, 0x02, 0x10, 0x11, 0x12, 0x13, 0x14, 0x15, 0x20, 0x21, 0x22, 0x23, 0x30, 0x31, 0x32, 0x40, 0x41]

/-- What indeed names nothing: no command, no WINDOW_CTRL or TIMER action, no SOFT_RESET target. -/
def UnnamedFrame.wf : UnnamedFrame → Bool
  | .command code => !commandCodes.contains code.toNat
  | .windowCtrl _ action => !(decide (1 ≤ action.toNat) && decide (action.toNat ≤ 5))
  | .timer action _ => !(decide (1 ≤ action.toNat) && decide (action.toNat ≤ 3))
  | .softReset target => !(decide (1 ≤ target.toNat) && decide (target.toNat ≤ 2))
  | .edge _ => true

/-- Well-formedness of a command. The beat count of a request is a 4-bit field (0 and 9..15 are malformed requests, not
ill-formed commands); an image of 146..658 words leaves 143..655 words after its header. -/
def Instr.wf : Instr → Bool
  | .portRequest _ r => decide (r.beats.length ≤ 15)
  | .unknownCommand f => f.wf
  | .imageReadComplete ws => decide (143 ≤ ws.length) && decide (ws.length ≤ 655)
  | .orderingEnd _ | .queueSpaceEntry _ | .poolWaitService | .readAdmitted _
  | .lockReservationHandoff _ | .arbiterGrant | .memoryCompletion _ _ | .itemStart | .consumerHoldSet
  | .holdLimitExpiry _ | .poolWaitExpiry _ | .lockLimitExpiry _ | .watchdogExpiry _ | .strobePulse _ _
  | .acquisitionTimeout _ | .syncLost _ | .lctExpiry | .readId | .readStatus | .readFlags | .clearFlags _
  | .setEnable _ _ | .setLevel _ _ | .setThreshold _ | .readLog | .readWindow _ | .enable _ | .disable _
  | .pause _ | .resume _ | .rearm _ | .selectSource _ _ | .commitNow _ | .timerStart _ | .timerStop _
  | .timerPeriod _ | .readSources | .readPorts | .readResetCause | .softResetDatapath | .softResetFull
  | .frameAbort | .pwrRst | .rstIn | .linkReset | .resetRelease _ | .settleEnd _ | .flashAnswer _
  | .flashRetryWaitEnd | .flashTimeout | .rstOutRelease | .headerReadComplete _ _ _ | .pwrRstRelease => true

end Sys2Proof
end

