-- ==== Sys2Proof/Certificates/Slice0/Obligations.lean ====
section
/-! DEFINITION. The statements for the provers. -/

section Statements

open Sys2Proof Sys2Proof.Machine

/-! ## The machine -/

/-- The command at the front of the queue runs on the queue's rest (log 1). -/
def Obligations.StepRunsFrontCommand : Prop :=
  ∀ (c : Instr) (rest : List Instr) (d : Device), step ⟨d, c :: rest⟩ = exec c ⟨d, rest⟩

/-- With no command waiting (the model's choice, log 3): an event of the moment, a timer that has run out, a grant, or one bus
clock period, in this order, each as the command of its row does it. When each event of the moment is due (R44, R71, R72, R73, R132, R136,
R153, R183; how a check of the pool-wait list is kept is log 30's, the straps that RESET_RELEASE carries are log 22's); what an event
leaves, and what a timer that has run out leaves, is what exec of its row leaves. What the passing of time gives: device time and the
microsecond timers count whole microseconds, with device time's wrap (R98, R110, R137, R157, R166), the monitors' references age in bus
clock periods (R90), and nothing else changes. How far off an expiry is: a microsecond timer reaches 0 with the increase of device time
that brings it there, and a loss deadline stands 1.5P after its reference (R90); nothing else is waited for. The bus clock's rate and
phase (log 6), the order of timers that have run out (log 3), and the order of watchdogs that the same period brings to 0 (log 36), are
the model's. -/
def Obligations.IdleStepActsByItself : Prop :=
  (∀ (d : Device) (q : List Instr),
    (∀ u, exec (u.row d.straps) ⟨d, q⟩ = .next ⟨d.take u, q⟩) ∧
    (∀ u, d.isReady u = true ↔ Due d u) ∧
    (∀ e, Settled d → d.timeLeft e = some 0 → exec e.row ⟨d, q⟩ = .next ⟨(d.expire e).tripExpired, q⟩)) ∧
  (∀ d : Device,
    let expiries : List Expiry :=
      [.holdLimit .a, .holdLimit .b, .poolWait .a, .poolWait .b, .lockLimit .a, .lockLimit .b] ++
      (List.finRange 16).map .watchdog ++
      [.acquisition .tsa, .sync .tsa, .acquisition .tsb, .sync .tsb, .acquisition .fms, .sync .fms, .acquisition .fme, .sync .fme,
        .lct, .settleEnd d.straps, .flashRetry, .flashTimeout, .rstOut]
    let quiet : Prop := Settled d ∧ ∀ e, d.timeLeft e ≠ some 0
    let eligible : Requester → Prop := fun r => d.pendingOf r ≠ none ∧ ∀ p, d.mem.exclusive = .held p → r = .channel p
    (∀ u, d.urgent = some u → step ⟨d, []⟩ = exec (u.row d.straps) ⟨d, []⟩) ∧
    (∀ before e after, Settled d → expiries = before ++ e :: after → d.timeLeft e = some 0 →
      (∀ x ∈ before, d.timeLeft x ≠ some 0) → step ⟨d, []⟩ = exec e.row ⟨d, []⟩) ∧
    (quiet → d.mem.outstanding = none → (∃ r ∈ d.mem.rotation, eligible r) → step ⟨d, []⟩ = exec .arbiterGrant ⟨d, []⟩) ∧
    (quiet → (d.mem.outstanding ≠ none ∨ ∀ r ∈ d.mem.rotation, ¬eligible r) →
      step ⟨d, []⟩ = .next ⟨(d.advance 1).tripExpired, []⟩)) ∧
  (∀ (d : Device) (n : Nat),
    let us := (d.clock.sub + n) / d.clock.perUs
    let down : Option Nat → Option Nat := fun x => x.map (· - us)
    let t := d.advance n
    t.clock = ⟨d.clock.deviceTime + BitVec.ofNat 32 us, (d.clock.sub + n) % d.clock.perUs, d.clock.perUs⟩ ∧
    (∀ w, t.win w = { d.win w with rt := { d.rt w with watchdog := down (d.rt w).watchdog } }) ∧
    (∀ p, t.port p = { d.port p with
      holdTimer := down (d.port p).holdTimer
      lock := match (d.port p).lock with
        | .opened k a rem => .opened k a (rem - us)
        | .closing k a rem => .closing k a (down rem)
        | l => l }) ∧
    (∀ x, t.monitors.get x = { d.monitors.get x with since := (d.monitors.get x).since.map (· + n) }) ∧
    t.lct = { d.lct with remaining := down d.lct.remaining } ∧
    t.startup = { d.startup with
      settleTimer := down d.startup.settleTimer, rstOutTimer := down d.startup.rstOutTimer
      flashTimer := down d.startup.flashTimer
      loader := match d.startup.loader with | .retryWait rem => .retryWait (rem - us) | l => l } ∧
    (t.entries, t.poolWait, t.safeStore, t.commitQueue, t.mem, t.fault, t.link, t.straps, t.config, t.freeIndex) =
      (d.entries, d.poolWait, d.safeStore, d.commitQueue, d.mem, d.fault, d.link, d.straps, d.config, d.freeIndex)) ∧
  (∀ d : Device, 0 < d.clock.perUs →
    let left : Option Nat → Option Nat := fun x => x.map d.clock.untilZero
    (∀ us n, d.clock.untilZero us ≤ n ↔ us ≤ (d.clock.sub + n) / d.clock.perUs) ∧
    (∀ x, (d.monitors.get x).since = none → d.untilLoss x = none) ∧
    (∀ x e, (d.monitors.get x).since = some e → ∃ u, d.untilLoss x = some u ∧
      ∀ n, u ≤ n ↔ 3 * (d.period x * d.clock.perUs) ≤ 2 * (e + n)) ∧
    (∀ p c k, (d.port p).current = some c → c.phase = .held k → k ≠ .poolWait →
      d.timeLeft (.holdLimit p) = left (d.port p).holdTimer) ∧
    (∀ p, (∀ c k, (d.port p).current = some c → c.phase = .held k → k = .poolWait) → d.timeLeft (.holdLimit p) = none) ∧
    (∀ p c, (d.port p).current = some c → c.phase = .held .poolWait → d.timeLeft (.poolWait p) = left (d.port p).holdTimer) ∧
    (∀ p, (∀ c, (d.port p).current = some c → c.phase ≠ .held .poolWait) → d.timeLeft (.poolWait p) = none) ∧
    (∀ p k a rem, (d.port p).lock = .opened k a rem → d.timeLeft (.lockLimit p) = left (some rem)) ∧
    (∀ p k a rem, (d.port p).lock = .closing k a rem → d.timeLeft (.lockLimit p) = left rem) ∧
    (∀ p, (∀ k a rem, (d.port p).lock ≠ .opened k a rem) → (∀ k a rem, (d.port p).lock ≠ .closing k a rem) →
      d.timeLeft (.lockLimit p) = none) ∧
    (∀ w, d.timeLeft (.watchdog w) = left (d.rt w).watchdog) ∧
    (∀ x, d.timeLeft (.acquisition x) = if (d.monitors.get x).state = .acquiring then d.untilLoss x else none) ∧
    (∀ x, d.timeLeft (.sync x) = if (d.monitors.get x).state = .present then d.untilLoss x else none) ∧
    d.timeLeft .lct = left d.lct.remaining ∧
    (∀ straps, d.timeLeft (.settleEnd straps) = left d.startup.settleTimer) ∧
    (∀ rem, d.startup.loader = .retryWait rem → d.timeLeft .flashRetry = left (some rem)) ∧
    ((∀ rem, d.startup.loader ≠ .retryWait rem) → d.timeLeft .flashRetry = none) ∧
    d.timeLeft .flashTimeout = left d.startup.flashTimer ∧
    d.timeLeft .rstOut = left d.startup.rstOutTimer ∧
    (∀ e t, d.timeLeft e = some t → t ∈ d.dueTimes) ∧
    (∀ t, t ∈ d.dueTimes ↔
      (∃ w, left (d.rt w).watchdog = some t) ∨
      (∃ p, left (d.port p).holdTimer = some t) ∨
      (∃ p k a rem, (d.port p).lock = .opened k a rem ∧ left (some rem) = some t) ∨
      (∃ p k a rem, (d.port p).lock = .closing k a rem ∧ left rem = some t) ∨
      left d.lct.remaining = some t ∨ left d.startup.settleTimer = some t ∨ left d.startup.rstOutTimer = some t ∨
      (∃ rem, d.startup.loader = .retryWait rem ∧ left (some rem) = some t) ∨ left d.startup.flashTimer = some t ∨
      (∃ x, d.untilLoss x = some t)))

/-- A command that is no event of the present moment acts on the part with those events taken, one after the other until none is due, each
the first one due in the model's order (log 2): it does what it does on what the row of the first event due leaves. What such an event
leaves is what exec of its row leaves. The events of a moment come to an end, and a command that then only ends a frame, FRAME_ABORT
(R174), shows the part as they leave it. What each event waits for: R44, R71, R72, R73, R132, R136, R153, R183. -/
def Obligations.CommandsFollowEventsOfTheMoment : Prop :=
  (∀ (d : Device) (u : Urgent), d.urgent = some u ↔ ∃ before after,
    [Urgent.resetRelease, .reservation .a, .reservation .b, .orderingEnd .a, .orderingEnd .b, .queueSpace .a, .queueSpace .b,
      .poolService, .readAdmitted .a, .readAdmitted .b, .holdSet, .itemStart] = before ++ u :: after ∧
    Due d u ∧ ∀ v ∈ before, ¬Due d v) ∧
  (∀ (c : Instr) (d : Device) (u : Urgent) (q : List Instr), ownEvent c = false → d.urgent = some u →
    exec (u.row d.straps) ⟨d, q⟩ = .next ⟨d.take u, q⟩ ∧ exec c ⟨d, q⟩ = exec c ⟨d.take u, q⟩) ∧
  (∀ (d : Device) (q : List Instr), ∃ events t, Moment events d t ∧ Settled t ∧
    exec .frameAbort ⟨d, q⟩ = .next ⟨{ t with link := ⟨.idle, false, [], [], [], 0, none⟩ }, q⟩)

/-- What the manual gives for the state that PWR_RST leaves (R25, R59, R88, R108, R125, R129, R142, R150, R160, R166, R172, R173,
R175, R183 to R186). -/
def Obligations.PowerOnStateHoldsSpecValues : Prop :=
  let d := State.reset.dev
  State.reset.pending = [] ∧
  d.startup.state = .reset ∧ d.startup.rstOut = true ∧ d.startup.settled = false ∧ d.startup.pwrRst = true ∧
  d.startup.fsel = false ∧ d.startup.cause = ⟨.pwrRst, none, 0⟩ ∧ d.startup.transparent = false ∧
  d.startup.settleTimer = none ∧ d.startup.rstOutTimer = none ∧ d.startup.flashTimer = none ∧ d.startup.loader = .idle ∧
  (∀ w, (d.win w).desc = none ∧ (d.rt w).state = .off ∧ (d.rt w).counters = .zero ∧ (d.rt w).watchdog = none ∧
    (d.rt w).openEpoch = 0 ∧ (d.rt w).lastCommitted = 0 ∧ (d.rt w).drainingEpoch = none ∧ (d.rt w).closeMark = false ∧
    (d.rt w).safeLoadPending = false ∧ (d.rt w).consumerHold = false ∧ (d.rt w).holdRequest = false ∧
    (d.rt w).deferredCommit = false ∧ (d.rt w).safeAfterItem = false ∧ (d.rt w).lateSince = false ∧
    (d.rt w).overrunSince = false) ∧
  d.entries = [] ∧ d.poolWait = [] ∧ d.safeStore = [] ∧ d.commitQueue = [] ∧ d.freeCount = 256 ∧
  d.mem.rotation = [.channel .a, .channel .b, .engine] ∧ d.mem.exclusive = .free ∧
  (∀ p, (d.port p).kind = .holdOnly ∧ (d.port p).current = none ∧ (d.port p).holdTimer = none ∧ (d.port p).queue = [] ∧
    (d.port p).lock = .noLock ∧ (d.port p).counters = ⟨0, 0, 0, 0⟩) ∧
  (∀ x, d.monitors.get x = ⟨.absent, 0, none, 0, 0⟩) ∧
  d.lct.running = false ∧ d.lct.next = none ∧ d.lct.remaining = none ∧
  d.fault.flags = 0 ∧ d.fault.enables = 0 ∧ d.fault.levels = 0 ∧ d.fault.threshold = 0 ∧ d.fault.irq = false ∧
  d.fault.lvl = 0 ∧ d.fault.log = [] ∧ d.fault.nextSequence = 1 ∧ d.fault.overflow = 0 ∧
  d.clock.deviceTime = 0 ∧ d.link.phase = .idle

/-! ## Requests -/

/-- Outside READY a request is answered at once by the port's kind (R141); in READY a port with a request in progress takes no
other (R127; that such a command then does nothing is the model's choice, log 13). -/
def Obligations.RequestIsNotTaken : Prop :=
  ∀ (s : State) (p : Port) (r : Request), Settled s.dev →
    (s.dev.startup.state ≠ .ready →
      exec (.portRequest p r) s = .next { s with
        dev := s.dev.modPort p fun u =>
          { u with
            current := none, holdTimer := none
            answer := some ⟨match u.kind with | .retryCapable => .retry | .holdOnly => .error, []⟩ } }) ∧
    (s.dev.startup.state = .ready → (s.dev.port p).current ≠ none → exec (.portRequest p r) s = .next s)

/-- A malformed request is answered ERROR with ACCESS, a MALFORMED record and the refusal counter; a BROKEN lock record turns to
NONE (R18, R23; for the BROKEN record, log 12). -/
def Obligations.MalformedRequestIsRefused : Prop :=
  ∀ (s : State) (p : Port) (r : Request), Takes s.dev p →
    (r.address.toNat % 4 ≠ 0 ∨ (∃ b ∈ r.beats, b.mask = 0) ∨ r.beats.length = 0 ∨ 8 < r.beats.length ∨
      0xFFFFFC < r.address.toNat + 4 * (r.beats.length - 1) ∨ (r.locked = true ∧ 1 < r.beats.length)) →
    exec (.portRequest p r) s = .next { s with
      dev := (((s.dev.setFlag .access).offer
        { kind := .access, detail := some (.access .malformed), window := none, port := some p,
          address := some r.address.toNat, epoch := none }).modPort p fun u =>
        { u with
          current := none, holdTimer := none, answer := some ⟨.error, []⟩
          lock := match u.lock with | .broken _ => .noLock | l => l
          counters := { u.counters with refusals := satInc u.counters.refusals } }) }

/-- A well-formed request that steps 2 to 5 refuse is answered ERROR with ACCESS, a record of the detail, and the refusal counter
(R23). -/
def Obligations.RefusedByClassification : Prop :=
  ∀ (s : State) (p : Port) (r : Request) (k : AccessDetail) (w : Option Slot16), TakesUnlocked s.dev p →
    requestMalformed r = false → ¬(r.locked = true ∧ r.kind = .write) → s.dev.classify p r = .refuse k w →
    exec (.portRequest p r) s = .next { s with
      dev := (((s.dev.setFlag .access).offer
        { kind := .access, detail := some (.access k), window := w, port := some p,
          address := some r.address.toNat, epoch := none }).modPort p fun u =>
        { u with
          current := none, holdTimer := none, answer := some ⟨.error, []⟩
          counters := { u.counters with refusals := satInc u.counters.refusals } }) }

/-- Step 1 with a lock record: with none, a locked write is ACCESS LOCK_MISUSE (R18); while a lock is open, any well-formed request but
the closing write is refused with LOCK and a LOCK_MISUSE record, and the lock stays open (R155); a late closing write is refused with
LOCK and a LOCK_LATE record, and the BROKEN record becomes NONE (R158). Each counts a refusal and is answered ERROR. Any other
well-formed request turns a BROKEN record to NONE and is handled as if it had been NONE (R158). -/
def Obligations.LockRecordTurnsRequestsAway : Prop :=
  (∀ (s : State) (p : Port) (r : Request), Takes s.dev p → requestMalformed r = false →
    let refused : Flag → Report → LockRecord → Prop := fun f report l =>
      exec (.portRequest p r) s = .next { s with
        dev := ((s.dev.setFlag f).offer report).modPort p fun u =>
          { u with
            current := none, holdTimer := none, answer := some ⟨.error, []⟩, lock := l
            counters := { u.counters with refusals := satInc u.counters.refusals } } }
    ((s.dev.port p).lock = .noLock → r.locked = true → r.kind = .write →
      refused .access
        { kind := .access, detail := some (.access .lockMisuse), window := none, port := some p,
          address := some r.address.toNat, epoch := none } .noLock) ∧
    (∀ k a rem, (s.dev.port p).lock = .opened k a rem → ¬(r.locked = true ∧ r.kind = .write ∧ r.address.toNat = a) →
      refused .lock
        { kind := .lockMisuse
          detail := some (.lockMisuse
            (if r.locked = false then .unlocked else if r.kind = .read then .secondLock else .wrongWord))
          window := (match k with | .window w => some w | .exclusive => none), port := some p
          address := some r.address.toNat, epoch := none } (.opened k a rem)) ∧
    (∀ a, (s.dev.port p).lock = .broken a → r.locked = true → r.kind = .write → r.address.toNat = a →
      refused .lock
        { kind := .lockLate, detail := none, window := s.dev.windowAt a, port := some p, address := some a,
          epoch := none } .noLock)) ∧
  (∀ (s : State) (p : Port) (r : Request) (a : Nat), Takes s.dev p → requestMalformed r = false →
    (s.dev.port p).lock = .broken a → ¬(r.locked = true ∧ r.kind = .write ∧ r.address.toNat = a) →
    let t : State := { s with dev := s.dev.modPort p fun u => { u with lock := .noLock } }
    TakesUnlocked t.dev p ∧ exec (.portRequest p r) s = exec (.portRequest p r) t)

/-- A lock's closing write goes on by its classification (R155, R156): refused, with the lock open; plain, written through with the limit
cancelled; a producer write, refused for quota with the lock open, staged with the lock ended, or waiting with the limit running. One
that covers the window's closing word may be a commit event and a re-arm too (R39, R40, R122): the order of a commit event and the end of
the lock is a free value (log 14), and the re-arm before that end is the model's choice (log 33). -/
def Obligations.ClosingWriteFollowsItsClass : Prop :=
  ∀ (s : State) (p : Port) (r : Request) (k : LockKind) (a rem : Nat), Takes s.dev p →
    (s.dev.port p).lock = .opened k a rem → requestMalformed r = false → r.locked = true → r.kind = .write →
    r.address.toNat = a →
    let becomes : Device → Prop := fun d => exec (.portRequest p r) s = .next { s with dev := d }
    let refused : PortUnit → PortUnit := fun u =>
      { u with
        current := none, holdTimer := none, answer := some ⟨.error, []⟩
        counters := { u.counters with refusals := satInc u.counters.refusals } }
    (∀ x w, s.dev.classify p r = .refuse x w → becomes
      (((s.dev.setFlag .access).offer
        { kind := .access, detail := some (.access x), window := w, port := some p,
          address := some a, epoch := none }).modPort p refused)) ∧
    (s.dev.classify p r = .handOn .plainWrite → becomes
      (s.dev.modPort p fun u =>
        { u with current := some ⟨r, .plainWrite, .performing, 0, [], false, true⟩, lock := .closing k a none })) ∧
    (∀ w ds, s.dev.classify p r = .handOn (.producerWrite w) → (s.dev.win w).desc = some ds →
      let fits := (s.dev.openList w).length + s.dev.need w r ≤ ds.quota
      let room := s.dev.need w r = 0 ∨ (s.dev.poolWait = [] ∧ s.dev.entries.length + s.dev.need w r ≤ 256)
      (¬fits → becomes
        ((((s.dev.modRt w fun x =>
            { x with counters := { x.counters with quotaRefusals := satInc x.counters.quotaRefusals } }).setFlag (.wex w)).offer
          { kind := .quota, detail := none, window := some w, port := some p, address := some a,
            epoch := some (s.dev.rt w).openEpoch }).modPort p refused)) ∧
      (fits → room → s.dev.coversClosing w r = false →
        let staged : Device :=
          { s.dev with
            entries := stageBeats w ((a - ds.base) / 4) r.beats s.dev.entries
            mem := { s.dev.mem with
              exclusive := if s.dev.mem.exclusive = ExclusiveLock.held p then ExclusiveLock.free else s.dev.mem.exclusive } }.modPort p fun u =>
            { u with current := none, holdTimer := none, answer := some ⟨.okay, []⟩, lock := .noLock }
        becomes ((if (s.dev.rt w).state = .running then
            staged.modRt w fun x => { x with watchdog := ds.watchdogPeriod.map (· * 10) }
          else staged).takeDeferred a)) ∧
      (let st := s.dev.rt w
        let event := s.dev.coversClosing w r = true ∧ st.effective = .close ∧
          (st.state = .running ∨ (st.state = .tripped ∧ ds.autoRearm = true))
        let accepted := acceptedWrite (s.dev.modPort p fun u => { u with lock := .closing k a (some rem) }) p w ds r
        let read : Device := { accepted with freeIndex := accepted.freeIndex + 1 }
        (fits → room → ¬event → becomes (lockEnded accepted p a .noLock)) ∧
        (fits → room → event →
          becomes (lockEnded (read.commitEvent w) p a .noLock) ∨ becomes ((lockEnded read p a .noLock).commitEvent w))) ∧
      (fits → ¬room → becomes
        { s.dev.modPort p fun u =>
            { u with
              current := some ⟨r, .producerWrite w, .held .poolWait, 0, [], false, true⟩
              lock := .closing k a (some rem), holdTimer := some (s.dev.holdLimit p) } with
          poolWait := s.dev.poolWait ++ [⟨p, w, s.dev.need w r, none⟩] }))

/-- What classification hands on, and where: nothing outside the roles, privileges and places of R19 to R22. What it refuses: a request
that straddles with LIMIT and the window of its first beat that lies in one (R19), STATUS_WRITE (R20), CONFINED (R21), and in a window
ROLE before PRIVILEGE (R22). And what is not so refused is handed on as its class (R19 to R22). -/
def Obligations.ClassificationIsSound : Prop :=
  (∀ (d : Device) (p : Port) (r : Request) (c : Machine.Class), d.classify p r = .handOn c →
    match c with
    | .plainRead => r.kind = .read ∧ d.confined p = false ∧
        ∀ a ∈ requestAddresses r, d.windowAt a = none ∧ d.inStatusArea a = false
    | .plainWrite => r.kind = .write ∧ d.confined p = false ∧
        ∀ a ∈ requestAddresses r, d.windowAt a = none ∧ d.inStatusArea a = false
    | .statusRead => r.kind = .read ∧ r.locked = false ∧ ∀ a ∈ requestAddresses r, d.inStatusArea a = true
    | .producerRead w => r.kind = .read ∧ ∃ ds, (d.win w).desc = some ds ∧ (d.rt w).state ≠ .off ∧ ds.producer = p ∧
        (ds.producerMin = .supervisor → r.privilege = .supervisor) ∧ ∀ a ∈ requestAddresses r, ds.covers a = true
    | .producerWrite w => r.kind = .write ∧ ∃ ds, (d.win w).desc = some ds ∧ (d.rt w).state ≠ .off ∧ ds.producer = p ∧
        (ds.producerMin = .supervisor → r.privilege = .supervisor) ∧ ∀ a ∈ requestAddresses r, ds.covers a = true
    | .consumerRead w => r.kind = .read ∧ r.locked = false ∧ ∃ ds, (d.win w).desc = some ds ∧ (d.rt w).state ≠ .off ∧
        ds.producer ≠ p ∧ ds.consumerReads = true ∧
        (ds.consumerMin = .supervisor → r.privilege = .supervisor) ∧ ∀ a ∈ requestAddresses r, ds.covers a = true) ∧
  (∀ (d : Device) (p : Port) (r : Request), r.beats ≠ [] →
    let words := requestAddresses r
    let refuses : AccessDetail → Option Slot16 → Prop := fun k w => d.classify p r = .refuse k w
    ((∃ a ∈ words, ∃ b ∈ words, d.windowAt a ≠ d.windowAt b ∨
        (d.windowAt a = none ∧ d.windowAt b = none ∧ d.inStatusArea a ≠ d.inStatusArea b)) →
      refuses .limit (words.findSome? d.windowAt)) ∧
    ((∀ a ∈ words, d.windowAt a = none ∧ d.inStatusArea a = true) → (r.kind = .write ∨ r.locked = true) →
      refuses .statusWrite none) ∧
    ((∀ a ∈ words, d.windowAt a = none ∧ d.inStatusArea a = false) → d.confined p = true → refuses .confined none) ∧
    (∀ w ds, (∀ a ∈ words, d.windowAt a = some w) → (d.win w).desc = some ds →
      (ds.producer = p → ds.producerMin = .supervisor → r.privilege = .user → refuses .privilege (some w)) ∧
      (ds.producer ≠ p → (r.kind = .write ∨ r.locked = true ∨ ds.consumerReads = false) → refuses .role (some w)) ∧
      (ds.producer ≠ p → r.kind = .read → r.locked = false → ds.consumerReads = true → ds.consumerMin = .supervisor →
        r.privilege = .user → refuses .privilege (some w)))) ∧
  (∀ (d : Device) (p : Port) (r : Request), r.beats ≠ [] →
    let words := requestAddresses r
    let handsOn : Machine.Class → Prop := fun c => d.classify p r = .handOn c
    let meets : Privilege → Prop := fun least => least = .supervisor → r.privilege = .supervisor
    words = (List.range r.beats.length).map (fun i => r.address.toNat + 4 * i) ∧
    (∀ a, d.inStatusArea a = true ↔ ∃ base, d.config.statusArea = some base ∧ base ≤ a ∧ a < base + 256) ∧
    (∀ a, d.windowAt a = none ↔ ∀ w ds, (d.win w).desc = some ds → (d.rt w).state ≠ .off → ¬(ds.base ≤ a ∧ a < ds.base + 4 * ds.length)) ∧
    (∀ a w, d.windowAt a = some w →
      ∃ ds, (d.win w).desc = some ds ∧ (d.rt w).state ≠ .off ∧ ds.base ≤ a ∧ a < ds.base + 4 * ds.length) ∧
    ((∀ a ∈ words, d.windowAt a = none ∧ d.inStatusArea a = false) → d.confined p = false →
      (r.kind = .read → handsOn .plainRead) ∧ (r.kind = .write → handsOn .plainWrite)) ∧
    ((∀ a ∈ words, d.windowAt a = none ∧ d.inStatusArea a = true) → r.kind = .read → r.locked = false → handsOn .statusRead) ∧
    (∀ w ds, (∀ a ∈ words, d.windowAt a = some w) → (d.win w).desc = some ds →
      (ds.producer = p → meets ds.producerMin →
        (r.kind = .read → handsOn (.producerRead w)) ∧ (r.kind = .write → handsOn (.producerWrite w))) ∧
      (ds.producer ≠ p → r.kind = .read → r.locked = false → ds.consumerReads = true → meets ds.consumerMin →
        handsOn (.consumerRead w))))

/-! ## Plain writes and reads -/

/-- A plain write of up to four beats enters the queue whole and is answered OKAY, or is held on queue space; a longer one goes to
ORDERING (R132, R135, R137). -/
def Obligations.PlainWriteIsPosted : Prop :=
  ∀ (s : State) (p : Port) (r : Request), TakesUnlocked s.dev p → requestMalformed r = false → r.locked = false →
    s.dev.classify p r = .handOn .plainWrite →
    (r.beats.length ≤ 4 → (s.dev.port p).queue.length + r.beats.length ≤ 4 →
      exec (.portRequest p r) s = .next { s with
        dev := s.dev.modPort p fun u =>
          { u with
            current := none, holdTimer := none, answer := some ⟨.okay, []⟩
            queue := u.queue ++ (r.beats.zipIdx.map fun b => ⟨r.address.toNat + 4 * b.2, b.1.mask, b.1.data⟩) } }) ∧
    (r.beats.length ≤ 4 → 4 < (s.dev.port p).queue.length + r.beats.length →
      exec (.portRequest p r) s = .next { s with
        dev := s.dev.modPort p fun u =>
          { u with
            current := some ⟨r, .plainWrite, .held .queueSpace, 0, [], false, false⟩
            holdTimer := some (s.dev.holdLimit p) } }) ∧
    (4 < r.beats.length →
      exec (.portRequest p r) s = .next { s with
        dev := s.dev.modPort p fun u =>
          { u with current := some ⟨r, .plainWrite, .ordering, 0, [], false, false⟩ } })

/-- A read enters ORDERING, with nothing performed (R136). -/
def Obligations.ReadEntersOrdering : Prop :=
  ∀ (s : State) (p : Port) (r : Request) (c : Machine.Class), TakesUnlocked s.dev p → requestMalformed r = false →
    r.kind = .read → s.dev.classify p r = .handOn c →
    exec (.portRequest p r) s = .next { s with
      dev := s.dev.modPort p fun u => { u with current := some ⟨r, c, .ordering, 0, [], false, false⟩ } }

/-- The end of ORDERING: to PERFORMING, to a consumer hold, or into a locked read's opening (R136, R137, R152, R154). While
the queue holds a slot ORDERING does not end (R136). -/
def Obligations.OrderingEndsWithAnEmptyQueue : Prop :=
  (∀ (s : State) (p : Port) (c : Current), (s.dev.port p).current = some c → c.phase = .ordering →
    (s.dev.port p).queue = [] →
    let goes : Phase → LockRecord → Option Nat → Device := fun ph l t =>
      s.dev.modPort p fun u => { u with current := some { c with phase := ph }, lock := l, holdTimer := t }
    let lock := (s.dev.port p).lock
    let timer := (s.dev.port p).holdTimer
    let a := c.request.address.toNat
    ((c.cls = .plainWrite ∨ (c.cls = .plainRead ∧ c.request.locked = false)) →
      exec (.orderingEnd p) s = .next { s with dev := goes .performing lock timer }) ∧
    (∀ w, c.cls = .producerRead w →
      exec (.orderingEnd p) s = .next { s with
        dev := goes .performing (if c.request.locked then .opening (.window w) a else lock) timer }) ∧
    ((∃ w, c.cls = .consumerRead w) ∨ c.cls = .statusRead →
      (∀ w ∈ s.dev.waitsOn c, (s.dev.rt w).holdRequest = false ∧ (s.dev.rt w).consumerHold = false) →
      exec (.orderingEnd p) s = .next { s with dev := goes .performing lock timer }) ∧
    ((∃ w, c.cls = .consumerRead w) ∨ c.cls = .statusRead →
      (∃ w ∈ s.dev.waitsOn c, (s.dev.rt w).holdRequest = true ∨ (s.dev.rt w).consumerHold = true) →
      exec (.orderingEnd p) s = .next { s with dev := goes (.held .consumerHold) lock (some (s.dev.holdLimit p)) }) ∧
    (c.cls = .plainRead → c.request.locked = true → s.dev.mem.exclusive = .free →
      exec (.orderingEnd p) s = .next { s with
        dev := { goes .performing (.opening .exclusive a) timer with
          mem := { s.dev.mem with exclusive := .reserved p } } }) ∧
    (c.cls = .plainRead → c.request.locked = true → s.dev.mem.exclusive ≠ .free →
      exec (.orderingEnd p) s = .next { s with
        dev := goes (.held .lockWait) (.opening .exclusive a) (some (s.dev.holdLimit p)) })) ∧
  (∀ (s : State) (p : Port), (s.dev.port p).queue ≠ [] → exec (.orderingEnd p) s = .next s)

/-- A cleared hold cause: a write held on queue space enters whole and is answered OKAY (R132); a held consumer or status read is
admitted when every hold it waits on is clear (R72, R73); the reservation passes to the read held on lock wait (R153). None of them goes
on before: without room in the queue (R132), while a hold that the read waits on is raised (R73), while the memory lock is not FREE
(R152). The windows that a read waits on: a consumer read of w on w alone, a status read on each window with status block on whose
sixteen bytes at status-area base + 16 × w it touches, every other class on none (R20, R72, R73). -/
def Obligations.ClearedHoldsGoOn : Prop :=
  (∀ (s : State) (p : Port) (c : Current), (s.dev.port p).current = some c →
    let goesOn := s.dev.modPort p fun u =>
      { u with current := some { c with phase := .performing }, holdTimer := none }
    (c.phase = .held .queueSpace → (s.dev.port p).queue.length + c.request.beats.length ≤ 4 →
      exec (.queueSpaceEntry p) s = .next { s with
        dev := s.dev.modPort p fun u =>
          { u with
            current := none, holdTimer := none, answer := some ⟨.okay, []⟩
            queue := u.queue ++
              (c.request.beats.zipIdx.map fun b => ⟨c.request.address.toNat + 4 * b.2, b.1.mask, b.1.data⟩) } }) ∧
    (c.phase = .held .consumerHold →
      (∀ w ∈ s.dev.waitsOn c, (s.dev.rt w).holdRequest = false ∧ (s.dev.rt w).consumerHold = false) →
      exec (.readAdmitted p) s = .next { s with dev := goesOn }) ∧
    (c.phase = .held .lockWait → s.dev.mem.exclusive = .free →
      exec (.lockReservationHandoff p) s = .next { s with
        dev := { goesOn with mem := { s.dev.mem with exclusive := .reserved p } } }) ∧
    (c.phase = .held .queueSpace → 4 < (s.dev.port p).queue.length + c.request.beats.length →
      exec (.queueSpaceEntry p) s = .next s) ∧
    (c.phase = .held .consumerHold →
      (∃ w ∈ s.dev.waitsOn c, (s.dev.rt w).holdRequest = true ∨ (s.dev.rt w).consumerHold = true) →
      exec (.readAdmitted p) s = .next s) ∧
    (c.phase = .held .lockWait → s.dev.mem.exclusive ≠ .free → exec (.lockReservationHandoff p) s = .next s)) ∧
  (∀ (d : Device) (c : Current) (w : Slot16),
    let touches : Prop := ∃ ds base i, (d.win w).desc = some ds ∧ ds.statusBlock = true ∧ d.config.statusArea = some base ∧
      i < c.request.beats.length ∧ base + 16 * w.val ≤ c.request.address.toNat + 4 * i ∧
      c.request.address.toNat + 4 * i < base + 16 * w.val + 16
    (c.cls = .plainRead → w ∉ d.waitsOn c) ∧
    (c.cls = .plainWrite → w ∉ d.waitsOn c) ∧
    (∀ v, c.cls = .producerRead v → w ∉ d.waitsOn c) ∧
    (∀ v, c.cls = .producerWrite v → w ∉ d.waitsOn c) ∧
    (∀ v, c.cls = .consumerRead v → (w ∈ d.waitsOn c ↔ w = v)) ∧
    (c.cls = .statusRead → (w ∈ d.waitsOn c ↔ touches)))

/-! ## The staging store -/

/-- Acceptance of a producer write that does not cover the closing word: staged whole, answered OKAY, and a RUNNING window's
watchdog restarts with its full period (R35, R36, R38). -/
def Obligations.ProducerWriteIsStaged : Prop :=
  ∀ (s : State) (p : Port) (r : Request) (w : Slot16) (ds : Descriptor), TakesUnlocked s.dev p →
    requestMalformed r = false → r.locked = false → s.dev.classify p r = .handOn (.producerWrite w) →
    (s.dev.win w).desc = some ds → s.dev.coversClosing w r = false →
    (s.dev.openList w).length + s.dev.need w r ≤ ds.quota →
    (s.dev.need w r = 0 ∨ (s.dev.poolWait = [] ∧ s.dev.entries.length + s.dev.need w r ≤ 256)) →
    let staged : Device :=
      { s.dev with entries := stageBeats w ((r.address.toNat - ds.base) / 4) r.beats s.dev.entries }.modPort p fun u =>
        { u with current := none, holdTimer := none, answer := some ⟨.okay, []⟩ }
    exec (.portRequest p r) s = .next { s with
      dev := if (s.dev.rt w).state = .running then
          staged.modRt w fun x => { x with watchdog := ds.watchdogPeriod.map (· * 10) }
        else staged }

/-- Acceptance of a closing write sets the close mark; in a RUNNING window with effective source CLOSE it is a commit event too,
and in a TRIPPED window with auto re-arm it re-arms (R39, R40, R122). A closing write is one that covers the word at the window's close
offset with any byte (R39). -/
def Obligations.ClosingWriteActs : Prop :=
  (∀ (d : Device) (w : Slot16) (r : Request) (ds : Descriptor), (d.win w).desc = some ds →
    (d.coversClosing w r = true ↔ ∃ (k i : Nat) (b : Beat), ds.closeOffset = some k ∧ r.beats[i]? = some b ∧ b.mask ≠ 0 ∧
      (r.address.toNat - ds.base) / 4 + i = k)) ∧
  ∀ (s : State) (p : Port) (r : Request) (w : Slot16) (ds : Descriptor), TakesUnlocked s.dev p →
    requestMalformed r = false → r.locked = false → s.dev.classify p r = .handOn (.producerWrite w) →
    (s.dev.win w).desc = some ds → s.dev.coversClosing w r = true →
    (s.dev.openList w).length + s.dev.need w r ≤ ds.quota →
    (s.dev.need w r = 0 ∨ (s.dev.poolWait = [] ∧ s.dev.entries.length + s.dev.need w r ≤ 256)) →
    let staged : Device :=
      { s.dev with entries := stageBeats w ((r.address.toNat - ds.base) / 4) r.beats s.dev.entries }.modPort p fun u =>
        { u with current := none, holdTimer := none, answer := some ⟨.okay, []⟩ }
    let full := ds.watchdogPeriod.map (· * 10)
    ((s.dev.rt w).state = .running → (s.dev.rt w).effective ≠ .close →
      exec (.portRequest p r) s = .next { s with
        dev := staged.modRt w fun x => { x with watchdog := full, closeMark := true } }) ∧
    ((s.dev.rt w).state = .running → (s.dev.rt w).effective = .close →
      exec (.portRequest p r) s = .next { s with
        dev := (staged.modRt w fun x => { x with watchdog := full, closeMark := true }).commitEvent w }) ∧
    ((s.dev.rt w).state = .paused ∨ ((s.dev.rt w).state = .tripped ∧ ds.autoRearm = false) →
      exec (.portRequest p r) s = .next { s with
        dev := staged.modRt w fun x => { x with closeMark := true } }) ∧
    ((s.dev.rt w).state = .tripped → ds.autoRearm = true → (s.dev.rt w).effective ≠ .close →
      exec (.portRequest p r) s = .next { s with
        dev := staged.modRt w fun x =>
          { x with closeMark := true, state := .running, safeLoadPending := false, watchdog := full } }) ∧
    ((s.dev.rt w).state = .tripped → ds.autoRearm = true → (s.dev.rt w).effective = .close →
      exec (.portRequest p r) s = .next { s with
        dev := (staged.modRt w fun x =>
          { x with closeMark := true, state := .running, safeLoadPending := false, watchdog := full }).commitEvent w })

/-- Staging a beat: one open entry for its word that lays the beat over what the word read as before; other words and the draining epoch
read as before; the store grows by the need (R36, R37, R52). What a word reads as: the enabled bytes of its draining entry over the memory
word, then those of its open entry over the result, and the memory word where there is neither (R52). Staging a burst: every beat at its
own offset in ascending order, a merge in its entry's place, the new words at the tail in that order, and growth by the need of the
request (R33, R36, R37). -/
def Obligations.StagedBeatReadsBack : Prop :=
  (∀ (d : Device) (w : Slot16) (k : Nat) (b : Beat) (m : Word),
    let d' : Device := { d with entries := stageBeat w k b d.entries }
    d'.overlay w k m = layBytes b.mask b.data (d.overlay w k m) ∧
    (∀ j, j ≠ k → d'.overlay w j m = d.overlay w j m) ∧
    (∀ v j, v ≠ w → d'.overlay v j m = d.overlay v j m) ∧
    (∀ v, d'.drainList v = d.drainList v) ∧
    d'.entries.length = d.entries.length + (if hasOpen w k d.entries then 0 else 1)) ∧
  (∀ (d : Device) (w : Slot16) (k : Nat) (beats : List Beat) (m : Word),
    let d' : Device := { d with entries := stageBeats w k beats d.entries }
    let added := (List.range beats.length).filter fun i => !(d.openList w).any fun e => e.offset == k + i
    (∀ i b, beats[i]? = some b → d'.overlay w (k + i) m = layBytes b.mask b.data (d.overlay w (k + i) m)) ∧
    (∀ j, (j < k ∨ k + beats.length ≤ j) → d'.overlay w j m = d.overlay w j m) ∧
    (∀ v j, v ≠ w → d'.overlay v j m = d.overlay v j m) ∧
    (∀ v, d'.drainList v = d.drainList v) ∧
    (d'.openList w).map Entry.offset = (d.openList w).map Entry.offset ++ added.map (k + ·) ∧
    d'.entries.length = d.entries.length + added.length ∧
    (∀ (r : Request) (ds : Descriptor), (d.win w).desc = some ds → r.beats = beats → (r.address.toNat - ds.base) / 4 = k →
      d.need w r = added.length)) ∧
  (∀ (d : Device) (w : Slot16) (k : Nat) (m : Word),
    let byte : Word → Nat → Byte := fun x i => x.extractLsb' (8 * i) 8
    let laid : Option Entry → (Nat → Byte) → Nat → Byte := fun e under i =>
      match e with
      | some x => if x.mask.getLsbD i then byte x.data i else under i
      | none => under i
    let entry : List Entry → Option Entry := fun es => es.find? (·.offset == k)
    (∀ i < 4, byte (d.overlay w k m) i = laid (entry (d.openList w)) (laid (entry (d.drainList w)) (byte m)) i) ∧
    (entry (d.openList w) = none → entry (d.drainList w) = none → d.overlay w k m = m))

/-- A write over the quota is refused whole: WEX, a QUOTA record, both counters and ERROR (R34). A write that the pool cannot take
joins the tail of the pool-wait list, held with its port's hold limit (R35, R43, R137). -/
def Obligations.StoreRefusesOrMakesWait : Prop :=
  ∀ (s : State) (p : Port) (r : Request) (w : Slot16) (ds : Descriptor), TakesUnlocked s.dev p →
    requestMalformed r = false → r.locked = false → s.dev.classify p r = .handOn (.producerWrite w) →
    (s.dev.win w).desc = some ds →
    (ds.quota < (s.dev.openList w).length + s.dev.need w r →
      exec (.portRequest p r) s = .next { s with
        dev := (((s.dev.modRt w fun x =>
            { x with counters := { x.counters with quotaRefusals := satInc x.counters.quotaRefusals } }).setFlag (.wex w)).offer
          { kind := .quota, detail := none, window := some w, port := some p, address := some r.address.toNat,
            epoch := some (s.dev.rt w).openEpoch }).modPort p fun u =>
          { u with
            current := none, holdTimer := none, answer := some ⟨.error, []⟩
            counters := { u.counters with refusals := satInc u.counters.refusals } } }) ∧
    ((s.dev.openList w).length + s.dev.need w r ≤ ds.quota → s.dev.need w r ≠ 0 →
      (s.dev.poolWait ≠ [] ∨ 256 < s.dev.entries.length + s.dev.need w r) →
      exec (.portRequest p r) s = .next { s with
        dev := { s.dev.modPort p fun u =>
            { u with
              current := some ⟨r, .producerWrite w, .held .poolWait, 0, [], false, false⟩
              holdTimer := some (s.dev.holdLimit p) } with
          poolWait := s.dev.poolWait ++ [⟨p, w, s.dev.need w r, none⟩] } })

/-- The head of the pool-wait list is accepted once the free count covers its need, computed afresh (R44, R45): first for a write that
neither covers the closing word nor closes a lock, then for every write. A write of the closing word may be a commit event and a re-arm
(R39, R40, R122), one that closes a lock ends it (R41, R156), and the order of a commit event and that end is a free value (log 14);
that a re-arm comes before that end is the model's choice (log 33). A check that is due and leaves the head keeps its need as computed
(R43; when a check is due is kept as log 30 says). -/
def Obligations.PoolServiceAcceptsTheHead : Prop :=
  (∀ (s : State) (x : Waiter) (rest : List Waiter) (c : Current) (ds : Descriptor), s.dev.poolWait = x :: rest →
    (s.dev.port x.port).current = some c → c.closing = false → (s.dev.win x.window).desc = some ds →
    s.dev.coversClosing x.window c.request = false →
    s.dev.need x.window c.request ≤ s.dev.freeCount →
    let staged : Device :=
      { s.dev with
        poolWait := rest
        entries := stageBeats x.window ((c.request.address.toNat - ds.base) / 4) c.request.beats s.dev.entries }.modPort
        x.port fun u => { u with current := none, holdTimer := none, answer := some ⟨.okay, []⟩ }
    exec .poolWaitService s = .next { s with
      dev := if (s.dev.rt x.window).state = .running then
          staged.modRt x.window fun y => { y with watchdog := ds.watchdogPeriod.map (· * 10) }
        else staged }) ∧
  (∀ (s : State) (x : Waiter) (rest : List Waiter) (c : Current) (ds : Descriptor), s.dev.poolWait = x :: rest →
    (s.dev.port x.port).current = some c → (s.dev.win x.window).desc = some ds →
    let r := s.dev.rt x.window
    let event := s.dev.coversClosing x.window c.request = true ∧ r.effective = .close ∧
      (r.state = .running ∨ (r.state = .tripped ∧ ds.autoRearm = true))
    let accepted := acceptedWrite { s.dev with poolWait := rest } x.port x.window ds c.request
    let becomes : Device → Prop := fun d => exec .poolWaitService s = .next { s with dev := d }
    (s.dev.need x.window c.request ≤ s.dev.freeCount →
      (c.closing = false → ¬event → becomes accepted) ∧
      (c.closing = false → event → becomes (accepted.commitEvent x.window)) ∧
      (∀ k a l, c.closing = true → (s.dev.port x.port).lock = .closing k a l → ¬event →
        becomes (lockEnded accepted x.port a .noLock)) ∧
      (∀ k a l, c.closing = true → (s.dev.port x.port).lock = .closing k a l → event →
        let read : Device := { accepted with freeIndex := accepted.freeIndex + 1 }
        becomes (lockEnded (read.commitEvent x.window) x.port a .noLock) ∨
        becomes ((lockEnded read x.port a .noLock).commitEvent x.window))) ∧
    (s.dev.freeCount < s.dev.need x.window c.request →
      (x.checkedAt = none ∨ (∃ n, x.checkedAt = some n ∧ n < s.dev.freeCount)) →
      becomes { s.dev with
        poolWait := { x with need := s.dev.need x.window c.request, checkedAt := some s.dev.freeCount } :: rest }))

/-! ## Hold limits and lock limits -/

/-- A hold limit expires on consumer hold, queue space or lock wait: HOLD, RETRY with the retry counter, or ERROR with the hold-timeout
counter and a HOLD_TIMEOUT record, which names the lowest of the windows whose hold a status read waits on (R139); after a lock wait the
lock record ends in NONE (R152, R156). That the command lets time run to the expiry is the model's choice (log 4), and so are the record's
place before those of a deferred event (log 37) and the place of watchdogs that expire at the same moment (log 36). -/
def Obligations.HoldLimitAnswersTheRequest : Prop :=
  (∀ (s : State) (p : Port) (c : Current) (k : HoldCause) (t : Nat), NextDue s.dev (.holdLimit p) t →
    (s.dev.port p).current = some c → c.phase = .held k → k ≠ .poolWait →
    let d := (s.dev.reached t).setFlag .hold
    let report : Report :=
      { kind := .holdTimeout, detail := some (.hold k)
        window := match c.cls with
          | .consumerRead w => some w
          | .statusRead => (s.dev.touchedBlocks c.request).find? s.dev.raised
          | _ => none
        port := some p, address := some c.request.address.toNat
        epoch := match c.cls with
          | .consumerRead w => some (s.dev.rt w).openEpoch
          | _ => none }
    let answered : Device :=
      match (s.dev.port p).kind with
      | .retryCapable => d.modPort p fun u =>
          { u with
            current := none, holdTimer := none, answer := some ⟨.retry, []⟩
            counters := { u.counters with retries := satInc u.counters.retries } }
      | .holdOnly => (d.offer report).modPort p fun u =>
          { u with
            current := none, holdTimer := none, answer := some ⟨.error, []⟩
            counters := { u.counters with holdTimeouts := satInc u.counters.holdTimeouts } }
    exec (.holdLimitExpiry p) s = .next { s with
      dev := (if k = .lockWait then answered.endLock p .noLock else answered).tripExpired }) ∧
  (∀ (d : Device) (c : Current) (v : Slot16), c.cls = .statusRead →
    ((d.touchedBlocks c.request).find? d.raised = some v ↔
      v ∈ d.waitsOn c ∧ ((d.rt v).holdRequest = true ∨ (d.rt v).consumerHold = true) ∧
      ∀ u ∈ d.waitsOn c, u < v → (d.rt u).holdRequest = false ∧ (d.rt u).consumerHold = false))

/-- A pool wait expires: POOL, RETRY or ERROR as for a hold limit, with a POOL record on a HOLD_ONLY port; the waiter leaves the
list and nothing is staged (R46); the lock record of a closing write returns to OPEN with its limit running (R156). That the command lets
time run to the expiry is the model's choice (log 4), and so is the place of watchdogs that expire at the same moment (log 36). -/
def Obligations.PoolWaitExpiresUnstaged : Prop :=
  ∀ (s : State) (p : Port) (c : Current) (w : Slot16) (t : Nat), NextDue s.dev (.poolWait p) t →
    (s.dev.port p).current = some c → c.phase = .held .poolWait → c.cls = .producerWrite w →
    let d : Device :=
      { (s.dev.reached t).setFlag .pool with poolWait := s.dev.poolWait.filter fun x => x.port != p }
    let reopened : LockRecord → LockRecord := fun l => match l with | .closing k a (some rem) => .opened k a rem | l => l
    exec (.poolWaitExpiry p) s = .next { s with
      dev := (match (s.dev.port p).kind with
        | .retryCapable => d.modPort p fun u =>
            { u with
              current := none, holdTimer := none, answer := some ⟨.retry, []⟩, lock := reopened u.lock
              counters := { u.counters with retries := satInc u.counters.retries } }
        | .holdOnly => (d.offer
            { kind := .pool, detail := none, window := some w, port := some p,
              address := some c.request.address.toNat, epoch := some (s.dev.rt w).openEpoch }).modPort p fun u =>
            { u with
              current := none, holdTimer := none, answer := some ⟨.error, []⟩, lock := reopened u.lock
              counters := { u.counters with holdTimeouts := satInc u.counters.holdTimeouts } }).tripExpired }

/-- The lock limit of an open lock expires: the record becomes BROKEN, the exclusive memory lock is released, the deferred events
of the locked word are taken, and LOCK and LOCK_BROKEN report it (R157; the place of the record among those of the deferred
events is the model's, log 15). A closing write that waits in the pool-wait list is then withdrawn unstaged and answered as a late one:
LOCK and LOCK_LATE, a refusal, ERROR, and the record becomes NONE (R157, R158). That the command lets time run to the expiry is the model's
choice (log 4), and so is the place of watchdogs that expire at the same moment (log 36). The deferred events of a word: in ascending
window number, each window whose mark is yes and whose range holds the word loses the mark and takes a commit event (R64, R156; of either
port's lock, log 34). -/
def Obligations.LockLimitBreaksTheLock : Prop :=
  (∀ (s : State) (p : Port) (k : LockKind) (a rem t : Nat), NextDue s.dev (.lockLimit p) t →
    (s.dev.port p).lock = .opened k a rem →
    let d := s.dev.reached t
    let broken := d.modPort p fun u => { u with lock := .broken a }
    let released : Device :=
      { broken with mem := { broken.mem with
          exclusive := if broken.mem.exclusive = .held p then .free else broken.mem.exclusive } }
    exec (.lockLimitExpiry p) s = .next { s with
      dev := (((released.takeDeferred a).setFlag .lock).offer
        { kind := .lockBroken, detail := none, port := some p, address := some a
          window := match k with | .window w => some w | .exclusive => none
          epoch := match k with | .window w => some (s.dev.rt w).openEpoch | .exclusive => none }).tripExpired }) ∧
  (∀ (s : State) (p : Port) (k : LockKind) (a rem t : Nat), NextDue s.dev (.lockLimit p) t →
    (s.dev.port p).lock = .closing k a (some rem) →
    let d : Device := { s.dev.reached t with poolWait := s.dev.poolWait.filter fun x => x.port != p }
    let broken := ((lockEnded d p a (.broken a)).setFlag .lock).offer
      { kind := .lockBroken, detail := none, port := some p, address := some a
        window := match k with | .window w => some w | .exclusive => none
        epoch := match k with | .window w => some (s.dev.rt w).openEpoch | .exclusive => none }
    exec (.lockLimitExpiry p) s = .next { s with
      dev := (((broken.setFlag .lock).offer
        { kind := .lockLate, detail := none, window := s.dev.windowAt a, port := some p, address := some a,
          epoch := none }).modPort p fun u =>
        { u with
          current := none, holdTimer := none, answer := some ⟨.error, []⟩, lock := .noLock
          counters := { u.counters with refusals := satInc u.counters.refusals } }).tripExpired }) ∧
  (∀ (d : Device) (word : Nat), d.takeDeferred word = (List.finRange 16).foldl (fun (x : Device) (w : Slot16) =>
    match (x.win w).desc with
    | some ds =>
      if (x.rt w).deferredCommit = true ∧ ds.base ≤ word ∧ word < ds.base + 4 * ds.length then
        (x.modRt w fun r => { r with deferredCommit := false }).commitEvent w
      else x
    | none => x) d)

/-! ## The memory port -/

/-- With the memory port free, the grant goes to the requester that stands earliest in the rotation order among those that are
pending and eligible; it moves to the end, and a RESERVED port's read takes the exclusive memory lock (R148, R149, R152). Nothing is
granted while an access is outstanding (R146, R149), while the exclusive memory lock is HELD by a port whose channel asks for nothing,
whatever the others ask for (R148), or when nobody asks. What each requester asks for while the memory port is free, so that no slot,
beat or word is in flight (R148): the head of its posted-write queue (R133), else the next beat or word of its request in PERFORMING (R130, R135);
the next drain write, safe-image word or status word of the running item (R50, R75, R79, R82, R124). -/
def Obligations.GrantGoesToTheEarliest : Prop :=
  (∀ (s : State) (before after : List Requester) (r : Requester) (x : PendingAccess), Settled s.dev →
    s.dev.mem.outstanding = none → s.dev.mem.rotation = before ++ r :: after → s.dev.mem.rotation.Nodup →
    (∀ q ∈ before, s.dev.pendingOf q = none ∨ ∃ p, s.dev.mem.exclusive = .held p ∧ q ≠ .channel p) →
    s.dev.pendingOf r = some x → (∀ p, s.dev.mem.exclusive = .held p → r = .channel p) →
    exec .arbiterGrant s = .next { s with
      dev := { s.dev with
        mem := {
          outstanding := some ⟨x.1, x.2, false⟩
          rotation := before ++ after ++ [r]
          exclusive := match s.dev.mem.exclusive with
            | .reserved p => if x.2 = .read p then .held p else .reserved p
            | l => l } } }) ∧
  (∀ s : State, Settled s.dev →
    (s.dev.mem.outstanding ≠ none → exec .arbiterGrant s = .next s) ∧
    (∀ p, s.dev.mem.exclusive = .held p → s.dev.pendingOf (.channel p) = none → exec .arbiterGrant s = .next s) ∧
    ((∀ r ∈ s.dev.mem.rotation, s.dev.pendingOf r = none) → exec .arbiterGrant s = .next s)) ∧
  (∀ (d : Device) (p : Port), d.mem.outstanding = none →
    (∀ x rest, (d.port p).queue = x :: rest →
      d.pendingOf (.channel p) = some (⟨.write, x.address, x.mask, x.data⟩, .posted p)) ∧
    (∀ c b, (d.port p).queue = [] → (d.port p).current = some c → c.phase = .performing →
      c.request.beats[c.done]? = some b →
      (c.cls = .plainWrite → d.pendingOf (.channel p) =
        some (⟨.write, c.request.address.toNat + 4 * c.done, b.mask, b.data⟩, .through p)) ∧
      (c.cls = .plainRead ∨ c.cls = .statusRead ∨ (∃ w, c.cls = .producerRead w ∨ c.cls = .consumerRead w) →
        d.pendingOf (.channel p) = some (⟨.read, c.request.address.toNat + 4 * c.done, b.mask, 0⟩, .read p))) ∧
    ((d.port p).queue = [] → (∀ c, (d.port p).current = some c → c.phase ≠ .performing) →
      d.pendingOf (.channel p) = none)) ∧
  (∀ d : Device, d.mem.outstanding = none → (∀ w k pr rest, d.commitQueue ≠ ⟨w, k, some pr⟩ :: rest) → d.pendingOf .engine = none) ∧
  (∀ (d : Device) (w : Slot16) (ds : Descriptor) (k : ItemKind) (pr : Progress) (rest : List Item), d.mem.outstanding = none →
    d.commitQueue = ⟨w, k, some pr⟩ :: rest → (d.win w).desc = some ds →
    (pr.phase = .starting → d.pendingOf .engine = none) ∧
    (∀ e es, pr.phase = .writing → k = .epoch → d.drainList w = e :: es →
      d.pendingOf .engine = some (⟨.write, ds.base + 4 * e.offset, e.mask, e.data⟩, .drain w)) ∧
    (∀ img v, pr.phase = .writing → k = .safe → ds.safeImage = some img →
      d.safeStore[wordsBelow d w + pr.safeDone]? = some v →
      d.pendingOf .engine = some (⟨.write, ds.base + 4 * (img.offset + pr.safeDone), 0b1111, v⟩, .safeWord w)) ∧
    (∀ base v, pr.phase = .status → d.config.statusArea = some base → pr.block[pr.statusDone]? = some v →
      d.pendingOf .engine = some (⟨.write, base + 16 * w.val + 4 * pr.statusDone, 0b1111, v⟩, .statusWord w)))

/-- A dropped completion is handed to no one (R147). A posted write's completion frees its slot, with MEMORY and a record of detail
POSTED on MERR (R133, R134). A written-through beat goes on to the next, or to OKAY, or to ERROR if any beat failed, with MEMORY and
a record of detail THROUGH for each failed beat (R135). -/
def Obligations.WritesComplete : Prop :=
  ∀ (s : State) (x : Outstanding) (p : Port) (merr : Bool) (data : Word), Settled s.dev →
    s.dev.mem.outstanding = some x →
    let d : Device := { s.dev with mem := { s.dev.mem with outstanding := none } }
    let reported : Device → PostedDetail → Device := fun y k =>
      if merr then (y.setFlag .memory).offer
        { kind := .memoryPosted, detail := some (.posted k), window := none, port := some p,
          address := some x.access.address, epoch := none }
      else y
    let becomes : Device → Prop := fun y => exec (.memoryCompletion merr data) s = .next { s with dev := y }
    (x.dropped = true → becomes d) ∧
    (x.dropped = false → x.owner = .posted p →
      becomes (reported (d.modPort p fun u => { u with queue := u.queue.tail }) .posted)) ∧
    (∀ c, x.dropped = false → x.owner = .through p → (s.dev.port p).current = some c → c.closing = false →
      (c.done + 1 < c.request.beats.length →
        becomes ((reported d .through).modPort p fun u =>
          { u with current := some { c with done := c.done + 1, failed := c.failed || merr } })) ∧
      (c.request.beats.length ≤ c.done + 1 →
        becomes ((reported d .through).modPort p fun u =>
          { u with
            current := none, holdTimer := none
            answer := some ⟨if c.failed = true ∨ merr = true then .error else .okay, []⟩ })))

/-- A word of an unlocked read completes: the next word, OKAY with all words after the last, or ERROR with MEMORY and a MEMORY_READ
record on MERR; a producer read's word is laid over by the store (R52, R55, R128, R130). -/
def Obligations.ReadWordCompletes : Prop :=
  ∀ (s : State) (x : Outstanding) (p : Port) (c : Current) (data : Word), Settled s.dev →
    s.dev.mem.outstanding = some x → x.dropped = false → x.owner = .read p → (s.dev.port p).current = some c →
    c.request.locked = false →
    let d : Device := { s.dev with mem := { s.dev.mem with outstanding := none } }
    let word : Word :=
      (match c.cls with
        | .producerRead w => s.dev.overlay w (s.dev.firstOffset w c.request + c.done) data
        | _ => data) &&& maskBits x.access.mask
    let subject : Option Slot16 := match c.cls with | .consumerRead w => some w | .producerRead w => some w | _ => none
    (c.done + 1 < c.request.beats.length →
      exec (.memoryCompletion false data) s = .next { s with
        dev := d.modPort p fun u =>
          { u with current := some { c with done := c.done + 1, words := c.words ++ [word] } } }) ∧
    (c.request.beats.length ≤ c.done + 1 →
      exec (.memoryCompletion false data) s = .next { s with
        dev := d.modPort p fun u =>
          { u with current := none, holdTimer := none, answer := some ⟨.okay, c.words ++ [word]⟩ } }) ∧
    exec (.memoryCompletion true data) s = .next { s with
      dev := ((d.setFlag .memory).offer
        { kind := .memoryRead, detail := none, window := subject, port := some p, address := some x.access.address,
          epoch := subject.map fun w => (s.dev.rt w).openEpoch }).modPort p fun u =>
        { u with current := none, holdTimer := none, answer := some ⟨.error, []⟩ } }

/-- A locked read completes: without MERR it is answered OKAY with its words, a producer read's laid over by the store, and its lock
opens with the lock limit (R52, R152, R154); with MERR it is answered ERROR with MEMORY and a MEMORY_READ record, its record becomes
NONE, the exclusive memory lock is released and the deferred events of the word are taken (R55, R130, R152, R154, R156). -/
def Obligations.LockedReadOpensItsLock : Prop :=
  ∀ (s : State) (x : Outstanding) (p : Port) (c : Current) (k : LockKind) (a : Nat) (data : Word), Settled s.dev →
    s.dev.mem.outstanding = some x → x.dropped = false → x.owner = .read p → (s.dev.port p).current = some c →
    c.request.locked = true → c.request.beats.length ≤ c.done + 1 → (s.dev.port p).lock = .opening k a →
    let d : Device := { s.dev with mem := { s.dev.mem with outstanding := none } }
    let word : Word :=
      (match c.cls with
        | .producerRead w => s.dev.overlay w (s.dev.firstOffset w c.request + c.done) data
        | _ => data) &&& maskBits x.access.mask
    let subject : Option Slot16 := match c.cls with | .consumerRead w => some w | .producerRead w => some w | _ => none
    exec (.memoryCompletion false data) s = .next { s with
      dev := d.modPort p fun u =>
        { u with
          current := none, holdTimer := none, answer := some ⟨.okay, c.words ++ [word]⟩
          lock := .opened k a s.dev.config.lockLimit } } ∧
    exec (.memoryCompletion true data) s = .next { s with
      dev := lockEnded (((d.setFlag .memory).offer
        { kind := .memoryRead, detail := none, window := subject, port := some p, address := some x.access.address,
          epoch := subject.map fun w => (s.dev.rt w).openEpoch }).modPort p fun u =>
        { u with current := none, holdTimer := none, answer := some ⟨.error, []⟩ }) p a .noLock }

/-- The closing write of a lock, written through, completes: OKAY or ERROR with a record of detail LOCKED, and in both cases the
lock ends, the exclusive memory lock is released and the deferred events are taken (R156). -/
def Obligations.ClosingWriteEndsTheLock : Prop :=
  ∀ (s : State) (x : Outstanding) (p : Port) (c : Current) (k : LockKind) (a : Nat) (l : Option Nat) (merr : Bool)
    (data : Word), Settled s.dev →
    s.dev.mem.outstanding = some x → x.dropped = false → x.owner = .through p → (s.dev.port p).current = some c →
    c.closing = true → (s.dev.port p).lock = .closing k a l →
    let d : Device := { s.dev with
      mem := { s.dev.mem with
        outstanding := none
        exclusive := if s.dev.mem.exclusive = .held p then .free else s.dev.mem.exclusive } }
    let reported : Device :=
      if merr then (d.setFlag .memory).offer
        { kind := .memoryPosted, detail := some (.posted .locked), window := none, port := some p,
          address := some x.access.address, epoch := none }
      else d
    exec (.memoryCompletion merr data) s = .next { s with
      dev := (reported.modPort p fun u =>
        { u with
          current := none, holdTimer := none, lock := .noLock
          answer := some ⟨if merr then .error else .okay, []⟩ }).takeDeferred a }

/-! ## The commit engine -/

/-- The commit rule: the rows of R61 from the top, with R68's table for row 3. The producer's open lock of rows 4 and 5 is its lock record
OPENING, OPEN or CLOSING on a word of the window's range, whatever the kind (R63, R151). -/
def Obligations.CommitRuleFollowsItsRows : Prop :=
  ∀ (d : Device) (w : Slot16) (ds : Descriptor), (d.win w).desc = some ds →
    let item := (d.itemOf w).map Item.kind
    let r := d.rt w
    (r.state = .off → d.decideCommit w = .ignored) ∧
    (r.state = .paused → d.decideCommit w = .skipped) ∧
    (r.state = .tripped → ds.tripMode = .atEvent → r.safeLoadPending = true → item = none →
      d.decideCommit w = .safeJoins) ∧
    (r.state = .tripped → ds.tripMode = .atEvent → r.safeLoadPending = true → item = some .safe →
      d.decideCommit w = .safeServes) ∧
    (r.state = .tripped → ds.tripMode = .atEvent → r.safeLoadPending = true → item = some .epoch →
      d.decideCommit w = .skipped) ∧
    (r.state = .tripped → (ds.tripMode = .immediate ∨ r.safeLoadPending = false) → d.decideCommit w = .skipped) ∧
    (r.state = .running → d.producerLockOn w = true → r.deferredCommit = false → d.decideCommit w = .deferred) ∧
    (r.state = .running → d.producerLockOn w = true → r.deferredCommit = true → d.decideCommit w = .secondDefer) ∧
    (r.state = .running → d.producerLockOn w = false → (item ≠ none ∨ r.drainingEpoch ≠ none) →
      d.decideCommit w = .itemPending) ∧
    (r.state = .running → d.producerLockOn w = false → item = none → r.drainingEpoch = none →
      (ds.closePolicy = .strict ∧ r.closeMark = false → d.decideCommit w = .late) ∧
      (¬(ds.closePolicy = .strict ∧ r.closeMark = false) → d.openList w = [] → d.decideCommit w = .empty) ∧
      (¬(ds.closePolicy = .strict ∧ r.closeMark = false) → d.openList w ≠ [] → d.decideCommit w = .committed)) ∧
    (d.producerLockOn w = true ↔ ∃ kind a,
      ((d.port ds.producer).lock = .opening kind a ∨ (∃ rem, (d.port ds.producer).lock = .opened kind a rem) ∨
        ∃ rem, (d.port ds.producer).lock = .closing kind a rem) ∧
      ds.base ≤ a ∧ a < ds.base + 4 * ds.length)

/-- COMMIT_NOW applies the commit rule and answers its outcome; the effect of each outcome (R62, R63, R65, R66, R67, R68,
R69). An index above 15 and an empty slot are REFUSED_ARGUMENT (R178). -/
def Obligations.CommitNowHasItsOutcome : Prop :=
  (∀ (s : State) (index : Byte) (w : Slot16) (ds : Descriptor), ServingWindows s.dev → index.toNat = w.val →
    (s.dev.win w).desc = some ds →
    let r := s.dev.rt w
    let count : (WindowCounters → WindowCounters) → Device := fun f =>
      s.dev.modRt w fun x => { x with counters := f x.counters }
    let overrun : OverrunDetail → Device := fun k =>
      ((s.dev.modRt w fun x =>
        { x with overrunSince := true, counters := { x.counters with overrun := satInc x.counters.overrun } }).setFlag
        (.wex w)).offer
        { kind := .overrun, detail := some (.overrun k), window := some w, port := none, address := none,
          epoch := some r.openEpoch }
    let answers : Device → Byte → Prop := fun d code =>
      exec (.commitNow index) s = .next { s with dev := d.answering [0, code] }
    match s.dev.decideCommit w with
    | .committed => answers
        { s.dev.modRt w fun x =>
            { x with
              closeMark := false, drainingEpoch := some r.openEpoch
              openEpoch := if r.openEpoch = 0xFFFFFFFF then 1 else r.openEpoch + 1 } with
          entries := s.dev.entries.map fun e =>
            if e.window = w ∧ e.epoch = .opened then { e with epoch := .draining } else e
          commitQueue := s.dev.commitQueue ++ [⟨w, .epoch, none⟩] } 0
    | .deferred => answers (s.dev.modRt w fun x => { x with deferredCommit := true }) 1
    | .secondDefer => answers (overrun .secondDefer) 2
    | .itemPending => answers (overrun .itemPending) 2
    | .late => answers
        (((s.dev.modRt w fun x =>
          { x with lateSince := true, counters := { x.counters with late := satInc x.counters.late } }).setFlag
          (.wex w)).offer
          { kind := .late, detail := none, window := some w, port := none, address := none,
            epoch := some r.openEpoch }) 3
    | .empty => answers (count fun c => { c with emptyEvents := satInc c.emptyEvents }) 4
    | .skipped => answers (count fun c => { c with skippedEvents := satInc c.skippedEvents }) 5
    | .safeJoins => answers
        { s.dev.modRt w fun x => { x with safeLoadPending := false } with
          commitQueue := s.dev.commitQueue ++ [⟨w, .safe, none⟩] } 6
    | .safeServes => answers (s.dev.modRt w fun x => { x with safeLoadPending := false }) 6
    | .ignored => answers s.dev 7) ∧
  (∀ (s : State) (index : Byte), ServingWindows s.dev →
    (15 < index.toNat ∨ ∃ w : Slot16, index.toNat = w.val ∧ (s.dev.win w).desc = none) →
    exec (.commitNow index) s = .next { s with dev := s.dev.answering [2] })

/-- An item starts at the head of the queue: phase STARTING, its planned count, written 0, and its window's hold request (R71). Once
no admitted read of the window is in progress, the consumer hold is set and an item with data to write enters WRITING (R72); one with
nothing to write enters STATUS (R79). Before that it asks the memory port for nothing, and while an admitted read of the window is in
progress the hold is not set (R72). -/
def Obligations.ItemStartsBehindItsHold : Prop :=
  (∀ (s : State) (w : Slot16) (k : ItemKind) (rest : List Item),
    let planned : Nat :=
      match k with
      | .epoch => (s.dev.drainList w).length
      | .safe => match (s.dev.win w).desc with
        | some ds => match ds.safeImage with | some i => i.count | none => 0
        | none => 0
    (s.dev.commitQueue = ⟨w, k, none⟩ :: rest →
      exec .itemStart s = .next { s with
        dev := { s.dev.modRt w fun x => { x with holdRequest := true } with
          commitQueue := ⟨w, k, some ⟨.starting, planned, 0, false, 0, [], 0⟩⟩ :: rest } }) ∧
    (∀ pr : Progress, s.dev.commitQueue = ⟨w, k, some pr⟩ :: rest → pr.phase = .starting → pr.written < pr.planned →
      (∀ p c, (s.dev.port p).current = some c → c.phase = .performing → w ∉ s.dev.waitsOn c) →
      exec .consumerHoldSet s = .next { s with
        dev := { s.dev.modRt w fun x => { x with consumerHold := true } with
          commitQueue := ⟨w, k, some { pr with phase := .writing }⟩ :: rest } })) ∧
  (∀ (s : State) (w : Slot16) (k : ItemKind) (pr : Progress) (rest : List Item),
    s.dev.commitQueue = ⟨w, k, some pr⟩ :: rest → pr.phase = .starting →
    s.dev.pendingOf .engine = none ∧
    ((∃ p c, (s.dev.port p).current = some c ∧ c.phase = .performing ∧ w ∈ s.dev.waitsOn c) →
      exec .consumerHoldSet s = .next s) ∧
    (pr.written = pr.planned → (∀ it ∈ rest, it.window ≠ w) →
      (∀ p c, (s.dev.port p).current = some c → c.phase = .performing → w ∉ s.dev.waitsOn c) →
      exec .consumerHoldSet s = .next { s with
        dev := statusEntered (s.dev.modRt w fun x => { x with consumerHold := true }) w k { pr with phase := .writing }
          rest }))

/-- A drain write of an EPOCH item completes: its entry leaves the store, the written count rises, and MERR is reported with the
draining epoch (R75, R76); after its last the item enters STATUS (R75, R77, R82). A safe-image word completes: the written count rises,
MERR is reported with the open epoch, and after the last the item enters STATUS (R79). A drain write that was in progress when an
IMMEDIATE trip made its item a SAFE item completes: the same, and the draining epoch is gone (R76, R81). The pool-wait list is checked
after the whole completion (the model's choice, log 35). -/
def Obligations.DrainWriteRemovesItsEntry : Prop :=
  (∀ (s : State) (x : Outstanding) (w : Slot16) (pr : Progress) (rest : List Item) (before after : List Entry) (e : Entry)
    (epoch data : Word), Settled s.dev →
    s.dev.mem.outstanding = some x → x.dropped = false → x.owner = .drain w →
    s.dev.commitQueue = ⟨w, .epoch, some pr⟩ :: rest → (∀ it ∈ rest, it.window ≠ w) →
    (s.dev.rt w).drainingEpoch = some epoch → pr.written + 1 < pr.planned →
    s.dev.entries = before ++ e :: after → e.window = w → e.epoch = .draining →
    (∀ y ∈ before, y.window ≠ w ∨ y.epoch ≠ .draining) →
    let d : Device := { s.dev with
      mem := { s.dev.mem with outstanding := none }
      entries := before ++ after }
    exec (.memoryCompletion false data) s = .next { s with
      dev := { d with commitQueue := ⟨w, .epoch, some { pr with written := pr.written + 1 }⟩ :: rest } } ∧
    exec (.memoryCompletion true data) s = .next { s with
      dev := (({ d with
          commitQueue := ⟨w, .epoch, some { pr with written := pr.written + 1, writeError := true }⟩ :: rest }.modRt w
          fun y => { y with counters := { y.counters with drainErrors := satInc y.counters.drainErrors } }).setFlag
          (.wex w)).offer
        { kind := .commitWrite, detail := some (.commitWrite .entry), window := some w, port := none,
          address := some x.access.address, epoch := some epoch } }) ∧
  (∀ (s : State) (x : Outstanding) (w : Slot16) (pr : Progress) (rest : List Item) (before after : List Entry) (e : Entry)
    (epoch data : Word) (merr : Bool), Settled s.dev →
    s.dev.mem.outstanding = some x → x.dropped = false → x.owner = .drain w →
    s.dev.commitQueue = ⟨w, .epoch, some pr⟩ :: rest → (∀ it ∈ rest, it.window ≠ w) →
    (s.dev.rt w).drainingEpoch = some epoch → pr.phase = .writing → pr.written + 1 = pr.planned →
    s.dev.entries = before ++ e :: after → e.window = w → e.epoch = .draining →
    (∀ y ∈ before, y.window ≠ w ∨ y.epoch ≠ .draining) →
    let d : Device := { s.dev with
      mem := { s.dev.mem with outstanding := none }
      entries := before ++ after }
    let reported : Device :=
      if merr then ((d.modRt w
          fun y => { y with counters := { y.counters with drainErrors := satInc y.counters.drainErrors } }).setFlag (.wex w)).offer
        { kind := .commitWrite, detail := some (.commitWrite .entry), window := some w, port := none,
          address := some x.access.address, epoch := some epoch }
      else d
    exec (.memoryCompletion merr data) s = .next { s with
      dev := statusEntered reported w .epoch
        { pr with written := pr.written + 1, writeError := pr.writeError || merr } rest }) ∧
  (∀ (s : State) (x : Outstanding) (w : Slot16) (pr : Progress) (rest : List Item) (data : Word) (merr : Bool), Settled s.dev →
    s.dev.mem.outstanding = some x → x.dropped = false → x.owner = .safeWord w →
    s.dev.commitQueue = ⟨w, .safe, some pr⟩ :: rest → (∀ it ∈ rest, it.window ≠ w) → pr.phase = .writing →
    let d : Device := { s.dev with mem := { s.dev.mem with outstanding := none } }
    let reported : Device :=
      if merr then (d.setFlag (.wex w)).offer
        { kind := .commitWrite, detail := some (.commitWrite .safeWord), window := some w, port := none,
          address := some x.access.address, epoch := some (s.dev.rt w).openEpoch }
      else d
    let pr' : Progress :=
      { pr with written := pr.written + 1, safeDone := pr.safeDone + 1, writeError := pr.writeError || merr }
    (pr.written + 1 < pr.planned → exec (.memoryCompletion merr data) s = .next { s with
      dev := { reported with commitQueue := ⟨w, .safe, some pr'⟩ :: rest } }) ∧
    (pr.written + 1 = pr.planned → exec (.memoryCompletion merr data) s = .next { s with
      dev := statusEntered reported w .safe pr' rest })) ∧
  (∀ (s : State) (x : Outstanding) (w : Slot16) (pr : Progress) (rest : List Item) (before after : List Entry) (e : Entry)
    (epoch data : Word) (merr : Bool), Settled s.dev →
    s.dev.mem.outstanding = some x → x.dropped = false → x.owner = .drain w →
    s.dev.commitQueue = ⟨w, .safe, some pr⟩ :: rest → (∀ it ∈ rest, it.window ≠ w) →
    (s.dev.rt w).drainingEpoch = some epoch → pr.phase = .writing →
    s.dev.entries = before ++ e :: after → e.window = w → e.epoch = .draining →
    (∀ y ∈ before, y.window ≠ w ∨ y.epoch ≠ .draining) →
    let d : Device := { s.dev with
      mem := { s.dev.mem with outstanding := none }
      entries := before ++ after }.modRt w fun y => { y with drainingEpoch := none }
    let reported : Device :=
      if merr then ((d.modRt w
          fun y => { y with counters := { y.counters with drainErrors := satInc y.counters.drainErrors } }).setFlag (.wex w)).offer
        { kind := .commitWrite, detail := some (.commitWrite .entry), window := some w, port := none,
          address := some x.access.address, epoch := some epoch }
      else d
    let pr' : Progress := { pr with written := pr.written + 1, writeError := pr.writeError || merr }
    (pr.written + 1 < pr.planned → exec (.memoryCompletion merr data) s = .next { s with
      dev := { reported with commitQueue := ⟨w, .safe, some pr'⟩ :: rest } }) ∧
    (pr.written + 1 = pr.planned → exec (.memoryCompletion merr data) s = .next { s with
      dev := statusEntered reported w .safe pr' rest }))

/-- A status word completes (R82, R85): the next word, or after the fourth the item's completion (R77, R79); MERR adds only WEX and a
STATUS_WORD record with the epoch of word 0 (R85). The four words of a block as they are formed (R83 and the status block layout
table). -/
def Obligations.StatusWordsEndTheItem : Prop :=
  (∀ (s : State) (x : Outstanding) (w : Slot16) (k : ItemKind) (pr : Progress) (rest : List Item) (data : Word),
    Settled s.dev → s.dev.mem.outstanding = some x → x.dropped = false → x.owner = .statusWord w →
    s.dev.commitQueue = ⟨w, k, some pr⟩ :: rest → (∀ it ∈ rest, it.window ≠ w) →
    let d : Device := { s.dev with mem := { s.dev.mem with outstanding := none } }
    (pr.statusDone + 1 < 4 →
      exec (.memoryCompletion false data) s = .next { s with
        dev := { d with commitQueue := ⟨w, k, some { pr with statusDone := pr.statusDone + 1 }⟩ :: rest } }) ∧
    (4 ≤ pr.statusDone + 1 → k = .epoch →
      exec (.memoryCompletion false data) s = .next { s with
        dev := { (d.modRt w fun r =>
            { r with
              consumerHold := false, holdRequest := false, safeAfterItem := false, drainingEpoch := none
              lastCommitted := r.drainingEpoch.getD r.lastCommitted
              counters := { r.counters with commits := satInc r.counters.commits } }).setFlag (.cmt w) with
          commitQueue := rest ++ (if (s.dev.rt w).safeAfterItem then [⟨w, .safe, none⟩] else []) } }) ∧
    (4 ≤ pr.statusDone + 1 → k = .safe →
      exec (.memoryCompletion false data) s = .next { s with
        dev := { (d.modRt w fun r => { r with consumerHold := false, holdRequest := false }).setFlag (.cmt w) with
          commitQueue := rest } })) ∧
  (∀ (s : State) (x : Outstanding) (w : Slot16) (k : ItemKind) (pr : Progress) (rest : List Item) (data e : Word)
    (block : List Word), Settled s.dev → s.dev.mem.outstanding = some x → x.dropped = false → x.owner = .statusWord w →
    s.dev.commitQueue = ⟨w, k, some pr⟩ :: rest → pr.block = e :: block →
    let t : State := { s with
      dev := (s.dev.setFlag (.wex w)).offer
        { kind := .commitWrite, detail := some (.commitWrite .statusWord), window := some w, port := none,
          address := some x.access.address, epoch := some e } }
    Settled t.dev ∧ exec (.memoryCompletion true data) s = exec (.memoryCompletion false data) t) ∧
  (∀ (d : Device) (w : Slot16) (k : ItemKind) (pr : Progress),
    let r := d.rt w
    ∃ word0 word1 word2, statusWords d w k pr = [word0, word1, word2, d.clock.deviceTime] ∧
      (∀ e, k = .epoch → r.drainingEpoch = some e → word0 = e) ∧ (k = .safe → word0 = r.lastCommitted) ∧
      (pr.written ≤ 320 → (word1.extractLsb' 0 16).toNat = pr.written) ∧
      word1.getLsbD 16 = (r.state == .tripped) ∧ word1.getLsbD 17 = (k == .safe) ∧ word1.getLsbD 18 = r.lateSince ∧
      word1.getLsbD 19 = r.overrunSince ∧ word1.getLsbD 20 = pr.writeError ∧ word1.getLsbD 21 = (r.state == .paused) ∧
      word1.getLsbD 22 = false ∧ word1.getLsbD 23 = false ∧ word1.extractLsb' 24 8 = (match r.state with | .off => 0 | .running => 1 | .paused => 2 | .tripped => 3) ∧
      word2.extractLsb' 0 16 = r.counters.late ∧ word2.extractLsb' 16 16 = r.counters.overrun)

/-! ## Watchdogs and timing sources -/

/-- A watchdog expiry trips the window: TRIPPED, the trips counter, WEX and a TRIP record (R113); AT_EVENT sets safe load pending
(R116), IMMEDIATE queues a SAFE item or turns a waiting EPOCH item into one (R80, R115). A running EPOCH item becomes the SAFE item in
STARTING, goes on as the safe load in WRITING behind a drain write that is in progress, and in STATUS is followed by one (R80, R81, R56).
The watchdogs whose counts the passing of time brings to 0 expire at that moment, each of them, and no other window changes (R110, R113).
That the command lets time run to the expiry is the model's choice (log 4), and so is that of two watchdogs that expire at one moment the
commanded one comes first (log 36). -/
def Obligations.WatchdogTripsTheWindow : Prop :=
  (∀ (s : State) (w : Slot16) (ds : Descriptor) (t : Nat), NextDue s.dev (.watchdog w) t →
    (s.dev.win w).desc = some ds → (s.dev.rt w).state = .running →
    let tripped : TripMode → (Runtime → Runtime) → Device := fun m f =>
      (((s.dev.reached t).modRt w fun r =>
        f { r with state := .tripped, watchdog := none, counters := { r.counters with trips := satInc r.counters.trips } }).setFlag
        (.wex w)).offer
        { kind := .trip, detail := some (.trip m), window := some w, port := none, address := none,
          epoch := some (s.dev.rt w).openEpoch }
    let becomes : Device → Prop := fun d => exec (.watchdogExpiry w) s = .next { s with dev := d.tripExpired }
    (ds.tripMode = .atEvent → becomes (tripped .atEvent fun r => { r with safeLoadPending := true })) ∧
    (ds.tripMode = .immediate → s.dev.itemOf w = none →
      becomes { tripped .immediate id with commitQueue := s.dev.commitQueue ++ [⟨w, .safe, none⟩] }) ∧
    (ds.tripMode = .immediate → (s.dev.itemOf w).map Item.kind = some .safe → becomes (tripped .immediate id)) ∧
    (ds.tripMode = .immediate → s.dev.itemOf w = some ⟨w, .epoch, none⟩ → s.dev.inFlight (.drain w) = false →
      becomes
        { (tripped .immediate fun r =>
            { r with
              drainingEpoch := none
              counters := { r.counters with discarded := satAdd r.counters.discarded (s.dev.drainList w).length } }) with
          entries := s.dev.entries.filter fun e => !(e.isDraining w)
          commitQueue := s.dev.commitQueue.map fun it => if it.window = w then ⟨w, .safe, none⟩ else it })) ∧
  (∀ (s : State) (w : Slot16) (ds : Descriptor) (t : Nat) (pr : Progress) (rest : List Item), NextDue s.dev (.watchdog w) t →
    (s.dev.win w).desc = some ds → (s.dev.rt w).state = .running → ds.tripMode = .immediate →
    s.dev.commitQueue = ⟨w, .epoch, some pr⟩ :: rest → (∀ it ∈ rest, it.window ≠ w) →
    let tripped : (Runtime → Runtime) → Device := fun f =>
      (((s.dev.reached t).modRt w fun r =>
        f { r with state := .tripped, watchdog := none, counters := { r.counters with trips := satInc r.counters.trips } }).setFlag
        (.wex w)).offer
        { kind := .trip, detail := some (.trip .immediate), window := some w, port := none, address := none,
          epoch := some (s.dev.rt w).openEpoch }
    let discards : Nat → Runtime → Runtime := fun n r =>
      { r with counters := { r.counters with discarded := satAdd r.counters.discarded n } }
    let safe : Progress → List Item := fun q => ⟨w, .safe, some q⟩ :: rest
    let becomes : Device → Prop := fun d => exec (.watchdogExpiry w) s = .next { s with dev := d.tripExpired }
    let cleared : Device :=
      { (tripped fun r => { discards (s.dev.drainList w).length r with drainingEpoch := none }) with
        entries := s.dev.entries.filter fun e => !(e.isDraining w) }
    (pr.phase = .starting → s.dev.inFlight (.drain w) = false →
      becomes { cleared with commitQueue := safe { pr with planned := ds.safeCount } }) ∧
    (pr.phase = .writing → s.dev.inFlight (.drain w) = false → ds.safeCount ≠ 0 →
      becomes { cleared with commitQueue := safe { pr with planned := pr.written + ds.safeCount, safeDone := 0 } }) ∧
    (pr.phase = .writing → s.dev.inFlight (.drain w) = false → ds.safeCount = 0 →
      becomes (statusEntered cleared w .safe { pr with planned := pr.written, safeDone := 0 } rest)) ∧
    (∀ before e after, pr.phase = .writing → s.dev.inFlight (.drain w) = true → s.dev.entries = before ++ e :: after →
      e.isDraining w = true → (∀ y ∈ before, y.isDraining w = false) →
      becomes { tripped (discards (after.filter (·.isDraining w)).length) with
        entries := before ++ e :: after.filter fun y => !(y.isDraining w)
        commitQueue := safe { pr with planned := pr.written + 1 + ds.safeCount, safeDone := 0 } }) ∧
    (pr.phase = .status → becomes (tripped fun r => { r with safeAfterItem := true }))) ∧
  (∀ d : Device,
    ((∀ w, (d.rt w).watchdog ≠ some 0) → d.tripExpired = d) ∧
    (∀ w, (d.rt w).watchdog = some 0 → (∀ v, v ≠ w → (d.rt v).watchdog ≠ some 0) → d.tripExpired = d.expire (.watchdog w)) ∧
    (∀ w ds, (d.win w).desc = some ds → (d.rt w).state = .running → (d.rt w).watchdog = some 0 →
      (d.tripExpired.rt w).state = .tripped ∧ (d.tripExpired.rt w).watchdog = none ∧
      (d.tripExpired.rt w).counters.trips = satInc (d.rt w).counters.trips) ∧
    (∀ w, (d.rt w).watchdog ≠ some 0 → d.tripExpired.win w = d.win w))

/-- A pulse at a monitor in READY: acquisition, three counted pulses, delivery in band, glitches out of band (R91, R92, R93, R94, R96,
R103); the limits are exact (R90). Outside READY no monitor takes it (R183). That the command lets time pass before the edge, for the bus
clock periods that it carries or up to the first thing that is due if that is sooner, is the model's choice (log 5), and so is that
watchdogs which expire at its moment come after it (log 36). -/
def Obligations.PulseIsTakenByItsMonitor : Prop :=
  ∀ (s : State) (x : Strobe) (after t : Nat), Settled s.dev →
    t ≤ after → (∀ y ∈ s.dev.dueTimes, t ≤ y) → (t = after ∨ t ∈ s.dev.dueTimes) →
    let d := s.dev.reached t
    let m := d.monitors.get x
    let band := d.period x * d.clock.perUs
    let becomes : Device → Prop := fun y => exec (.strobePulse x after) s = .next { s with dev := y.tripExpired }
    let started : Device := d.setMonitor x { m with state := .acquiring, count := 1, since := some 0 }
    (s.dev.startup.state ≠ .ready → becomes d) ∧
    (s.dev.startup.state = .ready →
      (m.state = .absent ∨ m.state = .lost → becomes started) ∧
      (∀ e, m.state = .acquiring → m.since = some e → (4 * e < 3 * band ∨ 5 * band < 4 * e) → becomes started) ∧
      (∀ e, m.state = .acquiring → m.since = some e → 3 * band ≤ 4 * e → 4 * e ≤ 5 * band → m.count = 1 →
        becomes (d.setMonitor x { m with count := 2, since := some 0 })) ∧
      (∀ e, m.state = .acquiring → m.since = some e → 3 * band ≤ 4 * e → 4 * e ≤ 5 * band → m.count = 2 →
        becomes ((d.setMonitor x { m with state := .present, count := 3, since := some 0 }).refreshSource (strobeSource x))) ∧
      (∀ e, m.state = .present → m.since = some e → (4 * e < 3 * band ∨ 5 * band < 4 * e) →
        becomes (d.setMonitor x { m with glitches := satInc m.glitches })) ∧
      (∀ e, m.state = .present → m.since = some e → 3 * band ≤ 4 * e → 4 * e ≤ 5 * band →
        becomes ((allWindows.filter fun w => (d.win w).desc.isSome && (d.rt w).effective == strobeSource x).foldl
          Device.commitEvent (d.setMonitor x { m with since := some 0 }))))

/-- A monitor's timeout: from ACQUIRING quietly to ABSENT (R92); from PRESENT to LOST with the loss counter, SYNC, a SYNC_LOST record
and the effective sources of the windows that select the input (R95). That the command lets time run to the timeout is the model's
choice (log 4), and so is that watchdogs which expire at the same moment come after it (log 36). -/
def Obligations.MonitorTimesOut : Prop :=
  ∀ (s : State) (x : Strobe) (t : Nat),
    let d := s.dev.reached t
    let m := d.monitors.get x
    (NextDue s.dev (.acquisition x) t →
      exec (.acquisitionTimeout x) s = .next { s with
        dev := (d.setMonitor x { m with state := .absent, count := 0, since := none }).tripExpired }) ∧
    (NextDue s.dev (.sync x) t →
      exec (.syncLost x) s = .next { s with
        dev := ((((d.setMonitor x
          { m with state := .lost, count := 0, since := none, losses := satInc m.losses }).setFlag .sync).offer
          { kind := .syncLost, detail := some (.sync x), window := none, port := none, address := none,
            epoch := none }).refreshSource (strobeSource x)).tripExpired })

/-- The LCT expires: a next period is taken over, a new period begins, and the expiry is one commit event of each window whose
effective source is LCT, in ascending order (R98, R103). That the command lets time run to the expiry is the model's choice
(log 4), and so is that watchdogs which expire at the same moment come after it (log 36). -/
def Obligations.LctExpiryIsDelivered : Prop :=
  ∀ (s : State) (t : Nat), NextDue s.dev .lct t → s.dev.lct.running = true →
    let d := s.dev.reached t
    let p := s.dev.lct.next.getD s.dev.lct.period
    exec .lctExpiry s = .next { s with
      dev := ((allWindows.filter fun w => (d.win w).desc.isSome && (d.rt w).effective == .lct).foldl Device.commitEvent
        { d with lct := ⟨true, p, none, some p⟩ }).tripExpired }

/-- TIMER START, STOP and PERIOD (R99, R100, R101): the period bytes of START and STOP are ignored (R178). -/
def Obligations.TimerCommandsActOnTheLct : Prop :=
  ∀ (s : State) (period : Word), Serving s.dev →
    let t := s.dev.lct
    let p := t.next.getD t.period
    let sets : Lct → State := fun l => { s with dev := { s.dev with lct := l }.answering [0] }
    let inUse : Prop := ∃ (w : Slot16) (ds : Descriptor), (s.dev.win w).desc = some ds ∧ (s.dev.rt w).state ≠ .off ∧
      ((s.dev.rt w).selected = .lct ∨ (s.dev.rt w).effective = .lct)
    exec (.timerStart period) s = .next (sets ⟨true, p, none, some p⟩) ∧
    (inUse → exec (.timerStop period) s = .next { s with dev := s.dev.answering [1] }) ∧
    (¬inUse → t.running = true → exec (.timerStop period) s = .next (sets ⟨false, p, none, none⟩)) ∧
    (¬inUse → t.running = false → exec (.timerStop period) s = .next (sets t)) ∧
    ((period.toNat < 10 ∨ 1000000 < period.toNat) →
      exec (.timerPeriod period) s = .next { s with dev := s.dev.answering [2] }) ∧
    (10 ≤ period.toNat → period.toNat ≤ 1000000 → t.running = true →
      exec (.timerPeriod period) s = .next (sets { t with next := some period.toNat })) ∧
    (10 ≤ period.toNat → period.toNat ≤ 1000000 → t.running = false →
      exec (.timerPeriod period) s = .next (sets { t with period := period.toNat, next := none }))

/-- SELECT_SOURCE: its refusals, and the selected and effective source that an accepted one leaves (R102, R106; the source codes 0 to 6 are
those of the layout table). -/
def Obligations.SelectSourceNeedsItsSource : Prop :=
  ∀ (s : State) (index code : Byte), ServingWindows s.dev →
    let refused : Byte → Prop := fun st => exec (.selectSource index code) s = .next { s with dev := s.dev.answering [st] }
    ((15 < index.toNat ∨ 6 < code.toNat ∨ ∃ w : Slot16, index.toNat = w.val ∧ (s.dev.win w).desc = none) → refused 2) ∧
    (∀ (w : Slot16) (ds : Descriptor) (x : Source), index.toNat = w.val → (s.dev.win w).desc = some ds →
      [Source.tsa, .tsb, .fms, .fme, .lct, .close, .manual][code.toNat]? = some x →
      ((∃ y, x = strobeSource y ∧ (s.dev.monitors.get y).state ≠ .present) → refused 1) ∧
      ((x = .lct ∧ s.dev.lct.running = false) → refused 1) ∧
      ((∀ y, x = strobeSource y → (s.dev.monitors.get y).state = .present) → (x = .lct → s.dev.lct.running = true) →
        exec (.selectSource index code) s = .next { s with
          dev := (s.dev.modRt w fun r => { r with selected := x, effective := x }).answering [0] }))

/-! ## The fault unit -/

/-- CLEAR_FLAGS, SET_ENABLE, SET_LEVEL and SET_THRESHOLD change the flags, enables and levels named, and refuse a value outside its
range (R163, R165, R179). -/
def Obligations.FlagCommandsChangeTheNamedFlags : Prop :=
  ∀ (s : State) (mask : BitVec 40) (v : Byte), Serving s.dev →
    let u := s.dev.fault
    let sets : FaultUnit → State := fun x => { s with dev := { s.dev with fault := x }.answering [0] }
    let refused : State := { s with dev := s.dev.answering [2] }
    (∃ f, exec (.clearFlags mask) s = .next (sets { u with flags := f }) ∧
      ∀ p < 40, f.getLsbD p = (u.flags.getLsbD p && !mask.getLsbD p)) ∧
    (v.toNat ≤ 1 → ∃ f, exec (.setEnable mask v) s = .next (sets { u with enables := f }) ∧
      ∀ p < 40, f.getLsbD p = if mask.getLsbD p then v == 1 else u.enables.getLsbD p) ∧
    (1 < v.toNat → exec (.setEnable mask v) s = .next refused) ∧
    (v.toNat ≤ 3 → ∃ f, exec (.setLevel mask v) s = .next (sets { u with levels := f }) ∧
      ∀ p < 40, (f.extractLsb' (2 * p) 2).toNat = if mask.getLsbD p then v.toNat else (u.levels.extractLsb' (2 * p) 2).toNat) ∧
    (3 < v.toNat → exec (.setLevel mask v) s = .next refused) ∧
    (v.toNat ≤ 3 → exec (.setThreshold v) s = .next (sets { u with threshold := v.setWidth 2 })) ∧
    (3 < v.toNat → exec (.setThreshold v) s = .next refused)

/-- IRQ is asserted exactly when a flag is set, enabled and above the threshold; LVL gives the highest level of such a flag, and 0
when there is none (R164). -/
def Obligations.IrqFollowsTheActiveFlags : Prop :=
  ∀ u : FaultUnit,
    let active : Nat → Prop := fun p => p < 40 ∧ u.flags.getLsbD p = true ∧ u.enables.getLsbD p = true ∧
      u.threshold.toNat < (u.levels.extractLsb' (2 * p) 2).toNat
    (u.irq = true ↔ ∃ p, active p) ∧
    (∀ p, active p → (u.levels.extractLsb' (2 * p) 2).toNat ≤ u.lvl) ∧
    (u.irq = true → ∃ p, active p ∧ (u.levels.extractLsb' (2 * p) 2).toNat = u.lvl) ∧
    (u.irq = false → u.lvl = 0)

/-- A record offered to a log with room is stored at the tail with the next number, which then increases by one, from 65535 to 1
(R169); a full log loses it, with LOG_FULL and the overflow count (R170). -/
def Obligations.LogStoresOrOverflows : Prop :=
  ∀ (d : Device) (r : Report),
    let u := d.fault
    (u.log.length < 16 → d.offer r = { d with
      fault := { u with
        log := u.log ++ [⟨u.nextSequence, d.clock.deviceTime, r⟩]
        nextSequence := if u.nextSequence = 65535 then 1 else u.nextSequence + 1 } }) ∧
    (16 ≤ u.log.length → d.offer r = { d with
      fault := { u with
        flags := u.flags ||| (1#40 <<< 38)
        overflow := if u.overflow = 65535 then 65535 else u.overflow + 1 } })

/-- READ_LOG answers EMPTY, or removes the oldest record and returns its 23 bytes (R171 and the fault record layout table; written and
planned stand in bytes 9..12 of a LINK_RESET record, R168). The bytes of absent fields are free values (log 16): the statement holds for
every value of them. That the unlisted bits of the presence byte read 0 is the model's choice (log 17). The codes: of the kinds in the
order of R167, of each kind's details from 0 in that order, of the causes of a load's end (R181), and the fields of byte 8 of a LINK_RESET
record (R168). -/
def Obligations.ReadLogReturnsTheOldest : Prop :=
  (∀ s : State, Serving s.dev →
    (s.dev.fault.log = [] → exec .readLog s = .next { s with dev := s.dev.answering [5] }) ∧
    (∀ x rest, s.dev.fault.log = x :: rest → ∃ (bytes : List Byte) (n : Nat),
      exec .readLog s = .next { s with
        dev := { s.dev with fault := { s.dev.fault with log := rest }, freeIndex := n }.answering (0 :: bytes) } ∧
      bytes.length = 23 ∧
      bytes.take 8 =
        (bitByte x.report.detail.isSome 0 ||| bitByte x.report.window.isSome 1 ||| bitByte x.report.port.isSome 2 |||
          bitByte x.report.address.isSome 3 ||| bitByte x.report.epoch.isSome 4) ::
        (beBytes 2 x.sequence.toNat ++ beBytes 4 x.time.toNat ++ [x.report.kind.code]) ∧
      (∀ y, x.report.detail = some y → bytes[8]? = some y.code) ∧
      (∀ y, x.report.detail = some (.linkReset y) → (bytes.drop 9).take 4 = beBytes 2 y.written ++ beBytes 2 y.planned) ∧
      (∀ w, x.report.window = some w → bytes[13]? = some (BitVec.ofNat 8 w.val)) ∧
      (∀ p, x.report.port = some p → bytes[14]? = some (portByte p)) ∧
      (∀ a, x.report.address = some a → (bytes.drop 15).take 3 = beBytes 3 a) ∧
      (∀ e, x.report.epoch = some e → (bytes.drop 18).take 4 = beBytes 4 e.toNat) ∧
      bytes[22]? = some (BitVec.ofNat 8 rest.length))) ∧
  [FaultKind.access, .holdTimeout, .pool, .quota, .late, .overrun, .trip, .commitWrite, .lockBroken, .lockLate, .lockMisuse,
    .memoryRead, .memoryPosted, .syncLost, .config, .linkReset].map FaultKind.code =
    [0, 1, 2, 3, 4, 5, 6, 7, 8, 9, 10, 11, 12, 13, 14, 15] ∧
  (∀ n : Nat,
    let codes : {α : Type} → (α → Detail) → List α → Prop := fun f xs => ∀ x, xs[n]? = some x → (f x).code.toNat = n
    codes .access [.malformed, .lockMisuse, .limit, .statusWrite, .confined, .role, .privilege] ∧
    codes .hold [.consumerHold, .queueSpace, .lockWait] ∧
    codes .overrun [.itemPending, .secondDefer] ∧
    codes .trip [.immediate, .atEvent] ∧
    codes .commitWrite [.entry, .safeWord, .statusWord] ∧
    codes .lockMisuse [.wrongWord, .secondLock, .unlocked] ∧
    codes .posted [.posted, .through, .locked] ∧
    codes .sync [.tsa, .tsb, .fms, .fme] ∧
    codes .config [.flashTimeout, .badHeader, .badLength, .badCrc, .badField, .safeTotal, .overlap]) ∧
  (∀ y : LinkResetSummary, y.postedLost ≤ 4 →
    let b := (Detail.linkReset y).code.toNat
    b % 4 = (match y.item with | none => 0 | some .epoch => 1 | some .safe => 2) ∧
    b / 4 % 2 = (if y.answered then 1 else 0) ∧ b / 16 % 8 = y.postedLost) ∧
  portByte .a = 0 ∧ portByte .b = 1

/-! ## The management link -/

/-- The reading commands change nothing but the answer, which has the length of the layout table: READ_ID and READ_STATUS in every
start-up state (R177), the others in READY; READ_WINDOW refuses an index above 15 and reports an empty slot (R107, R140, R165, R178,
R180). Then the bytes of READ_FLAGS, READ_SOURCES, READ_PORTS, READ_RESET_CAUSE and READ_WINDOW, field by field. That unlisted bits read
0 (log 17), the bytes for yes and no (log 27), and the running bit and the absent item of a reset cause (logs 29 and 39) are the model's
choices. The codes of the layout table that these bytes are made of, and how numbers and bits stand in bytes. -/
def Obligations.ReadsChangeOnlyTheAnswer : Prop :=
  (∀ s : State, Settled s.dev → s.dev.startup.pwrRst = false →
    let answers : Instr → List Byte → Nat → Prop := fun c bytes n =>
      exec c s = .next { s with dev := s.dev.answering (0 :: bytes) } ∧ bytes.length = n
    let running : Byte :=
      match s.dev.commitQueue with
      | ⟨w, k, some _⟩ :: _ => 0x80 ||| bitByte (k == .safe) 6 ||| bitByte true 5 ||| BitVec.ofNat 8 w.val
      | _ => 0
    answers .readId [0x03, 0xA7, 0x31, 0x20, 2, 1] 6 ∧
    answers .readStatus
      ([s.dev.startup.state.code, boolByte s.dev.startup.transparent,
          bitByte s.dev.fault.irq 7 ||| BitVec.ofNat 8 s.dev.fault.lvl] ++
        beBytes 4 s.dev.clock.deviceTime.toNat ++ beBytes 2 (256 - s.dev.entries.length) ++
        [BitVec.ofNat 8 s.dev.poolWait.length, BitVec.ofNat 8 s.dev.commitQueue.length, running,
          BitVec.ofNat 8 s.dev.fault.log.length] ++ beBytes 2 s.dev.fault.overflow.toNat) 15 ∧
    (s.dev.startup.state = .ready →
      answers .readFlags s.dev.fault.flagBytes 22 ∧
      answers .readSources s.dev.sourceBytes 58 ∧
      answers .readPorts s.dev.portsBytes 35 ∧
      answers .readResetCause s.dev.startup.cause.bytes 7 ∧
      (∀ (index : Byte) (w : Slot16), index.toNat = w.val →
        (∀ ds, (s.dev.win w).desc = some ds → ds.words.length = 8) →
        answers (.readWindow index) (s.dev.windowBytes w) 75) ∧
      (∀ (index : Byte) (w : Slot16), index.toNat = w.val → (s.dev.win w).desc = none →
        s.dev.windowBytes w = List.replicate 32 0 ++ [0, 0xFF, 0xFF] ++ List.replicate 40 0) ∧
      (∀ index : Byte, 15 < index.toNat → exec (.readWindow index) s = .next { s with dev := s.dev.answering [2] }))) ∧
  (∀ d : Device,
    let outputs : Byte := bitByte d.fault.irq 7 ||| BitVec.ofNat 8 d.fault.lvl
    let monitor : Strobe → List Byte := fun x =>
      let m := d.monitors.get x
      [m.state.code] ++ beBytes 3 (d.period x) ++ [BitVec.ofNat 8 m.count] ++ beBytes 2 m.glitches.toNat ++
      beBytes 2 m.losses.toNat ++ (match m.since with | none => [0xFF, 0xFF, 0xFF] | some e => beBytes 3 (e / d.clock.perUs))
    let port : Port → List Byte := fun p =>
      let u := d.port p
      [u.kind.code] ++ beBytes 2 (d.holdLimit p) ++ [boolByte (d.confined p), phaseCode (u.current.map Current.phase)] ++
      (match u.holdTimer with | none => [0xFF, 0xFF] | some t => beBytes 2 t) ++
      [BitVec.ofNat 8 u.queue.length ||| bitByte (d.inFlight (.posted p)) 7, u.lock.code] ++
      beBytes 2 u.counters.retries.toNat ++ beBytes 2 u.counters.holdTimeouts.toNat ++ beBytes 2 u.counters.refusals.toNat ++
      beBytes 2 u.counters.postedLost.toNat
    let item : Slot16 → ItemKind → Bool → Byte := fun w k running =>
      0x80 ||| bitByte (k == .safe) 6 ||| bitByte running 5 ||| BitVec.ofNat 8 w.val
    d.fault.flagBytes = beBytes 5 d.fault.flags.toNat ++ beBytes 5 d.fault.enables.toNat ++ beBytes 10 d.fault.levels.toNat ++
      [BitVec.ofNat 8 d.fault.threshold.toNat, outputs] ∧
    d.sourceBytes = monitor .tsa ++ monitor .tsb ++ monitor .fms ++ monitor .fme ++
      ([boolByte d.lct.running] ++ beBytes 3 d.lct.period ++ beBytes 3 (d.lct.next.getD 0) ++
        (match d.lct.remaining with | none => [0xFF, 0xFF, 0xFF] | some t => beBytes 3 t)) ∧
    d.portsBytes = port .a ++ port .b ++ [d.mem.exclusive.code] ∧
    (∀ x n, (⟨x, none, n⟩ : ResetCause).bytes = [x.code, 0, 0, 0, 0, 0, BitVec.ofNat 8 n]) ∧
    (∀ x w k a b n, (⟨x, some ⟨w, k, a, b⟩, n⟩ : ResetCause).bytes =
      [x.code, item w k true] ++ beBytes 2 a ++ beBytes 2 b ++ [BitVec.ofNat 8 n]) ∧
    (∀ w ds, (d.win w).desc = some ds →
      let r := d.rt w
      let c := r.counters
      d.windowBytes w = (ds.words.map fun x => beBytes 4 x.toNat).flatten ++
        [r.state.code, r.selected.code, r.effective.code] ++ beBytes 4 r.openEpoch.toNat ++ beBytes 4 r.lastCommitted.toNat ++
        [bitByte r.closeMark 0 ||| bitByte r.safeLoadPending 1 ||| bitByte r.consumerHold 2 ||| bitByte r.deferredCommit 3 |||
          bitByte r.lateSince 4 ||| bitByte r.overrunSince 5 ||| bitByte r.safeAfterItem 6] ++
        (match r.watchdog with | none => [0, 0, 0] | some t => beBytes 3 t) ++
        (beBytes 2 c.commits.toNat ++ beBytes 2 c.emptyEvents.toNat ++ beBytes 2 c.skippedEvents.toNat ++
          beBytes 2 c.late.toNat ++ beBytes 2 c.overrun.toNat ++ beBytes 2 c.quotaRefusals.toNat ++ beBytes 2 c.trips.toNat ++
          beBytes 2 c.discarded.toNat ++ beBytes 2 c.drainErrors.toNat) ++
        beBytes 2 (d.openList w).length ++ beBytes 2 (d.drainList w).length ++
        (match d.itemOf w with
          | none => [0, 0, 0, 0, 0, 0]
          | some ⟨v, k, none⟩ => [item v k false, 0, 0, 0, 0, 0]
          | some ⟨v, k, some pr⟩ =>
            [item v k true, pr.phase.code ||| bitByte pr.writeError 7] ++ beBytes 2 pr.planned ++ beBytes 2 pr.written))) ∧
  [WindowState.off, .running, .paused, .tripped].map WindowState.code = [0, 1, 2, 3] ∧
  [Source.tsa, .tsb, .fms, .fme, .lct, .close, .manual].map Source.code = [0, 1, 2, 3, 4, 5, 6] ∧
  [StartState.reset, .settle, .straps, .load, .ready].map StartState.code = [0, 1, 2, 3, 4] ∧
  [MonitorState.absent, .acquiring, .present, .lost].map MonitorState.code = [0, 1, 2, 3] ∧
  [ResetSource.pwrRst, .rstIn, .softDatapath, .softFull].map ResetSource.code = [1, 2, 3, 4] ∧
  [ItemPhase.starting, .writing, .status].map ItemPhase.code = [0, 1, 2] ∧
  [PortKind.retryCapable, .holdOnly].map PortKind.code = [0, 1] ∧
  [none, some .ordering, some .performing].map phaseCode = [0, 1, 3] ∧ (∀ k, phaseCode (some (.held k)) = 2) ∧
  [ExclusiveLock.free, .reserved .a, .reserved .b, .held .a, .held .b].map ExclusiveLock.code = [0, 1, 2, 3, 4] ∧
  (∀ (k : LockKind) (a n : Nat) (rem : Option Nat),
    let kind : Byte := (match k with | .exclusive => 0 | .window _ => 0x10)
    LockRecord.noLock.code = 0 ∧ (LockRecord.opening k a).code = 1 + kind ∧ (LockRecord.opened k a n).code = 2 + kind ∧
    (LockRecord.closing k a rem).code = 3 + kind ∧ (LockRecord.broken a).code = 4) ∧
  (∀ b, (boolByte b).toNat = if b then 1 else 0) ∧
  (∀ b, ∀ i < 8, (bitByte b i).toNat = if b then 2 ^ i else 0) ∧
  (∀ n x, (beBytes n x).length = n ∧ ∀ i < n, (beBytes n x)[i]? = some (BitVec.ofNat 8 (x / 256 ^ (n - 1 - i))))

/-- Frames that are turned away: every command but READ_ID and READ_STATUS before READY, the window commands in transparent mode, bytes
that name nothing; while PWR_RST is asserted nothing happens but that MSEL is followed (R175, R176, R178, R180), and MSEL asserted then,
or left asserted over it, begins no frame until it is asserted again (the model's choice, log 40; that a whole frame commanded then leaves
MSEL as it stood is log 20's). FRAME_ABORT ends a frame in any phase. The other edges of a frame, which UNKNOWN_COMMAND's operand carries
(log 20): MSEL begins a frame; bits come in, most significant first; the edge of the last bit takes the command that the bytes received
spell; TURNAROUND lasts eight rising edges; the answer is shifted out on falling edges, and 0 after it (R174, R175). MDO at 0 from the
edge that takes the command on, and not only from the next falling edge, is the model's choice (log 20). -/
def Obligations.FramesAreTurnedAway : Prop :=
  (∀ s : State, Settled s.dev →
    let answers : Instr → Byte → Prop := fun c st => exec c s = .next { s with dev := s.dev.answering [st] }
    (s.dev.startup.pwrRst = true → ∀ c, managementCommand c = true → exec c s = .next s) ∧
    (s.dev.startup.pwrRst = false →
      (∀ code, answers (.unknownCommand (.command code)) 4) ∧
      (s.dev.startup.state ≠ .ready → ∀ c, needsReady c = true → answers c 3) ∧
      (s.dev.startup.state = .ready → s.dev.startup.transparent = true → ∀ c, needsImage c = true → answers c 1) ∧
      (s.dev.startup.state = .ready → s.dev.startup.transparent = false → ∀ w a,
        answers (.unknownCommand (.windowCtrl w a)) 2) ∧
      (s.dev.startup.state = .ready → (∀ a p, answers (.unknownCommand (.timer a p)) 2) ∧
        ∀ t, answers (.unknownCommand (.softReset t)) 2))) ∧
  (∀ s : State, Settled s.dev →
    let u := s.dev.link
    let becomes : LinkEdge → Link → Prop := fun e v =>
      exec (.unknownCommand (.edge e)) s = .next { s with dev := { s.dev with link := v } }
    exec .frameAbort s = .next { s with dev := { s.dev with link := ⟨.idle, false, [], [], [], 0, none⟩ } } ∧
    (s.dev.startup.pwrRst = true →
      becomes .select { u with msel := true } ∧ (∀ b, becomes (.rise b) u) ∧ becomes .fall u) ∧
    (s.dev.startup.pwrRst = false →
      (u.msel = false → becomes .select ⟨.command, true, [], [], [], 0, none⟩) ∧
      (u.msel = true → becomes .select u) ∧
      (u.phase = .idle → (∀ b, becomes (.rise b) u) ∧ becomes .fall u) ∧
      (u.phase = .command ∨ u.phase = .argument →
        becomes .fall u ∧
        (∀ b, u.bits.length < 7 → becomes (.rise b) { u with bits := u.bits ++ [b] }) ∧
        (∀ b (x : Byte), u.bits.length = 7 → (∀ i < 8, (u.bits ++ [b])[i]? = some (x.getLsbD (7 - i))) →
          (decodeFrame (u.received ++ [x]) = none →
            becomes (.rise b) { u with phase := .argument, received := u.received ++ [x], bits := [] }) ∧
          (∀ c, decodeFrame (u.received ++ [x]) = some c → exec (.unknownCommand (.edge (.rise b))) s = exec c s))) ∧
      (u.phase = .turnaround →
        becomes .fall { u with mdo := some false } ∧
        (∀ b, u.clocks < 7 → becomes (.rise b) { u with clocks := u.clocks + 1 }) ∧
        (∀ b, u.clocks = 7 → becomes (.rise b) { u with clocks := 8, phase := .response })) ∧
      (u.phase = .response → 8 ≤ u.clocks →
        (∀ b, becomes (.rise b) { u with clocks := u.clocks + 1 }) ∧
        (∀ (x : Byte) (n i : Nat), u.response[n]? = some x → i < 8 → u.clocks = 8 + 8 * n + i →
          becomes .fall { u with mdo := some (x.getLsbD (7 - i)) }) ∧
        (8 + 8 * u.response.length ≤ u.clocks → becomes .fall { u with mdo := some false }))))

/-! ## Windows by command -/

/-- ENABLE, PAUSE, RESUME and REARM: each in the state that it is for, REFUSED_STATE in the others, REFUSED_ARGUMENT on an empty slot
or an index above 15 (R10, R11, R13, R14, R121, R178). -/
def Obligations.WindowControlsFollowTheState : Prop :=
  ∀ (s : State) (index : Byte), ServingWindows s.dev →
    let controls : List Instr := [.enable index, .pause index, .resume index, .rearm index]
    let answers : Instr → Byte → Prop := fun c st => exec c s = .next { s with dev := s.dev.answering [st] }
    ((15 < index.toNat ∨ ∃ w : Slot16, index.toNat = w.val ∧ (s.dev.win w).desc = none) →
      ∀ c ∈ controls, answers c 2) ∧
    (∀ (w : Slot16) (ds : Descriptor), index.toNat = w.val → (s.dev.win w).desc = some ds →
      let full := ds.watchdogPeriod.map (· * 10)
      let sets : Instr → (Runtime → Runtime) → Prop := fun c f =>
        exec c s = .next { s with dev := (s.dev.modRt w f).answering [0] }
      let st := (s.dev.rt w).state
      (st ≠ .off → answers (.enable index) 1) ∧
      (st = .off → sets (.enable index) fun r =>
        { r with
          state := .running, openEpoch := 1, lastCommitted := 0, drainingEpoch := none, closeMark := false
          safeLoadPending := false, consumerHold := false, holdRequest := false, deferredCommit := false
          safeAfterItem := false, lateSince := false, overrunSince := false, watchdog := full
          effective := tableSource s.dev.monitors r.selected ds.fallback }) ∧
      (st ≠ .running → answers (.pause index) 1) ∧
      (st = .running → sets (.pause index) fun r => { r with state := .paused, watchdog := none }) ∧
      (st ≠ .paused → answers (.resume index) 1) ∧
      (st = .paused → sets (.resume index) fun r => { r with state := .running, watchdog := full }) ∧
      (st ≠ .tripped → answers (.rearm index) 1) ∧
      (st = .tripped → sets (.rearm index) fun r =>
        { r with state := .running, safeLoadPending := false, watchdog := full }))

/-- DISABLE: a waiter of the window is withdrawn, its entries are discarded and counted but for one whose write is in progress, its
item is cut short, and its record goes OFF; an OFF window and an empty slot are left as they are (R12, R47, R57, R86). That the withdrawn
waiter counts as an expired one, as a retry or a hold timeout (R46), is log 32's reading. -/
def Obligations.DisableTakesTheWindowOff : Prop :=
  ∀ (s : State) (index : Byte), ServingWindows s.dev →
    (15 < index.toNat → exec (.disable index) s = .next { s with dev := s.dev.answering [2] }) ∧
    (∀ w : Slot16, index.toNat = w.val → ((s.dev.win w).desc = none ∨ (s.dev.rt w).state = .off) →
      exec (.disable index) s = .next { s with dev := s.dev.answering [0] }) ∧
    (∀ (w : Slot16) (ds : Descriptor), index.toNat = w.val → (s.dev.win w).desc = some ds → (s.dev.rt w).state ≠ .off →
      let d : Device :=
        match s.dev.poolWait.find? (·.window == w) with
        | none => s.dev
        | some x => match (s.dev.port x.port).current with
          | some c => s.dev.expirePool x.port w c.request (s.dev.rt w).openEpoch
          | none => s.dev.leavePool x.port
      let lost := (d.openList w).length + (d.drainList w).length - (if d.inFlight (.drain w) then 1 else 0)
      exec (.disable index) s = .next { s with
        dev := { d.modRt w fun r =>
            { r with
              state := .off, openEpoch := 0, drainingEpoch := none, closeMark := false, safeLoadPending := false
              consumerHold := false, holdRequest := false, deferredCommit := false, safeAfterItem := false
              watchdog := none
              counters := { r.counters with discarded := satAdd r.counters.discarded lost } } with
          entries := d.entries.filter fun e => e.window != w
          commitQueue := d.commitQueue.filter fun it => it.window != w
          mem := { d.mem with outstanding := d.mem.outstanding.map (cutOffIf (·.isOf w)) } }.answering [0] })

/-! ## Resets -/

/-- SOFT_RESET DATAPATH: requests in progress are answered by their port's kind, the queues, the store, the locks and the commit
queue are emptied, every window returns to its start state, monitors, LCT and fault unit to their configured state; configuration,
log and device time are kept (R25, R59, R88, R109, R142, R150, R160, R172, R186). -/
def Obligations.DatapathResetKeepsTheConfiguration : Prop :=
  ∀ s : State, Serving s.dev →
    let d := s.dev
    exec .softResetDatapath s = .next { s with
      dev := { d with
        windows := Vector.ofFn fun i => restarted d.windows[i]
        entries := [], poolWait := [], commitQueue := []
        mem := ⟨d.mem.outstanding.map cutOff, [.channel .a, .channel .b, .engine], .free⟩
        portA := resetPort d .a, portB := resetPort d .b
        monitors := ⟨.reset, .reset, .reset, .reset⟩
        lct := ⟨d.config.lctRuns, d.config.lctPeriod, none, if d.config.lctRuns then some d.config.lctPeriod else none⟩
        fault := { d.fault with
          flags := 0, enables := d.config.enables, levels := d.config.levels, threshold := d.config.threshold }
        startup := { d.startup with cause := ⟨.softDatapath, d.runningCut, d.unissued .a + d.unissued .b⟩ } }.answering
        [0] }

/-- SOFT_RESET FULL and RST_IN: as a datapath reset, and the windows and the safe-image store are emptied, device time is 0, RST_OUT
is asserted and the part is in RESET; the fault log and the settled mark are kept (R25, R108, R125, R166, R173, R183, R184, R186). The
configuration until READY (log 25), RST_IN taken while PWR_RST is asserted too (log 11), the levels on the flash link (log 41) and the bus
clock periods since the last microsecond at 0 (log 6) are the model's choices. -/
def Obligations.FullResetsEnterReset : Prop :=
  ∀ s : State, Settled s.dev →
    let d := s.dev
    let emptied : ResetSource → Startup → Device := fun source u =>
      { d with
        windows := Vector.replicate 16 .empty
        entries := [], poolWait := [], safeStore := [], commitQueue := []
        mem := ⟨d.mem.outstanding.map cutOff, [.channel .a, .channel .b, .engine], .free⟩
        portA := resetPort d .a, portB := resetPort d .b
        monitors := ⟨.reset, .reset, .reset, .reset⟩
        lct := ⟨false, 1000, none, none⟩
        fault := { d.fault with flags := 0, enables := 0, levels := 0, threshold := 0 }
        clock := { d.clock with deviceTime := 0, sub := 0 }
        startup := { u with
          state := .reset, transparent := false, settleTimer := none, rstOut := true, rstOutTimer := none
          loader := .idle, flashTimer := none, fsel := false, flash := .idle
          cause := ⟨source, d.runningCut, d.unissued .a + d.unissued .b⟩ }
        config := .transparent }
    (d.startup.state = .ready → d.startup.pwrRst = false →
      exec .softResetFull s = .next { s with dev := (emptied .softFull d.startup).answering [0] }) ∧
    exec .rstIn s = .next { s with dev := emptied .rstIn { d.startup with rstIn := true } }

/-- PWR_RST leaves the power-on state whatever stood before, but for what lies outside its reach: an outstanding access, now dropped,
the answers last driven, the levels of MSEL and RST_IN, the straps and the board's clock rate (R142, R150, R173, R175, R183, R185,
R186). The model's choices in it: the values of the power-on state that the manual does not give (log 9) with the configuration
(log 25), the answer to a request in progress by the kind the port had (log 10), RST_IN kept as it stood (log 11), MSEL that is
still asserted beginning no frame (log 40), the strap levels kept (log 22), the last answers kept (log 28), the levels on the flash link
(log 41) and the bus clock periods since the last microsecond at 0 (log 6). -/
def Obligations.PowerOnResetForgetsEverything : Prop :=
  ∀ s : State, Settled s.dev →
    let d := s.dev
    let answer : PortUnit → Option PortAnswer := fun u =>
      if u.current = none then u.answer
      else some ⟨match u.kind with | .retryCapable => .retry | .holdOnly => .error, []⟩
    exec .pwrRst s = .next { s with
      dev := { Device.reset with
        mem := { Device.reset.mem with outstanding := d.mem.outstanding.map cutOff }
        portA := { PortUnit.reset with answer := answer d.portA }
        portB := { PortUnit.reset with answer := answer d.portB }
        clock := ⟨0, 0, d.clock.perUs⟩
        link := ⟨.idle, d.link.msel, [], [], [], 0, none⟩
        startup := { Device.reset.startup with rstIn := d.startup.rstIn }
        straps := d.straps
        freeIndex := d.freeIndex } }

/-- A link reset in READY: Port B's unit and the windows produced by B, with the LINK_RESET record last and its fields those of R168; Port A's unit, A's windows,
entries and items, the monitors, the LCT, flags and device time stand; outside READY it is not taken (R26, R58, R87, R144, R160, R168,
R185). That one in READY is taken in the 10 ms too in which RST_OUT is still asserted, for which R184 speaks of assertions that are not
taken, is the model's choice (log 21). -/
def Obligations.LinkResetTouchesOnlyB : Prop :=
  ∀ s : State, Settled s.dev →
    (s.dev.startup.state ≠ .ready → exec .linkReset s = .next s) ∧
    (s.dev.startup.state = .ready →
      let d := s.dev
      let cut : Option CutItem :=
        match d.commitQueue with
        | ⟨w, k, some pr⟩ :: _ => if d.producedByB w then some ⟨w, k, pr.written, pr.planned⟩ else none
        | _ => none
      let lost := d.portB.queue.length - (if d.inFlight (.posted .b) then 1 else 0)
      let report : Report :=
        { kind := .linkReset, port := some .b
          detail := some (.linkReset
            { item := cut.map CutItem.kind
              written := match cut with | some c => c.written | none => 0
              planned := match cut with | some c => c.planned | none => 0
              postedLost := lost
              answered := d.portB.current.isSome })
          window := cut.map CutItem.window
          address := d.portB.current.map fun c => c.request.address.toNat
          epoch := cut.map fun c =>
            match c.kind with
            | .epoch => (d.rt c.window).drainingEpoch.getD 0
            | .safe => (d.rt c.window).openEpoch }
      ∃ t : Device, exec .linkReset s = .next { s with dev := t } ∧
        (∀ w ds, (d.win w).desc = some ds → ds.producer = .b → t.win w = Window.restart d.monitors (d.win w)) ∧
        (∀ w, d.producedByB w = false → t.win w = d.win w) ∧
        t.entries = d.entries.filter (fun e => !d.producedByB e.window) ∧
        t.commitQueue = d.commitQueue.filter (fun i => !d.producedByB i.window) ∧
        t.poolWait = d.poolWait.filter (fun x => x.port == .a) ∧
        t.portA = d.portA ∧
        t.portB = { resetPort d .b with
          counters := { d.portB.counters with postedLost := satAdd d.portB.counters.postedLost (d.unissued .b) } } ∧
        t.mem.rotation = d.mem.rotation ∧
        t.mem.exclusive = (if d.mem.exclusive = .held .b ∨ d.mem.exclusive = .reserved .b then .free else d.mem.exclusive) ∧
        t.mem.outstanding = d.mem.outstanding.map (cutOffIf d.cutByLink) ∧
        t.fault = d.fault.offer d.clock.deviceTime report ∧
        (t.monitors, t.lct, t.clock, t.link, t.startup, t.straps, t.config, t.safeStore, t.freeIndex) =
          (d.monitors, d.lct, d.clock, d.link, d.startup, d.straps, d.config, d.safeStore, d.freeIndex))

/-! ## Start-up -/

/-- RESET is left for SETTLE, or for STRAPS when the part has settled; SETTLE ends after its 20 ms; STRAPS samples the straps and goes on
to LOAD or to transparent READY (R129, R182, R183). That RESET_RELEASE releases both inputs and that the two commands carry the strap
levels is the model's choice (log 22), and so are that SETTLE_END lets time run to the end of SETTLE (log 4), that a watchdog which
expired at that moment would come after it (log 36), that MSEL still asserted at the release of PWR_RST begins no frame, the link unit
standing as it was (log 40), and the levels of FCLK and FDO when LOAD begins (log 41). -/
def Obligations.ResetIsLeftThroughStraps : Prop :=
  ∀ (s : State) (straps : Straps),
    (s.dev.startup.state = .reset → s.dev.startup.settled = false →
      exec (.resetRelease straps) s = .next { s with
        dev := { s.dev with
          startup := { s.dev.startup with pwrRst := false, rstIn := false, state := .settle, settleTimer := some 20000 } } }) ∧
    (s.dev.startup.state = .reset → s.dev.startup.settled = true →
      exec (.resetRelease straps) s = .next { s with
        dev := sampled straps { s.dev with startup := { s.dev.startup with pwrRst := false, rstIn := false } } }) ∧
    (s.dev.startup.state ≠ .reset → exec (.resetRelease straps) s = .next s) ∧
    (∀ t, NextDue s.dev (.settleEnd straps) t →
      exec (.settleEnd straps) s = .next { s with
        dev := (sampled straps { s.dev.reached t with
          startup := { (s.dev.reached t).startup with settled := true, settleTimer := none } }).tripExpired }) ∧
    (Settled s.dev → s.dev.startup.pwrRst = true → s.dev.startup.rstIn = true →
      exec .pwrRstRelease s = .next { s with dev := { s.dev with startup := { s.dev.startup with pwrRst := false } } })

/-- The flash: LOAD begins with FSEL asserted and a limit of 50 ms, which nothing but the answer stops; an answer, 0xFF and the 1 ms wait,
the next read command, and the limit that ends the load with FLASH_TIMEOUT (R181, R182). The edges of FCLK: the read command 0x03 and
address 0 go out on FDO, most significant bit first, on falling edges; after them FDI is sampled on rising edges, and the edge that ends
the first byte is the FLASH_ANSWER of that byte; no edge while FSEL is deasserted (R181). RST_OUT is released at the end of its time
(R184). That the commands let time run to an expiry (log 4), the straps that RESET_RELEASE carries (log 22), the flash's three commands,
which no read ends whose bytes do not begin with the bits shifted in (log 24), FSEL asserted from the answer to READY (log 38), the edges
as FLASH_ANSWER's operand and the levels of FCLK and FDO outside the read command (log 41), and the place of watchdogs that expire at the
same moment (log 36) are the model's choices. -/
def Obligations.FlashIsAwaitedFiftyMilliseconds : Prop :=
  ∀ s : State,
    let u := s.dev.startup.flash
    (∀ straps, s.dev.startup.state = .reset → s.dev.startup.settled = true → straps.cfgEn = true →
      ∃ t, exec (.resetRelease straps) s = .next t ∧ t.dev.startup.state = .load ∧ t.dev.startup.loader = .awaiting ∧
        t.dev.startup.flashTimer = some 50000 ∧ t.dev.startup.fsel = true ∧
        t.dev.startup.flash = ⟨true, none, 0, [], []⟩) ∧
    (Settled s.dev → s.dev.startup.loader = .awaiting → ∀ b,
      (u.Agrees [b] → b ≠ 0xFF →
        exec (.flashAnswer (.byte b)) s = .next { s with
          dev := { s.dev with startup := { s.dev.startup with
            loader := .header, flashTimer := none, flash := ⟨true, none, 32, [b], []⟩ } } }) ∧
      (u.Agrees [b] → b = 0xFF →
        exec (.flashAnswer (.byte b)) s = .next { s with
          dev := { s.dev with startup := { s.dev.startup with
            loader := .retryWait 1000, fsel := false, flash := ⟨true, none, 0, [], []⟩ } } }) ∧
      (¬u.Agrees [b] → exec (.flashAnswer (.byte b)) s = .next s)) ∧
    (Settled s.dev →
      let edge : Bool → Instr := fun fdi => .flashAnswer (.edge fdi)
      let becomes : Bool → FlashLink → Prop := fun fdi v =>
        exec (edge fdi) s = .next { s with dev := { s.dev with startup := { s.dev.startup with flash := v } } }
      (s.dev.startup.fsel = false → ∀ fdi, exec (edge fdi) s = .next s) ∧
      (s.dev.startup.fsel = true → ∀ fdi,
        (u.fclk = true → u.sent < 32 →
          becomes fdi { u with fclk := false, fdo := some ((0x03000000#32).getLsbD (31 - u.sent)) }) ∧
        (u.fclk = true → 32 ≤ u.sent → becomes fdi { u with fclk := false, fdo := none }) ∧
        (u.fclk = false → u.sent < 32 → becomes fdi { u with fclk := true, sent := u.sent + 1 }) ∧
        (u.fclk = false → 32 ≤ u.sent → u.bits.length < 7 → becomes fdi { u with fclk := true, bits := u.bits ++ [fdi] }) ∧
        (∀ x : Byte, u.fclk = false → 32 ≤ u.sent → u.bits.length = 7 →
          (∀ i < 8, (u.bits ++ [fdi])[i]? = some (x.getLsbD (7 - i))) → s.dev.startup.loader = .awaiting → u.received = [] →
          exec (edge fdi) s = exec (.flashAnswer (.byte x)) s))) ∧
    (∀ t, NextDue s.dev .flashRetry t →
      exec .flashRetryWaitEnd s = .next { s with
        dev := ({ s.dev.reached t with
          startup := { (s.dev.reached t).startup with
            loader := .awaiting, fsel := true, flash := ⟨true, none, 0, [], []⟩ } } : Device).tripExpired }) ∧
    (∀ t, NextDue s.dev .flashTimeout t →
      exec .flashTimeout s = .next { s with dev := (failedLoad (s.dev.reached t) .flashTimeout).tripExpired }) ∧
    (∀ t, NextDue s.dev .rstOut t →
      exec .rstOutRelease s = .next { s with
        dev := ({ s.dev.reached t with
          startup := { (s.dev.reached t).startup with rstOut := false, rstOutTimer := none } } : Device).tripExpired })

/-- The image: checks 1 and 2 on the header, then checks 3 to 7, each with its cause; a failed load applies nothing of the image and
enters transparent mode (R181, R182). The bytes that come in on the flash link make the words, the most significant byte first, and the
edge that ends the header's or the image's last byte is the end of that read (R181). What the checks are: the CRC, bit 31 of each word
first; the ranges of R5, R181 and the layout tables; the total of the safe-image counts; no shared byte. That bits outside every field are
not checked (log 18), the flash's three commands, which no read ends whose bytes do not begin with the bits shifted in (log 24), FSEL
asserted until READY and no second read command (log 38), and the edges as FLASH_ANSWER's operand (log 41) are the model's choices. -/
def Obligations.FirstFailedCheckEndsTheLoad : Prop :=
  (∀ (s : State) (w0 w1 w2 : Word) (rest : List Word), Settled s.dev →
    let image := w0 :: w1 :: w2 :: rest
    let total := safeTotal (readSlots image)
    let u := s.dev.startup.flash
    let stored : List Word → List Byte := fun ws =>
      ws.flatMap fun w => [w.extractLsb' 24 8, w.extractLsb' 16 8, w.extractLsb' 8 8, w.extractLsb' 0 8]
    let ends : Instr → ConfigCause → Prop := fun c k => exec c s = .next { s with dev := failedLoad s.dev k }
    (s.dev.startup.loader = .header → u.Agrees (stored [w0, w1, w2]) →
      ((w0 ≠ 0x48533120 ∨ w2 ≠ 1) → ends (.headerReadComplete w0 w1 w2) .badHeader) ∧
      (w0 = 0x48533120 → w2 = 1 → (w1.toNat < 146 ∨ 658 < w1.toNat) → ends (.headerReadComplete w0 w1 w2) .badLength) ∧
      (w0 = 0x48533120 → w2 = 1 → 146 ≤ w1.toNat → w1.toNat ≤ 658 →
        exec (.headerReadComplete w0 w1 w2) s = .next { s with
          dev := { s.dev with startup := { s.dev.startup with
            loader := .image w0 w1 w2, flash := ⟨true, none, 32, [], []⟩ } } })) ∧
    (¬u.Agrees (stored [w0, w1, w2]) → exec (.headerReadComplete w0 w1 w2) s = .next s) ∧
    (s.dev.startup.loader = .image w0 w1 w2 → rest.length + 3 = w1.toNat → u.Agrees (stored rest) →
      (crcHolds image = false → ends (.imageReadComplete rest) .badCrc) ∧
      (crcHolds image = true → fieldsHold image = false → ends (.imageReadComplete rest) .badField) ∧
      (crcHolds image = true → fieldsHold image = true → 512 < total → ends (.imageReadComplete rest) .safeTotal) ∧
      (crcHolds image = true → fieldsHold image = true → total ≤ 512 → w1.toNat ≠ 146 + total →
        ends (.imageReadComplete rest) .badLength) ∧
      (crcHolds image = true → fieldsHold image = true → total ≤ 512 → w1.toNat = 146 + total →
        rangesHold image = false → ends (.imageReadComplete rest) .overlap)) ∧
    (s.dev.startup.loader = .image w0 w1 w2 → (rest.length + 3 ≠ w1.toNat ∨ ¬u.Agrees (stored rest)) →
      exec (.imageReadComplete rest) s = .next s) ∧
    (∀ fdi (x : Byte), s.dev.startup.fsel = true → u.fclk = false → 32 ≤ u.sent → u.bits.length = 7 →
      (∀ i < 8, (u.bits ++ [fdi])[i]? = some (x.getLsbD (7 - i))) →
      let gathered := u.received ++ [x]
      let more := exec (.flashAnswer (.edge fdi)) s = .next { s with
        dev := { s.dev with startup := { s.dev.startup with
          flash := { u with fclk := true, received := gathered, bits := [] } } } }
      (s.dev.startup.loader = .header →
        (gathered.length < 12 → more) ∧
        (gathered = stored [w0, w1, w2] → exec (.flashAnswer (.edge fdi)) s = exec (.headerReadComplete w0 w1 w2) s)) ∧
      (s.dev.startup.loader = .image w0 w1 w2 →
        (gathered.length + 12 < 4 * w1.toNat → more) ∧
        (rest.length + 3 = w1.toNat → gathered = stored rest →
          exec (.flashAnswer (.edge fdi)) s = exec (.imageReadComplete rest) s)))) ∧
  (∀ image : List Word,
    let word : Nat → Word := fun n => image.getD n 0
    let f : Nat → Nat → Nat → Nat := fun n low width => (word n).toNat / 2 ^ low % 2 ^ width
    let between : Nat → Nat → Nat → Prop := fun low high n => low ≤ n ∧ n ≤ high
    let at' : Nat → Nat → Nat := fun w i => 17 + 8 * w + i
    let base : Nat → Nat := fun w => f (at' w 0) 0 24
    let length : Nat → Nat := fun w => f (at' w 1) 0 13
    let bits := (image.take (image.length - 1)).flatMap fun x => (List.range 32).map fun i => x.getLsbD (31 - i)
    let crc := bits.foldl (fun (c : BitVec 16) b => (c <<< 1) ^^^ (if c.getLsbD 15 = b then 0 else 0x1021)) 0xFFFF
    (crcHolds image = true ↔ word (image.length - 1) = crc.setWidth 32) ∧
    (fieldsHold image = true ↔
      between 1 1023 (f 3 0 10) ∧ between 1 1023 (f 4 0 10) ∧ between 1 255 (f 5 0 8) ∧
      (f 6 31 1 = 1 → f 6 0 8 = 0) ∧ between 10 1000000 (f 7 0 20) ∧
      (∀ n, 8 ≤ n → n ≤ 11 → between 10 100000 (f n 0 17)) ∧
      ∀ w < 16, length w ≠ 0 →
        base w % 4 = 0 ∧ base w + 4 * length w ≤ 2 ^ 24 ∧ length w ≤ 4096 ∧ f (at' w 2) 0 3 ≤ 6 ∧
        (f (at' w 2) 15 1 = 1 → f (at' w 2) 16 12 < length w) ∧
        (f (at' w 2) 15 1 = 0 → f (at' w 2) 5 1 = 0) ∧
        between 1 256 (f (at' w 3) 0 9) ∧
        (f (at' w 5) 31 1 = 1 →
          between 1 64 (f (at' w 5) 16 7) ∧ f (at' w 5) 0 12 + f (at' w 5) 16 7 ≤ length w) ∧
        (f (at' w 1) 21 1 = 1 → f 6 31 1 = 1) ∧
        word (at' w 6) = 0 ∧ word (at' w 7) = 0) ∧
    safeTotal (readSlots image) = ((List.range 16).map fun w =>
      if length w ≠ 0 ∧ f (at' w 5) 31 1 = 1 then f (at' w 5) 16 7 else 0).sum ∧
    (rangesHold image = true ↔
      (∀ v w, v < w → w < 16 → length v ≠ 0 → length w ≠ 0 →
        base v + 4 * length v ≤ base w ∨ base w + 4 * length w ≤ base v) ∧
      (f 6 31 1 = 1 → ∀ w < 16, length w ≠ 0 → f 6 0 24 + 256 ≤ base w ∨ base w + 4 * length w ≤ f 6 0 24)))

/-- A load that passes every check: the device section, the slots and the safe-image words reach their blocks, and the part enters
READY (R25, R108, R123, R165, R181, R184). The readings of the device section and of a slot, field by field, as the layout tables give
them (R1 to R4). That bits outside every field are not checked (log 18), that the bytes of the words begin with the bits shifted in
(log 24), FSEL deasserted at the entry to READY (log 38) and the levels on the flash link then (log 41) are the model's choices. -/
def Obligations.GoodImageIsAppliedWhole : Prop :=
  (∀ (s : State) (w0 w1 w2 : Word) (rest : List Word), Settled s.dev →
    let image := w0 :: w1 :: w2 :: rest
    let c := readDevice image
    s.dev.startup.loader = .image w0 w1 w2 → rest.length + 3 = w1.toNat →
    s.dev.startup.flash.Agrees (rest.flatMap bytesOfWord) → crcHolds image = true →
    fieldsHold image = true → safeTotal (readSlots image) ≤ 512 → w1.toNat = 146 + safeTotal (readSlots image) →
    rangesHold image = true →
    exec (.imageReadComplete rest) s = .next { s with
      dev := { s.dev with
        windows := Vector.ofFn fun i => restarted { desc := readSlot image i.val, rt := .off }
        safeStore := (image.drop 145).take (safeTotal (readSlots image))
        monitors := ⟨.reset, .reset, .reset, .reset⟩
        lct := ⟨c.lctRuns, c.lctPeriod, none, if c.lctRuns then some c.lctPeriod else none⟩
        fault := { s.dev.fault with enables := c.enables, levels := c.levels, threshold := c.threshold }
        config := c
        startup := { s.dev.startup with
          state := .ready, transparent := false, rstOutTimer := some 10000, loader := .idle, flashTimer := none,
          fsel := false, flash := .idle } } }) ∧
  (∀ image : List Word,
    let word : Nat → Word := fun n => image.getD n 0
    let f : Nat → Nat → Nat → Nat := fun n low width => (word n).toNat / 2 ^ low % 2 ^ width
    let c := readDevice image
    (c.holdLimitA, c.confinedA, c.holdLimitB, c.confinedB) =
      (f 3 0 10, (word 3).getLsbD 16, f 4 0 10, (word 4).getLsbD 16) ∧
    c.lockLimit = f 5 0 8 ∧
    c.statusArea = (if f 6 31 1 = 1 then some (f 6 0 24) else none) ∧
    (c.lctRuns, c.lctPeriod) = ((word 7).getLsbD 31, f 7 0 20) ∧
    (c.periodTsa, c.periodTsb, c.periodFms, c.periodFme) = (f 8 0 17, f 9 0 17, f 10 0 17, f 11 0 17) ∧
    (∀ p < 40, c.enables.getLsbD p = (word (12 + p / 32)).getLsbD (p % 32)) ∧
    c.threshold.toNat = f 13 8 2 ∧
    (∀ p < 40, (c.levels.extractLsb' (2 * p) 2).toNat = f (14 + p / 16) (2 * (p % 16)) 2) ∧
    ∀ w < 16,
      let g : Nat → Nat → Nat → Nat := fun i low width => f (17 + 8 * w + i) low width
      let bit : Nat → Nat → Bool := fun i n => (word (17 + 8 * w + i)).getLsbD n
      (g 1 0 13 = 0 → readSlot image w = none) ∧
      (g 1 0 13 ≠ 0 → ∃ ds : Descriptor, readSlot image w = some ds ∧
        ds.words = (image.drop (17 + 8 * w)).take 8 ∧ ds.base = g 0 0 24 ∧ ds.length = g 1 0 13 ∧
        ds.producer = (if bit 1 16 then .b else .a) ∧ ds.consumerReads = bit 1 17 ∧
        ds.producerMin = (if bit 1 18 then .supervisor else .user) ∧
        ds.consumerMin = (if bit 1 19 then .supervisor else .user) ∧
        ds.startRunning = bit 1 20 ∧ ds.statusBlock = bit 1 21 ∧
        (∀ x, [Source.tsa, .tsb, .fms, .fme, .lct, .close, .manual][g 2 0 3]? = some x → ds.source = x) ∧
        ds.fallback = (if bit 2 4 then .lct else .hold) ∧ ds.closePolicy = (if bit 2 5 then .strict else .loose) ∧
        ds.closeOffset = (if bit 2 15 then some (g 2 16 12) else none) ∧ ds.quota = g 3 0 9 ∧
        ds.watchdogPeriod = (if g 4 0 16 = 0 then none else some (g 4 0 16)) ∧
        ds.tripMode = (if bit 4 16 then .atEvent else .immediate) ∧ ds.autoRearm = bit 4 17 ∧
        ds.safeImage = (if bit 5 31 then some ⟨g 5 0 12, g 5 16 7⟩ else none)))

/-! ## What every step keeps -/

/-- Every step keeps the fault log: at most sixteen records, numbered consecutively (R169). -/
def Obligations.EveryStepKeepsTheLog : Prop :=
  ∀ s t : State, LogKept s.dev → step s = .next t → LogKept t.dev

/-- Every step keeps the bounds of the posted-write queues (R131) and of the staging store (R31). -/
def Obligations.EveryStepKeepsTheBuffers : Prop :=
  ∀ s t : State, QueuesKept s.dev → StoreKept s.dev → step s = .next t → QueuesKept t.dev ∧ StoreKept t.dev

/-- Every step keeps one item at most for each window in the commit queue (R70), and the rotation order of the three requesters
(R149). -/
def Obligations.EveryStepKeepsQueueAndRotation : Prop :=
  ∀ s t : State, ItemsKept s.dev → RotationKept s.dev → step s = .next t → ItemsKept t.dev ∧ RotationKept t.dev

/-- Every step keeps the effective source of every defined window at what R102's table gives. -/
def Obligations.EveryStepKeepsEffectiveSources : Prop :=
  ∀ s t : State, SourcesKept s.dev → step s = .next t → SourcesKept t.dev

/-- What every step keeps holds after reset. -/
def Obligations.KeptPropertiesHoldAtReset : Prop :=
  LogKept State.reset.dev ∧ QueuesKept State.reset.dev ∧ StoreKept State.reset.dev ∧ ItemsKept State.reset.dev ∧
  RotationKept State.reset.dev ∧ SourcesKept State.reset.dev ∧ Settled State.reset.dev

/-! ## Frames -/

/-- A well-formed command that a management frame carries is read back from the frame's bytes, whatever follows them (R174 and the
management frame layout table). And its row acts as its frame does: MSEL deasserted, MSEL asserted, and the bits of those bytes, each
byte's most significant bit first, one edge at a time (R174; that the row stands for the whole frame, and MDO at 0 from the edge that
takes the command on, are the model's choices, log 20). -/
def Obligations.FrameBytesSpellTheirCommand : Prop :=
  (∀ (i : Instr) (bytes more : List Byte), i.wf = true → encodeFrame i = some bytes →
    decodeFrame (bytes ++ more) = some i) ∧
  (∀ (s : State) (i : Instr) (bytes : List Byte), Settled s.dev → s.dev.startup.pwrRst = false → i.wf = true →
    encodeFrame i = some bytes →
    let edges := LinkEdge.select :: bytes.flatMap fun x => (List.range 8).map fun n => LinkEdge.rise (x.getLsbD (7 - n))
    edges.foldl (fun o e => match o with | .next t => exec (.unknownCommand (.edge e)) t | stop => stop) (exec .frameAbort s) =
      exec i s)

end Statements
end

