-- ==== Sys2Proof/Laws/State.lean ====
section
/-! SUPPORT. One lemma for each field that an update of the part leaves as it was, and for the field it changes. -/

namespace Sys2Proof.Machine

/-! `Device.modWin` -/

@[simp] theorem Device.modWin_entries (d : Device) (w : Slot16) (f : Window → Window) : (d.modWin w f).entries = d.entries := rfl
@[simp] theorem Device.modWin_poolWait (d : Device) (w : Slot16) (f : Window → Window) : (d.modWin w f).poolWait = d.poolWait := rfl
@[simp] theorem Device.modWin_safeStore (d : Device) (w : Slot16) (f : Window → Window) : (d.modWin w f).safeStore = d.safeStore := rfl
@[simp] theorem Device.modWin_commitQueue (d : Device) (w : Slot16) (f : Window → Window) : (d.modWin w f).commitQueue = d.commitQueue := rfl
@[simp] theorem Device.modWin_mem (d : Device) (w : Slot16) (f : Window → Window) : (d.modWin w f).mem = d.mem := rfl
@[simp] theorem Device.modWin_portA (d : Device) (w : Slot16) (f : Window → Window) : (d.modWin w f).portA = d.portA := rfl
@[simp] theorem Device.modWin_portB (d : Device) (w : Slot16) (f : Window → Window) : (d.modWin w f).portB = d.portB := rfl
@[simp] theorem Device.modWin_monitors (d : Device) (w : Slot16) (f : Window → Window) : (d.modWin w f).monitors = d.monitors := rfl
@[simp] theorem Device.modWin_lct (d : Device) (w : Slot16) (f : Window → Window) : (d.modWin w f).lct = d.lct := rfl
@[simp] theorem Device.modWin_fault (d : Device) (w : Slot16) (f : Window → Window) : (d.modWin w f).fault = d.fault := rfl
@[simp] theorem Device.modWin_clock (d : Device) (w : Slot16) (f : Window → Window) : (d.modWin w f).clock = d.clock := rfl
@[simp] theorem Device.modWin_link (d : Device) (w : Slot16) (f : Window → Window) : (d.modWin w f).link = d.link := rfl
@[simp] theorem Device.modWin_startup (d : Device) (w : Slot16) (f : Window → Window) : (d.modWin w f).startup = d.startup := rfl
@[simp] theorem Device.modWin_straps (d : Device) (w : Slot16) (f : Window → Window) : (d.modWin w f).straps = d.straps := rfl
@[simp] theorem Device.modWin_config (d : Device) (w : Slot16) (f : Window → Window) : (d.modWin w f).config = d.config := rfl
@[simp] theorem Device.modWin_freeIndex (d : Device) (w : Slot16) (f : Window → Window) : (d.modWin w f).freeIndex = d.freeIndex := rfl

/-! `Device.modRt` -/

@[simp] theorem Device.modRt_entries (d : Device) (w : Slot16) (f : Runtime → Runtime) : (d.modRt w f).entries = d.entries := rfl
@[simp] theorem Device.modRt_poolWait (d : Device) (w : Slot16) (f : Runtime → Runtime) : (d.modRt w f).poolWait = d.poolWait := rfl
@[simp] theorem Device.modRt_safeStore (d : Device) (w : Slot16) (f : Runtime → Runtime) : (d.modRt w f).safeStore = d.safeStore := rfl
@[simp] theorem Device.modRt_commitQueue (d : Device) (w : Slot16) (f : Runtime → Runtime) : (d.modRt w f).commitQueue = d.commitQueue := rfl
@[simp] theorem Device.modRt_mem (d : Device) (w : Slot16) (f : Runtime → Runtime) : (d.modRt w f).mem = d.mem := rfl
@[simp] theorem Device.modRt_portA (d : Device) (w : Slot16) (f : Runtime → Runtime) : (d.modRt w f).portA = d.portA := rfl
@[simp] theorem Device.modRt_portB (d : Device) (w : Slot16) (f : Runtime → Runtime) : (d.modRt w f).portB = d.portB := rfl
@[simp] theorem Device.modRt_monitors (d : Device) (w : Slot16) (f : Runtime → Runtime) : (d.modRt w f).monitors = d.monitors := rfl
@[simp] theorem Device.modRt_lct (d : Device) (w : Slot16) (f : Runtime → Runtime) : (d.modRt w f).lct = d.lct := rfl
@[simp] theorem Device.modRt_fault (d : Device) (w : Slot16) (f : Runtime → Runtime) : (d.modRt w f).fault = d.fault := rfl
@[simp] theorem Device.modRt_clock (d : Device) (w : Slot16) (f : Runtime → Runtime) : (d.modRt w f).clock = d.clock := rfl
@[simp] theorem Device.modRt_link (d : Device) (w : Slot16) (f : Runtime → Runtime) : (d.modRt w f).link = d.link := rfl
@[simp] theorem Device.modRt_startup (d : Device) (w : Slot16) (f : Runtime → Runtime) : (d.modRt w f).startup = d.startup := rfl
@[simp] theorem Device.modRt_straps (d : Device) (w : Slot16) (f : Runtime → Runtime) : (d.modRt w f).straps = d.straps := rfl
@[simp] theorem Device.modRt_config (d : Device) (w : Slot16) (f : Runtime → Runtime) : (d.modRt w f).config = d.config := rfl
@[simp] theorem Device.modRt_freeIndex (d : Device) (w : Slot16) (f : Runtime → Runtime) : (d.modRt w f).freeIndex = d.freeIndex := rfl

/-! `Device.modCounters` -/

@[simp] theorem Device.modCounters_entries (d : Device) (w : Slot16) (f : WindowCounters → WindowCounters) : (d.modCounters w f).entries = d.entries := rfl
@[simp] theorem Device.modCounters_poolWait (d : Device) (w : Slot16) (f : WindowCounters → WindowCounters) : (d.modCounters w f).poolWait = d.poolWait := rfl
@[simp] theorem Device.modCounters_safeStore (d : Device) (w : Slot16) (f : WindowCounters → WindowCounters) : (d.modCounters w f).safeStore = d.safeStore := rfl
@[simp] theorem Device.modCounters_commitQueue (d : Device) (w : Slot16) (f : WindowCounters → WindowCounters) : (d.modCounters w f).commitQueue = d.commitQueue := rfl
@[simp] theorem Device.modCounters_mem (d : Device) (w : Slot16) (f : WindowCounters → WindowCounters) : (d.modCounters w f).mem = d.mem := rfl
@[simp] theorem Device.modCounters_portA (d : Device) (w : Slot16) (f : WindowCounters → WindowCounters) : (d.modCounters w f).portA = d.portA := rfl
@[simp] theorem Device.modCounters_portB (d : Device) (w : Slot16) (f : WindowCounters → WindowCounters) : (d.modCounters w f).portB = d.portB := rfl
@[simp] theorem Device.modCounters_monitors (d : Device) (w : Slot16) (f : WindowCounters → WindowCounters) : (d.modCounters w f).monitors = d.monitors := rfl
@[simp] theorem Device.modCounters_lct (d : Device) (w : Slot16) (f : WindowCounters → WindowCounters) : (d.modCounters w f).lct = d.lct := rfl
@[simp] theorem Device.modCounters_fault (d : Device) (w : Slot16) (f : WindowCounters → WindowCounters) : (d.modCounters w f).fault = d.fault := rfl
@[simp] theorem Device.modCounters_clock (d : Device) (w : Slot16) (f : WindowCounters → WindowCounters) : (d.modCounters w f).clock = d.clock := rfl
@[simp] theorem Device.modCounters_link (d : Device) (w : Slot16) (f : WindowCounters → WindowCounters) : (d.modCounters w f).link = d.link := rfl
@[simp] theorem Device.modCounters_startup (d : Device) (w : Slot16) (f : WindowCounters → WindowCounters) : (d.modCounters w f).startup = d.startup := rfl
@[simp] theorem Device.modCounters_straps (d : Device) (w : Slot16) (f : WindowCounters → WindowCounters) : (d.modCounters w f).straps = d.straps := rfl
@[simp] theorem Device.modCounters_config (d : Device) (w : Slot16) (f : WindowCounters → WindowCounters) : (d.modCounters w f).config = d.config := rfl
@[simp] theorem Device.modCounters_freeIndex (d : Device) (w : Slot16) (f : WindowCounters → WindowCounters) : (d.modCounters w f).freeIndex = d.freeIndex := rfl

/-! `Device.modWins` -/

@[simp] theorem Device.modWins_entries (d : Device) (f : Slot16 → Window → Window) : (d.modWins f).entries = d.entries := rfl
@[simp] theorem Device.modWins_poolWait (d : Device) (f : Slot16 → Window → Window) : (d.modWins f).poolWait = d.poolWait := rfl
@[simp] theorem Device.modWins_safeStore (d : Device) (f : Slot16 → Window → Window) : (d.modWins f).safeStore = d.safeStore := rfl
@[simp] theorem Device.modWins_commitQueue (d : Device) (f : Slot16 → Window → Window) : (d.modWins f).commitQueue = d.commitQueue := rfl
@[simp] theorem Device.modWins_mem (d : Device) (f : Slot16 → Window → Window) : (d.modWins f).mem = d.mem := rfl
@[simp] theorem Device.modWins_portA (d : Device) (f : Slot16 → Window → Window) : (d.modWins f).portA = d.portA := rfl
@[simp] theorem Device.modWins_portB (d : Device) (f : Slot16 → Window → Window) : (d.modWins f).portB = d.portB := rfl
@[simp] theorem Device.modWins_monitors (d : Device) (f : Slot16 → Window → Window) : (d.modWins f).monitors = d.monitors := rfl
@[simp] theorem Device.modWins_lct (d : Device) (f : Slot16 → Window → Window) : (d.modWins f).lct = d.lct := rfl
@[simp] theorem Device.modWins_fault (d : Device) (f : Slot16 → Window → Window) : (d.modWins f).fault = d.fault := rfl
@[simp] theorem Device.modWins_clock (d : Device) (f : Slot16 → Window → Window) : (d.modWins f).clock = d.clock := rfl
@[simp] theorem Device.modWins_link (d : Device) (f : Slot16 → Window → Window) : (d.modWins f).link = d.link := rfl
@[simp] theorem Device.modWins_startup (d : Device) (f : Slot16 → Window → Window) : (d.modWins f).startup = d.startup := rfl
@[simp] theorem Device.modWins_straps (d : Device) (f : Slot16 → Window → Window) : (d.modWins f).straps = d.straps := rfl
@[simp] theorem Device.modWins_config (d : Device) (f : Slot16 → Window → Window) : (d.modWins f).config = d.config := rfl
@[simp] theorem Device.modWins_freeIndex (d : Device) (f : Slot16 → Window → Window) : (d.modWins f).freeIndex = d.freeIndex := rfl

/-! `Device.modPort` -/

@[simp] theorem Device.modPort_windows (d : Device) (p : Port) (f : PortUnit → PortUnit) : (d.modPort p f).windows = d.windows := by cases p <;> rfl
@[simp] theorem Device.modPort_entries (d : Device) (p : Port) (f : PortUnit → PortUnit) : (d.modPort p f).entries = d.entries := by cases p <;> rfl
@[simp] theorem Device.modPort_poolWait (d : Device) (p : Port) (f : PortUnit → PortUnit) : (d.modPort p f).poolWait = d.poolWait := by cases p <;> rfl
@[simp] theorem Device.modPort_safeStore (d : Device) (p : Port) (f : PortUnit → PortUnit) : (d.modPort p f).safeStore = d.safeStore := by cases p <;> rfl
@[simp] theorem Device.modPort_commitQueue (d : Device) (p : Port) (f : PortUnit → PortUnit) : (d.modPort p f).commitQueue = d.commitQueue := by cases p <;> rfl
@[simp] theorem Device.modPort_mem (d : Device) (p : Port) (f : PortUnit → PortUnit) : (d.modPort p f).mem = d.mem := by cases p <;> rfl
@[simp] theorem Device.modPort_monitors (d : Device) (p : Port) (f : PortUnit → PortUnit) : (d.modPort p f).monitors = d.monitors := by cases p <;> rfl
@[simp] theorem Device.modPort_lct (d : Device) (p : Port) (f : PortUnit → PortUnit) : (d.modPort p f).lct = d.lct := by cases p <;> rfl
@[simp] theorem Device.modPort_fault (d : Device) (p : Port) (f : PortUnit → PortUnit) : (d.modPort p f).fault = d.fault := by cases p <;> rfl
@[simp] theorem Device.modPort_clock (d : Device) (p : Port) (f : PortUnit → PortUnit) : (d.modPort p f).clock = d.clock := by cases p <;> rfl
@[simp] theorem Device.modPort_link (d : Device) (p : Port) (f : PortUnit → PortUnit) : (d.modPort p f).link = d.link := by cases p <;> rfl
@[simp] theorem Device.modPort_startup (d : Device) (p : Port) (f : PortUnit → PortUnit) : (d.modPort p f).startup = d.startup := by cases p <;> rfl
@[simp] theorem Device.modPort_straps (d : Device) (p : Port) (f : PortUnit → PortUnit) : (d.modPort p f).straps = d.straps := by cases p <;> rfl
@[simp] theorem Device.modPort_config (d : Device) (p : Port) (f : PortUnit → PortUnit) : (d.modPort p f).config = d.config := by cases p <;> rfl
@[simp] theorem Device.modPort_freeIndex (d : Device) (p : Port) (f : PortUnit → PortUnit) : (d.modPort p f).freeIndex = d.freeIndex := by cases p <;> rfl

/-! `Device.setMonitor` -/

@[simp] theorem Device.setMonitor_windows (d : Device) (x : Strobe) (v : Monitor) : (d.setMonitor x v).windows = d.windows := rfl
@[simp] theorem Device.setMonitor_entries (d : Device) (x : Strobe) (v : Monitor) : (d.setMonitor x v).entries = d.entries := rfl
@[simp] theorem Device.setMonitor_poolWait (d : Device) (x : Strobe) (v : Monitor) : (d.setMonitor x v).poolWait = d.poolWait := rfl
@[simp] theorem Device.setMonitor_safeStore (d : Device) (x : Strobe) (v : Monitor) : (d.setMonitor x v).safeStore = d.safeStore := rfl
@[simp] theorem Device.setMonitor_commitQueue (d : Device) (x : Strobe) (v : Monitor) : (d.setMonitor x v).commitQueue = d.commitQueue := rfl
@[simp] theorem Device.setMonitor_mem (d : Device) (x : Strobe) (v : Monitor) : (d.setMonitor x v).mem = d.mem := rfl
@[simp] theorem Device.setMonitor_portA (d : Device) (x : Strobe) (v : Monitor) : (d.setMonitor x v).portA = d.portA := rfl
@[simp] theorem Device.setMonitor_portB (d : Device) (x : Strobe) (v : Monitor) : (d.setMonitor x v).portB = d.portB := rfl
@[simp] theorem Device.setMonitor_lct (d : Device) (x : Strobe) (v : Monitor) : (d.setMonitor x v).lct = d.lct := rfl
@[simp] theorem Device.setMonitor_fault (d : Device) (x : Strobe) (v : Monitor) : (d.setMonitor x v).fault = d.fault := rfl
@[simp] theorem Device.setMonitor_clock (d : Device) (x : Strobe) (v : Monitor) : (d.setMonitor x v).clock = d.clock := rfl
@[simp] theorem Device.setMonitor_link (d : Device) (x : Strobe) (v : Monitor) : (d.setMonitor x v).link = d.link := rfl
@[simp] theorem Device.setMonitor_startup (d : Device) (x : Strobe) (v : Monitor) : (d.setMonitor x v).startup = d.startup := rfl
@[simp] theorem Device.setMonitor_straps (d : Device) (x : Strobe) (v : Monitor) : (d.setMonitor x v).straps = d.straps := rfl
@[simp] theorem Device.setMonitor_config (d : Device) (x : Strobe) (v : Monitor) : (d.setMonitor x v).config = d.config := rfl
@[simp] theorem Device.setMonitor_freeIndex (d : Device) (x : Strobe) (v : Monitor) : (d.setMonitor x v).freeIndex = d.freeIndex := rfl

/-! `Device.setFlag` -/

@[simp] theorem Device.setFlag_windows (d : Device) (f : Flag) : (d.setFlag f).windows = d.windows := rfl
@[simp] theorem Device.setFlag_entries (d : Device) (f : Flag) : (d.setFlag f).entries = d.entries := rfl
@[simp] theorem Device.setFlag_poolWait (d : Device) (f : Flag) : (d.setFlag f).poolWait = d.poolWait := rfl
@[simp] theorem Device.setFlag_safeStore (d : Device) (f : Flag) : (d.setFlag f).safeStore = d.safeStore := rfl
@[simp] theorem Device.setFlag_commitQueue (d : Device) (f : Flag) : (d.setFlag f).commitQueue = d.commitQueue := rfl
@[simp] theorem Device.setFlag_mem (d : Device) (f : Flag) : (d.setFlag f).mem = d.mem := rfl
@[simp] theorem Device.setFlag_portA (d : Device) (f : Flag) : (d.setFlag f).portA = d.portA := rfl
@[simp] theorem Device.setFlag_portB (d : Device) (f : Flag) : (d.setFlag f).portB = d.portB := rfl
@[simp] theorem Device.setFlag_monitors (d : Device) (f : Flag) : (d.setFlag f).monitors = d.monitors := rfl
@[simp] theorem Device.setFlag_lct (d : Device) (f : Flag) : (d.setFlag f).lct = d.lct := rfl
@[simp] theorem Device.setFlag_clock (d : Device) (f : Flag) : (d.setFlag f).clock = d.clock := rfl
@[simp] theorem Device.setFlag_link (d : Device) (f : Flag) : (d.setFlag f).link = d.link := rfl
@[simp] theorem Device.setFlag_startup (d : Device) (f : Flag) : (d.setFlag f).startup = d.startup := rfl
@[simp] theorem Device.setFlag_straps (d : Device) (f : Flag) : (d.setFlag f).straps = d.straps := rfl
@[simp] theorem Device.setFlag_config (d : Device) (f : Flag) : (d.setFlag f).config = d.config := rfl
@[simp] theorem Device.setFlag_freeIndex (d : Device) (f : Flag) : (d.setFlag f).freeIndex = d.freeIndex := rfl

/-! `Device.offer` -/

@[simp] theorem Device.offer_windows (d : Device) (r : Report) : (d.offer r).windows = d.windows := rfl
@[simp] theorem Device.offer_entries (d : Device) (r : Report) : (d.offer r).entries = d.entries := rfl
@[simp] theorem Device.offer_poolWait (d : Device) (r : Report) : (d.offer r).poolWait = d.poolWait := rfl
@[simp] theorem Device.offer_safeStore (d : Device) (r : Report) : (d.offer r).safeStore = d.safeStore := rfl
@[simp] theorem Device.offer_commitQueue (d : Device) (r : Report) : (d.offer r).commitQueue = d.commitQueue := rfl
@[simp] theorem Device.offer_mem (d : Device) (r : Report) : (d.offer r).mem = d.mem := rfl
@[simp] theorem Device.offer_portA (d : Device) (r : Report) : (d.offer r).portA = d.portA := rfl
@[simp] theorem Device.offer_portB (d : Device) (r : Report) : (d.offer r).portB = d.portB := rfl
@[simp] theorem Device.offer_monitors (d : Device) (r : Report) : (d.offer r).monitors = d.monitors := rfl
@[simp] theorem Device.offer_lct (d : Device) (r : Report) : (d.offer r).lct = d.lct := rfl
@[simp] theorem Device.offer_clock (d : Device) (r : Report) : (d.offer r).clock = d.clock := rfl
@[simp] theorem Device.offer_link (d : Device) (r : Report) : (d.offer r).link = d.link := rfl
@[simp] theorem Device.offer_startup (d : Device) (r : Report) : (d.offer r).startup = d.startup := rfl
@[simp] theorem Device.offer_straps (d : Device) (r : Report) : (d.offer r).straps = d.straps := rfl
@[simp] theorem Device.offer_config (d : Device) (r : Report) : (d.offer r).config = d.config := rfl
@[simp] theorem Device.offer_freeIndex (d : Device) (r : Report) : (d.offer r).freeIndex = d.freeIndex := rfl

/-! `Device.raise` -/

@[simp] theorem Device.raise_windows (d : Device) (f : Flag) (r : Report) : (d.raise f r).windows = d.windows := rfl
@[simp] theorem Device.raise_entries (d : Device) (f : Flag) (r : Report) : (d.raise f r).entries = d.entries := rfl
@[simp] theorem Device.raise_poolWait (d : Device) (f : Flag) (r : Report) : (d.raise f r).poolWait = d.poolWait := rfl
@[simp] theorem Device.raise_safeStore (d : Device) (f : Flag) (r : Report) : (d.raise f r).safeStore = d.safeStore := rfl
@[simp] theorem Device.raise_commitQueue (d : Device) (f : Flag) (r : Report) : (d.raise f r).commitQueue = d.commitQueue := rfl
@[simp] theorem Device.raise_mem (d : Device) (f : Flag) (r : Report) : (d.raise f r).mem = d.mem := rfl
@[simp] theorem Device.raise_portA (d : Device) (f : Flag) (r : Report) : (d.raise f r).portA = d.portA := rfl
@[simp] theorem Device.raise_portB (d : Device) (f : Flag) (r : Report) : (d.raise f r).portB = d.portB := rfl
@[simp] theorem Device.raise_monitors (d : Device) (f : Flag) (r : Report) : (d.raise f r).monitors = d.monitors := rfl
@[simp] theorem Device.raise_lct (d : Device) (f : Flag) (r : Report) : (d.raise f r).lct = d.lct := rfl
@[simp] theorem Device.raise_clock (d : Device) (f : Flag) (r : Report) : (d.raise f r).clock = d.clock := rfl
@[simp] theorem Device.raise_link (d : Device) (f : Flag) (r : Report) : (d.raise f r).link = d.link := rfl
@[simp] theorem Device.raise_startup (d : Device) (f : Flag) (r : Report) : (d.raise f r).startup = d.startup := rfl
@[simp] theorem Device.raise_straps (d : Device) (f : Flag) (r : Report) : (d.raise f r).straps = d.straps := rfl
@[simp] theorem Device.raise_config (d : Device) (f : Flag) (r : Report) : (d.raise f r).config = d.config := rfl
@[simp] theorem Device.raise_freeIndex (d : Device) (f : Flag) (r : Report) : (d.raise f r).freeIndex = d.freeIndex := rfl

/-! `Device.answer` -/

@[simp] theorem Device.answer_windows (d : Device) (p : Port) (r : Response) (ws : List Word) : (d.answer p r ws).windows = d.windows := by cases p <;> rfl
@[simp] theorem Device.answer_entries (d : Device) (p : Port) (r : Response) (ws : List Word) : (d.answer p r ws).entries = d.entries := by cases p <;> rfl
@[simp] theorem Device.answer_poolWait (d : Device) (p : Port) (r : Response) (ws : List Word) : (d.answer p r ws).poolWait = d.poolWait := by cases p <;> rfl
@[simp] theorem Device.answer_safeStore (d : Device) (p : Port) (r : Response) (ws : List Word) : (d.answer p r ws).safeStore = d.safeStore := by cases p <;> rfl
@[simp] theorem Device.answer_commitQueue (d : Device) (p : Port) (r : Response) (ws : List Word) : (d.answer p r ws).commitQueue = d.commitQueue := by cases p <;> rfl
@[simp] theorem Device.answer_mem (d : Device) (p : Port) (r : Response) (ws : List Word) : (d.answer p r ws).mem = d.mem := by cases p <;> rfl
@[simp] theorem Device.answer_monitors (d : Device) (p : Port) (r : Response) (ws : List Word) : (d.answer p r ws).monitors = d.monitors := by cases p <;> rfl
@[simp] theorem Device.answer_lct (d : Device) (p : Port) (r : Response) (ws : List Word) : (d.answer p r ws).lct = d.lct := by cases p <;> rfl
@[simp] theorem Device.answer_fault (d : Device) (p : Port) (r : Response) (ws : List Word) : (d.answer p r ws).fault = d.fault := by cases p <;> rfl
@[simp] theorem Device.answer_clock (d : Device) (p : Port) (r : Response) (ws : List Word) : (d.answer p r ws).clock = d.clock := by cases p <;> rfl
@[simp] theorem Device.answer_link (d : Device) (p : Port) (r : Response) (ws : List Word) : (d.answer p r ws).link = d.link := by cases p <;> rfl
@[simp] theorem Device.answer_startup (d : Device) (p : Port) (r : Response) (ws : List Word) : (d.answer p r ws).startup = d.startup := by cases p <;> rfl
@[simp] theorem Device.answer_straps (d : Device) (p : Port) (r : Response) (ws : List Word) : (d.answer p r ws).straps = d.straps := by cases p <;> rfl
@[simp] theorem Device.answer_config (d : Device) (p : Port) (r : Response) (ws : List Word) : (d.answer p r ws).config = d.config := by cases p <;> rfl
@[simp] theorem Device.answer_freeIndex (d : Device) (p : Port) (r : Response) (ws : List Word) : (d.answer p r ws).freeIndex = d.freeIndex := by cases p <;> rfl

/-! `Device.countRefusal` -/

@[simp] theorem Device.countRefusal_windows (d : Device) (p : Port) : (d.countRefusal p).windows = d.windows := by cases p <;> rfl
@[simp] theorem Device.countRefusal_entries (d : Device) (p : Port) : (d.countRefusal p).entries = d.entries := by cases p <;> rfl
@[simp] theorem Device.countRefusal_poolWait (d : Device) (p : Port) : (d.countRefusal p).poolWait = d.poolWait := by cases p <;> rfl
@[simp] theorem Device.countRefusal_safeStore (d : Device) (p : Port) : (d.countRefusal p).safeStore = d.safeStore := by cases p <;> rfl
@[simp] theorem Device.countRefusal_commitQueue (d : Device) (p : Port) : (d.countRefusal p).commitQueue = d.commitQueue := by cases p <;> rfl
@[simp] theorem Device.countRefusal_mem (d : Device) (p : Port) : (d.countRefusal p).mem = d.mem := by cases p <;> rfl
@[simp] theorem Device.countRefusal_monitors (d : Device) (p : Port) : (d.countRefusal p).monitors = d.monitors := by cases p <;> rfl
@[simp] theorem Device.countRefusal_lct (d : Device) (p : Port) : (d.countRefusal p).lct = d.lct := by cases p <;> rfl
@[simp] theorem Device.countRefusal_fault (d : Device) (p : Port) : (d.countRefusal p).fault = d.fault := by cases p <;> rfl
@[simp] theorem Device.countRefusal_clock (d : Device) (p : Port) : (d.countRefusal p).clock = d.clock := by cases p <;> rfl
@[simp] theorem Device.countRefusal_link (d : Device) (p : Port) : (d.countRefusal p).link = d.link := by cases p <;> rfl
@[simp] theorem Device.countRefusal_startup (d : Device) (p : Port) : (d.countRefusal p).startup = d.startup := by cases p <;> rfl
@[simp] theorem Device.countRefusal_straps (d : Device) (p : Port) : (d.countRefusal p).straps = d.straps := by cases p <;> rfl
@[simp] theorem Device.countRefusal_config (d : Device) (p : Port) : (d.countRefusal p).config = d.config := by cases p <;> rfl
@[simp] theorem Device.countRefusal_freeIndex (d : Device) (p : Port) : (d.countRefusal p).freeIndex = d.freeIndex := by cases p <;> rfl

/-! `Device.setLock` -/

@[simp] theorem Device.setLock_windows (d : Device) (p : Port) (l : LockRecord) : (d.setLock p l).windows = d.windows := by cases p <;> rfl
@[simp] theorem Device.setLock_entries (d : Device) (p : Port) (l : LockRecord) : (d.setLock p l).entries = d.entries := by cases p <;> rfl
@[simp] theorem Device.setLock_poolWait (d : Device) (p : Port) (l : LockRecord) : (d.setLock p l).poolWait = d.poolWait := by cases p <;> rfl
@[simp] theorem Device.setLock_safeStore (d : Device) (p : Port) (l : LockRecord) : (d.setLock p l).safeStore = d.safeStore := by cases p <;> rfl
@[simp] theorem Device.setLock_commitQueue (d : Device) (p : Port) (l : LockRecord) : (d.setLock p l).commitQueue = d.commitQueue := by cases p <;> rfl
@[simp] theorem Device.setLock_mem (d : Device) (p : Port) (l : LockRecord) : (d.setLock p l).mem = d.mem := by cases p <;> rfl
@[simp] theorem Device.setLock_monitors (d : Device) (p : Port) (l : LockRecord) : (d.setLock p l).monitors = d.monitors := by cases p <;> rfl
@[simp] theorem Device.setLock_lct (d : Device) (p : Port) (l : LockRecord) : (d.setLock p l).lct = d.lct := by cases p <;> rfl
@[simp] theorem Device.setLock_fault (d : Device) (p : Port) (l : LockRecord) : (d.setLock p l).fault = d.fault := by cases p <;> rfl
@[simp] theorem Device.setLock_clock (d : Device) (p : Port) (l : LockRecord) : (d.setLock p l).clock = d.clock := by cases p <;> rfl
@[simp] theorem Device.setLock_link (d : Device) (p : Port) (l : LockRecord) : (d.setLock p l).link = d.link := by cases p <;> rfl
@[simp] theorem Device.setLock_startup (d : Device) (p : Port) (l : LockRecord) : (d.setLock p l).startup = d.startup := by cases p <;> rfl
@[simp] theorem Device.setLock_straps (d : Device) (p : Port) (l : LockRecord) : (d.setLock p l).straps = d.straps := by cases p <;> rfl
@[simp] theorem Device.setLock_config (d : Device) (p : Port) (l : LockRecord) : (d.setLock p l).config = d.config := by cases p <;> rfl
@[simp] theorem Device.setLock_freeIndex (d : Device) (p : Port) (l : LockRecord) : (d.setLock p l).freeIndex = d.freeIndex := by cases p <;> rfl

/-! `Device.setPhase` -/

@[simp] theorem Device.setPhase_windows (d : Device) (p : Port) (ph : Phase) : (d.setPhase p ph).windows = d.windows := by cases p <;> rfl
@[simp] theorem Device.setPhase_entries (d : Device) (p : Port) (ph : Phase) : (d.setPhase p ph).entries = d.entries := by cases p <;> rfl
@[simp] theorem Device.setPhase_poolWait (d : Device) (p : Port) (ph : Phase) : (d.setPhase p ph).poolWait = d.poolWait := by cases p <;> rfl
@[simp] theorem Device.setPhase_safeStore (d : Device) (p : Port) (ph : Phase) : (d.setPhase p ph).safeStore = d.safeStore := by cases p <;> rfl
@[simp] theorem Device.setPhase_commitQueue (d : Device) (p : Port) (ph : Phase) : (d.setPhase p ph).commitQueue = d.commitQueue := by cases p <;> rfl
@[simp] theorem Device.setPhase_mem (d : Device) (p : Port) (ph : Phase) : (d.setPhase p ph).mem = d.mem := by cases p <;> rfl
@[simp] theorem Device.setPhase_monitors (d : Device) (p : Port) (ph : Phase) : (d.setPhase p ph).monitors = d.monitors := by cases p <;> rfl
@[simp] theorem Device.setPhase_lct (d : Device) (p : Port) (ph : Phase) : (d.setPhase p ph).lct = d.lct := by cases p <;> rfl
@[simp] theorem Device.setPhase_fault (d : Device) (p : Port) (ph : Phase) : (d.setPhase p ph).fault = d.fault := by cases p <;> rfl
@[simp] theorem Device.setPhase_clock (d : Device) (p : Port) (ph : Phase) : (d.setPhase p ph).clock = d.clock := by cases p <;> rfl
@[simp] theorem Device.setPhase_link (d : Device) (p : Port) (ph : Phase) : (d.setPhase p ph).link = d.link := by cases p <;> rfl
@[simp] theorem Device.setPhase_startup (d : Device) (p : Port) (ph : Phase) : (d.setPhase p ph).startup = d.startup := by cases p <;> rfl
@[simp] theorem Device.setPhase_straps (d : Device) (p : Port) (ph : Phase) : (d.setPhase p ph).straps = d.straps := by cases p <;> rfl
@[simp] theorem Device.setPhase_config (d : Device) (p : Port) (ph : Phase) : (d.setPhase p ph).config = d.config := by cases p <;> rfl
@[simp] theorem Device.setPhase_freeIndex (d : Device) (p : Port) (ph : Phase) : (d.setPhase p ph).freeIndex = d.freeIndex := by cases p <;> rfl

/-! `Device.hold` -/

@[simp] theorem Device.hold_windows (d : Device) (p : Port) (c : HoldCause) : (d.hold p c).windows = d.windows := by cases p <;> rfl
@[simp] theorem Device.hold_entries (d : Device) (p : Port) (c : HoldCause) : (d.hold p c).entries = d.entries := by cases p <;> rfl
@[simp] theorem Device.hold_poolWait (d : Device) (p : Port) (c : HoldCause) : (d.hold p c).poolWait = d.poolWait := by cases p <;> rfl
@[simp] theorem Device.hold_safeStore (d : Device) (p : Port) (c : HoldCause) : (d.hold p c).safeStore = d.safeStore := by cases p <;> rfl
@[simp] theorem Device.hold_commitQueue (d : Device) (p : Port) (c : HoldCause) : (d.hold p c).commitQueue = d.commitQueue := by cases p <;> rfl
@[simp] theorem Device.hold_mem (d : Device) (p : Port) (c : HoldCause) : (d.hold p c).mem = d.mem := by cases p <;> rfl
@[simp] theorem Device.hold_monitors (d : Device) (p : Port) (c : HoldCause) : (d.hold p c).monitors = d.monitors := by cases p <;> rfl
@[simp] theorem Device.hold_lct (d : Device) (p : Port) (c : HoldCause) : (d.hold p c).lct = d.lct := by cases p <;> rfl
@[simp] theorem Device.hold_fault (d : Device) (p : Port) (c : HoldCause) : (d.hold p c).fault = d.fault := by cases p <;> rfl
@[simp] theorem Device.hold_clock (d : Device) (p : Port) (c : HoldCause) : (d.hold p c).clock = d.clock := by cases p <;> rfl
@[simp] theorem Device.hold_link (d : Device) (p : Port) (c : HoldCause) : (d.hold p c).link = d.link := by cases p <;> rfl
@[simp] theorem Device.hold_startup (d : Device) (p : Port) (c : HoldCause) : (d.hold p c).startup = d.startup := by cases p <;> rfl
@[simp] theorem Device.hold_straps (d : Device) (p : Port) (c : HoldCause) : (d.hold p c).straps = d.straps := by cases p <;> rfl
@[simp] theorem Device.hold_config (d : Device) (p : Port) (c : HoldCause) : (d.hold p c).config = d.config := by cases p <;> rfl
@[simp] theorem Device.hold_freeIndex (d : Device) (p : Port) (c : HoldCause) : (d.hold p c).freeIndex = d.freeIndex := by cases p <;> rfl

/-! `Device.release` -/

@[simp] theorem Device.release_windows (d : Device) (p : Port) : (d.release p).windows = d.windows := by cases p <;> rfl
@[simp] theorem Device.release_entries (d : Device) (p : Port) : (d.release p).entries = d.entries := by cases p <;> rfl
@[simp] theorem Device.release_poolWait (d : Device) (p : Port) : (d.release p).poolWait = d.poolWait := by cases p <;> rfl
@[simp] theorem Device.release_safeStore (d : Device) (p : Port) : (d.release p).safeStore = d.safeStore := by cases p <;> rfl
@[simp] theorem Device.release_commitQueue (d : Device) (p : Port) : (d.release p).commitQueue = d.commitQueue := by cases p <;> rfl
@[simp] theorem Device.release_mem (d : Device) (p : Port) : (d.release p).mem = d.mem := by cases p <;> rfl
@[simp] theorem Device.release_monitors (d : Device) (p : Port) : (d.release p).monitors = d.monitors := by cases p <;> rfl
@[simp] theorem Device.release_lct (d : Device) (p : Port) : (d.release p).lct = d.lct := by cases p <;> rfl
@[simp] theorem Device.release_fault (d : Device) (p : Port) : (d.release p).fault = d.fault := by cases p <;> rfl
@[simp] theorem Device.release_clock (d : Device) (p : Port) : (d.release p).clock = d.clock := by cases p <;> rfl
@[simp] theorem Device.release_link (d : Device) (p : Port) : (d.release p).link = d.link := by cases p <;> rfl
@[simp] theorem Device.release_startup (d : Device) (p : Port) : (d.release p).startup = d.startup := by cases p <;> rfl
@[simp] theorem Device.release_straps (d : Device) (p : Port) : (d.release p).straps = d.straps := by cases p <;> rfl
@[simp] theorem Device.release_config (d : Device) (p : Port) : (d.release p).config = d.config := by cases p <;> rfl
@[simp] theorem Device.release_freeIndex (d : Device) (p : Port) : (d.release p).freeIndex = d.freeIndex := by cases p <;> rfl

/-! `Device.begin` -/

@[simp] theorem Device.begin_windows (d : Device) (p : Port) (r : Request) (c : Class) (ph : Phase) (b : Bool) : (d.begin p r c ph b).windows = d.windows := by cases p <;> rfl
@[simp] theorem Device.begin_entries (d : Device) (p : Port) (r : Request) (c : Class) (ph : Phase) (b : Bool) : (d.begin p r c ph b).entries = d.entries := by cases p <;> rfl
@[simp] theorem Device.begin_poolWait (d : Device) (p : Port) (r : Request) (c : Class) (ph : Phase) (b : Bool) : (d.begin p r c ph b).poolWait = d.poolWait := by cases p <;> rfl
@[simp] theorem Device.begin_safeStore (d : Device) (p : Port) (r : Request) (c : Class) (ph : Phase) (b : Bool) : (d.begin p r c ph b).safeStore = d.safeStore := by cases p <;> rfl
@[simp] theorem Device.begin_commitQueue (d : Device) (p : Port) (r : Request) (c : Class) (ph : Phase) (b : Bool) : (d.begin p r c ph b).commitQueue = d.commitQueue := by cases p <;> rfl
@[simp] theorem Device.begin_mem (d : Device) (p : Port) (r : Request) (c : Class) (ph : Phase) (b : Bool) : (d.begin p r c ph b).mem = d.mem := by cases p <;> rfl
@[simp] theorem Device.begin_monitors (d : Device) (p : Port) (r : Request) (c : Class) (ph : Phase) (b : Bool) : (d.begin p r c ph b).monitors = d.monitors := by cases p <;> rfl
@[simp] theorem Device.begin_lct (d : Device) (p : Port) (r : Request) (c : Class) (ph : Phase) (b : Bool) : (d.begin p r c ph b).lct = d.lct := by cases p <;> rfl
@[simp] theorem Device.begin_fault (d : Device) (p : Port) (r : Request) (c : Class) (ph : Phase) (b : Bool) : (d.begin p r c ph b).fault = d.fault := by cases p <;> rfl
@[simp] theorem Device.begin_clock (d : Device) (p : Port) (r : Request) (c : Class) (ph : Phase) (b : Bool) : (d.begin p r c ph b).clock = d.clock := by cases p <;> rfl
@[simp] theorem Device.begin_link (d : Device) (p : Port) (r : Request) (c : Class) (ph : Phase) (b : Bool) : (d.begin p r c ph b).link = d.link := by cases p <;> rfl
@[simp] theorem Device.begin_startup (d : Device) (p : Port) (r : Request) (c : Class) (ph : Phase) (b : Bool) : (d.begin p r c ph b).startup = d.startup := by cases p <;> rfl
@[simp] theorem Device.begin_straps (d : Device) (p : Port) (r : Request) (c : Class) (ph : Phase) (b : Bool) : (d.begin p r c ph b).straps = d.straps := by cases p <;> rfl
@[simp] theorem Device.begin_config (d : Device) (p : Port) (r : Request) (c : Class) (ph : Phase) (b : Bool) : (d.begin p r c ph b).config = d.config := by cases p <;> rfl
@[simp] theorem Device.begin_freeIndex (d : Device) (p : Port) (r : Request) (c : Class) (ph : Phase) (b : Bool) : (d.begin p r c ph b).freeIndex = d.freeIndex := by cases p <;> rfl

/-! `Device.dropIf` -/

@[simp] theorem Device.dropIf_windows (d : Device) (f : Owner → Bool) : (d.dropIf f).windows = d.windows := rfl
@[simp] theorem Device.dropIf_entries (d : Device) (f : Owner → Bool) : (d.dropIf f).entries = d.entries := rfl
@[simp] theorem Device.dropIf_poolWait (d : Device) (f : Owner → Bool) : (d.dropIf f).poolWait = d.poolWait := rfl
@[simp] theorem Device.dropIf_safeStore (d : Device) (f : Owner → Bool) : (d.dropIf f).safeStore = d.safeStore := rfl
@[simp] theorem Device.dropIf_commitQueue (d : Device) (f : Owner → Bool) : (d.dropIf f).commitQueue = d.commitQueue := rfl
@[simp] theorem Device.dropIf_portA (d : Device) (f : Owner → Bool) : (d.dropIf f).portA = d.portA := rfl
@[simp] theorem Device.dropIf_portB (d : Device) (f : Owner → Bool) : (d.dropIf f).portB = d.portB := rfl
@[simp] theorem Device.dropIf_monitors (d : Device) (f : Owner → Bool) : (d.dropIf f).monitors = d.monitors := rfl
@[simp] theorem Device.dropIf_lct (d : Device) (f : Owner → Bool) : (d.dropIf f).lct = d.lct := rfl
@[simp] theorem Device.dropIf_fault (d : Device) (f : Owner → Bool) : (d.dropIf f).fault = d.fault := rfl
@[simp] theorem Device.dropIf_clock (d : Device) (f : Owner → Bool) : (d.dropIf f).clock = d.clock := rfl
@[simp] theorem Device.dropIf_link (d : Device) (f : Owner → Bool) : (d.dropIf f).link = d.link := rfl
@[simp] theorem Device.dropIf_startup (d : Device) (f : Owner → Bool) : (d.dropIf f).startup = d.startup := rfl
@[simp] theorem Device.dropIf_straps (d : Device) (f : Owner → Bool) : (d.dropIf f).straps = d.straps := rfl
@[simp] theorem Device.dropIf_config (d : Device) (f : Owner → Bool) : (d.dropIf f).config = d.config := rfl
@[simp] theorem Device.dropIf_freeIndex (d : Device) (f : Owner → Bool) : (d.dropIf f).freeIndex = d.freeIndex := rfl

/-! `Device.respond` -/

@[simp] theorem Device.respond_windows (d : Device) (st : Status) (bs : List Byte) : (d.respond st bs).windows = d.windows := rfl
@[simp] theorem Device.respond_entries (d : Device) (st : Status) (bs : List Byte) : (d.respond st bs).entries = d.entries := rfl
@[simp] theorem Device.respond_poolWait (d : Device) (st : Status) (bs : List Byte) : (d.respond st bs).poolWait = d.poolWait := rfl
@[simp] theorem Device.respond_safeStore (d : Device) (st : Status) (bs : List Byte) : (d.respond st bs).safeStore = d.safeStore := rfl
@[simp] theorem Device.respond_commitQueue (d : Device) (st : Status) (bs : List Byte) : (d.respond st bs).commitQueue = d.commitQueue := rfl
@[simp] theorem Device.respond_mem (d : Device) (st : Status) (bs : List Byte) : (d.respond st bs).mem = d.mem := rfl
@[simp] theorem Device.respond_portA (d : Device) (st : Status) (bs : List Byte) : (d.respond st bs).portA = d.portA := rfl
@[simp] theorem Device.respond_portB (d : Device) (st : Status) (bs : List Byte) : (d.respond st bs).portB = d.portB := rfl
@[simp] theorem Device.respond_monitors (d : Device) (st : Status) (bs : List Byte) : (d.respond st bs).monitors = d.monitors := rfl
@[simp] theorem Device.respond_lct (d : Device) (st : Status) (bs : List Byte) : (d.respond st bs).lct = d.lct := rfl
@[simp] theorem Device.respond_fault (d : Device) (st : Status) (bs : List Byte) : (d.respond st bs).fault = d.fault := rfl
@[simp] theorem Device.respond_clock (d : Device) (st : Status) (bs : List Byte) : (d.respond st bs).clock = d.clock := rfl
@[simp] theorem Device.respond_startup (d : Device) (st : Status) (bs : List Byte) : (d.respond st bs).startup = d.startup := rfl
@[simp] theorem Device.respond_straps (d : Device) (st : Status) (bs : List Byte) : (d.respond st bs).straps = d.straps := rfl
@[simp] theorem Device.respond_config (d : Device) (st : Status) (bs : List Byte) : (d.respond st bs).config = d.config := rfl
@[simp] theorem Device.respond_freeIndex (d : Device) (st : Status) (bs : List Byte) : (d.respond st bs).freeIndex = d.freeIndex := rfl

/-! `Device.join` -/

@[simp] theorem Device.join_windows (d : Device) (w : Slot16) (k : ItemKind) : (d.join w k).windows = d.windows := rfl
@[simp] theorem Device.join_entries (d : Device) (w : Slot16) (k : ItemKind) : (d.join w k).entries = d.entries := rfl
@[simp] theorem Device.join_poolWait (d : Device) (w : Slot16) (k : ItemKind) : (d.join w k).poolWait = d.poolWait := rfl
@[simp] theorem Device.join_safeStore (d : Device) (w : Slot16) (k : ItemKind) : (d.join w k).safeStore = d.safeStore := rfl
@[simp] theorem Device.join_mem (d : Device) (w : Slot16) (k : ItemKind) : (d.join w k).mem = d.mem := rfl
@[simp] theorem Device.join_portA (d : Device) (w : Slot16) (k : ItemKind) : (d.join w k).portA = d.portA := rfl
@[simp] theorem Device.join_portB (d : Device) (w : Slot16) (k : ItemKind) : (d.join w k).portB = d.portB := rfl
@[simp] theorem Device.join_monitors (d : Device) (w : Slot16) (k : ItemKind) : (d.join w k).monitors = d.monitors := rfl
@[simp] theorem Device.join_lct (d : Device) (w : Slot16) (k : ItemKind) : (d.join w k).lct = d.lct := rfl
@[simp] theorem Device.join_fault (d : Device) (w : Slot16) (k : ItemKind) : (d.join w k).fault = d.fault := rfl
@[simp] theorem Device.join_clock (d : Device) (w : Slot16) (k : ItemKind) : (d.join w k).clock = d.clock := rfl
@[simp] theorem Device.join_link (d : Device) (w : Slot16) (k : ItemKind) : (d.join w k).link = d.link := rfl
@[simp] theorem Device.join_startup (d : Device) (w : Slot16) (k : ItemKind) : (d.join w k).startup = d.startup := rfl
@[simp] theorem Device.join_straps (d : Device) (w : Slot16) (k : ItemKind) : (d.join w k).straps = d.straps := rfl
@[simp] theorem Device.join_config (d : Device) (w : Slot16) (k : ItemKind) : (d.join w k).config = d.config := rfl
@[simp] theorem Device.join_freeIndex (d : Device) (w : Slot16) (k : ItemKind) : (d.join w k).freeIndex = d.freeIndex := rfl

/-! `Device.swapEpoch` -/

@[simp] theorem Device.swapEpoch_windows (d : Device) (w : Slot16) : (d.swapEpoch w).windows = d.windows := rfl
@[simp] theorem Device.swapEpoch_poolWait (d : Device) (w : Slot16) : (d.swapEpoch w).poolWait = d.poolWait := rfl
@[simp] theorem Device.swapEpoch_safeStore (d : Device) (w : Slot16) : (d.swapEpoch w).safeStore = d.safeStore := rfl
@[simp] theorem Device.swapEpoch_commitQueue (d : Device) (w : Slot16) : (d.swapEpoch w).commitQueue = d.commitQueue := rfl
@[simp] theorem Device.swapEpoch_mem (d : Device) (w : Slot16) : (d.swapEpoch w).mem = d.mem := rfl
@[simp] theorem Device.swapEpoch_portA (d : Device) (w : Slot16) : (d.swapEpoch w).portA = d.portA := rfl
@[simp] theorem Device.swapEpoch_portB (d : Device) (w : Slot16) : (d.swapEpoch w).portB = d.portB := rfl
@[simp] theorem Device.swapEpoch_monitors (d : Device) (w : Slot16) : (d.swapEpoch w).monitors = d.monitors := rfl
@[simp] theorem Device.swapEpoch_lct (d : Device) (w : Slot16) : (d.swapEpoch w).lct = d.lct := rfl
@[simp] theorem Device.swapEpoch_fault (d : Device) (w : Slot16) : (d.swapEpoch w).fault = d.fault := rfl
@[simp] theorem Device.swapEpoch_clock (d : Device) (w : Slot16) : (d.swapEpoch w).clock = d.clock := rfl
@[simp] theorem Device.swapEpoch_link (d : Device) (w : Slot16) : (d.swapEpoch w).link = d.link := rfl
@[simp] theorem Device.swapEpoch_startup (d : Device) (w : Slot16) : (d.swapEpoch w).startup = d.startup := rfl
@[simp] theorem Device.swapEpoch_straps (d : Device) (w : Slot16) : (d.swapEpoch w).straps = d.straps := rfl
@[simp] theorem Device.swapEpoch_config (d : Device) (w : Slot16) : (d.swapEpoch w).config = d.config := rfl
@[simp] theorem Device.swapEpoch_freeIndex (d : Device) (w : Slot16) : (d.swapEpoch w).freeIndex = d.freeIndex := rfl

/-! `Device.modItem` -/

@[simp] theorem Device.modItem_windows (d : Device) (w : Slot16) (f : Item → Item) : (d.modItem w f).windows = d.windows := rfl
@[simp] theorem Device.modItem_entries (d : Device) (w : Slot16) (f : Item → Item) : (d.modItem w f).entries = d.entries := rfl
@[simp] theorem Device.modItem_poolWait (d : Device) (w : Slot16) (f : Item → Item) : (d.modItem w f).poolWait = d.poolWait := rfl
@[simp] theorem Device.modItem_safeStore (d : Device) (w : Slot16) (f : Item → Item) : (d.modItem w f).safeStore = d.safeStore := rfl
@[simp] theorem Device.modItem_mem (d : Device) (w : Slot16) (f : Item → Item) : (d.modItem w f).mem = d.mem := rfl
@[simp] theorem Device.modItem_portA (d : Device) (w : Slot16) (f : Item → Item) : (d.modItem w f).portA = d.portA := rfl
@[simp] theorem Device.modItem_portB (d : Device) (w : Slot16) (f : Item → Item) : (d.modItem w f).portB = d.portB := rfl
@[simp] theorem Device.modItem_monitors (d : Device) (w : Slot16) (f : Item → Item) : (d.modItem w f).monitors = d.monitors := rfl
@[simp] theorem Device.modItem_lct (d : Device) (w : Slot16) (f : Item → Item) : (d.modItem w f).lct = d.lct := rfl
@[simp] theorem Device.modItem_fault (d : Device) (w : Slot16) (f : Item → Item) : (d.modItem w f).fault = d.fault := rfl
@[simp] theorem Device.modItem_clock (d : Device) (w : Slot16) (f : Item → Item) : (d.modItem w f).clock = d.clock := rfl
@[simp] theorem Device.modItem_link (d : Device) (w : Slot16) (f : Item → Item) : (d.modItem w f).link = d.link := rfl
@[simp] theorem Device.modItem_startup (d : Device) (w : Slot16) (f : Item → Item) : (d.modItem w f).startup = d.startup := rfl
@[simp] theorem Device.modItem_straps (d : Device) (w : Slot16) (f : Item → Item) : (d.modItem w f).straps = d.straps := rfl
@[simp] theorem Device.modItem_config (d : Device) (w : Slot16) (f : Item → Item) : (d.modItem w f).config = d.config := rfl
@[simp] theorem Device.modItem_freeIndex (d : Device) (w : Slot16) (f : Item → Item) : (d.modItem w f).freeIndex = d.freeIndex := rfl

/-! `Device.removeItem` -/

@[simp] theorem Device.removeItem_windows (d : Device) (w : Slot16) : (d.removeItem w).windows = d.windows := rfl
@[simp] theorem Device.removeItem_entries (d : Device) (w : Slot16) : (d.removeItem w).entries = d.entries := rfl
@[simp] theorem Device.removeItem_poolWait (d : Device) (w : Slot16) : (d.removeItem w).poolWait = d.poolWait := rfl
@[simp] theorem Device.removeItem_safeStore (d : Device) (w : Slot16) : (d.removeItem w).safeStore = d.safeStore := rfl
@[simp] theorem Device.removeItem_mem (d : Device) (w : Slot16) : (d.removeItem w).mem = d.mem := rfl
@[simp] theorem Device.removeItem_portA (d : Device) (w : Slot16) : (d.removeItem w).portA = d.portA := rfl
@[simp] theorem Device.removeItem_portB (d : Device) (w : Slot16) : (d.removeItem w).portB = d.portB := rfl
@[simp] theorem Device.removeItem_monitors (d : Device) (w : Slot16) : (d.removeItem w).monitors = d.monitors := rfl
@[simp] theorem Device.removeItem_lct (d : Device) (w : Slot16) : (d.removeItem w).lct = d.lct := rfl
@[simp] theorem Device.removeItem_fault (d : Device) (w : Slot16) : (d.removeItem w).fault = d.fault := rfl
@[simp] theorem Device.removeItem_clock (d : Device) (w : Slot16) : (d.removeItem w).clock = d.clock := rfl
@[simp] theorem Device.removeItem_link (d : Device) (w : Slot16) : (d.removeItem w).link = d.link := rfl
@[simp] theorem Device.removeItem_startup (d : Device) (w : Slot16) : (d.removeItem w).startup = d.startup := rfl
@[simp] theorem Device.removeItem_straps (d : Device) (w : Slot16) : (d.removeItem w).straps = d.straps := rfl
@[simp] theorem Device.removeItem_config (d : Device) (w : Slot16) : (d.removeItem w).config = d.config := rfl
@[simp] theorem Device.removeItem_freeIndex (d : Device) (w : Slot16) : (d.removeItem w).freeIndex = d.freeIndex := rfl

/-! `Device.refreshWindow` -/

@[simp] theorem Device.refreshWindow_entries (d : Device) (w : Slot16) : (d.refreshWindow w).entries = d.entries := rfl
@[simp] theorem Device.refreshWindow_poolWait (d : Device) (w : Slot16) : (d.refreshWindow w).poolWait = d.poolWait := rfl
@[simp] theorem Device.refreshWindow_safeStore (d : Device) (w : Slot16) : (d.refreshWindow w).safeStore = d.safeStore := rfl
@[simp] theorem Device.refreshWindow_commitQueue (d : Device) (w : Slot16) : (d.refreshWindow w).commitQueue = d.commitQueue := rfl
@[simp] theorem Device.refreshWindow_mem (d : Device) (w : Slot16) : (d.refreshWindow w).mem = d.mem := rfl
@[simp] theorem Device.refreshWindow_portA (d : Device) (w : Slot16) : (d.refreshWindow w).portA = d.portA := rfl
@[simp] theorem Device.refreshWindow_portB (d : Device) (w : Slot16) : (d.refreshWindow w).portB = d.portB := rfl
@[simp] theorem Device.refreshWindow_monitors (d : Device) (w : Slot16) : (d.refreshWindow w).monitors = d.monitors := rfl
@[simp] theorem Device.refreshWindow_lct (d : Device) (w : Slot16) : (d.refreshWindow w).lct = d.lct := rfl
@[simp] theorem Device.refreshWindow_fault (d : Device) (w : Slot16) : (d.refreshWindow w).fault = d.fault := rfl
@[simp] theorem Device.refreshWindow_clock (d : Device) (w : Slot16) : (d.refreshWindow w).clock = d.clock := rfl
@[simp] theorem Device.refreshWindow_link (d : Device) (w : Slot16) : (d.refreshWindow w).link = d.link := rfl
@[simp] theorem Device.refreshWindow_startup (d : Device) (w : Slot16) : (d.refreshWindow w).startup = d.startup := rfl
@[simp] theorem Device.refreshWindow_straps (d : Device) (w : Slot16) : (d.refreshWindow w).straps = d.straps := rfl
@[simp] theorem Device.refreshWindow_config (d : Device) (w : Slot16) : (d.refreshWindow w).config = d.config := rfl
@[simp] theorem Device.refreshWindow_freeIndex (d : Device) (w : Slot16) : (d.refreshWindow w).freeIndex = d.freeIndex := rfl

/-! `Device.refreshSource` -/

@[simp] theorem Device.refreshSource_entries (d : Device) (x : Source) : (d.refreshSource x).entries = d.entries := rfl
@[simp] theorem Device.refreshSource_poolWait (d : Device) (x : Source) : (d.refreshSource x).poolWait = d.poolWait := rfl
@[simp] theorem Device.refreshSource_safeStore (d : Device) (x : Source) : (d.refreshSource x).safeStore = d.safeStore := rfl
@[simp] theorem Device.refreshSource_commitQueue (d : Device) (x : Source) : (d.refreshSource x).commitQueue = d.commitQueue := rfl
@[simp] theorem Device.refreshSource_mem (d : Device) (x : Source) : (d.refreshSource x).mem = d.mem := rfl
@[simp] theorem Device.refreshSource_portA (d : Device) (x : Source) : (d.refreshSource x).portA = d.portA := rfl
@[simp] theorem Device.refreshSource_portB (d : Device) (x : Source) : (d.refreshSource x).portB = d.portB := rfl
@[simp] theorem Device.refreshSource_monitors (d : Device) (x : Source) : (d.refreshSource x).monitors = d.monitors := rfl
@[simp] theorem Device.refreshSource_lct (d : Device) (x : Source) : (d.refreshSource x).lct = d.lct := rfl
@[simp] theorem Device.refreshSource_fault (d : Device) (x : Source) : (d.refreshSource x).fault = d.fault := rfl
@[simp] theorem Device.refreshSource_clock (d : Device) (x : Source) : (d.refreshSource x).clock = d.clock := rfl
@[simp] theorem Device.refreshSource_link (d : Device) (x : Source) : (d.refreshSource x).link = d.link := rfl
@[simp] theorem Device.refreshSource_startup (d : Device) (x : Source) : (d.refreshSource x).startup = d.startup := rfl
@[simp] theorem Device.refreshSource_straps (d : Device) (x : Source) : (d.refreshSource x).straps = d.straps := rfl
@[simp] theorem Device.refreshSource_config (d : Device) (x : Source) : (d.refreshSource x).config = d.config := rfl
@[simp] theorem Device.refreshSource_freeIndex (d : Device) (x : Source) : (d.refreshSource x).freeIndex = d.freeIndex := rfl

/-! `Device.discardAll` -/

@[simp] theorem Device.discardAll_windows (d : Device) (w : Slot16) : (d.discardAll w).windows = d.windows := rfl
@[simp] theorem Device.discardAll_poolWait (d : Device) (w : Slot16) : (d.discardAll w).poolWait = d.poolWait := rfl
@[simp] theorem Device.discardAll_safeStore (d : Device) (w : Slot16) : (d.discardAll w).safeStore = d.safeStore := rfl
@[simp] theorem Device.discardAll_commitQueue (d : Device) (w : Slot16) : (d.discardAll w).commitQueue = d.commitQueue := rfl
@[simp] theorem Device.discardAll_mem (d : Device) (w : Slot16) : (d.discardAll w).mem = d.mem := rfl
@[simp] theorem Device.discardAll_portA (d : Device) (w : Slot16) : (d.discardAll w).portA = d.portA := rfl
@[simp] theorem Device.discardAll_portB (d : Device) (w : Slot16) : (d.discardAll w).portB = d.portB := rfl
@[simp] theorem Device.discardAll_monitors (d : Device) (w : Slot16) : (d.discardAll w).monitors = d.monitors := rfl
@[simp] theorem Device.discardAll_lct (d : Device) (w : Slot16) : (d.discardAll w).lct = d.lct := rfl
@[simp] theorem Device.discardAll_fault (d : Device) (w : Slot16) : (d.discardAll w).fault = d.fault := rfl
@[simp] theorem Device.discardAll_clock (d : Device) (w : Slot16) : (d.discardAll w).clock = d.clock := rfl
@[simp] theorem Device.discardAll_link (d : Device) (w : Slot16) : (d.discardAll w).link = d.link := rfl
@[simp] theorem Device.discardAll_startup (d : Device) (w : Slot16) : (d.discardAll w).startup = d.startup := rfl
@[simp] theorem Device.discardAll_straps (d : Device) (w : Slot16) : (d.discardAll w).straps = d.straps := rfl
@[simp] theorem Device.discardAll_config (d : Device) (w : Slot16) : (d.discardAll w).config = d.config := rfl
@[simp] theorem Device.discardAll_freeIndex (d : Device) (w : Slot16) : (d.discardAll w).freeIndex = d.freeIndex := rfl

/-! `Device.leavePool` -/

@[simp] theorem Device.leavePool_windows (d : Device) (p : Port) : (d.leavePool p).windows = d.windows := rfl
@[simp] theorem Device.leavePool_entries (d : Device) (p : Port) : (d.leavePool p).entries = d.entries := rfl
@[simp] theorem Device.leavePool_safeStore (d : Device) (p : Port) : (d.leavePool p).safeStore = d.safeStore := rfl
@[simp] theorem Device.leavePool_commitQueue (d : Device) (p : Port) : (d.leavePool p).commitQueue = d.commitQueue := rfl
@[simp] theorem Device.leavePool_mem (d : Device) (p : Port) : (d.leavePool p).mem = d.mem := rfl
@[simp] theorem Device.leavePool_portA (d : Device) (p : Port) : (d.leavePool p).portA = d.portA := rfl
@[simp] theorem Device.leavePool_portB (d : Device) (p : Port) : (d.leavePool p).portB = d.portB := rfl
@[simp] theorem Device.leavePool_monitors (d : Device) (p : Port) : (d.leavePool p).monitors = d.monitors := rfl
@[simp] theorem Device.leavePool_lct (d : Device) (p : Port) : (d.leavePool p).lct = d.lct := rfl
@[simp] theorem Device.leavePool_fault (d : Device) (p : Port) : (d.leavePool p).fault = d.fault := rfl
@[simp] theorem Device.leavePool_clock (d : Device) (p : Port) : (d.leavePool p).clock = d.clock := rfl
@[simp] theorem Device.leavePool_link (d : Device) (p : Port) : (d.leavePool p).link = d.link := rfl
@[simp] theorem Device.leavePool_startup (d : Device) (p : Port) : (d.leavePool p).startup = d.startup := rfl
@[simp] theorem Device.leavePool_straps (d : Device) (p : Port) : (d.leavePool p).straps = d.straps := rfl
@[simp] theorem Device.leavePool_config (d : Device) (p : Port) : (d.leavePool p).config = d.config := rfl
@[simp] theorem Device.leavePool_freeIndex (d : Device) (p : Port) : (d.leavePool p).freeIndex = d.freeIndex := rfl

/-! `Device.advance` -/

@[simp] theorem Device.advance_entries (d : Device) (n : Nat) : (d.advance n).entries = d.entries := rfl
@[simp] theorem Device.advance_poolWait (d : Device) (n : Nat) : (d.advance n).poolWait = d.poolWait := rfl
@[simp] theorem Device.advance_safeStore (d : Device) (n : Nat) : (d.advance n).safeStore = d.safeStore := rfl
@[simp] theorem Device.advance_commitQueue (d : Device) (n : Nat) : (d.advance n).commitQueue = d.commitQueue := rfl
@[simp] theorem Device.advance_mem (d : Device) (n : Nat) : (d.advance n).mem = d.mem := rfl
@[simp] theorem Device.advance_fault (d : Device) (n : Nat) : (d.advance n).fault = d.fault := rfl
@[simp] theorem Device.advance_link (d : Device) (n : Nat) : (d.advance n).link = d.link := rfl
@[simp] theorem Device.advance_straps (d : Device) (n : Nat) : (d.advance n).straps = d.straps := rfl
@[simp] theorem Device.advance_config (d : Device) (n : Nat) : (d.advance n).config = d.config := rfl
@[simp] theorem Device.advance_freeIndex (d : Device) (n : Nat) : (d.advance n).freeIndex = d.freeIndex := rfl

/-! What the updates change -/

@[simp] theorem Device.port_modPort_self (d : Device) (p : Port) (f : PortUnit → PortUnit) :
    (d.modPort p f).port p = f (d.port p) := by cases p <;> rfl

@[simp] theorem Device.port_modPort_other (d : Device) (p : Port) (f : PortUnit → PortUnit) :
    (d.modPort p f).port (otherPort p) = d.port (otherPort p) := by cases p <;> rfl

theorem Device.port_modPort (d : Device) (p q : Port) (f : PortUnit → PortUnit) :
    (d.modPort p f).port q = if q = p then f (d.port q) else d.port q := by cases p <;> cases q <;> rfl

@[simp] theorem Device.modPort_modPort (d : Device) (p : Port) (f g : PortUnit → PortUnit) :
    (d.modPort p f).modPort p g = d.modPort p fun u => g (f u) := by cases p <;> rfl

@[simp] theorem Device.win_modWin_self (d : Device) (w : Slot16) (f : Window → Window) :
    (d.modWin w f).win w = f (d.win w) := by simp [Device.win, Device.modWin]

theorem Device.win_modWin_other (d : Device) (w v : Slot16) (f : Window → Window) (h : v ≠ w) :
    (d.modWin w f).win v = d.win v := by
  have h' : ¬(w.val = v.val) := fun e => h (Fin.ext e.symm)
  simp [Device.win, Device.modWin, h']

theorem Device.win_modWin (d : Device) (w v : Slot16) (f : Window → Window) :
    (d.modWin w f).win v = if v = w then f (d.win v) else d.win v := by
  by_cases h : v = w
  · subst h; simp
  · simp [h, Device.win_modWin_other d w v f h]

theorem Device.win_modRt (d : Device) (w v : Slot16) (f : Runtime → Runtime) :
    (d.modRt w f).win v = if v = w then { d.win v with rt := f (d.win v).rt } else d.win v :=
  Device.win_modWin d w v _

@[simp] theorem Device.desc_modRt (d : Device) (w v : Slot16) (f : Runtime → Runtime) :
    ((d.modRt w f).win v).desc = (d.win v).desc := by
  rw [Device.win_modRt]; split <;> rfl

@[simp] theorem Device.rt_modRt_self (d : Device) (w : Slot16) (f : Runtime → Runtime) :
    (d.modRt w f).rt w = f (d.rt w) := by simp [Device.rt, Device.win_modRt]

theorem Device.rt_modRt (d : Device) (w v : Slot16) (f : Runtime → Runtime) :
    (d.modRt w f).rt v = if v = w then f (d.rt v) else d.rt v := by
  simp only [Device.rt, Device.win_modRt]; split <;> rfl

@[simp] theorem Device.modWin_modWin (d : Device) (w : Slot16) (f g : Window → Window) :
    (d.modWin w f).modWin w g = d.modWin w fun x => g (f x) := by simp [Device.modWin]

@[simp] theorem Device.modRt_modRt (d : Device) (w : Slot16) (f g : Runtime → Runtime) :
    (d.modRt w f).modRt w g = d.modRt w fun r => g (f r) := by
  simp only [Device.modRt, Device.modWin_modWin]

@[simp] theorem Device.win_modWins (d : Device) (f : Slot16 → Window → Window) (v : Slot16) :
    (d.modWins f).win v = f v (d.win v) := by simp [Device.win, Device.modWins]

@[simp] theorem Monitors.get_set_self (m : Monitors) (x : Strobe) (v : Monitor) : (m.set x v).get x = v := by
  cases x <;> rfl

theorem Monitors.get_set (m : Monitors) (x y : Strobe) (v : Monitor) :
    (m.set x v).get y = if y = x then v else m.get y := by cases x <;> cases y <;> rfl

end Sys2Proof.Machine
end

