-- ==== Sys2Proof/Laws/Exec.lean ====
section
/-! SUPPORT. What each command answers when it is taken as its rules give it: no event of the moment left, and for a management
command READY (and a loaded image). -/

namespace Sys2Proof.Machine

/-- With no event of the moment left, settling is nothing. -/
theorem settle_of_settled {d : Device} (h : Settled d) : d.settle = d := by
  unfold Device.settle Device.momentBound Device.settleWithin; rw [show d.urgent = none from h]

/-- A command is taken as it is when PWR_RST is not asserted. -/
theorem command_of_settled {d : Device} (h : Settled d) (hp : d.startup.pwrRst = false) (f : Device → Device) :
    d.command f = f d := by simp [Device.command, settle_of_settled h, hp]

theorem managed_of_serving {d : Device} (h : Serving d) (f : Device → Device) : d.managed f = f d := by
  simp [Device.managed, command_of_settled h.1 h.2.2, Device.whenReady, h.2.1]

theorem managedWindow_of_serving {d : Device} (h : ServingWindows d) (f : Device → Device) : d.managedWindow f = f d := by
  simp [Device.managedWindow, managed_of_serving h.1, Device.whenOpaque, h.2]

/-- A timer that is the next thing due runs out at the moment it is due. -/
theorem runTo_of_nextDue {d : Device} {e : Expiry} {t : Nat} (h : NextDue d e t) : d.runTo e = ((d.reached t).expire e).tripExpired := by
  have ha : (d.dueTimes.all fun x => decide (t ≤ x)) = true := by simpa using h.2.2
  simp only [Device.runTo, h.2.1, Device.atTime, ha, Device.reached, if_true]
  split <;> rfl

theorem exec_portRequest (s : State) (p : Port) (r : Request) (h : Settled s.dev) :
    exec (.portRequest p r) s = .next { s with dev := s.dev.takeRequest p r } := by
  simp only [exec, execPortRequest, State.onDevice, settle_of_settled h]

theorem exec_orderingEnd (s : State) (p : Port) :
    exec (.orderingEnd p) s = .next { s with dev := s.dev.endOrdering p } := rfl

theorem exec_queueSpaceEntry (s : State) (p : Port) :
    exec (.queueSpaceEntry p) s = .next { s with dev := s.dev.enterHeldWrite p } := rfl

theorem exec_poolWaitService (s : State) :
    exec .poolWaitService s = .next { s with dev := s.dev.servePool } := rfl

theorem exec_readAdmitted (s : State) (p : Port) :
    exec (.readAdmitted p) s = .next { s with dev := s.dev.admitRead p } := rfl

theorem exec_lockReservationHandoff (s : State) (p : Port) :
    exec (.lockReservationHandoff p) s = .next { s with dev := s.dev.handReservation p } := rfl

theorem exec_holdLimitExpiry (s : State) (p : Port) {t : Nat} (h : NextDue s.dev (.holdLimit p) t) :
    exec (.holdLimitExpiry p) s = .next { s with dev := ((s.dev.reached t).expire (.holdLimit p)).tripExpired } := by
  simp only [exec, execHoldLimitExpiry, State.onDevice, settle_of_settled h.1, runTo_of_nextDue h]

theorem exec_poolWaitExpiry (s : State) (p : Port) {t : Nat} (h : NextDue s.dev (.poolWait p) t) :
    exec (.poolWaitExpiry p) s = .next { s with dev := ((s.dev.reached t).expire (.poolWait p)).tripExpired } := by
  simp only [exec, execPoolWaitExpiry, State.onDevice, settle_of_settled h.1, runTo_of_nextDue h]

theorem exec_lockLimitExpiry (s : State) (p : Port) {t : Nat} (h : NextDue s.dev (.lockLimit p) t) :
    exec (.lockLimitExpiry p) s = .next { s with dev := ((s.dev.reached t).expire (.lockLimit p)).tripExpired } := by
  simp only [exec, execLockLimitExpiry, State.onDevice, settle_of_settled h.1, runTo_of_nextDue h]

theorem exec_arbiterGrant (s : State) (h : Settled s.dev) :
    exec .arbiterGrant s = .next { s with dev := s.dev.grant } := by
  simp only [exec, execArbiterGrant, State.onDevice, settle_of_settled h]

theorem exec_memoryCompletion (s : State) (merr : Bool) (data : Word) (h : Settled s.dev) :
    exec (.memoryCompletion merr data) s = .next { s with dev := s.dev.memoryCompletes merr data } := by
  simp only [exec, execMemoryCompletion, State.onDevice, settle_of_settled h]

theorem exec_itemStart (s : State) :
    exec .itemStart s = .next { s with dev := s.dev.startItem } := rfl

theorem exec_consumerHoldSet (s : State) :
    exec .consumerHoldSet s = .next { s with dev := s.dev.setConsumerHold } := rfl

theorem exec_watchdogExpiry (s : State) (w : Slot16) {t : Nat} (h : NextDue s.dev (.watchdog w) t) :
    exec (.watchdogExpiry w) s = .next { s with dev := ((s.dev.reached t).expire (.watchdog w)).tripExpired } := by
  simp only [exec, execWatchdogExpiry, State.onDevice, settle_of_settled h.1, runTo_of_nextDue h]

theorem exec_strobePulse (s : State) (x : Strobe) (after : Nat) (h : Settled s.dev) :
    exec (.strobePulse x after) s = .next { s with dev := s.dev.strobe x after } := by
  simp only [exec, execStrobePulse, State.onDevice, settle_of_settled h]

theorem exec_acquisitionTimeout (s : State) (x : Strobe) {t : Nat} (h : NextDue s.dev (.acquisition x) t) :
    exec (.acquisitionTimeout x) s = .next { s with dev := ((s.dev.reached t).expire (.acquisition x)).tripExpired } := by
  simp only [exec, execAcquisitionTimeout, State.onDevice, settle_of_settled h.1, runTo_of_nextDue h]

theorem exec_syncLost (s : State) (x : Strobe) {t : Nat} (h : NextDue s.dev (.sync x) t) :
    exec (.syncLost x) s = .next { s with dev := ((s.dev.reached t).expire (.sync x)).tripExpired } := by
  simp only [exec, execSyncLost, State.onDevice, settle_of_settled h.1, runTo_of_nextDue h]

theorem exec_lctExpiry (s : State) {t : Nat} (h : NextDue s.dev .lct t) :
    exec .lctExpiry s = .next { s with dev := ((s.dev.reached t).expire .lct).tripExpired } := by
  simp only [exec, execLctExpiry, State.onDevice, settle_of_settled h.1, runTo_of_nextDue h]

theorem exec_timerStart (s : State) (_period : Word) (h : Serving s.dev) :
    exec (.timerStart _period) s = .next { s with dev := { s.dev with lct := s.dev.lct.begin }.done [] } := by
  simp only [exec, execTimerStart, State.onDevice, managed_of_serving h]

theorem exec_timerStop (s : State) (_period : Word) (h : Serving s.dev) :
    exec (.timerStop _period) s = .next { s with dev := (fun d : Device => d.requireState (!d.lctInUse) fun d => { d with lct := d.lct.stop }.done []) s.dev } := by
  simp only [exec, execTimerStop, State.onDevice, managed_of_serving h]

theorem exec_timerPeriod (s : State) (period : Word) (h : Serving s.dev) :
    exec (.timerPeriod period) s = .next { s with dev := (fun d : Device => d.requireArg (within 10 1000000 period.toNat) fun d => { d with lct := d.lct.setPeriod period.toNat }.done []) s.dev } := by
  simp only [exec, execTimerPeriod, State.onDevice, managed_of_serving h]

theorem exec_readFlags (s : State) (h : Serving s.dev) :
    exec .readFlags s = .next { s with dev := s.dev.done s.dev.fault.flagBytes } := by
  simp only [exec, execReadFlags, State.onDevice, managed_of_serving h]

theorem exec_clearFlags (s : State) (mask : BitVec 40) (h : Serving s.dev) :
    exec (.clearFlags mask) s = .next { s with dev := { s.dev with fault := s.dev.fault.clear mask }.done [] } := by
  simp only [exec, execClearFlags, State.onDevice, managed_of_serving h]

theorem exec_setEnable (s : State) (mask : BitVec 40) (value : Byte) (h : Serving s.dev) :
    exec (.setEnable mask value) s = .next { s with dev := (fun d : Device => d.requireArg (within 0 1 value.toNat) fun d => { d with fault := d.fault.setEnables mask (value == 1) }.done []) s.dev } := by
  simp only [exec, execSetEnable, State.onDevice, managed_of_serving h]

theorem exec_setLevel (s : State) (mask : BitVec 40) (level : Byte) (h : Serving s.dev) :
    exec (.setLevel mask level) s = .next { s with dev := (fun d : Device => d.requireArg (within 0 3 level.toNat) fun d => { d with fault := d.fault.setLevels mask (level.extractLsb' 0 2) }.done []) s.dev } := by
  simp only [exec, execSetLevel, State.onDevice, managed_of_serving h]

theorem exec_setThreshold (s : State) (threshold : Byte) (h : Serving s.dev) :
    exec (.setThreshold threshold) s = .next { s with dev := (fun d : Device => d.requireArg (within 0 3 threshold.toNat) fun d =>
      { d with fault := { d.fault with threshold := threshold.extractLsb' 0 2 } }.done []) s.dev } := by
  simp only [exec, execSetThreshold, State.onDevice, managed_of_serving h]

theorem exec_readLog (s : State) (h : Serving s.dev) :
    exec .readLog s = .next { s with dev := Device.takeOldest s.dev } := by
  simp only [exec, execReadLog, State.onDevice, managed_of_serving h]

theorem exec_readWindow (s : State) (index : Byte) (h : Serving s.dev) :
    exec (.readWindow index) s = .next { s with dev := match slotOfByte index with
    | none => s.dev.respond .refusedArgument []
    | some w => s.dev.done (s.dev.windowBytes w) } := by
  simp only [exec, execReadWindow, State.onDevice, managed_of_serving h] <;> rfl

theorem exec_enable (s : State) (index : Byte) (h : ServingWindows s.dev) :
    exec (.enable index) s = .next { s with dev := (fun d : Device => d.onDefined index fun w ds =>
    d.requireState ((d.rt w).state == .off) fun d => (d.enableWindow w ds).done []) s.dev } := by
  simp only [exec, execEnable, State.onDevice, managedWindow_of_serving h]

theorem exec_disable (s : State) (index : Byte) (h : ServingWindows s.dev) :
    exec (.disable index) s = .next { s with dev := match slotOfByte index with
    | none => s.dev.respond .refusedArgument []
    | some w => (s.dev.disableSlot w).done [] } := by
  simp only [exec, execDisable, State.onDevice, managedWindow_of_serving h] <;> rfl

theorem exec_pause (s : State) (index : Byte) (h : ServingWindows s.dev) :
    exec (.pause index) s = .next { s with dev := (fun d : Device => d.onDefined index fun w _ =>
    d.requireState ((d.rt w).state == .running) fun d => (d.pauseWindow w).done []) s.dev } := by
  simp only [exec, execPause, State.onDevice, managedWindow_of_serving h]

theorem exec_resume (s : State) (index : Byte) (h : ServingWindows s.dev) :
    exec (.resume index) s = .next { s with dev := (fun d : Device => d.onDefined index fun w ds =>
    d.requireState ((d.rt w).state == .paused) fun d => (d.resumeWindow w ds).done []) s.dev } := by
  simp only [exec, execResume, State.onDevice, managedWindow_of_serving h]

theorem exec_rearm (s : State) (index : Byte) (h : ServingWindows s.dev) :
    exec (.rearm index) s = .next { s with dev := (fun d : Device => d.onDefined index fun w _ =>
    d.requireState ((d.rt w).state == .tripped) fun d => (d.rearm w).done []) s.dev } := by
  simp only [exec, execRearm, State.onDevice, managedWindow_of_serving h]

theorem exec_selectSource (s : State) (index : Byte) (source : Byte) (h : ServingWindows s.dev) :
    exec (.selectSource index source) s = .next { s with dev := (fun d : Device => d.onDefined index fun w _ => d.trySelect w source) s.dev } := by
  simp only [exec, execSelectSource, State.onDevice, managedWindow_of_serving h]

theorem exec_commitNow (s : State) (index : Byte) (h : ServingWindows s.dev) :
    exec (.commitNow index) s = .next { s with dev := (fun d : Device => d.onDefined index fun w _ =>
    (d.commitEvent w).done [(d.decideCommit w).outcome.code]) s.dev } := by
  simp only [exec, execCommitNow, State.onDevice, managedWindow_of_serving h]

theorem exec_readId (s : State) (h : Settled s.dev) (hp : s.dev.startup.pwrRst = false) :
    exec .readId s = .next { s with dev := s.dev.done idBytes } := by
  simp only [exec, execReadId, State.onDevice, command_of_settled h hp]

theorem exec_readStatus (s : State) (h : Settled s.dev) (hp : s.dev.startup.pwrRst = false) :
    exec .readStatus s = .next { s with dev := s.dev.done s.dev.statusBytes } := by
  simp only [exec, execReadStatus, State.onDevice, command_of_settled h hp]

theorem exec_readSources (s : State) (h : Serving s.dev) :
    exec .readSources s = .next { s with dev := s.dev.done s.dev.sourceBytes } := by
  simp only [exec, execReadSources, State.onDevice, managed_of_serving h]

theorem exec_readPorts (s : State) (h : Serving s.dev) :
    exec .readPorts s = .next { s with dev := s.dev.done s.dev.portsBytes } := by
  simp only [exec, execReadPorts, State.onDevice, managed_of_serving h]

theorem exec_readResetCause (s : State) (h : Serving s.dev) :
    exec .readResetCause s = .next { s with dev := s.dev.done s.dev.startup.cause.bytes } := by
  simp only [exec, execReadResetCause, State.onDevice, managed_of_serving h]

/-- A command that a frame spells acts as its own row does (R174). -/
theorem takeFrame_eq_exec (c : Instr) (s : State) (h : managementCommand c = true) : takeFrame c s = exec c s := by
  cases c
  case unknownCommand f =>
    cases f
    case edge e => exact absurd h Bool.false_ne_true
    all_goals rfl
  all_goals first | exact absurd h Bool.false_ne_true | rfl

/-- What a frame spells is a command that a frame carries (R174). -/
theorem managementCommand_of_decodeFrame {bytes : List Byte} {c : Instr} (h : decodeFrame bytes = some c) :
    managementCommand c = true := by
  unfold decodeFrame at h
  repeat' split at h
  all_goals cases h
  all_goals first
    | rfl
    | (unfold decodeWindowCtrl; split <;> rfl)
    | (unfold decodeTimer; split <;> rfl)
    | (unfold decodeSoftReset; split <;> rfl)

/-- The command that an edge takes is one that a frame carries (R174). -/
theorem managementCommand_of_frameTaken {d : Device} {e : LinkEdge} {c : Instr} (h : d.frameTaken e = some c) :
    managementCommand c = true := by
  unfold Device.frameTaken Link.completes at h
  repeat' split at h
  all_goals first
    | exact managementCommand_of_decodeFrame h
    | cases h

theorem exec_edge (s : State) (e : LinkEdge) (h : Settled s.dev) (hf : s.dev.frameTaken e = none) :
    exec (.unknownCommand (.edge e)) s = .next { s with dev := s.dev.linkEdge e } := by
  simp only [exec, execUnknownCommand, takeEdge, settle_of_settled h, hf]

theorem exec_edge_taken (s : State) (e : LinkEdge) (c : Instr) (h : Settled s.dev) (hf : s.dev.frameTaken e = some c) :
    exec (.unknownCommand (.edge e)) s = exec c s := by
  rw [show exec (.unknownCommand (.edge e)) s = takeEdge e s from rfl,
    ← takeFrame_eq_exec c s (managementCommand_of_frameTaken hf)]
  simp only [takeEdge, settle_of_settled h, hf]

theorem exec_frameAbort (s : State) (h : Settled s.dev) :
    exec .frameAbort s = .next { s with dev := s.dev.abortFrame } := by
  simp only [exec, execFrameAbort, State.onDevice, settle_of_settled h]

theorem exec_softResetDatapath (s : State) (h : Serving s.dev) :
    exec .softResetDatapath s = .next { s with dev := s.dev.datapathReset.done [] } := by
  simp only [exec, execSoftResetDatapath, State.onDevice, managed_of_serving h]

theorem exec_softResetFull (s : State) (h : Serving s.dev) :
    exec .softResetFull s = .next { s with dev := (s.dev.fullReset .softFull).done [] } := by
  simp only [exec, execSoftResetFull, State.onDevice, managed_of_serving h]

theorem exec_pwrRst (s : State) (h : Settled s.dev) :
    exec .pwrRst s = .next { s with dev := s.dev.pwrRstReset } := by
  simp only [exec, execPwrRst, State.onDevice, settle_of_settled h]

theorem exec_rstIn (s : State) (h : Settled s.dev) :
    exec .rstIn s = .next { s with dev := s.dev.rstInReset } := by
  simp only [exec, execRstIn, State.onDevice, settle_of_settled h]

theorem exec_linkReset (s : State) (h : Settled s.dev) :
    exec .linkReset s = .next { s with dev := s.dev.takeLinkReset } := by
  simp only [exec, execLinkReset, State.onDevice, settle_of_settled h]

theorem exec_resetRelease (s : State) (straps : Straps) :
    exec (.resetRelease straps) s = .next { s with dev := s.dev.releaseReset straps } := rfl

theorem exec_pwrRstRelease (s : State) (h : Settled s.dev) :
    exec .pwrRstRelease s = .next { s with dev := s.dev.releasePwrRst } := by
  simp only [exec, execPwrRstRelease, State.onDevice, settle_of_settled h]

theorem exec_settleEnd (s : State) (straps : Straps) {t : Nat} (h : NextDue s.dev (.settleEnd straps) t) :
    exec (.settleEnd straps) s = .next { s with dev := ((s.dev.reached t).expire (.settleEnd straps)).tripExpired } := by
  simp only [exec, execSettleEnd, State.onDevice, settle_of_settled h.1, runTo_of_nextDue h]

theorem exec_flashAnswer (s : State) (b : Byte) (h : Settled s.dev) :
    exec (.flashAnswer (.byte b)) s = .next { s with dev := s.dev.flashReturns [b] fun d => d.flashAnswers b } := by
  simp only [exec, execFlashAnswer, State.onDevice, settle_of_settled h]

theorem exec_flashEdge (s : State) (fdi : Bool) (h : Settled s.dev) :
    exec (.flashAnswer (.edge fdi)) s = .next { s with dev := s.dev.flashEdge fdi } := by
  simp only [exec, execFlashAnswer, State.onDevice, settle_of_settled h]

theorem exec_flashRetryWaitEnd (s : State) {t : Nat} (h : NextDue s.dev .flashRetry t) :
    exec .flashRetryWaitEnd s = .next { s with dev := ((s.dev.reached t).expire .flashRetry).tripExpired } := by
  simp only [exec, execFlashRetryWaitEnd, State.onDevice, settle_of_settled h.1, runTo_of_nextDue h]

theorem exec_flashTimeout (s : State) {t : Nat} (h : NextDue s.dev .flashTimeout t) :
    exec .flashTimeout s = .next { s with dev := ((s.dev.reached t).expire .flashTimeout).tripExpired } := by
  simp only [exec, execFlashTimeout, State.onDevice, settle_of_settled h.1, runTo_of_nextDue h]

theorem exec_headerReadComplete (s : State) (word0 : Word) (word1 : Word) (word2 : Word) (h : Settled s.dev) :
    exec (.headerReadComplete word0 word1 word2) s = .next { s with
      dev := s.dev.flashReturns ([word0, word1, word2].flatMap bytesOfWord) fun d => d.headerRead word0 word1 word2 } := by
  simp only [exec, execHeaderReadComplete, State.onDevice, settle_of_settled h]

theorem exec_imageReadComplete (s : State) (words : List Word) (h : Settled s.dev) :
    exec (.imageReadComplete words) s = .next { s with
      dev := s.dev.flashReturns (words.flatMap bytesOfWord) fun d => d.imageRead words } := by
  simp only [exec, execImageReadComplete, State.onDevice, settle_of_settled h]

theorem exec_rstOutRelease (s : State) {t : Nat} (h : NextDue s.dev .rstOut t) :
    exec .rstOutRelease s = .next { s with dev := ((s.dev.reached t).expire .rstOut).tripExpired } := by
  simp only [exec, execRstOutRelease, State.onDevice, settle_of_settled h.1, runTo_of_nextDue h]

end Sys2Proof.Machine
end

