-- ==== Sys2Proof/Laws/Store.lean ====
section
/-! SUPPORT. What the operations of the staging store answer (R27 to R55). -/

namespace Sys2Proof.Machine

/-! ## Bytes laid over a word -/

theorem maskBits_or (a b : Mask) : maskBits (a ||| b) = maskBits a ||| maskBits b := by revert a b; decide

/-- A beat merged into an entry reads as the beat laid over what the entry gave (R37). -/
theorem layBytes_merge (a b : Mask) (x y m : Word) :
    layBytes (a ||| b) (layBytes b y x) m = layBytes b y (layBytes a x m) := by
  simp only [layBytes, maskBits_or]
  generalize maskBits a = p
  generalize maskBits b = q
  ext i hi
  simp
  cases p[i] <;> cases q[i] <;> cases x[i] <;> cases y[i] <;> cases m[i] <;> rfl

theorem layBytes_select (b : Mask) (y m : Word) : layBytes b (selectBytes b y) m = layBytes b y m := by
  simp only [layBytes, selectBytes]
  rw [BitVec.and_assoc, BitVec.and_self]

/-! ## Entries -/

/-- A merge is seen in the window's open entry for its word, and in no other open entry (R37). -/
theorem findEntry_merge_open (es : List Entry) (w v : Slot16) (k j : Nat) (b : Beat) :
    findEntry (es.map fun e => if e.isOpen w && e.offset == k then e.merge b else e) (·.isOpen v) j =
      (findEntry es (·.isOpen v) j).map fun e => if v = w ∧ j = k then e.merge b else e := by
  unfold findEntry
  induction es with
  | nil => rfl
  | cons e es ih =>
    simp only [List.map_cons, List.find?_cons]
    have h1 : (if e.isOpen w && e.offset == k then e.merge b else e).isOpen v = e.isOpen v := by split <;> rfl
    have h2 : (if e.isOpen w && e.offset == k then e.merge b else e).offset = e.offset := by split <;> rfl
    rw [h1, h2]
    by_cases hx : (e.isOpen v && e.offset == j) = true
    · simp only [hx, Option.map_some]
      simp [Entry.isOpen] at hx ⊢
      congr 1
      rw [hx.1.1, hx.1.2, hx.2]
      simp
    · simp only [hx, ih]

/-- A merge is seen in no draining entry (R37). -/
theorem findEntry_merge_draining (es : List Entry) (w v : Slot16) (k j : Nat) (b : Beat) :
    findEntry (es.map fun e => if e.isOpen w && e.offset == k then e.merge b else e) (·.isDraining v) j =
      findEntry es (·.isDraining v) j := by
  unfold findEntry
  induction es with
  | nil => rfl
  | cons e es ih =>
    simp only [List.map_cons, List.find?_cons, ih]
    by_cases hx : (e.isOpen w && e.offset == k) = true
    · simp only [hx, if_true]
      have h1 : e.isDraining v = false := by simp [Entry.isOpen, Entry.isDraining] at hx ⊢; simp [hx]
      have h2 : (e.merge b).isDraining v = false := by simp [Entry.isOpen, Entry.isDraining, Entry.merge] at hx ⊢; simp [hx]
      simp [h1, h2]
    · simp [hx]

theorem drainEntries_merge (es : List Entry) (w v : Slot16) (k : Nat) (b : Beat) :
    (es.map fun e => if e.isOpen w && e.offset == k then e.merge b else e).filter (·.isDraining v) =
      es.filter (·.isDraining v) := by
  induction es with
  | nil => rfl
  | cons e es ih =>
    simp only [List.map_cons, List.filter_cons, ih]
    by_cases hx : (e.isOpen w && e.offset == k) = true
    · simp only [hx, if_true]
      simp [Entry.isOpen] at hx
      simp [Entry.isDraining, Entry.merge, hx]
    · simp [hx]

/-- The first entry of a list that satisfies a test leaves it. -/
theorem eraseP_at {α : Type} (f : α → Bool) (before after : List α) (e : α) (he : f e = true)
    (hb : ∀ y ∈ before, f y = false) : (before ++ e :: after).eraseP f = before ++ after := by
  rw [List.eraseP_append_right _ (by simpa using hb), List.eraseP_cons_of_pos he]

theorem length_filter_compl (es : List Entry) (f : Entry → Bool) :
    es.length - (es.filter fun e => !f e).length = (es.filter f).length := by
  have := List.length_eq_length_filter_add (l := es) f
  omega

/-! ## Acceptance (R33 to R39, R122) -/

/-- A laid byte is the new one where its mask bit is set, and the old one elsewhere (R52). -/
theorem layBytes_byte (m : Mask) (x y : Word) {i : Nat} (hi : i < 4) :
    (layBytes m x y).extractLsb' (8 * i) 8 = if m.getLsbD i then x.extractLsb' (8 * i) 8 else y.extractLsb' (8 * i) 8 := by
  have hm : ∀ m : Mask, ∀ i < 4, ∀ j < 8, (maskBits m).getLsbD (8 * i + j) = m.getLsbD i := by decide
  have hw : 8 * i + 7 < 32 := by omega
  apply BitVec.eq_of_getLsbD_eq
  intro j hj
  have h := hm m i hi j hj
  split <;> rename_i hb <;>
    simp only [layBytes, BitVec.getLsbD_extractLsb', BitVec.getLsbD_or, BitVec.getLsbD_and, BitVec.getLsbD_not, hj, h, hb,
      show 8 * i + j < 32 by omega] <;>
    simp

/-- What a word reads as through the store (R52), byte by byte. -/
theorem overlay_byte (d : Device) (w : Slot16) (k : Nat) (m : Word) {i : Nat} (hi : i < 4) :
    let laid : Option Entry → Byte → Byte := fun e under =>
      match e with
      | some x => if x.mask.getLsbD i then x.data.extractLsb' (8 * i) 8 else under
      | none => under
    (d.overlay w k m).extractLsb' (8 * i) 8 =
      laid ((d.openList w).find? (·.offset == k)) (laid ((d.drainList w).find? (·.offset == k)) (m.extractLsb' (8 * i) 8)) := by
  intro laid
  have lay : ∀ (e : Option Entry) (x : Word), (layEntry e x).extractLsb' (8 * i) 8 = laid e (x.extractLsb' (8 * i) 8) := by
    intro e x
    cases e with
    | none => rfl
    | some e => exact layBytes_byte _ _ _ hi
  have found : ∀ test : Entry → Bool, findEntry d.entries test k = (d.entries.filter test).find? (·.offset == k) := by
    intro test
    rw [findEntry, List.find?_filter]
    exact congrArg (List.find? · d.entries) (funext fun e => by cases test e <;> simp [Bool.beq_eq_decide_eq])
  rw [Device.overlay, lay, lay, found, found]
  rfl

/-- The pool check, in terms of the entries held (R31, R35). -/
theorem room_iff (d : Device) (n : Nat) :
    (n = 0 ∨ (d.poolWait = [] ∧ n ≤ d.freeCount)) ↔ (n = 0 ∨ (d.poolWait = [] ∧ d.entries.length + n ≤ 256)) := by
  unfold Device.freeCount
  constructor <;> rintro (h | ⟨h, h'⟩) <;> (try (left; exact h)) <;> by_cases hn : n = 0 <;> simp [hn, h] <;> omega

theorem firstOffset_eq {d : Device} {w : Slot16} {ds : Descriptor} {r : Request} (hd : (d.win w).desc = some ds) :
    d.firstOffset w r = (r.address.toNat - ds.base) / 4 := by simp [Device.firstOffset, hd, Descriptor.offsetOf]

/-- Whether a request covers the closing word depends on the descriptor alone (R39). -/
theorem coversClosing_congr {d t : Device} {w : Slot16} {r : Request} (h : (t.win w).desc = (d.win w).desc) :
    t.coversClosing w r = d.coversClosing w r := by simp only [Device.coversClosing, Device.firstOffset, h]

theorem restartWatchdog_eq {d : Device} {w : Slot16} {ds : Descriptor} (hd : (d.win w).desc = some ds) :
    d.restartWatchdog w = d.modRt w fun r => { r with watchdog := ds.watchdogPeriod.map (· * 10) } := by
  simp only [Device.restartWatchdog, hd]
  rfl

theorem modRt_congr (d : Device) (w : Slot16) (f g : Runtime → Runtime) (h : f (d.rt w) = g (d.rt w)) :
    d.modRt w f = d.modRt w g := by
  have : f d.windows[w].rt = g d.windows[w].rt := h
  simp only [Device.modRt, Device.modWin]
  show ({ d with windows := d.windows.set w { d.windows[w] with rt := f d.windows[w].rt } } : Device) = _
  rw [this]

theorem modRt_id (d : Device) (w : Slot16) (f : Runtime → Runtime) (h : f (d.rt w) = d.rt w) : d.modRt w f = d := by
  have h1 : f d.windows[w].rt = d.windows[w].rt := h
  simp only [Device.modRt, Device.modWin]
  show ({ d with windows := d.windows.set w { d.windows[w] with rt := f d.windows[w].rt } } : Device) = _
  rw [h1]
  have h2 : d.windows.set w.val d.windows[w] = d.windows := by simp
  exact congrArg (fun x => ({ d with windows := x } : Device)) h2

/-- All that an accepted producer write does before any event it may be (R36 to R39, R122). -/
theorem stageWrite_eq {d : Device} {p : Port} {w : Slot16} {r : Request} {ds : Descriptor} (hd : (d.win w).desc = some ds) :
    d.stageWrite p w r = acceptedWrite d p w ds r := by
  have ha : d.autoRearm w = ds.autoRearm := by simp [Device.autoRearm, hd]
  simp only [Device.stageWrite, acceptedWrite, ha, firstOffset_eq hd, Device.answer]
  generalize hr : (d.coversClosing w r && (d.rt w).state == .tripped && ds.autoRearm) = rearms
  generalize hD : (({ d with entries := stageBeats w ((r.address.toNat - ds.base) / 4) r.beats d.entries } : Device).modPort p fun u =>
    { u with current := none, holdTimer := none, answer := some ⟨.okay, []⟩ }) = D
  have hd1 : (D.win w).desc = some ds := by rw [← hD, ← hd]; cases p <;> rfl
  have hrt : D.rt w = d.rt w := by rw [← hD]; cases p <;> rfl
  by_cases h1 : (d.rt w).state = .running <;> by_cases h2 : d.coversClosing w r = true <;> by_cases h3 : rearms = true <;>
    simp only [h1, h2, h3, if_true, if_false, Device.rearm, restartWatchdog_eq hd1, Device.modRt_modRt, Bool.false_eq_true]
  all_goals (try rw [restartWatchdog_eq (by simp only [Device.desc_modRt]; exact hd1)])
  all_goals (try simp only [Device.modRt_modRt])
  all_goals first
    | (symm; apply modRt_id; rw [hrt]; simp_all; done)
    | (apply modRt_congr; rw [hrt]; simp_all; done)

@[simp] theorem acceptedWrite_desc (d : Device) (p : Port) (w v : Slot16) (ds : Descriptor) (r : Request) :
    ((acceptedWrite d p w ds r).win v).desc = (d.win v).desc := by
  simp only [acceptedWrite, Device.desc_modRt]
  cases p <;> rfl

@[simp] theorem acceptedWrite_lock (d : Device) (p : Port) (w : Slot16) (ds : Descriptor) (r : Request) :
    ((acceptedWrite d p w ds r).port p).lock = (d.port p).lock := by
  unfold acceptedWrite
  cases p <;> rfl

/-- When an accepted write is a commit event (R40, R122): it covers the closing word of a window with effective source CLOSE that is
RUNNING, or that it has re-armed. -/
theorem closeEvent_acceptedWrite (d : Device) (p : Port) (w : Slot16) (ds : Descriptor) (r : Request) :
    (acceptedWrite d p w ds r).closeEvent w r = true ↔
      d.coversClosing w r = true ∧ (d.rt w).effective = .close ∧
        ((d.rt w).state = .running ∨ ((d.rt w).state = .tripped ∧ ds.autoRearm = true)) := by
  have hc : (acceptedWrite d p w ds r).coversClosing w r = d.coversClosing w r := coversClosing_congr (acceptedWrite_desc ..)
  have hrt : ∀ e, (({ d with entries := e } : Device).modPort p fun u =>
      { u with current := none, holdTimer := none, answer := some ⟨.okay, []⟩ }).rt w = d.rt w := by
    intro e
    cases p <;> rfl
  simp only [Device.closeEvent, hc]
  simp only [acceptedWrite, Device.rt_modRt_self, hrt]
  cases h2 : d.coversClosing w r <;> simp
  cases h3 : (d.rt w).state <;> cases h4 : ds.autoRearm <;> cases h5 : (d.rt w).effective <;> simp

/-! ## Bursts (R36, R39) -/

/-- A burst covers an offset when a beat at it enables a byte (R39). -/
theorem coversOffset_iff (k : Nat) (beats : List Beat) (c : Nat) :
    coversOffset k beats c = true ↔ ∃ (i : Nat) (b : Beat), beats[i]? = some b ∧ b.mask ≠ 0 ∧ k + i = c := by
  induction beats generalizing k with
  | nil => simp [coversOffset]
  | cons x l ih =>
    simp only [coversOffset, Bool.or_eq_true, Bool.and_eq_true, decide_eq_true_eq, bne_iff_ne, ih]
    constructor
    · rintro (⟨h1, h2⟩ | ⟨i, b, h1, h2, h3⟩)
      · exact ⟨0, x, rfl, h2, h1⟩
      · exact ⟨i + 1, b, by simpa using h1, h2, by omega⟩
    · rintro ⟨i, b, h1, h2, h3⟩
      cases i with
      | zero =>
        left
        simp at h1
        subst h1
        exact ⟨h3, h2⟩
      | succ i => exact Or.inr ⟨i, b, by simpa using h1, h2, by omega⟩

/-- The open epoch has an entry for an offset when its list of offsets holds it. -/
theorem hasOpen_eq (d : Device) (w : Slot16) (k : Nat) :
    hasOpen w k d.entries = ((d.openList w).map Entry.offset).contains k := by
  have any : ∀ l : List Entry, (l.any fun e => e.offset == k) = (l.map Entry.offset).contains k := by
    intro l
    induction l with
    | nil => rfl
    | cons a l ih =>
      simp only [List.any_cons, List.map_cons, List.contains_cons, ih]
      congr 1
      simp [BEq.comm]
  rw [← any]
  simp [hasOpen, Device.openList, List.any_filter]

/-- A beat adds its offset at the end of the open epoch unless it merges (R36). -/
theorem offsets_stageBeat (d : Device) (w : Slot16) (k : Nat) (b : Beat) :
    (({ d with entries := stageBeat w k b d.entries } : Device).openList w).map Entry.offset =
      (d.openList w).map Entry.offset ++ (if hasOpen w k d.entries then [] else [k]) := by
  unfold stageBeat
  by_cases h : hasOpen w k d.entries = true
  · simp only [h, if_true, List.append_nil, Device.openList]
    generalize d.entries = es
    induction es with
    | nil => rfl
    | cons e l ih =>
      rw [List.map_cons, List.filter_cons, List.filter_cons]
      by_cases h1 : (e.isOpen w && e.offset == k) = true
      · have h2 : e.isOpen w = true := (Bool.and_eq_true_iff.1 h1).1
        have h3 : (e.merge b).isOpen w = true := h2
        rw [if_pos h1, if_pos h3, if_pos h2, List.map_cons, List.map_cons, ih]
        rfl
      · rw [if_neg h1]
        by_cases h2 : e.isOpen w = true
        · rw [if_pos h2, if_pos h2, List.map_cons, List.map_cons, ih]
        · rw [if_neg h2, if_neg h2, ih]
  · simp only [h, Device.openList]
    simp [List.filter_append, Entry.isOpen]

end Sys2Proof.Machine
end

