-- ==== Sys2Proof/Laws/Engine.lean ====
section
/-! SUPPORT. What the operations of the commit engine, of the locks and of the memory arbiter answer (R62 to R86, R149 to R157). -/

namespace Sys2Proof.Machine

/-! ## The commit queue -/

/-- The head of the queue is its window's item. -/
theorem itemOf_head {d : Device} {w : Slot16} {k : ItemKind} {p : Option Progress} {rest : List Item}
    (h : d.commitQueue = ⟨w, k, p⟩ :: rest) : d.itemOf w = some ⟨w, k, p⟩ := by simp [Device.itemOf, h]

theorem modItem_head {d : Device} {w : Slot16} {k : ItemKind} {p : Option Progress} {rest : List Item} (f : Item → Item)
    (h : d.commitQueue = ⟨w, k, p⟩ :: rest) (hr : ∀ it ∈ rest, it.window ≠ w) :
    d.modItem w f = { d with commitQueue := f ⟨w, k, p⟩ :: rest } := by
  unfold Device.modItem
  rw [h]
  congr 1
  simp only [List.map_cons, if_true]
  congr 1
  conv_rhs => rw [← List.map_id rest]
  apply List.map_congr_left
  intro a ha
  simp [hr a ha]

/-- An EPOCH item at the head completes (R77, R80). -/
theorem completeEpoch_head {d : Device} {w : Slot16} {p : Option Progress} {rest : List Item}
    (hq : d.commitQueue = ⟨w, .epoch, p⟩ :: rest) (hrest : ∀ it ∈ rest, it.window ≠ w) :
    d.completeEpoch w =
      { (d.modRt w fun r =>
          { r with
            consumerHold := false, holdRequest := false, safeAfterItem := false, drainingEpoch := none
            lastCommitted := r.drainingEpoch.getD r.lastCommitted
            counters := { r.counters with commits := satInc r.counters.commits } }).setFlag (.cmt w) with
        commitQueue := rest ++ (if (d.rt w).safeAfterItem then [⟨w, .safe, none⟩] else []) } := by
  have hrem : (⟨w, .epoch, p⟩ :: rest).filter (fun it => it.window != w) = rest := by
    rw [List.filter_cons]
    simp
    intro a ha
    exact hrest a ha
  unfold Device.completeEpoch Device.clearHold Device.removeItem
  simp only [Device.modRt_modRt, Device.setFlag_commitQueue, Device.modRt_commitQueue, hq, hrem]
  by_cases hs : (d.rt w).safeAfterItem = true
  · simp only [hs, if_true]
    rw [show ∀ (D : Device) f g q, (({ (D.modRt w f).setFlag (.cmt w) with commitQueue := q } : Device).modRt w g).join w .safe =
        { ((D.modRt w f).modRt w g).setFlag (.cmt w) with commitQueue := q ++ [⟨w, .safe, none⟩] } from fun _ _ _ _ => rfl]
    rw [Device.modRt_modRt]
  · simp only [hs, if_false, List.append_nil, Bool.false_eq_true]
    have := modRt_congr d w
      (fun r => { r with
        consumerHold := false, holdRequest := false, drainingEpoch := none
        lastCommitted := r.drainingEpoch.getD r.lastCommitted
        counters := { r.counters with commits := satInc r.counters.commits } })
      (fun r => { r with
        consumerHold := false, holdRequest := false, safeAfterItem := false, drainingEpoch := none
        lastCommitted := r.drainingEpoch.getD r.lastCommitted
        counters := { r.counters with commits := satInc r.counters.commits } })
      (by simp [Bool.eq_false_iff.2 hs])
    rw [← this]

/-- A SAFE item at the head completes (R79). -/
theorem completeSafe_head {d : Device} {w : Slot16} {p : Option Progress} {rest : List Item}
    (hq : d.commitQueue = ⟨w, .safe, p⟩ :: rest) (hrest : ∀ it ∈ rest, it.window ≠ w) :
    d.completeSafe w =
      { (d.modRt w fun r => { r with consumerHold := false, holdRequest := false }).setFlag (.cmt w) with commitQueue := rest } := by
  have hrem : (⟨w, .safe, p⟩ :: rest).filter (fun it => it.window != w) = rest := by
    rw [List.filter_cons]
    simp
    intro a ha
    exact hrest a ha
  unfold Device.completeSafe Device.clearHold Device.removeItem
  simp only [Device.setFlag_commitQueue, Device.modRt_commitQueue, hq, hrem]

theorem completeItem_head {d : Device} {w : Slot16} {k : ItemKind} {p : Option Progress} {rest : List Item}
    (hq : d.commitQueue = ⟨w, k, p⟩ :: rest) (hrest : ∀ it ∈ rest, it.window ≠ w) :
    d.completeItem w k = completedItem d w k rest := by
  cases k
  · exact completeEpoch_head hq hrest
  · exact completeSafe_head hq hrest

/-- The head enters STATUS, or completes without a status block (R77, R79, R82). -/
theorem enterStatus_head {d : Device} {w : Slot16} {k : ItemKind} {p : Option Progress} {pr : Progress} {rest : List Item}
    (hq : d.commitQueue = ⟨w, k, p⟩ :: rest) (hrest : ∀ it ∈ rest, it.window ≠ w) :
    d.enterStatus w k pr = statusEntered d w k pr rest := by
  unfold Device.enterStatus statusEntered
  have he : (d.statusBlockOn w = true ∧ d.config.statusArea.isSome = true) ↔
      (d.statusBlockOn w = true ∧ d.config.statusArea ≠ none) := by cases d.config.statusArea <;> simp
  by_cases hc : d.statusBlockOn w = true ∧ d.config.statusArea ≠ none
  · rw [if_pos (he.2 hc), if_pos hc, modItem_head _ hq hrest]
    rfl
  · rw [if_neg (fun h => hc (he.1 h)), if_neg hc]
    exact completeItem_head hq hrest

/-- What the head goes on to after a data write (R71, R75). -/
theorem checkWritten_head {d : Device} {w : Slot16} {k : ItemKind} {pr : Progress} {rest : List Item}
    (hq : d.commitQueue = ⟨w, k, some pr⟩ :: rest) (hrest : ∀ it ∈ rest, it.window ≠ w) :
    d.checkWritten w = if pr.phase = .writing ∧ pr.written = pr.planned then statusEntered d w k pr rest else d := by
  unfold Device.checkWritten
  rw [itemOf_head hq]
  simp only [enterStatus_head hq hrest]

/-- What the queue held before is not read when the head enters STATUS. -/
@[simp] theorem statusEntered_queue (d : Device) (q : List Item) (w : Slot16) (k : ItemKind) (pr : Progress) (rest : List Item) :
    statusEntered { d with commitQueue := q } w k pr rest = statusEntered d w k pr rest := by cases k <;> rfl

/-! ## Draining entries that a trip discards (R56) -/

theorem keepFirst_split (f : Entry → Bool) (before after : List Entry) (e : Entry) (he : f e = true)
    (hb : ∀ y ∈ before, f y = false) : keepFirst f (before ++ e :: after) = before ++ e :: after.filter fun y => !f y := by
  induction before with
  | nil => simp [keepFirst, he]
  | cons a l ih =>
    have ha : f a = false := hb a (by simp)
    simp only [List.cons_append, keepFirst, ha, Bool.false_eq_true, if_false]
    rw [ih fun y hy => hb y (by simp [hy])]

theorem discardDraining_all {d : Device} {w : Slot16} (h : d.inFlight (.drain w) = false) :
    d.discardDraining w =
      { d.modRt w fun r => { r with counters := { r.counters with
          discarded := satAdd r.counters.discarded (d.drainList w).length } } with
        entries := d.entries.filter fun e => !(e.isDraining w) } := by
  unfold Device.discardDraining
  rw [h]
  simp only [Bool.false_eq_true, if_false, length_filter_compl]
  rfl

theorem discardDraining_inFlight {d : Device} {w : Slot16} {before after : List Entry} {e : Entry}
    (h : d.inFlight (.drain w) = true) (hE : d.entries = before ++ e :: after) (he : e.isDraining w = true)
    (hb : ∀ y ∈ before, y.isDraining w = false) :
    d.discardDraining w =
      { d.modRt w fun r => { r with counters := { r.counters with
          discarded := satAdd r.counters.discarded (after.filter (·.isDraining w)).length } } with
        entries := before ++ e :: after.filter fun y => !(y.isDraining w) } := by
  unfold Device.discardDraining
  rw [h, hE]
  simp only [if_true, keepFirst_split _ _ _ _ he hb]
  have hn : (before ++ e :: after).length - (before ++ e :: after.filter fun y => !y.isDraining w).length =
      (after.filter (·.isDraining w)).length := by
    have := length_filter_compl after (·.isDraining w)
    simp only [List.length_append, List.length_cons]
    omega
  rw [hn]
  rfl

/-! ## Status blocks (R83) -/

/-- The fields of word 1 of a status block. -/
theorem statusWord1_fields (c : BitVec 8) (p e o l k t : Bool) (n : BitVec 16) :
    let v := c ++ 0#2 ++ BitVec.ofBool p ++ BitVec.ofBool e ++ BitVec.ofBool o ++ BitVec.ofBool l ++ BitVec.ofBool k ++
      BitVec.ofBool t ++ n
    v.extractLsb' 0 16 = n ∧ v.getLsbD 16 = t ∧ v.getLsbD 17 = k ∧ v.getLsbD 18 = l ∧ v.getLsbD 19 = o ∧ v.getLsbD 20 = e ∧
      v.getLsbD 21 = p ∧ v.getLsbD 22 = false ∧ v.getLsbD 23 = false ∧ v.extractLsb' 24 8 = c := by
  intro v
  refine ⟨?_, ?_, ?_, ?_, ?_, ?_, ?_, ?_, ?_, ?_⟩
  · apply BitVec.eq_of_getLsbD_eq
    intro i hi
    simp only [v, BitVec.getLsbD_extractLsb', BitVec.getLsbD_append, Nat.zero_add, hi, if_true]
    simp
  any_goals (simp only [v, BitVec.getLsbD_append, BitVec.getLsbD_ofBool]; simp; done)
  · apply BitVec.eq_of_getLsbD_eq
    intro i hi
    interval_cases i <;> simp only [v, BitVec.getLsbD_extractLsb', BitVec.getLsbD_append, BitVec.getLsbD_ofBool] <;> simp

/-- The halves of word 2 of a status block. -/
theorem append_halves (a b : BitVec 16) : (a ++ b).extractLsb' 0 16 = b ∧ (a ++ b).extractLsb' 16 16 = a := by
  constructor <;> apply BitVec.eq_of_getLsbD_eq <;> intro i hi <;>
    simp only [BitVec.getLsbD_extractLsb', BitVec.getLsbD_append, Nat.zero_add, hi, if_true] <;> simp

/-! ## What a commit event leaves (R61 to R68) -/

/-- A commit event changes no port unit. -/
@[simp] theorem commitEvent_port (d : Device) (w : Slot16) (p : Port) : (d.commitEvent w).port p = d.port p := by
  unfold Device.commitEvent Device.applyDecision
  split <;> cases p <;> rfl

@[simp] theorem commitEvent_mem (d : Device) (w : Slot16) : (d.commitEvent w).mem = d.mem := by
  unfold Device.commitEvent Device.applyDecision
  split <;> rfl

/-- A change of a runtime record but for its state leaves every descriptor and every state. -/
theorem modRt_state (d t : Device) (w v : Slot16) (f : Runtime → Runtime) (hf : ∀ r, (f r).state = r.state)
    (ht : t.windows = (d.modRt w f).windows) : (t.win v).desc = (d.win v).desc ∧ (t.rt v).state = (d.rt v).state := by
  have h1 : t.win v = (d.modRt w f).win v := by unfold Device.win; rw [ht]
  have h2 : t.rt v = (d.modRt w f).rt v := by unfold Device.rt; rw [h1]
  rw [h1, h2, Device.desc_modRt, Device.rt_modRt]
  refine ⟨rfl, ?_⟩
  split
  · rename_i h
    rw [hf, h]
  · rfl

/-- A commit event changes no window's descriptor and no window's state. -/
theorem commitEvent_state (d : Device) (w v : Slot16) :
    ((d.commitEvent w).win v).desc = (d.win v).desc ∧ ((d.commitEvent w).rt v).state = (d.rt v).state := by
  unfold Device.commitEvent Device.applyDecision
  split
  · exact ⟨rfl, rfl⟩
  · exact modRt_state d _ w v (fun r => { r with counters := { r.counters with skippedEvents := satInc r.counters.skippedEvents } })
      (fun _ => rfl) rfl
  · exact modRt_state d _ w v (fun r => { r with safeLoadPending := false }) (fun _ => rfl) rfl
  · exact modRt_state d _ w v (fun r => { r with safeLoadPending := false }) (fun _ => rfl) rfl
  · exact modRt_state d _ w v (fun r => { r with deferredCommit := true }) (fun _ => rfl) rfl
  · exact modRt_state d _ w v
      (fun r => { r with overrunSince := true, counters := { r.counters with overrun := satInc r.counters.overrun } }) (fun _ => rfl) rfl
  · exact modRt_state d _ w v
      (fun r => { r with overrunSince := true, counters := { r.counters with overrun := satInc r.counters.overrun } }) (fun _ => rfl) rfl
  · exact modRt_state d _ w v
      (fun r => { r with lateSince := true, counters := { r.counters with late := satInc r.counters.late } }) (fun _ => rfl) rfl
  · exact modRt_state d _ w v (fun r => { r with counters := { r.counters with emptyEvents := satInc r.counters.emptyEvents } })
      (fun _ => rfl) rfl
  · exact modRt_state d _ w v
      (fun r => { r with closeMark := false, drainingEpoch := some r.openEpoch, openEpoch := epochAfter r.openEpoch }) (fun _ => rfl) rfl

/-- The deferred events at a lock's end change no window's descriptor and no window's state. -/
theorem takeDeferred_state (d : Device) (a : Nat) (v : Slot16) :
    ((d.takeDeferred a).win v).desc = (d.win v).desc ∧ ((d.takeDeferred a).rt v).state = (d.rt v).state := by
  have one : ∀ (t : Device) (w : Slot16), ((Device.takeDeferredOf a t w).win v).desc = (t.win v).desc ∧
      ((Device.takeDeferredOf a t w).rt v).state = (t.rt v).state := by
    intro t w
    unfold Device.takeDeferredOf
    split
    · exact ⟨rfl, rfl⟩
    · split
      · obtain ⟨h1, h2⟩ := commitEvent_state (t.modRt w fun r => { r with deferredCommit := false }) w v
        obtain ⟨h3, h4⟩ := modRt_state t _ w v (fun r => { r with deferredCommit := false }) (fun _ => rfl) rfl
        exact ⟨h1.trans h3, h2.trans h4⟩
      · exact ⟨rfl, rfl⟩
  unfold Device.takeDeferred
  generalize allWindows = l
  induction l generalizing d with
  | nil => exact ⟨rfl, rfl⟩
  | cons x xs ih =>
    rw [List.foldl_cons]
    obtain ⟨h1, h2⟩ := ih (Device.takeDeferredOf a d x)
    obtain ⟨h3, h4⟩ := one d x
    exact ⟨h1.trans h3, h2.trans h4⟩

/-! ## Locks (R151, R153, R156) -/

/-- A commit event leaves the ports and the memory port alone (R60 to R69). -/
theorem commitEvent_ports (d : Device) (w : Slot16) (p : Port) :
    (d.commitEvent w).port p = d.port p ∧ (d.commitEvent w).mem = d.mem := by
  unfold Device.commitEvent Device.applyDecision
  split <;> cases p <;> exact ⟨rfl, rfl⟩

/-- Rows 4 and 5 of R61: the producer's lock record is OPENING, OPEN or CLOSING on a word of the window's range (R63, R151). -/
theorem producerLockOn_iff {d : Device} {w : Slot16} {ds : Descriptor} (hd : (d.win w).desc = some ds) :
    d.producerLockOn w = true ↔ ∃ kind a,
      ((d.port ds.producer).lock = .opening kind a ∨ (∃ rem, (d.port ds.producer).lock = .opened kind a rem) ∨
        ∃ rem, (d.port ds.producer).lock = .closing kind a rem) ∧
      ds.base ≤ a ∧ a < ds.base + 4 * ds.length := by
  simp only [Device.producerLockOn, hd]
  cases (d.port ds.producer).lock <;> simp [LockRecord.heldWord, Descriptor.covers]

theorem releaseExclusive_eq (d : Device) (p : Port) : d.releaseExclusive p =
    { d with mem := { d.mem with exclusive := if d.mem.exclusive = .held p then .free else d.mem.exclusive } } := by
  unfold Device.releaseExclusive
  split <;> rfl

/-- The end of a lock that holds a word (R156, R157). -/
theorem endLock_eq {a : Nat} (d : Device) (p : Port) (l : LockRecord) (h : (d.port p).lock.heldWord = some a) :
    d.endLock p l = lockEnded d p a l := by
  simp only [Device.endLock, h, releaseExclusive_eq, Device.setLock]
  cases p <;> rfl

/-! ## The memory port (R149) -/

/-- The granted requester moves to the end of an order that holds it once. -/
theorem rotate_split (before after : List Requester) (r : Requester) (h : (before ++ r :: after).Nodup) :
    rotate (before ++ r :: after) r = before ++ after ++ [r] := by
  have h1 : r ∉ before := fun hh => by
    simp [List.nodup_append] at h
    exact (h.2.2 r hh).1 rfl
  have h2 : r ∉ after := fun hh => by
    simp [List.nodup_append] at h
    tauto
  unfold rotate
  rw [List.filter_append, List.filter_cons]
  simp only [bne_self_eq_false, Bool.false_eq_true, if_false]
  rw [List.filter_eq_self.2, List.filter_eq_self.2]
  · intro a ha
    simp
    rintro rfl
    exact h2 ha
  · intro a ha
    simp
    rintro rfl
    exact h1 ha

/-- The safe-image words of the windows below one (R123). -/
theorem regionStart_eq (d : Device) (w : Slot16) : d.regionStart w = wordsBelow d w := by
  unfold Device.regionStart wordsBelow
  rw [List.sum_eq_foldl, List.foldl_map]
  congr 1

/-! ## The windows that receive an event -/

theorem mem_allWindows : ∀ w : Slot16, w ∈ allWindows := by decide

/-- A window whose sources change and whose effective source is computed afresh (R102). -/
theorem refreshWindow_modRt (d : Device) (w : Slot16) (f : Runtime → Runtime) (ds : Descriptor)
    (hd : (d.win w).desc = some ds) : (d.modRt w f).refreshWindow w =
      d.modRt w fun r => { f r with effective := d.monitors.effective (f r).selected ds.fallback } := by
  have hd' : d.windows[w.val].desc = some ds := hd
  simp only [Device.refreshWindow, Device.modRt, Device.modWin, Window.refresh]
  simp [hd']

/-- In band means between 0.75P and 1.25P (R90). -/
theorem inBand_iff (e p u : Nat) : inBand e p u = true ↔ 3 * (p * u) ≤ 4 * e ∧ 4 * e ≤ 5 * (p * u) := by simp [inBand]

theorem inBand_false {e p u : Nat} (h : 4 * e < 3 * (p * u) ∨ 5 * (p * u) < 4 * e) : inBand e p u = false := by
  rw [Bool.eq_false_iff]
  intro hx
  rw [inBand_iff] at hx
  omega

end Sys2Proof.Machine
end

