-- ==== Sys2Proof/Laws/Manage.lean ====
section
/-! SUPPORT. What the operations of the management link answer: window indices, flag masks, and the lengths of reports. -/

namespace Sys2Proof.Machine

/-! ## Window indices (R178) -/

theorem slotOfByte_val {b : Byte} {w : Slot16} (h : b.toNat = w.val) : slotOfByte b = some w := by
  unfold slotOfByte
  rw [dif_pos (by omega)]
  simp [h]

theorem slotOfByte_none {b : Byte} (h : 15 < b.toNat) : slotOfByte b = none := by
  unfold slotOfByte
  rw [dif_neg (by omega)]

theorem onDefined_some {d : Device} {b : Byte} {w : Slot16} {ds : Descriptor} (h : b.toNat = w.val)
    (hd : (d.win w).desc = some ds) (f : Slot16 → Descriptor → Device) : d.onDefined b f = f w ds := by
  simp only [Device.onDefined, slotOfByte_val h, hd]

/-- An index above 15 or an empty slot is REFUSED_ARGUMENT (R178). -/
theorem onDefined_refused {d : Device} {b : Byte} (h : 15 < b.toNat ∨ ∃ w : Slot16, b.toNat = w.val ∧ (d.win w).desc = none)
    (f : Slot16 → Descriptor → Device) : d.onDefined b f = d.answering [2] := by
  rcases h with h | ⟨w, h, hd⟩
  · simp only [Device.onDefined, slotOfByte_none h]
    rfl
  · simp only [Device.onDefined, slotOfByte_val h, hd]
    rfl

theorem sourceOfByte_none {c : Byte} (h : 6 < c.toNat) : Source.ofByte c = none := by
  unfold Source.ofByte
  split <;> first | omega | rfl

/-! ## Level masks (R165) -/

/-- Bit j of a doubled mask is the mask's bit for the flag whose level bit j belongs to. -/
theorem doubled_getLsbD (mask : BitVec 40) (n : Nat) (hn : n ≤ 40) (j : Nat) (hj : j < 80) :
    (doubled mask n).getLsbD j = (decide (j / 2 < n) && mask.getLsbD (j / 2)) := by
  induction n with
  | zero => simp [doubled]
  | succ n ih =>
    rw [doubled, BitVec.getLsbD_or, ih (by omega)]
    by_cases hm : mask.getLsbD n = true
    · simp only [hm, if_true, BitVec.getLsbD_shiftLeft, hj, decide_true, Bool.true_and]
      by_cases h1 : j < 2 * n
      · have : j / 2 < n := by omega
        simp [h1, this]
        omega
      · by_cases h2 : j / 2 = n
        · have : j - 2 * n = 0 ∨ j - 2 * n = 1 := by omega
          rcases this with this | this <;> simp [h1, this, h2, hm]
        · have h4 : ¬(j / 2 < n) := by omega
          have h5 : ¬(j / 2 < n + 1) := by omega
          have : (3#80).getLsbD (j - 2 * n) = false := by
            have h6 : 2 ≤ j - 2 * n := by omega
            rw [BitVec.getLsbD_ofNat]
            simp
            intro
            apply Nat.testBit_lt_two_pow
            calc 3 < 2 ^ 2 := by decide
              _ ≤ _ := Nat.pow_le_pow_right (by decide) h6
          simp [h1, h4, h5, this]
    · have hm' : mask.getLsbD n = false := by simpa using hm
      simp only [hm', Bool.false_eq_true, if_false]
      by_cases h2 : j / 2 = n
      · simp [h2, hm']
      · have : (j / 2 < n + 1) ↔ (j / 2 < n) := by omega
        simp [this]

/-! ## Bits on the link (R174) -/

/-- Eight bits, the first the most significant, make the byte that has them. -/
theorem byteOfBits_eq (l : List Bool) (x : Byte) (hl : l.length = 8) (hx : ∀ i < 8, l[i]? = some (x.getLsbD (7 - i))) :
    byteOfBits l = x := by
  have he : l = [x.getLsbD 7, x.getLsbD 6, x.getLsbD 5, x.getLsbD 4, x.getLsbD 3, x.getLsbD 2, x.getLsbD 1, x.getLsbD 0] := by
    apply List.ext_getElem?
    intro i
    by_cases hi : i < 8
    · rw [hx i hi]
      interval_cases i <;> rfl
    · rw [List.getElem?_eq_none (by omega), List.getElem?_eq_none (by simp; omega)]
  rw [he]
  clear hx he
  revert x
  decide

/-- The bit that stands on MDO a number of clocks into the answer. -/
theorem serialBit_eq (bytes : List Byte) (n i : Nat) (x : Byte) (hx : bytes[n]? = some x) (hi : i < 8) :
    serialBit bytes (8 * n + i) = x.getLsbD (7 - i) := by
  unfold serialBit
  rw [show (8 * n + i) / 8 = n by omega, show (8 * n + i) % 8 = i by omega, hx]

/-! ## The lengths of reports -/

theorem beBytes_length (n x : Nat) : (beBytes n x).length = n := by
  induction n generalizing x with
  | zero => rfl
  | succ n ih => simp [beBytes, ih]

theorem wordsBytes_length (l : List Word) : (l.flatMap fun x => beBytes 4 x.toNat).length = 4 * l.length := by
  induction l with
  | nil => rfl
  | cons a l ih =>
    simp [beBytes_length, ih]
    omega

theorem optionalBytes_length (free : Nat → Byte) (pos n : Nat) (b : Option (List Byte)) (h : ∀ x, b = some x → x.length = n) :
    (optionalBytes free pos n b).length = n := by
  cases b with
  | none => simp [optionalBytes]
  | some x => simpa [optionalBytes] using h x rfl

theorem detailBytes_length (free : Nat → Byte) (x : Detail) : (Detail.bytes free x).length = 5 := by
  cases x <;> simp [Detail.bytes, optionalBytes, beBytes_length]

theorem detailBytes_head (free : Nat → Byte) (x : Detail) : ∃ l, Detail.bytes free x = x.code :: l := by
  cases x <;> exact ⟨_, rfl⟩

end Sys2Proof.Machine
end

