-- ==== Sys2Proof/Laws/FlashLink.lean ====
section
/-! SUPPORT. What an edge of FCLK can do, and that the edge which ends a read does what the read's own row does (R181). -/

namespace Sys2Proof.Machine

/-- The part with another state of the flash link. -/
def Device.withFlash (d : Device) (u : FlashLink) : Device := { d with startup := { d.startup with flash := u } }

@[simp] theorem withFlash_loader (d : Device) (u : FlashLink) : (d.withFlash u).startup.loader = d.startup.loader := rfl

@[simp] theorem withFlash_flash (d : Device) (u : FlashLink) : (d.withFlash u).startup.flash = u := rfl

/-! ## Bits and bytes -/

theorem bitsOfByte_getElem? (x : Byte) {i : Nat} (hi : i < 8) : (bitsOfByte x)[i]? = some (x.getLsbD (7 - i)) := by
  interval_cases i <;> rfl

theorem eq_bitsOfByte {l : List Bool} {x : Byte} (hl : l.length = 8) (hx : ∀ i < 8, l[i]? = some (x.getLsbD (7 - i))) :
    l = bitsOfByte x := by
  apply List.ext_getElem?
  intro i
  by_cases hi : i < 8
  · rw [hx i hi, bitsOfByte_getElem? x hi]
  · rw [List.getElem?_eq_none (by omega), List.getElem?_eq_none (by simp [bitsOfByte]; omega)]

theorem wordOfBytes_bytesOfWord (w : Word) :
    wordOfBytes (w.extractLsb' 24 8) (w.extractLsb' 16 8) (w.extractLsb' 8 8) (w.extractLsb' 0 8) = w := by
  apply BitVec.eq_of_getLsbD_eq
  intro i hi
  simp only [wordOfBytes, BitVec.getLsbD_append, BitVec.getLsbD_extractLsb']
  interval_cases i <;> simp

/-- The bytes of words, the most significant first, are gathered into those words (R181). -/
theorem wordsOfBytes_bytesOfWord (ws : List Word) : wordsOfBytes (ws.flatMap bytesOfWord) = ws := by
  induction ws with
  | nil => rfl
  | cons w ws ih =>
    rw [List.flatMap_cons, bytesOfWord, List.cons_append, List.cons_append, List.cons_append, List.cons_append, List.nil_append,
      wordsOfBytes, wordOfBytes_bytesOfWord, ih]

theorem wordsOfBytes_length : ∀ bs : List Byte, (wordsOfBytes bs).length = bs.length / 4
  | [] => rfl
  | [_] => by simp [wordsOfBytes]
  | [_, _] => by simp [wordsOfBytes]
  | [_, _, _] => by simp [wordsOfBytes]
  | _ :: _ :: _ :: _ :: rest => by
    rw [wordsOfBytes, List.length_cons, wordsOfBytes_length rest]
    simp only [List.length_cons]
    omega

/-- Bytes begin with the bits shifted in, the last byte's included. -/
theorem agrees_of_last {u : FlashLink} {fdi : Bool} {x : Byte} {bytes : List Byte} (hl : u.bits.length = 7)
    (hx : ∀ i < 8, (u.bits ++ [fdi])[i]? = some (x.getLsbD (7 - i))) (hb : u.received ++ [x] = bytes) : u.Agrees bytes := by
  have h8 : u.bits ++ [fdi] = bitsOfByte x := eq_bitsOfByte (by simp [hl]) hx
  subst hb
  refine ⟨[fdi], ?_⟩
  rw [List.append_assoc, h8, List.flatMap_append, List.flatMap_cons, List.flatMap_nil, List.append_nil]

/-! ## What an edge can do -/

theorem flashEdge_deselected {d : Device} (h : d.startup.fsel = false) (fdi : Bool) : d.flashEdge fdi = d := by
  simp [Device.flashEdge, h]

/-- An edge that does not end a byte changes the link only. -/
theorem flashEdge_within {d : Device} (h : d.startup.fsel = true) (fdi : Bool) (hc : d.startup.flash.completes = false) :
    d.flashEdge fdi = d.withFlash (d.startup.flash.edge fdi) := by
  simp only [Device.flashEdge, h, hc, if_true, Bool.false_eq_true, if_false, Device.withFlash]

theorem flashEdge_fall {d : Device} (h : d.startup.fsel = true) (hf : d.startup.flash.fclk = true) (fdi : Bool) :
    d.flashEdge fdi = d.withFlash d.startup.flash.fall := by
  rw [flashEdge_within h fdi (by simp [FlashLink.completes, hf]), FlashLink.edge, if_pos hf]

theorem flashEdge_command {d : Device} (h : d.startup.fsel = true) (hf : d.startup.flash.fclk = false)
    (hs : d.startup.flash.sent < 32) (fdi : Bool) :
    d.flashEdge fdi = d.withFlash { d.startup.flash with fclk := true, sent := d.startup.flash.sent + 1 } := by
  rw [flashEdge_within h fdi (by simp [FlashLink.completes]; omega), FlashLink.edge, if_neg (by simp [hf]), FlashLink.rise, if_pos hs]

theorem flashEdge_bit {d : Device} (h : d.startup.fsel = true) (hf : d.startup.flash.fclk = false)
    (hs : 32 ≤ d.startup.flash.sent) (hb : d.startup.flash.bits.length < 7) (fdi : Bool) :
    d.flashEdge fdi = d.withFlash { d.startup.flash with fclk := true, bits := d.startup.flash.bits ++ [fdi] } := by
  rw [flashEdge_within h fdi (by simp [FlashLink.completes]; omega), FlashLink.edge, if_neg (by simp [hf]), FlashLink.rise,
    if_neg (by omega), FlashLink.sample, if_pos hb]

/-- The edge that ends a byte hands it on. -/
theorem flashEdge_byte {d : Device} (h : d.startup.fsel = true) (hf : d.startup.flash.fclk = false)
    (hs : 32 ≤ d.startup.flash.sent) (hb : d.startup.flash.bits.length = 7) {fdi : Bool} {x : Byte}
    (hx : ∀ i < 8, (d.startup.flash.bits ++ [fdi])[i]? = some (x.getLsbD (7 - i))) :
    d.flashEdge fdi = (d.withFlash
      { d.startup.flash with fclk := true, received := d.startup.flash.received ++ [x], bits := [] }).flashGathers := by
  have he : d.startup.flash.edge fdi =
      { d.startup.flash with fclk := true, received := d.startup.flash.received ++ [x], bits := [] } := by
    rw [FlashLink.edge, if_neg (by simp [hf]), FlashLink.rise, if_neg (by omega), FlashLink.sample, if_neg (by omega),
      byteOfBits_eq _ x (by simp [hb]) hx]
  have hc : d.startup.flash.completes = true := by simp [FlashLink.completes, hf, hs, hb]
  simp only [Device.flashEdge, h, hc, if_true, he, Device.withFlash]

/-! ## The reads do not look at the link -/

theorem flashReturns_of_agrees {d : Device} {bytes : List Byte} (h : d.startup.flash.Agrees bytes) (f : Device → Device) :
    d.flashReturns bytes f = f d := if_pos h

theorem flashReturns_of_not {d : Device} {bytes : List Byte} (h : ¬d.startup.flash.Agrees bytes) (f : Device → Device) :
    d.flashReturns bytes f = d := if_neg h

theorem flashAnswers_withFlash {d : Device} (h : d.startup.loader = .awaiting) (u : FlashLink) (b : Byte) :
    (d.withFlash u).flashAnswers b = d.flashAnswers b := by
  have h' : (d.withFlash u).startup.loader = .awaiting := h
  rw [Device.flashAnswers, Device.flashAnswers, if_pos h, if_pos h']
  rfl

theorem headerRead_withFlash {d : Device} (h : d.startup.loader = .header) (u : FlashLink) (w0 w1 w2 : Word) :
    (d.withFlash u).headerRead w0 w1 w2 = d.headerRead w0 w1 w2 := by
  have h' : (d.withFlash u).startup.loader = .header := h
  rw [Device.headerRead, Device.headerRead, if_pos h, if_pos h']
  cases headerFault w0 w1 w2 <;> rfl

theorem imageRead_withFlash {d : Device} {w0 w1 w2 : Word} (h : d.startup.loader = .image w0 w1 w2) (u : FlashLink)
    {rest : List Word} (hl : rest.length + 3 = w1.toNat) : (d.withFlash u).imageRead rest = d.imageRead rest := by
  have h' : (d.withFlash u).startup.loader = .image w0 w1 w2 := h
  rw [Device.imageRead, Device.imageRead, h, h']
  simp only
  rw [if_pos hl, if_pos hl]
  cases imageFault (w0 :: w1 :: w2 :: rest) <;> rfl

/-! ## The edge that ends a read -/

/-- The edge that ends the first byte does what FLASH_ANSWER does. -/
theorem flashEdge_answer {d : Device} (h : d.startup.fsel = true) (hl : d.startup.loader = .awaiting)
    (hf : d.startup.flash.fclk = false) (hs : 32 ≤ d.startup.flash.sent) (hb : d.startup.flash.bits.length = 7) {fdi : Bool}
    {x : Byte} (hx : ∀ i < 8, (d.startup.flash.bits ++ [fdi])[i]? = some (x.getLsbD (7 - i)))
    (hr : d.startup.flash.received = []) :
    d.flashEdge fdi = d.flashReturns [x] fun d => d.flashAnswers x := by
  rw [flashReturns_of_agrees (agrees_of_last hb hx (by rw [hr]; rfl)), flashEdge_byte h hf hs hb hx, Device.flashGathers]
  simp only [withFlash_loader, withFlash_flash, hl, hr, List.nil_append]
  exact flashAnswers_withFlash hl _ x

/-- The edge that ends the header does what HEADER_READ_COMPLETE does. -/
theorem flashEdge_header {d : Device} (h : d.startup.fsel = true) (hl : d.startup.loader = .header)
    (hf : d.startup.flash.fclk = false) (hs : 32 ≤ d.startup.flash.sent) (hb : d.startup.flash.bits.length = 7) {fdi : Bool}
    {x : Byte} (hx : ∀ i < 8, (d.startup.flash.bits ++ [fdi])[i]? = some (x.getLsbD (7 - i))) {w0 w1 w2 : Word}
    (hr : d.startup.flash.received ++ [x] = [w0, w1, w2].flatMap bytesOfWord) :
    d.flashEdge fdi = d.flashReturns ([w0, w1, w2].flatMap bytesOfWord) fun d => d.headerRead w0 w1 w2 := by
  rw [flashReturns_of_agrees (agrees_of_last hb hx hr), flashEdge_byte h hf hs hb hx, Device.flashGathers]
  simp only [withFlash_loader, withFlash_flash, hl, hr, wordsOfBytes_bytesOfWord]
  exact headerRead_withFlash hl _ w0 w1 w2

/-- The edge that ends the rest of the image does what IMAGE_READ_COMPLETE does. -/
theorem flashEdge_image {d : Device} {w0 w1 w2 : Word} (h : d.startup.fsel = true) (hl : d.startup.loader = .image w0 w1 w2)
    (hf : d.startup.flash.fclk = false) (hs : 32 ≤ d.startup.flash.sent) (hb : d.startup.flash.bits.length = 7) {fdi : Bool}
    {x : Byte} (hx : ∀ i < 8, (d.startup.flash.bits ++ [fdi])[i]? = some (x.getLsbD (7 - i))) {rest : List Word}
    (hn : rest.length + 3 = w1.toNat) (hr : d.startup.flash.received ++ [x] = rest.flatMap bytesOfWord) :
    d.flashEdge fdi = d.flashReturns (rest.flatMap bytesOfWord) fun d => d.imageRead rest := by
  rw [flashReturns_of_agrees (agrees_of_last hb hx hr), flashEdge_byte h hf hs hb hx, Device.flashGathers]
  simp only [withFlash_loader, withFlash_flash, hl, hr, wordsOfBytes_bytesOfWord]
  exact imageRead_withFlash hl _ hn

/-- An edge that ends a byte of the header before its last. -/
theorem flashEdge_header_more {d : Device} (h : d.startup.fsel = true) (hl : d.startup.loader = .header)
    (hf : d.startup.flash.fclk = false) (hs : 32 ≤ d.startup.flash.sent) (hb : d.startup.flash.bits.length = 7) {fdi : Bool}
    {x : Byte} (hx : ∀ i < 8, (d.startup.flash.bits ++ [fdi])[i]? = some (x.getLsbD (7 - i)))
    (hr : d.startup.flash.received.length < 11) :
    d.flashEdge fdi = d.withFlash
      { d.startup.flash with fclk := true, received := d.startup.flash.received ++ [x], bits := [] } := by
  rw [flashEdge_byte h hf hs hb hx, Device.flashGathers]
  simp only [withFlash_loader, withFlash_flash, hl]
  have hw := wordsOfBytes_length (d.startup.flash.received ++ [x])
  rw [List.length_append, List.length_singleton] at hw
  split
  · rename_i he
    rw [he] at hw
    simp only [List.length_cons] at hw
    omega
  · rfl

/-- An edge that ends a byte of the rest of the image before its last. -/
theorem flashEdge_image_more {d : Device} {w0 w1 w2 : Word} (h : d.startup.fsel = true)
    (hl : d.startup.loader = .image w0 w1 w2) (hf : d.startup.flash.fclk = false) (hs : 32 ≤ d.startup.flash.sent)
    (hb : d.startup.flash.bits.length = 7) {fdi : Bool} {x : Byte}
    (hx : ∀ i < 8, (d.startup.flash.bits ++ [fdi])[i]? = some (x.getLsbD (7 - i)))
    (hr : d.startup.flash.received.length + 1 + 12 < 4 * w1.toNat) :
    d.flashEdge fdi = d.withFlash
      { d.startup.flash with fclk := true, received := d.startup.flash.received ++ [x], bits := [] } := by
  rw [flashEdge_byte h hf hs hb hx, Device.flashGathers]
  simp only [withFlash_loader, withFlash_flash, hl, Device.imageRead]
  exact if_neg (by rw [wordsOfBytes_length, List.length_append, List.length_singleton]; omega)

end Sys2Proof.Machine
end

