-- ==== Sys2Proof/Laws/Frames.lean ====
section
/-! SUPPORT. The bytes of words and flag masks, and frames that name no command (R174, R176). -/

namespace Sys2Proof

/-- The four bytes of a word spell it (R174). -/
theorem wordOfBytes_bytesOfWord (w : Word) :
    wordOfBytes (w.extractLsb' 24 8) (w.extractLsb' 16 8) (w.extractLsb' 8 8) (w.extractLsb' 0 8) = w := by
  unfold wordOfBytes
  apply BitVec.eq_of_getLsbD_eq
  intro i hi
  simp only [BitVec.getLsbD_append, BitVec.getLsbD_extractLsb']
  interval_cases i <;>
    simp only [Nat.reduceLT, Nat.reduceSub, Nat.reduceAdd, if_true, if_false, decide_true, Bool.true_and, decide_false]

/-- The five bytes of a flag mask spell it (management frame layout table). -/
theorem maskOfBytes_bytesOfMask (m : BitVec 40) :
    maskOfBytes (m.extractLsb' 32 8) (m.extractLsb' 24 8) (m.extractLsb' 16 8) (m.extractLsb' 8 8) (m.extractLsb' 0 8) = m := by
  unfold maskOfBytes
  apply BitVec.eq_of_getLsbD_eq
  intro i hi
  simp only [BitVec.getLsbD_append, BitVec.getLsbD_extractLsb']
  interval_cases i <;>
    simp only [Nat.reduceLT, Nat.reduceSub, Nat.reduceAdd, if_true, if_false, decide_true, Bool.true_and, decide_false]

/-! ## Frames that name nothing -/

theorem decodeWindowCtrl_unnamed (w a : Byte) (h : (UnnamedFrame.windowCtrl w a).wf = true) :
    decodeWindowCtrl w a = .unknownCommand (.windowCtrl w a) := by
  unfold decodeWindowCtrl
  simp only [UnnamedFrame.wf] at h
  split <;> first | rfl | (rename_i hx; simp [hx] at h)

theorem decodeTimer_unnamed (a : Byte) (p : Word) (h : (UnnamedFrame.timer a p).wf = true) :
    decodeTimer a p = .unknownCommand (.timer a p) := by
  unfold decodeTimer
  simp only [UnnamedFrame.wf] at h
  split <;> first | rfl | (rename_i hx; simp [hx] at h)

theorem decodeSoftReset_unnamed (a : Byte) (h : (UnnamedFrame.softReset a).wf = true) :
    decodeSoftReset a = .unknownCommand (.softReset a) := by
  unfold decodeSoftReset
  simp only [UnnamedFrame.wf] at h
  split <;> first | rfl | (rename_i hx; simp [hx] at h)

theorem decodeFrame_unnamed (c : Byte) (more : List Byte) (h : (UnnamedFrame.command c).wf = true) :
    decodeFrame (c :: more) = some (.unknownCommand (.command c)) := by
  unfold decodeFrame
  simp only [UnnamedFrame.wf, commandCodes] at h
  split
  · rename_i hx
    simp at hx
  · rename_i c' a hx
    simp at hx
    obtain ⟨rfl, rfl⟩ := hx
    split <;> first | rfl | (rename_i hx; simp [hx] at h)

/-! ## Frames that are not complete -/

/-- A frame's bytes spell nothing before the last of them (R174). -/
theorem decodeFrame_take (i : Instr) (bytes : List Byte) (he : encodeFrame i = some bytes) :
    bytes ≠ [] ∧ ∀ k, 0 < k → k < bytes.length → decodeFrame (bytes.take k) = none := by
  have short : bytes ≠ [] ∧ bytes.length < 8 := by
    cases i
    case unknownCommand f =>
      cases f <;> simp only [encodeFrame, reduceCtorEq, Option.some.injEq] at he <;> subst he <;> simp [bytesOfWord]
    all_goals simp only [encodeFrame, reduceCtorEq, Option.some.injEq] at he
    all_goals
      subst he
      simp [bytesOfMask, bytesOfWord]
  refine ⟨short.1, fun k h0 h1 => ?_⟩
  have h7 : k < 7 := by omega
  obtain ⟨n, hn⟩ : ∃ n, n = bytes.length := ⟨_, rfl⟩
  rw [← hn] at h1
  cases i
  case unknownCommand f =>
    cases f <;> simp only [encodeFrame, reduceCtorEq, Option.some.injEq] at he <;> subst he <;>
      simp [bytesOfWord] at hn <;> subst hn <;> interval_cases k <;> rfl
  all_goals simp only [encodeFrame, reduceCtorEq, Option.some.injEq] at he
  all_goals
    subst he
    simp [bytesOfMask, bytesOfWord] at hn
    subst hn
    interval_cases k <;> rfl

end Sys2Proof
end

