-- ==== Sys2Proof/Laws/FrameEdges.lean ====
section
/-! SUPPORT. The edges of a whole frame (R174, R175): what a management command does does not depend on where the management link
unit stands, and the last edge of a frame takes the command that its bytes spell. -/

namespace Sys2Proof.Machine

/-! ## The link unit plays no part in the command -/

/-- The part with another management link unit. -/
def Device.withLink (d : Device) (u : Link) : Device := { d with link := u }

/-- An operation that neither reads nor changes the management link unit. -/
def Blind (f : Device → Device) : Prop := ∀ (d : Device) (u : Link), f (d.withLink u) = (f d).withLink u

/-- An operation whose outcome, the unit included, does not depend on the unit. -/
def Answers (f : Device → Device) : Prop := ∀ (d : Device) (u : Link), f (d.withLink u) = f d

theorem port_withLink (d : Device) (u : Link) (p : Port) : (d.withLink u).port p = d.port p := by cases p <;> rfl

theorem modPort_withLink (d : Device) (u : Link) (p : Port) (f : PortUnit → PortUnit) :
    (d.withLink u).modPort p f = (d.modPort p f).withLink u := by cases p <;> rfl

theorem blind_answerExpired (p : Port) : Blind (Device.answerExpired · p) := by
  intro d u
  simp only [Device.answerExpired, port_withLink]
  split <;> (simp only [Device.answer, modPort_withLink])

theorem blind_reopenLock (p : Port) : Blind (Device.reopenLock · p) := by
  intro d u
  simp only [Device.reopenLock, port_withLink]
  split <;> first | rfl | exact modPort_withLink _ _ _ _

theorem blind_expirePool (p : Port) (w : Slot16) (r : Request) (epoch : Word) : Blind (Device.expirePool · p w r epoch) := by
  intro d u
  unfold Device.expirePool
  simp only [port_withLink]
  split
  · exact (congrArg (Device.reopenLock · p) (blind_answerExpired p (((d.leavePool p).setFlag .pool).offer _) u)).trans
      (blind_reopenLock p _ u)
  · exact (congrArg (Device.reopenLock · p) (blind_answerExpired p ((d.leavePool p).setFlag .pool) u)).trans
      (blind_reopenLock p _ u)

theorem blind_withdraw (w : Slot16) : Blind (Device.withdraw · w) := by
  intro d u
  unfold Device.withdraw
  beta_reduce
  rw [show (d.withLink u).poolWait = d.poolWait from rfl]
  split
  · rfl
  · rw [port_withLink]
    split
    · exact blind_expirePool _ _ _ _ d u
    · rfl

theorem blind_disableSlot (w : Slot16) : Blind (Device.disableSlot · w) := by
  intro d u
  unfold Device.disableSlot
  beta_reduce
  rw [show (d.withLink u).win w = d.win w from rfl, show (d.withLink u).rt w = d.rt w from rfl]
  split
  · rfl
  · split
    · rfl
    · simp only [Device.disableWindow, blind_withdraw w d u]
      rfl

theorem blind_rearm (w : Slot16) : Blind (Device.rearm · w) := by
  intro d u
  unfold Device.rearm Device.restartWatchdog
  beta_reduce
  rw [show ∀ f, (((d.withLink u).modRt w f).win w).desc = ((d.modRt w f).win w).desc from fun _ => rfl]
  split <;> rfl

theorem producerLockOn_withLink (d : Device) (u : Link) (w : Slot16) : (d.withLink u).producerLockOn w = d.producerLockOn w := by
  unfold Device.producerLockOn
  rw [show (d.withLink u).win w = d.win w from rfl]
  split
  · rfl
  · rw [port_withLink]

theorem decideCommit_withLink (d : Device) (u : Link) (w : Slot16) : (d.withLink u).decideCommit w = d.decideCommit w := by
  unfold Device.decideCommit
  rw [producerLockOn_withLink]
  rfl

theorem blind_commitEvent (w : Slot16) : Blind (Device.commitEvent · w) := by
  intro d u
  simp only [Device.commitEvent, decideCommit_withLink]
  cases d.decideCommit w <;> rfl

theorem answers_whenReady {f : Device → Device} (h : Answers f) : Answers (Device.whenReady · f) := by
  intro d u
  simp only [Device.whenReady, h d u]
  rfl

theorem answers_whenOpaque {f : Device → Device} (h : Answers f) : Answers (Device.whenOpaque · f) := by
  intro d u
  simp only [Device.whenOpaque, h d u]
  rfl

theorem answers_requireState {f : Device → Device} (h : Answers f) (ok : Bool) : Answers (Device.requireState · ok f) := by
  intro d u
  simp only [Device.requireState, h d u]
  rfl

theorem answers_requireArg {f : Device → Device} (h : Answers f) (ok : Bool) : Answers (Device.requireArg · ok f) := by
  intro d u
  simp only [Device.requireArg, h d u]
  rfl

theorem answers_onDefined {f : Device → Slot16 → Descriptor → Device} (h : ∀ w ds, Answers fun d => f d w ds) (b : Byte) :
    Answers fun d => d.onDefined b (f d) := by
  intro d u
  simp only [Device.onDefined]
  split
  · rfl
  · rename_i w _
    rw [show (d.withLink u).win w = d.win w from rfl]
    split
    · rfl
    · exact h _ _ d u

/-- An answer that follows a blind operation. -/
theorem answers_done {f : Device → Device} (h : Blind f) (data : List Byte) : Answers fun d => (f d).done data := by
  intro d u
  simp only [h d u]
  rfl

/-- A management command does the same wherever the management link unit stands. -/
theorem exec_withLink (c : Instr) (s : State) (u : Link) (h : Settled s.dev) (hp : s.dev.startup.pwrRst = false)
    (hc : managementCommand c = true) : exec c { s with dev := s.dev.withLink u } = exec c s := by
  have h' : Settled (s.dev.withLink u) := h
  have key : ∀ f, Answers f → (s.dev.withLink u).command f = s.dev.command f := by
    intro f hf
    rw [command_of_settled h hp, command_of_settled h' (by exact hp)]
    exact hf _ _
  have next : ∀ f, Answers f → (.next ({ s with dev := s.dev.withLink u }.onDevice fun d => d.command f) :
      Host.Outcome State Fault Refusal) = .next (s.onDevice fun d => d.command f) := by
    intro f hf
    simp only [State.onDevice, key f hf]
  have managed : ∀ f, Answers f → (.next ({ s with dev := s.dev.withLink u }.onDevice fun d => d.managed f) :
      Host.Outcome State Fault Refusal) = .next (s.onDevice fun d => d.managed f) :=
    fun f hf => next _ (answers_whenReady hf)
  have window : ∀ f, Answers f → (.next ({ s with dev := s.dev.withLink u }.onDevice fun d => d.managedWindow f) :
      Host.Outcome State Fault Refusal) = .next (s.onDevice fun d => d.managedWindow f) :=
    fun f hf => managed _ (answers_whenOpaque hf)
  cases c
  case readId => exact next _ fun _ _ => rfl
  case readStatus => exact next _ fun _ _ => rfl
  case readFlags => exact managed _ fun _ _ => rfl
  case clearFlags mask => exact managed _ fun _ _ => rfl
  case setEnable mask value => exact managed _ (answers_requireArg (fun _ _ => rfl) _)
  case setLevel mask level => exact managed _ (answers_requireArg (fun _ _ => rfl) _)
  case setThreshold value => exact managed _ (answers_requireArg (fun _ _ => rfl) _)
  case readLog =>
    refine managed _ fun d v => ?_
    unfold Device.takeOldest
    rw [show (d.withLink v).fault = d.fault from rfl]
    split <;> rfl
  case readWindow index =>
    refine managed _ fun d v => ?_
    split <;> rfl
  case enable index =>
    exact window _ (answers_onDefined (fun w ds d v => answers_requireState (fun _ _ => rfl) _ d v) _)
  case disable index =>
    refine window _ fun d v => ?_
    split
    · rfl
    · exact answers_done (blind_disableSlot _) _ d v
  case pause index =>
    exact window _ (answers_onDefined (fun w ds d v => answers_requireState (fun _ _ => rfl) _ d v) _)
  case resume index =>
    exact window _ (answers_onDefined (fun w ds d v => answers_requireState (fun _ _ => rfl) _ d v) _)
  case rearm index =>
    exact window _ (answers_onDefined (fun w ds d v => answers_requireState (answers_done (blind_rearm w) _) _ d v) _)
  case selectSource index source =>
    refine window _ (answers_onDefined (fun w ds d v => ?_) _)
    dsimp only
    unfold Device.trySelect
    split
    · rfl
    · rename_i x _
      rw [show (d.withLink v).sourceAvailable x = d.sourceAvailable x from rfl]
      exact answers_requireState (fun _ _ => rfl) _ d v
  case commitNow index =>
    refine window _ (answers_onDefined (fun w ds d v => ?_) _)
    dsimp only
    rw [decideCommit_withLink]
    exact answers_done (blind_commitEvent w) _ d v
  case timerStart period => exact managed _ fun _ _ => rfl
  case timerStop period => exact managed _ fun d v => answers_requireState (fun _ _ => rfl) _ d v
  case timerPeriod period => exact managed _ (answers_requireArg (fun _ _ => rfl) _)
  case readSources => exact managed _ fun _ _ => rfl
  case readPorts => exact managed _ fun _ _ => rfl
  case readResetCause => exact managed _ fun _ _ => rfl
  case softResetDatapath => exact managed _ fun _ _ => rfl
  case softResetFull => exact managed _ fun _ _ => rfl
  case unknownCommand f =>
    cases f
    case command code => exact next (·.respond .unknownCommand []) fun _ _ => rfl
    case windowCtrl w a => exact window (·.respond .refusedArgument []) fun _ _ => rfl
    case timer a p => exact managed (·.respond .refusedArgument []) fun _ _ => rfl
    case softReset t => exact managed (·.respond .refusedArgument []) fun _ _ => rfl
    case edge e => exact absurd hc Bool.false_ne_true
  all_goals exact absurd hc Bool.false_ne_true

/-! ## The edges -/

/-- One edge after what the edges before it have answered. -/
def frameStep (o : Host.Outcome State Fault Refusal) (e : LinkEdge) : Host.Outcome State Fault Refusal :=
  match o with
  | .next t => exec (.unknownCommand (.edge e)) t
  | stop => stop

/-- The eight rising edges of a byte, most significant bit first (R174). -/
def byteEdges (x : Byte) : List LinkEdge := (List.range 8).map fun n => LinkEdge.rise (x.getLsbD (7 - n))

theorem byteOfBits_bits (x : Byte) :
    byteOfBits [x.getLsbD 7, x.getLsbD 6, x.getLsbD 5, x.getLsbD 4, x.getLsbD 3, x.getLsbD 2, x.getLsbD 1, x.getLsbD 0] = x := by
  revert x
  decide

/-- Bits come in until seven stand. -/
theorem foldl_rises (s : State) (h : Settled s.dev) (hp : s.dev.startup.pwrRst = false) (bs : List Bool) (u : Link)
    (hu : u.phase = .command ∨ u.phase = .argument) (hb : u.bits.length + bs.length ≤ 7) :
    (bs.map LinkEdge.rise).foldl frameStep (.next { s with dev := s.dev.withLink u }) =
      .next { s with dev := s.dev.withLink { u with bits := u.bits ++ bs } } := by
  induction bs generalizing u with
  | nil => simp
  | cons b bs ih =>
    rw [List.length_cons] at hb
    have hn : (s.dev.withLink u).frameTaken (.rise b) = none := by
      rw [Device.frameTaken, if_neg (by simp [Device.withLink, hp])]
      exact if_neg (by simp only [Device.withLink]; omega)
    have he : (s.dev.withLink u).linkEdge (.rise b) = s.dev.withLink { u with bits := u.bits ++ [b] } := by
      have hr : u.rise b = { u with bits := u.bits ++ [b] } := by
        rcases hu with hu | hu <;> simp only [Link.rise, hu, Link.sample] <;> exact if_pos (by omega)
      simp only [Device.linkEdge, Device.withLink, hp, Link.edge, hr, Bool.false_eq_true, if_false]
    rw [List.map_cons, List.foldl_cons]
    have hs : frameStep (.next { s with dev := s.dev.withLink u }) (.rise b) =
        .next { s with dev := s.dev.withLink { u with bits := u.bits ++ [b] } } := by
      rw [← he]
      exact exec_edge { s with dev := s.dev.withLink u } _ h hn
    rw [hs, ih { u with bits := u.bits ++ [b] } hu (by simp; omega)]
    simp

/-- The edges of a byte: the command is taken at the eighth, if the bytes received spell one; else the byte is kept (R174). -/
theorem foldl_byteEdges (s : State) (h : Settled s.dev) (hp : s.dev.startup.pwrRst = false) (x : Byte) (u : Link)
    (hu : u.phase = .command ∨ u.phase = .argument) (hb : u.bits = []) :
    (byteEdges x).foldl frameStep (.next { s with dev := s.dev.withLink u }) =
      match decodeFrame (u.received ++ [x]) with
      | some c => exec c s
      | none => .next { s with
          dev := s.dev.withLink { u with phase := .argument, received := u.received ++ [x], bits := [] } } := by
  have hx : byteEdges x = [x.getLsbD 7, x.getLsbD 6, x.getLsbD 5, x.getLsbD 4, x.getLsbD 3, x.getLsbD 2, x.getLsbD 1].map
      LinkEdge.rise ++ [LinkEdge.rise (x.getLsbD 0)] := rfl
  rw [hx, List.foldl_append, foldl_rises s h hp _ u hu (by simp [hb]), hb]
  obtain ⟨v, hv⟩ : ∃ v : Link, v = { u with bits := [] ++ [x.getLsbD 7, x.getLsbD 6, x.getLsbD 5, x.getLsbD 4, x.getLsbD 3,
    x.getLsbD 2, x.getLsbD 1] } := ⟨_, rfl⟩
  rw [← hv]
  have hv1 : v.phase = .command ∨ v.phase = .argument := by rw [hv]; exact hu
  have hv2 : v.bits ++ [x.getLsbD 0] =
      [x.getLsbD 7, x.getLsbD 6, x.getLsbD 5, x.getLsbD 4, x.getLsbD 3, x.getLsbD 2, x.getLsbD 1, x.getLsbD 0] := by
    rw [hv]; rfl
  have hv3 : v.received = u.received := by rw [hv]
  have hv4 : v.bits.length = 7 := by rw [hv]; rfl
  have hf : (s.dev.withLink v).frameTaken (.rise (x.getLsbD 0)) = decodeFrame (u.received ++ [x]) := by
    rw [Device.frameTaken, if_neg (by simp [Device.withLink, hp])]
    have : (s.dev.withLink v).link = v := rfl
    rw [this, Link.completes, if_pos ⟨hv1, by omega⟩, hv2, byteOfBits_bits, hv3]
  rw [List.foldl_cons, List.foldl_nil]
  cases hd : decodeFrame (u.received ++ [x]) with
  | some c =>
    refine (exec_edge_taken { s with dev := s.dev.withLink v } _ c h (hf.trans hd)).trans ?_
    exact exec_withLink c s v h hp (managementCommand_of_decodeFrame hd)
  | none =>
    refine (exec_edge { s with dev := s.dev.withLink v } _ h (hf.trans hd)).trans ?_
    have hr : v.rise (x.getLsbD 0) = { u with phase := .argument, received := u.received ++ [x], bits := [] } := by
      have hsm : v.sample (x.getLsbD 0) = { u with phase := .argument, received := u.received ++ [x], bits := [] } := by
        rw [Link.sample, if_neg (by omega), hv2, byteOfBits_bits, hv]
      rcases hv1 with hv1 | hv1 <;> simp only [Link.rise, hv1, hsm]
    simp only [Device.linkEdge, Device.withLink, hp, Link.edge, hr, Bool.false_eq_true, if_false]

/-- The edges of bytes that spell a command with the last of them, and none before. -/
theorem foldl_bytesEdges (s : State) (i : Instr) (h : Settled s.dev) (hp : s.dev.startup.pwrRst = false) (bytes : List Byte)
    (u : Link) (hu : u.phase = .command ∨ u.phase = .argument) (hb : u.bits = []) (hne : bytes ≠ [])
    (hk : ∀ k, 0 < k → k < bytes.length → decodeFrame (u.received ++ bytes.take k) = none)
    (hi : decodeFrame (u.received ++ bytes) = some i) :
    (bytes.flatMap byteEdges).foldl frameStep (.next { s with dev := s.dev.withLink u }) = exec i s := by
  induction bytes generalizing u with
  | nil => exact absurd rfl hne
  | cons x bytes ih =>
    rw [List.flatMap_cons, List.foldl_append, foldl_byteEdges s h hp x u hu hb]
    cases bytes with
    | nil => rw [hi]; rfl
    | cons y ys =>
      rw [show decodeFrame (u.received ++ [x]) = none from hk 1 (by omega) (by simp)]
      refine ih _ (Or.inr rfl) rfl (by simp) (fun k h0 h1 => ?_) (by simpa using hi)
      have := hk (k + 1) (by omega) (by simpa using h1)
      simpa using this

/-- A whole frame: MSEL is deasserted, asserted, and the bits of its bytes come in (R174). -/
theorem frame_edges (s : State) (i : Instr) (bytes : List Byte) (h : Settled s.dev) (hp : s.dev.startup.pwrRst = false)
    (hne : bytes ≠ []) (hk : ∀ k, 0 < k → k < bytes.length → decodeFrame (bytes.take k) = none) (hi : decodeFrame bytes = some i) :
    (LinkEdge.select :: bytes.flatMap byteEdges).foldl frameStep (exec .frameAbort s) = exec i s := by
  rw [exec_frameAbort s h, List.foldl_cons]
  have hs : frameStep (.next { s with dev := s.dev.abortFrame }) .select =
      .next { s with dev := s.dev.withLink { Link.idle true with phase := .command } } := by
    refine (exec_edge { s with dev := s.dev.abortFrame } _ h ?_).trans ?_
    · rw [Device.frameTaken, if_neg (by simp [Device.abortFrame, hp])]
      rfl
    · simp only [Device.linkEdge, Device.abortFrame, hp, Bool.false_eq_true, if_false]
      rfl
  rw [hs]
  exact foldl_bytesEdges s i h hp bytes _ (Or.inl rfl) rfl hne hk hi

end Sys2Proof.Machine
end

