-- ==== Sys2Proof/Laws/Image.lean ====
section
/-! SUPPORT. The readings and the checks of the configuration image in the terms of its words (R5, R181 and the layout tables of
10). -/

namespace Sys2Proof.Machine

/-- A field of a word as a part of its value. -/
theorem field_eq (x : Word) (low width : Nat) : field x low width = x.toNat / 2 ^ low % 2 ^ width := by
  simp only [field, BitVec.extractLsb'_toNat, Nat.shiftRight_eq_div_pow]

/-- A bit of a word as a part of its value. -/
theorem getLsbD_iff (x : Word) (n : Nat) : x.getLsbD n = true ↔ x.toNat / 2 ^ n % 2 ^ 1 = 1 := by
  rw [BitVec.getLsbD, Nat.testBit_eq_decide_div_mod_eq, decide_eq_true_iff, Nat.pow_one]

/-- A word of a slot is a word of the image (R1). -/
theorem imageWord_slotWords (ws : List Word) (w i : Nat) (hi : i < 8) :
    imageWord (slotWords ws w) i = imageWord ws (17 + 8 * w + i) := by
  simp only [imageWord, slotWords, List.getD_eq_getElem?_getD, List.getElem?_take, hi, if_true, List.getElem?_drop]

/-! ## The CRC -/

/-- A word's four bytes, each most significant bit first, are its bits from bit 31 down (R181). -/
theorem crcWord_bits (x : Word) (c : BitVec 16) :
    (beBytes 4 x.toNat).foldl crcByte c = ((List.range 32).map fun i => x.getLsbD (31 - i)).foldl crcBit c := by
  have hb : ∀ n i, (BitVec.ofNat 8 (x.toNat >>> n)).getLsbD i = (decide (i < 8) && x.getLsbD (n + i)) := fun n i => by
    rw [BitVec.getLsbD_ofNat, Nat.testBit_shiftRight, BitVec.getLsbD]
  simp only [beBytes, List.foldl_cons, List.foldl_nil, crcByte, hb]
  rfl

/-- The CRC runs over the bits of the words, bit 31 of each first (R181). -/
theorem crcWords_bits (ws : List Word) :
    crcWords ws = (ws.flatMap fun x => (List.range 32).map fun i => x.getLsbD (31 - i)).foldl crcBit 0xFFFF#16 := by
  unfold crcWords
  generalize 0xFFFF#16 = c
  induction ws generalizing c with
  | nil => rfl
  | cons x ws ih => rw [List.foldl_cons, ih, List.flatMap_cons, List.foldl_append, crcWord_bits]

/-! ## Totals and ranges -/

/-- The safe-image words of a slot. -/
theorem safeTotal_eq_sum (ws : List Word) :
    safeTotal (readSlots ws) = ((List.range 16).map fun w =>
      match readSlot ws w with | some ds => ds.safeCount | none => 0).sum := by
  rw [safeTotal, readSlots, List.foldl_map, List.sum_eq_foldl]
  exact List.foldl_map.symm

theorem disjoint_iff (a la b lb : Nat) : disjoint a la b lb = true ↔ a + la ≤ b ∨ b + lb ≤ a := by
  simp [disjoint]

theorem clearOf_iff (base length : Nat) (slots : List (Option Descriptor)) :
    clearOf base length slots = true ↔
      ∀ ds, some ds ∈ slots → base + length ≤ ds.base ∨ ds.base + 4 * ds.length ≤ base := by
  rw [clearOf, List.all_eq_true]
  constructor
  · intro h ds hd
    exact (disjoint_iff _ _ _ _).1 (h _ hd)
  · intro h s hs
    cases s with
    | none => rfl
    | some ds => exact (disjoint_iff _ _ _ _).2 (h ds hs)

/-- Slots share no byte: each defined one with no later one (R5). -/
theorem windowsDisjoint_iff (slots : List (Option Descriptor)) :
    windowsDisjoint slots = true ↔
      slots.Pairwise fun x y => ∀ a b, x = some a → y = some b →
        a.base + 4 * a.length ≤ b.base ∨ b.base + 4 * b.length ≤ a.base := by
  induction slots with
  | nil => simp [windowsDisjoint]
  | cons s rest ih =>
    rw [List.pairwise_cons, ← ih]
    cases s with
    | none => simp [windowsDisjoint]
    | some ds =>
      rw [windowsDisjoint, Bool.and_eq_true, clearOf_iff]
      refine and_congr_left fun _ => ⟨fun h y hy a b ha hb => ?_, fun h b hb => h _ hb ds b rfl rfl⟩
      cases ha
      exact h b (hb ▸ hy)

end Sys2Proof.Machine
end

