-- ==== Sys2Proof/Laws/Kept.lean ====
section
/-! SUPPORT. What every operation of the part keeps: the fault log's numbering, the bounds of the buffers, one item for each
window, the rotation order, and the effective sources. One lemma for each operation, for chains of operations. -/

namespace Sys2Proof.Machine

-- One proof at a time: side by side, many of these would wait for one another.
set_option Elab.async false

/-- The kept properties of one state hold in another if they held in the first. -/
structure Keeps (d t : Device) : Prop where
  log : LogKept d → LogKept t
  queues : QueuesKept d → QueuesKept t
  store : StoreKept d → StoreKept t
  items : ItemsKept d → ItemsKept t
  rotation : RotationKept d → RotationKept t
  sources : SourcesKept d → SourcesKept t

namespace Keeps

variable {a d t : Device}

theorem refl (d : Device) : Keeps d d := ⟨id, id, id, id, id, id⟩

theorem trans (h : Keeps a d) (g : Keeps d t) : Keeps a t :=
  ⟨g.log ∘ h.log, g.queues ∘ h.queues, g.store ∘ h.store, g.items ∘ h.items, g.rotation ∘ h.rotation, g.sources ∘ h.sources⟩

/-- What the kept properties read of the part. -/
def view (d : Device) :=
  (d.fault.log, d.fault.nextSequence, d.portA.queue, d.portB.queue, d.entries, d.commitQueue.map Item.window, d.mem.rotation,
    d.windows, d.monitors)

/-- A change of nothing that the kept properties read. -/
theorem same (h : Keeps a d) (e : view t = view d := by rfl) : Keeps a t := by
  refine h.trans ?_
  simp only [view, Prod.mk.injEq] at e
  obtain ⟨e1, e2, e3, e4, e5, e6, e7, e8, e9⟩ := e
  refine ⟨?_, ?_, ?_, ?_, ?_, ?_⟩
  · intro h; unfold LogKept; rw [e1, e2]; exact h
  · intro h; unfold QueuesKept; rw [e3, e4]; exact h
  · intro h; unfold StoreKept; rw [e5]; exact h
  · intro h; unfold ItemsKept; rw [e6]; exact h
  · intro h; unfold RotationKept; rw [e7]; exact h
  · intro h; unfold SourcesKept Device.rt Device.win; rw [e8, e9]; exact h

/-! ## The log -/

theorem sequenceAfter_ne_zero (n : BitVec 16) : sequenceAfter n ≠ 0 := by
  unfold sequenceAfter
  split
  · decide
  · rename_i h1
    intro h0
    apply h1
    exact eq_neg_of_add_eq_zero_left h0

theorem numbered_append (l : List FaultRecord) (n : BitVec 16) (x : FaultRecord) (h : numbered l n = true) (hx : x.sequence = n) :
    numbered (l ++ [x]) (sequenceAfter n) = true := by
  induction l with
  | nil => simp [numbered, hx]
  | cons y l ih =>
    cases l with
    | nil => simp only [numbered, beq_iff_eq] at h; simp [numbered, hx, h]
    | cons z l =>
      simp only [numbered, List.cons_append, Bool.and_eq_true] at h ⊢
      exact ⟨h.1, ih h.2⟩

theorem numbered_tail (x : FaultRecord) (l : List FaultRecord) (n : BitVec 16) (h : numbered (x :: l) n = true) :
    numbered l n = true := by
  cases l with
  | nil => rfl
  | cons y l => simp only [numbered, Bool.and_eq_true] at h; exact h.2

theorem offer (h : Keeps a d) (r : Report) : Keeps a (d.offer r) := by
  refine h.trans ⟨?_, id, id, id, id, id⟩
  rintro ⟨h1, h2, h3⟩
  unfold LogKept Device.offer FaultUnit.offer
  split
  · rename_i hl
    exact ⟨by simp; omega, numbered_append _ _ _ h2 rfl, sequenceAfter_ne_zero _⟩
  · exact ⟨h1, h2, h3⟩

theorem setFlag (h : Keeps a d) (f : Flag) : Keeps a (d.setFlag f) := h.same

theorem raise (h : Keeps a d) (f : Flag) (r : Report) : Keeps a (d.raise f r) := (h.setFlag f).offer r

/-! ## Accessors and answers -/

/-- A change of a runtime record but for its sources. -/
theorem modRt (h : Keeps a d) (w : Slot16) (f : Runtime → Runtime)
    (hf : ∀ r, (f r).selected = r.selected ∧ (f r).effective = r.effective := by exact fun _ => ⟨rfl, rfl⟩) :
    Keeps a (d.modRt w f) := by
  refine h.trans ⟨id, id, id, id, id, ?_⟩
  intro hs v ds hd
  rw [Device.desc_modRt] at hd
  have := hs v ds hd
  by_cases hv : v = w
  · subst hv; rw [Device.rt_modRt_self, (hf _).1, (hf _).2]; exact this
  · rw [Device.rt_modRt, if_neg hv]; exact this

theorem modCounters (h : Keeps a d) (w : Slot16) (f : WindowCounters → WindowCounters) : Keeps a (d.modCounters w f) :=
  h.modRt w _

/-- A change of a port unit that does not lengthen its queue beyond its four slots. -/
theorem modPortQueue (h : Keeps a d) (p : Port) (f : PortUnit → PortUnit)
    (hf : (d.port p).queue.length ≤ 4 → (f (d.port p)).queue.length ≤ 4) : Keeps a (d.modPort p f) := by
  refine h.trans ?_
  cases p
  · exact ⟨id, fun hq => ⟨hf hq.1, hq.2⟩, id, id, id, id⟩
  · exact ⟨id, fun hq => ⟨hq.1, hf hq.2⟩, id, id, id, id⟩

/-- A change of a port unit that leaves its queue. -/
theorem modPort (h : Keeps a d) (p : Port) (f : PortUnit → PortUnit)
    (hf : ∀ u, (f u).queue = u.queue := by exact fun _ => rfl) : Keeps a (d.modPort p f) :=
  h.modPortQueue p f (by rw [hf]; exact id)

theorem answer (h : Keeps a d) (p : Port) (r : Response) (ws : List Word) : Keeps a (d.answer p r ws) := h.modPort p _

theorem countRefusal (h : Keeps a d) (p : Port) : Keeps a (d.countRefusal p) := h.modPort p _

theorem answerExpired (h : Keeps a d) (p : Port) : Keeps a (d.answerExpired p) := by
  unfold Device.answerExpired
  split
  · exact (h.modPort p _).answer p _ _
  · exact (h.modPort p _).answer p _ _

theorem setLock (h : Keeps a d) (p : Port) (l : LockRecord) : Keeps a (d.setLock p l) := h.modPort p _

theorem setPhase (h : Keeps a d) (p : Port) (x : Phase) : Keeps a (d.setPhase p x) := h.modPort p _

theorem hold (h : Keeps a d) (p : Port) (c : HoldCause) : Keeps a (d.hold p c) := (h.modPort p _).setPhase p _

theorem release (h : Keeps a d) (p : Port) : Keeps a (d.release p) := (h.modPort p _).setPhase p _

theorem begin (h : Keeps a d) (p : Port) (r : Request) (c : Class) (ph : Phase) (b : Bool) : Keeps a (d.begin p r c ph b) :=
  h.modPort p _

theorem dropIf (h : Keeps a d) (f : Owner → Bool) : Keeps a (d.dropIf f) := h.same

theorem releaseExclusive (h : Keeps a d) (p : Port) : Keeps a (d.releaseExclusive p) := by
  unfold Device.releaseExclusive; split
  · exact h.same
  · exact h

theorem respond (h : Keeps a d) (x : Status) (data : List Byte) : Keeps a (d.respond x data) := h.same

/-! ## Time -/

theorem advance (h : Keeps a d) (n : Nat) : Keeps a (d.advance n) := by
  refine h.trans ⟨id, id, id, id, id, ?_⟩
  intro hs w ds hd
  have hd' : (d.win w).desc = some ds := by rw [← hd]; simp [Device.advance, Device.win, Window.elapse]
  have := hs w ds hd'
  have e : (d.advance n).rt w = { d.rt w with watchdog := ((d.advance n).rt w).watchdog } := by
    simp [Device.advance, Device.rt, Device.win, Window.elapse]
  rw [e]
  simp only [this]
  unfold tableSource
  cases (d.rt w).selected <;> cases ds.fallback <;> rfl

theorem elapseUpTo (h : Keeps a d) (n : Nat) : Keeps a (d.elapseUpTo n) := by
  unfold Device.elapseUpTo
  simp only []
  split
  · exact h
  · exact h.advance _

theorem reached (h : Keeps a d) (n : Nat) : Keeps a (d.reached n) := by
  unfold Device.reached
  split
  · exact h
  · exact h.advance _

/-! ## Effective sources (R102) -/

theorem effective_eq (m : Monitors) (x : Source) (f : Fallback) : m.effective x f = tableSource m x f := by
  rcases m with ⟨⟨a, _, _, _, _⟩, ⟨b, _, _, _, _⟩, ⟨c, _, _, _, _⟩, ⟨e, _, _, _, _⟩⟩
  cases x <;> cases f <;> first | rfl | (cases a <;> rfl) | (cases b <;> rfl) | (cases c <;> rfl) | (cases e <;> rfl)

/-- A window whose sources change and whose effective source is computed afresh. -/
theorem refreshed (h : Keeps a d) (w : Slot16) (f : Runtime → Runtime) : Keeps a ((d.modRt w f).refreshWindow w) := by
  refine h.trans ⟨id, id, id, id, id, ?_⟩
  intro hs v ds hd
  by_cases hv : v = w
  · subst hv
    have hd' : (d.win v).desc = some ds := by
      rw [← hd]; simp [Device.refreshWindow, Device.modRt, Device.modWin, Device.win, Window.refresh]
      split <;> simp_all
    have hd2 : d.windows[v.val].desc = some ds := hd'
    simp only [Device.refreshWindow, Device.rt, Device.win, Device.modWin, Device.modRt, Window.refresh]
    simp [hd2, effective_eq]
  · have e : ((d.modRt w f).refreshWindow w).win v = d.win v := by
      have hvw : w.val ≠ v.val := fun x => hv (Fin.ext x.symm)
      simp [Device.refreshWindow, Device.modRt, Device.modWin, Device.win, hvw]
    have := hs v ds (by rw [← e]; exact hd)
    simp only [Device.rt, e]; exact this

/-- Whether each monitor is PRESENT is all that R102's table reads of the monitors. -/
theorem tableSource_congr (m n : Monitors) (x : Source) (f : Fallback)
    (h : ∀ y, x = strobeSource y → ((m.get y).state = .present ↔ (n.get y).state = .present)) :
    tableSource m x f = tableSource n x f := by
  cases x <;> cases f <;> simp only [tableSource]
  · have := h .tsa rfl; simp only [Monitors.get] at this; simp only [this]
  · have := h .tsb rfl; simp only [Monitors.get] at this; simp only [this]
  · have := h .fms rfl; simp only [Monitors.get] at this; simp only [this]
  · have := h .fme rfl; simp only [Monitors.get] at this; simp only [this]

/-- A change of one monitor that does not change whether it is PRESENT. -/
theorem setMonitor (h : Keeps a d) (x : Strobe) (v : Monitor)
    (hp : v.state = .present ↔ (d.monitors.get x).state = .present) : Keeps a (d.setMonitor x v) := by
  refine h.trans ⟨id, id, id, id, id, ?_⟩
  intro hs w ds hd
  have := hs w ds hd
  rw [show (d.setMonitor x v).rt w = d.rt w from rfl, this]
  apply tableSource_congr
  intro y _
  cases x <;> cases y <;> first | exact Iff.rfl | exact hp.symm

/-- A change of one monitor, with the windows that select its source computed afresh. -/
theorem setMonitorRefreshed (h : Keeps a d) (x : Strobe) (v : Monitor) :
    Keeps a ((d.setMonitor x v).refreshSource (strobeSource x)) := by
  refine h.trans ⟨id, id, id, id, id, ?_⟩
  intro hs w ds hd
  have e : ((d.setMonitor x v).refreshSource (strobeSource x)).win w =
      if (d.win w).rt.selected = strobeSource x then (d.win w).refresh (d.monitors.set x v) else d.win w := by
    simp [Device.refreshSource, Device.modWins, Device.win, Device.setMonitor]
    rfl
  rw [e] at hd
  simp only [Device.rt, e]
  show _ = tableSource (d.monitors.set x v) _ _
  by_cases hx : (d.win w).rt.selected = strobeSource x
  · simp only [hx, if_true] at hd ⊢
    have hd' : (d.win w).desc = some ds := by
      rw [← hd]; unfold Window.refresh; split <;> simp_all
    simp only [Window.refresh, hd', effective_eq]
  · simp only [hx, if_false] at hd ⊢
    have := hs w ds hd
    rw [show (d.win w).rt = d.rt w from rfl, this]
    apply tableSource_congr
    intro y hy
    have : y ≠ x := fun e => hx (by rw [← e]; exact hy)
    cases x <;> cases y <;> first | exact Iff.rfl | exact absurd rfl this

/-- Every slot in its start state against the monitors in force, or as it was (R25, R26). -/
theorem restart_sources (m : Monitors) (x : Window) (ds : Descriptor) (h : (x.restart m).desc = some ds) :
    (x.restart m).rt.effective = tableSource m (x.restart m).rt.selected ds.fallback := by
  unfold Window.restart at h ⊢
  split at h
  · rename_i e he
    simp only [Window.refresh, he] at h ⊢
    have : e = ds := by simpa using h
    subst this
    simp only [effective_eq]
  · simp [Window.empty] at h

end Keeps

end Sys2Proof.Machine
end

