-- ==== Sys2Proof/Laws/KeptEngine.lean ====
section
/-! SUPPORT. What the operations of the commit engine and of the staging store keep. -/

namespace Sys2Proof.Machine.Keeps

-- One proof at a time: side by side, many of these would wait for one another.
set_option Elab.async false

variable {a d t : Device}

/-! ## Entries -/

/-- Entries that are not more than before. -/
theorem entries (h : Keeps a d) (es : List Entry) (hl : d.entries.length ≤ 256 → es.length ≤ 256) :
    Keeps a { d with entries := es } := by
  refine h.trans ⟨id, id, hl, id, id, id⟩

theorem filterEntries (h : Keeps a d) (f : Entry → Bool) : Keeps a { d with entries := d.entries.filter f } :=
  h.entries _ fun hl => (List.length_filter_le _ _).trans hl

theorem swapEpoch (h : Keeps a d) (w : Slot16) : Keeps a (d.swapEpoch w) :=
  h.entries _ fun hl => by rw [List.length_map]; exact hl

theorem keepFirst_length (f : Entry → Bool) (es : List Entry) : (keepFirst f es).length ≤ es.length := by
  induction es with
  | nil => exact le_refl _
  | cons e es ih =>
    unfold keepFirst
    split
    · simp only [List.length_cons]
      exact Nat.succ_le_succ (List.length_filter_le _ _)
    · simp only [List.length_cons]
      exact Nat.succ_le_succ ih

theorem discardDraining (h : Keeps a d) (w : Slot16) : Keeps a (d.discardDraining w) := by
  unfold Device.discardDraining
  refine (h.entries _ fun hl => ?_).modCounters w _
  split
  · exact (keepFirst_length _ _).trans hl
  · exact (List.length_filter_le _ _).trans hl

/-! ## Items -/

/-- A queue of items that holds one for each window if the queue before it did. -/
theorem queue (h : Keeps a d) (q : List Item)
    (hq : (d.commitQueue.map Item.window).Nodup → (q.map Item.window).Nodup) : Keeps a { d with commitQueue := q } :=
  h.trans ⟨id, id, id, hq, id, id⟩

theorem join (h : Keeps a d) (w : Slot16) (k : ItemKind) (hn : d.itemOf w = none) : Keeps a (d.join w k) := by
  refine h.queue _ fun hq => ?_
  rw [List.map_append, List.nodup_append]
  refine ⟨hq, by simp, ?_⟩
  intro x hx y hy
  simp only [List.map_cons, List.map_nil, List.mem_singleton] at hy
  obtain ⟨it, hit, rfl⟩ := List.mem_map.1 hx
  have := List.find?_eq_none.1 hn it hit
  rw [hy]
  simpa using this

/-- A change of one item that leaves its window. -/
theorem modItem (h : Keeps a d) (w : Slot16) (f : Item → Item) (hf : ∀ it, (f it).window = it.window := by exact fun _ => rfl) :
    Keeps a (d.modItem w f) := by
  refine h.queue _ fun hq => ?_
  rw [List.map_map]
  have : (Item.window ∘ fun it => if it.window = w then f it else it) = Item.window := by
    funext it
    simp only [Function.comp]
    split
    · exact hf it
    · rfl
  rw [this]
  exact hq

theorem removeItem (h : Keeps a d) (w : Slot16) : Keeps a (d.removeItem w) :=
  h.queue _ fun hq => hq.sublist (List.filter_sublist.map _)

theorem modProgress (h : Keeps a d) (w : Slot16) (f : Progress → Progress) : Keeps a (d.modProgress w f) := h.modItem w _

theorem clearHold (h : Keeps a d) (w : Slot16) : Keeps a (d.clearHold w) := h.modRt w _

theorem itemOf_removeItem (d : Device) (w : Slot16) : (d.removeItem w).itemOf w = none := by
  simp only [Device.itemOf, Device.removeItem, List.find?_eq_none, List.mem_filter]
  intro x hx
  simpa using hx.2

/-! ## The commit rule (R60 to R69) -/

theorem countOverrun (h : Keeps a d) (w : Slot16) (k : OverrunDetail) : Keeps a (d.countOverrun w k) := (h.modRt w _).raise _ _

theorem countLate (h : Keeps a d) (w : Slot16) : Keeps a (d.countLate w) := (h.modRt w _).raise _ _

theorem commitEpoch (h : Keeps a d) (w : Slot16) (hn : d.itemOf w = none) : Keeps a (d.commitEpoch w) :=
  ((h.swapEpoch w).modRt w _).join w _ hn

theorem decideCommit_joins (d : Device) (w : Slot16) (h : d.decideCommit w = .safeJoins ∨ d.decideCommit w = .committed) :
    d.itemOf w = none := by
  unfold Device.decideCommit Device.decideTripped at h
  split at h
  · simp at h
  · split at h
    · simp at h
    · simp at h
    · split at h
      · split at h
        · rename_i hi; simpa using hi
        · simp at h
        · simp at h
      · simp at h
    · split at h
      · split at h <;> simp at h
      · split at h
        · simp at h
        · rename_i hi
          cases hx : d.itemOf w with
          | none => rfl
          | some x => simp [hx] at hi

theorem commitEvent (h : Keeps a d) (w : Slot16) : Keeps a (d.commitEvent w) := by
  have hj := decideCommit_joins d w
  unfold Device.commitEvent
  cases hd : d.decideCommit w <;> simp only [Device.applyDecision]
  · exact h
  · exact h.modCounters w _
  · exact (h.modRt w _).join w _ (hj (Or.inl hd))
  · exact h.modRt w _
  · exact h.modRt w _
  · exact h.countOverrun w _
  · exact h.countOverrun w _
  · exact h.countLate w
  · exact h.modCounters w _
  · exact h.commitEpoch w (hj (Or.inr hd))

/-- A fold of an operation over windows. -/
theorem foldl {f : Device → Slot16 → Device} (hf : ∀ {d : Device} (w : Slot16), Keeps a d → Keeps a (f d w)) (ws : List Slot16)
    (h : Keeps a d) : Keeps a (ws.foldl f d) := by
  induction ws generalizing d with
  | nil => exact h
  | cons w ws ih => exact ih (hf w h)

theorem deliver (h : Keeps a d) (x : Source) : Keeps a (d.deliver x) := foldl (fun w h => h.commitEvent w) _ h

theorem takeDeferred (h : Keeps a d) (word : Nat) : Keeps a (d.takeDeferred word) := by
  refine foldl (fun {d} w h => ?_) _ h
  unfold Device.takeDeferredOf
  split
  · exact h
  · split
    · exact (h.modRt w _).commitEvent w
    · exact h

theorem endLock (h : Keeps a d) (p : Port) (l : LockRecord) : Keeps a (d.endLock p l) := by
  unfold Device.endLock
  split
  · exact h.setLock p _
  · exact ((h.setLock p _).releaseExclusive p).takeDeferred _

/-! ## The items of the queue (R70 to R86) -/

theorem completeItem (h : Keeps a d) (w : Slot16) (k : ItemKind) : Keeps a (d.completeItem w k) := by
  cases k
  · unfold Device.completeItem Device.completeEpoch
    simp only []
    split
    · exact ((((h.clearHold w).modRt w _).setFlag _).removeItem w |>.modRt w _).join w _ (itemOf_removeItem _ w)
    · exact (((h.clearHold w).modRt w _).setFlag _).removeItem w
  · exact ((h.clearHold w).setFlag _).removeItem w

theorem enterStatus (h : Keeps a d) (w : Slot16) (k : ItemKind) (pr : Progress) : Keeps a (d.enterStatus w k pr) := by
  unfold Device.enterStatus
  split
  · exact (h.modItem w _).modRt w _
  · exact h.completeItem w k

theorem checkWritten (h : Keeps a d) (w : Slot16) : Keeps a (d.checkWritten w) := by
  unfold Device.checkWritten
  split
  · split
    · exact h.enterStatus w _ _
    · exact h
  · exact h

theorem startItem (h : Keeps a d) : Keeps a d.startItem := by
  unfold Device.startItem
  split
  · rename_i hq
    refine (h.queue _ fun hn => ?_).modRt _ _
    rw [hq] at hn
    exact hn
  · exact h

theorem setConsumerHold (h : Keeps a d) : Keeps a d.setConsumerHold := by
  unfold Device.setConsumerHold
  split
  · split
    · rename_i hq
      refine ((h.queue _ fun hn => ?_).modRt _ _).checkWritten _
      rw [hq] at hn
      exact hn
    · exact h
  · exact h

theorem raiseWrite (h : Keeps a d) (w : Slot16) (k : CommitWriteDetail) (n : Nat) (e : Word) : Keeps a (d.raiseWrite w k n e) :=
  h.raise _ _

theorem drainCompleted (h : Keeps a d) (w : Slot16) (n : Nat) (merr : Bool) : Keeps a (d.drainCompleted w n merr) := by
  unfold Device.drainCompleted
  have h1 : Keeps a (if merr then d.drainError w n else d) := by
    split
    · exact ((h.modCounters w _).modProgress w _).raiseWrite w _ _ _
    · exact h
  have h2 := (h1.entries ((if merr then d.drainError w n else d).entries.eraseP (·.isDraining w))
    fun hl => (List.eraseP_sublist.length_le).trans hl).modProgress w fun pr => { pr with written := pr.written + 1 }
  simp only []
  split
  · exact (h2.modRt w _).checkWritten w
  · exact h2.checkWritten w

theorem safeWordCompleted (h : Keeps a d) (w : Slot16) (n : Nat) (merr : Bool) : Keeps a (d.safeWordCompleted w n merr) := by
  unfold Device.safeWordCompleted
  simp only []
  split
  · exact (((h.modProgress w _).raiseWrite w _ _ _).modProgress w _).checkWritten w
  · exact (h.modProgress w _).checkWritten w

theorem statusWordCompleted (h : Keeps a d) (w : Slot16) (n : Nat) (merr : Bool) : Keeps a (d.statusWordCompleted w n merr) := by
  unfold Device.statusWordCompleted
  split
  · simp only []
    have h1 : ∀ e, Keeps a (if merr then d.raiseWrite w .statusWord n e else d) := by
      intro e
      split
      · exact h.raiseWrite w _ _ _
      · exact h
    split
    · exact (h1 _).modProgress w _
    · exact (h1 _).completeItem w _
  · exact h

theorem convertItem (h : Keeps a d) (w : Slot16) (p : Option Progress) : Keeps a (d.convertItem w p) :=
  ((h.discardDraining w).modItem w _).modRt w _

theorem immediateSafeLoad (h : Keeps a d) (w : Slot16) : Keeps a (d.immediateSafeLoad w) := by
  unfold Device.immediateSafeLoad
  simp only []
  split
  · rename_i hn; exact h.join w _ hn
  · exact h
  · exact h.convertItem w _
  · split
    · exact h.convertItem w _
    · unfold Device.continueAsSafe
      simp only []
      split
      · exact (h.discardDraining w).modItem w _
      · exact (((h.discardDraining w).modItem w _).modRt w _).checkWritten w
    · exact h.modRt w _

theorem discardAll (h : Keeps a d) (w : Slot16) : Keeps a (d.discardAll w) := h.filterEntries _

theorem cutItem (h : Keeps a d) (w : Slot16) : Keeps a (d.cutItem w) := (h.removeItem w).dropIf _

/-! ## The staging store (R32 to R55) -/

theorem hasOpen_stageBeat (w : Slot16) (k j : Nat) (b : Beat) (es : List Entry) (h : j ≠ k) :
    hasOpen w j (stageBeat w k b es) = hasOpen w j es := by
  unfold stageBeat
  split
  · unfold hasOpen
    rw [List.any_map]
    congr 1
    funext e
    simp only [Function.comp]
    split <;> rfl
  · unfold hasOpen
    rw [List.any_append]
    have : (k == j) = false := by simpa using h.symm
    simp [this]

theorem needOf_congr (w : Slot16) (bs : List Beat) (k : Nat) (es fs : List Entry)
    (h : ∀ j, k ≤ j → hasOpen w j es = hasOpen w j fs) : needOf w k bs es = needOf w k bs fs := by
  induction bs generalizing k with
  | nil => rfl
  | cons b bs ih =>
    simp only [needOf]
    rw [h k (le_refl _), ih (k + 1) fun j hj => h j (by omega)]

/-- Staging takes exactly the entries of the need (R33, R36). -/
theorem stageBeats_length (w : Slot16) (bs : List Beat) (k : Nat) (es : List Entry) :
    (stageBeats w k bs es).length = es.length + needOf w k bs es := by
  induction bs generalizing k es with
  | nil => rfl
  | cons b bs ih =>
    simp only [stageBeats, needOf]
    rw [ih, needOf_congr w bs (k + 1) _ es fun j hj => hasOpen_stageBeat w k j b es (by omega)]
    unfold stageBeat
    split
    · simp
    · simp; omega

theorem leavePool (h : Keeps a d) (p : Port) : Keeps a (d.leavePool p) := h.same

theorem restartWatchdog (h : Keeps a d) (w : Slot16) : Keeps a (d.restartWatchdog w) := by
  unfold Device.restartWatchdog
  split
  · exact h.modRt w _
  · exact h

theorem rearm (h : Keeps a d) (w : Slot16) : Keeps a (d.rearm w) := (h.modRt w _).restartWatchdog w

theorem stageWrite (h : Keeps a d) (p : Port) (w : Slot16) (r : Request)
    (hn : d.need w r = 0 ∨ d.need w r ≤ d.freeCount) : Keeps a (d.stageWrite p w r) := by
  have h1 : Keeps a ({ d with entries := stageBeats w (d.firstOffset w r) r.beats d.entries }.answer p .okay []) := by
    refine (h.entries _ fun hl => ?_).answer p _ _
    rw [stageBeats_length]
    unfold Device.need Device.freeCount at hn
    omega
  unfold Device.stageWrite
  simp only []
  have h2 : ∀ t, Keeps a t → Keeps a (if (d.rt w).state = .running then t.restartWatchdog w else t) := by
    intro t ht
    split
    · exact ht.restartWatchdog w
    · exact ht
  have h3 : ∀ t, Keeps a t → Keeps a (if d.coversClosing w r = true then t.modRt w fun x => { x with closeMark := true } else t) := by
    intro t ht
    split
    · exact ht.modRt w _
    · exact ht
  split
  · exact (h3 _ (h2 _ h1)).rearm w
  · exact h3 _ (h2 _ h1)

theorem acceptWrite (h : Keeps a d) (p : Port) (w : Slot16) (r : Request) (b : Bool)
    (hn : d.need w r = 0 ∨ d.need w r ≤ d.freeCount) : Keeps a (d.acceptWrite p w r b) := by
  have h1 := h.stageWrite p w r hn
  have h2 : Keeps a { d.stageWrite p w r with freeIndex := (d.stageWrite p w r).freeIndex + 1 } := h1.same
  unfold Device.acceptWrite
  simp only []
  split
  · exact h1
  · exact h1.commitEvent w
  · exact h1.endLock p _
  · split
    · exact (h2.commitEvent w).endLock p _
    · exact (h2.endLock p _).commitEvent w

theorem reopenLock (h : Keeps a d) (p : Port) : Keeps a (d.reopenLock p) := by
  unfold Device.reopenLock
  split
  · exact h.setLock p _
  all_goals exact h

theorem refuseQuota (h : Keeps a d) (p : Port) (w : Slot16) (r : Request) : Keeps a (d.refuseQuota p w r) :=
  ((((h.modCounters w _).raise _ _).countRefusal p).answer p _ _).reopenLock p

theorem storeWrite (h : Keeps a d) (p : Port) (w : Slot16) (r : Request) (b : Bool) : Keeps a (d.storeWrite p w r b) := by
  unfold Device.storeWrite
  simp only []
  split
  · exact h.refuseQuota p w r
  · split
    · rename_i hn
      exact h.acceptWrite p w r b (hn.imp id And.right)
    · exact (Keeps.begin (h.same (t := { d with poolWait := d.poolWait ++ [⟨p, w, d.need w r, none⟩] })) p r _ _ b).hold p _

theorem servePool (h : Keeps a d) : Keeps a d.servePool := by
  unfold Device.servePool
  split
  · exact h
  · split
    · simp only []
      split
      · rename_i hn
        refine Keeps.acceptWrite ?_ _ _ _ _ (Or.inr hn)
        exact h.same
      · split
        · exact h.same
        · exact h
    · exact h

theorem expirePool (h : Keeps a d) (p : Port) (w : Slot16) (r : Request) (e : Word) : Keeps a (d.expirePool p w r e) := by
  unfold Device.expirePool
  have h1 := (h.leavePool p).setFlag .pool
  simp only []
  split
  · exact ((h1.offer _).answerExpired p).reopenLock p
  · exact (h1.answerExpired p).reopenLock p

end Sys2Proof.Machine.Keeps
end

