-- ==== Sys2Proof/Laws/KeptPorts.lean ====
section
/-! SUPPORT. What the operations of the ports, of the memory arbiter and of the timing unit keep. -/

namespace Sys2Proof.Machine.Keeps

-- One proof at a time: side by side, many of these would wait for one another.
set_option Elab.async false

variable {a d t : Device}

/-! ## Taking a request (R17, R18, R132, R155, R156, R158) -/

theorem slotsFrom_length (n : Nat) (bs : List Beat) : (slotsFrom n bs).length = bs.length := by
  induction bs generalizing n with
  | nil => rfl
  | cons b bs ih => simp [slotsFrom, ih]

theorem enterQueue (h : Keeps a d) (p : Port) (r : Request) (hf : d.queueFits p r = true) : Keeps a (d.enterQueue p r) := by
  refine (h.modPortQueue p _ fun _ => ?_).answer p _ _
  simp only [Device.queueFits, decide_eq_true_eq] at hf
  simp only [List.length_append, postedSlots, slotsFrom_length]
  exact hf

theorem takePlainWrite (h : Keeps a d) (p : Port) (r : Request) : Keeps a (d.takePlainWrite p r) := by
  unfold Device.takePlainWrite
  split
  · exact h.begin p r _ _ _
  · split
    · rename_i hf; exact h.enterQueue p r hf
    · exact (h.begin p r _ _ _).hold p _

theorem refuseAccess (h : Keeps a d) (p : Port) (r : Request) (k : AccessDetail) (w : Option Slot16) :
    Keeps a (d.refuseAccess p r k w) := ((h.raise _ _).countRefusal p).answer p _ _

theorem refuseLockMisuse (h : Keeps a d) (p : Port) (r : Request) (w : Option Slot16) : Keeps a (d.refuseLockMisuse p r w) :=
  ((h.raise _ _).countRefusal p).answer p _ _

theorem refuseLockLate (h : Keeps a d) (p : Port) (word : Nat) : Keeps a (d.refuseLockLate p word) :=
  (((h.raise _ _).countRefusal p).answer p _ _).setLock p _

theorem startClosing (h : Keeps a d) (p : Port) (b : Bool) : Keeps a (d.startClosing p b) := by
  unfold Device.startClosing
  split
  · exact h.setLock p _
  all_goals exact h

theorem handOn (h : Keeps a d) (p : Port) (r : Request) (b : Bool) (c : Class) : Keeps a (d.handOn p r b c) := by
  cases c <;> simp only [Device.handOn]
  · exact h.begin p r _ _ _
  · split
    · exact (h.startClosing p _).begin p r _ _ _
    · exact h.takePlainWrite p r
  · exact h.begin p r _ _ _
  · exact h.begin p r _ _ _
  · split
    · exact (h.startClosing p _).storeWrite p _ r _
    · exact h.storeWrite p _ r _
  · exact h.begin p r _ _ _

theorem classifyAndHandOn (h : Keeps a d) (p : Port) (r : Request) (b : Bool) : Keeps a (d.classifyAndHandOn p r b) := by
  unfold Device.classifyAndHandOn
  split
  · exact h.refuseAccess p r _ _
  · exact h.handOn p r b _

theorem takeUnlocked (h : Keeps a d) (p : Port) (r : Request) : Keeps a (d.takeUnlocked p r) := by
  unfold Device.takeUnlocked
  split
  · exact h.refuseAccess p r _ _
  · exact h.classifyAndHandOn p r _

theorem takeWellFormed (h : Keeps a d) (p : Port) (r : Request) : Keeps a (d.takeWellFormed p r) := by
  unfold Device.takeWellFormed
  split
  · split
    · exact h.classifyAndHandOn p r _
    · exact h.refuseLockMisuse p r _
  · split
    · exact h.refuseLockLate p _
    · exact (h.setLock p _).takeUnlocked p r
  all_goals exact h.takeUnlocked p r

theorem takeMalformed (h : Keeps a d) (p : Port) (r : Request) : Keeps a (d.takeMalformed p r) := by
  unfold Device.takeMalformed
  refine Keeps.refuseAccess ?_ p r _ _
  split
  · exact h.setLock p _
  all_goals exact h

theorem takeRequest (h : Keeps a d) (p : Port) (r : Request) : Keeps a (d.takeRequest p r) := by
  unfold Device.takeRequest
  split
  · exact h.answer p _ _
  · split
    · exact h
    · split
      · exact h.takeMalformed p r
      · exact h.takeWellFormed p r

/-! ## Events of a request in progress (R72, R132, R136, R152, R153) -/

theorem openExclusive (h : Keeps a d) (p : Port) (r : Request) : Keeps a (d.openExclusive p r) := by
  unfold Device.openExclusive
  simp only []
  split
  · exact Keeps.setPhase ((h.setLock p _).same) p _
  · exact (h.setLock p _).hold p _
  · exact (h.setLock p _).hold p _

theorem leaveOrdering (h : Keeps a d) (p : Port) (c : Current) : Keeps a (d.leaveOrdering p c) := by
  unfold Device.leaveOrdering
  split
  · split
    · exact h.hold p _
    · exact h.setPhase p _
  · split
    · exact h.hold p _
    · exact h.setPhase p _
  · split
    · exact h.openExclusive p _
    · exact h.setPhase p _
  · refine Keeps.setPhase ?_ p _
    split
    · exact h.setLock p _
    · exact h
  · exact h.setPhase p _
  · exact h.setPhase p _

theorem endOrdering (h : Keeps a d) (p : Port) : Keeps a (d.endOrdering p) := by
  unfold Device.endOrdering
  split
  · split
    · exact h.leaveOrdering p _
    · exact h
  · exact h

theorem enterHeldWrite (h : Keeps a d) (p : Port) : Keeps a (d.enterHeldWrite p) := by
  unfold Device.enterHeldWrite
  split
  · rename_i hr
    split
    · rename_i c hc
      refine h.enterQueue p _ ?_
      simp only [Device.queueReady, hc, Bool.and_eq_true] at hr
      exact hr.2
    · exact h
  · exact h

theorem admitRead (h : Keeps a d) (p : Port) : Keeps a (d.admitRead p) := by
  unfold Device.admitRead
  split
  · exact h.release p
  · exact h

theorem handReservation (h : Keeps a d) (p : Port) : Keeps a (d.handReservation p) := by
  unfold Device.handReservation
  split
  · exact Keeps.release (h.same) p
  · exact h

/-! ## Limits (R46, R139, R157) -/

theorem holdExpires (h : Keeps a d) (p : Port) (c : Current) (k : HoldCause) : Keeps a (d.holdExpires p c k) := by
  unfold Device.holdExpires
  have h1 : Keeps a (if (d.port p).kind = .holdOnly then (d.setFlag .hold).offer (d.holdReport p c k) else d.setFlag .hold) := by
    split
    · exact (h.setFlag _).offer _
    · exact h.setFlag _
  simp only []
  split
  · exact (h1.answerExpired p).endLock p _
  · exact h1.answerExpired p

theorem holdLimitExpires (h : Keeps a d) (p : Port) : Keeps a (d.holdLimitExpires p) := by
  unfold Device.holdLimitExpires
  split
  · exact h
  · split
    · exact h
    · exact h.holdExpires p _ _
    · exact h.holdExpires p _ _
    · exact h.holdExpires p _ _
    · exact h
    · exact h

theorem poolWaitExpires (h : Keeps a d) (p : Port) : Keeps a (d.poolWaitExpires p) := by
  unfold Device.poolWaitExpires
  split
  · exact h
  · split
    · exact h.expirePool p _ _ _
    · exact h

theorem breakLock (h : Keeps a d) (p : Port) (word : Nat) (w : Option Slot16) (b : Bool) : Keeps a (d.breakLock p word w b) := by
  cases b
  · exact (h.endLock p _).raise _ _
  · exact (((h.leavePool p).endLock p _).raise _ _).refuseLockLate p _

theorem lockLimitExpires (h : Keeps a d) (p : Port) : Keeps a (d.lockLimitExpires p) := by
  unfold Device.lockLimitExpires
  split
  · exact h.breakLock p _ _ _
  · exact h.breakLock p _ _ _
  all_goals exact h

/-! ## The memory arbiter (R146 to R150) -/

/-- The granted requester goes to the end, and the order still holds each requester once (R149). -/
theorem rotate_kept (l : List Requester) (r : Requester)
    (h : l.length = 3 ∧ Requester.channel .a ∈ l ∧ Requester.channel .b ∈ l ∧ Requester.engine ∈ l) :
    (rotate l r).length = 3 ∧ Requester.channel .a ∈ rotate l r ∧ Requester.channel .b ∈ rotate l r ∧
      Requester.engine ∈ rotate l r := by
  obtain ⟨h1, h2, h3, h4⟩ := h
  match l, h1 with
  | [x, y, z], _ =>
    revert h2 h3 h4
    rcases x with (_ | _) | _ <;> rcases y with (_ | _) | _ <;> rcases z with (_ | _) | _ <;> rcases r with (_ | _) | _ <;> decide

theorem grant (h : Keeps a d) : Keeps a d.grant := by
  unfold Device.grant
  split
  · split
    · exact h.trans ⟨id, id, id, id, rotate_kept _ _, id⟩
    · exact h
  · exact h

theorem postedCompleted (h : Keeps a d) (p : Port) (n : Nat) (merr : Bool) : Keeps a (d.postedCompleted p n merr) := by
  unfold Device.postedCompleted
  have h1 : Keeps a (d.modPort p fun u => { u with queue := u.queue.drop 1 }) :=
    h.modPortQueue p _ fun hq => by simp only [List.length_drop]; omega
  simp only []
  split
  · exact h1.raise _ _
  · exact h1

theorem throughCompleted (h : Keeps a d) (p : Port) (c : Current) (n : Nat) (merr : Bool) :
    Keeps a (d.throughCompleted p c n merr) := by
  have h1 : ∀ k, Keeps a (if merr then d.raisePosted p k n else d) := by
    intro k
    split
    · exact h.raise _ _
    · exact h
  unfold Device.throughCompleted
  split
  · exact ((h1 _).answer p _ _).endLock p _
  · simp only []
    split
    · exact (h1 _).modPort p _
    · exact (h1 _).answer p _ _

theorem readFailed (h : Keeps a d) (p : Port) (c : Current) (n : Nat) : Keeps a (d.readFailed p c n) := by
  unfold Device.readFailed
  simp only []
  split
  · exact ((h.raise _ _).answer p _ _).endLock p _
  · exact (h.raise _ _).answer p _ _

theorem openLock (h : Keeps a d) (p : Port) : Keeps a (d.openLock p) := by
  unfold Device.openLock
  split
  · exact h.setLock p _
  all_goals exact h

theorem readCompleted (h : Keeps a d) (p : Port) (c : Current) (m : Mask) (x : Word) : Keeps a (d.readCompleted p c m x) := by
  unfold Device.readCompleted
  simp only []
  split
  · exact h.modPort p _
  · split
    · exact (h.answer p _ _).openLock p
    · exact h.answer p _ _

theorem complete (h : Keeps a d) (x : Outstanding) (merr : Bool) (data : Word) : Keeps a (d.complete x merr data) := by
  unfold Device.complete
  split
  · exact h.postedCompleted _ _ _
  · split
    · exact h.throughCompleted _ _ _ _
    · exact h
  · split
    · split
      · exact h.readFailed _ _ _
      · exact h.readCompleted _ _ _ _
    · exact h
  · exact h.drainCompleted _ _ _
  · exact h.safeWordCompleted _ _ _
  · exact h.statusWordCompleted _ _ _

theorem memoryCompletes (h : Keeps a d) (merr : Bool) (data : Word) : Keeps a (d.memoryCompletes merr data) := by
  unfold Device.memoryCompletes
  split
  · exact h
  · simp only []
    split
    · exact h.same
    · exact Keeps.complete (h.same) _ _ _

/-! ## The timing unit (R89 to R101, R113 to R116) -/

/-- A pulse that does not complete acquisition leaves whether the monitor is PRESENT (R91 to R94). -/
theorem pulse_present (m : Monitor) (n u : Nat) (h : m.completes n u = false) :
    (m.pulse n u).state = .present ↔ m.state = .present := by
  unfold Monitor.completes at h
  cases hs : m.state with
  | acquiring =>
    rw [hs] at h
    simpa using h
  | absent => simp [Monitor.pulse, hs, Monitor.start]
  | lost => simp [Monitor.pulse, hs, Monitor.start]
  | present =>
    simp only [Monitor.pulse, hs]
    split <;> simp

theorem pulse (h : Keeps a d) (x : Strobe) : Keeps a (d.pulse x) := by
  unfold Device.pulse
  simp only []
  split
  · exact h.setMonitorRefreshed x _
  · rename_i hc
    have h1 := h.setMonitor x ((d.monitors.get x).pulse (d.period x) d.clock.perUs) (pulse_present _ _ _ (by simpa using hc))
    split
    · exact h1.deliver _
    · exact h1

theorem acquisitionTimesOut (h : Keeps a d) (x : Strobe) : Keeps a (d.acquisitionTimesOut x) := by
  unfold Device.acquisitionTimesOut
  simp only []
  split
  · rename_i hs
    exact h.setMonitor x _ (by simp [hs])
  · exact h

theorem losesSync (h : Keeps a d) (x : Strobe) : Keeps a (d.losesSync x) := by
  unfold Device.losesSync
  simp only []
  split
  · have e : ∀ v r, ((d.setMonitor x v).raise .sync r).refreshSource (strobeSource x) =
        ((d.setMonitor x v).refreshSource (strobeSource x)).raise .sync r := fun _ _ => rfl
    rw [e]
    exact (h.setMonitorRefreshed x _).raise _ _
  · exact h

theorem lctExpires (h : Keeps a d) : Keeps a d.lctExpires := by
  unfold Device.lctExpires
  split
  · exact Keeps.deliver (h.same) _
  · exact h

theorem watchdogExpires (h : Keeps a d) (w : Slot16) : Keeps a (d.watchdogExpires w) := by
  unfold Device.watchdogExpires
  split
  · split
    · unfold Device.trip
      simp only []
      split
      · exact ((h.modRt w _).raise _ _).immediateSafeLoad w
      · exact ((h.modRt w _).raise _ _).modRt w _
    · exact h
  · exact h

end Sys2Proof.Machine.Keeps
end

