-- ==== Sys2Proof/Laws/KeptResets.lean ====
section
/-! SUPPORT. What the operations of start-up, of the resets and of the management link keep. -/

namespace Sys2Proof.Machine.Keeps

-- One proof at a time: side by side, many of these would wait for one another.
set_option Elab.async false

variable {a d t : Device}

/-! ## Start-up (R181 to R184) -/

/-- A whole new set of slots and monitors in which every effective source is the table's. -/
theorem newWindows (h : Keeps a d) (hw : SourcesKept t) (hl : LogKept d → LogKept t) (hq : QueuesKept d → QueuesKept t)
    (hs : StoreKept d → StoreKept t) (hi : ItemsKept d → ItemsKept t) (hr : RotationKept d → RotationKept t) : Keeps a t :=
  h.trans ⟨hl, hq, hs, hi, hr, fun _ => hw⟩

theorem sources_of_empty (h : ∀ w, (t.win w).desc = none) : SourcesKept t := by
  intro w ds hd
  rw [h w] at hd
  cases hd

theorem enterTransparent (h : Keeps a d) : Keeps a d.enterTransparent :=
  h.newWindows (sources_of_empty fun w => by simp [Device.enterTransparent, Device.win, Window.empty]) id id id id id

theorem endLoad (h : Keeps a d) (k : ConfigCause) : Keeps a (d.endLoad k) := h.enterTransparent.raise _ _

/-- Every slot in its start state against the monitors in force. -/
theorem sources_of_restarted (f : Slot16 → Window) (h : ∀ w, t.win w = (f w).restart t.monitors) : SourcesKept t := by
  intro w ds hd
  simp only [Device.rt, h w] at hd ⊢
  exact restart_sources _ _ _ hd

theorem completeLoad (h : Keeps a d) (ws : List Word) : Keeps a (d.completeLoad ws) :=
  h.newWindows
    (sources_of_restarted (fun w => { desc := readSlot ws w.val, rt := .off }) fun w => by
      simp [Device.completeLoad, Device.win]; rfl)
    id id id id id

theorem sampleStraps (h : Keeps a d) (s : Straps) : Keeps a (d.sampleStraps s) := by
  unfold Device.sampleStraps
  simp only []
  split
  · exact h.same
  · exact Keeps.enterTransparent (h.same)

theorem releaseReset (h : Keeps a d) (s : Straps) : Keeps a (d.releaseReset s) := by
  unfold Device.releaseReset
  split
  · unfold Device.leaveReset
    simp only []
    split
    · exact Keeps.sampleStraps (h.same) s
    · exact h.same
  · exact h

theorem endSettle (h : Keeps a d) (s : Straps) : Keeps a (d.endSettle s) := Keeps.sampleStraps (h.same) s

theorem releasePwrRst (h : Keeps a d) : Keeps a d.releasePwrRst := by
  unfold Device.releasePwrRst
  split
  · exact h.same
  · exact h

theorem flashAnswers (h : Keeps a d) (b : Byte) : Keeps a (d.flashAnswers b) := by
  unfold Device.flashAnswers
  split
  · split
    · exact h.same
    · exact h.same
  · exact h

theorem retryFlash (h : Keeps a d) : Keeps a d.retryFlash := h.same

theorem headerRead (h : Keeps a d) (x y z : Word) : Keeps a (d.headerRead x y z) := by
  unfold Device.headerRead
  split
  · split
    · exact h.endLoad _
    · exact h.same
  · exact h

theorem imageRead (h : Keeps a d) (ws : List Word) : Keeps a (d.imageRead ws) := by
  unfold Device.imageRead
  split
  · split
    · split
      · exact h.endLoad _
      · exact h.completeLoad _
    · exact h
  all_goals exact h

theorem flashGathers (h : Keeps a d) : Keeps a d.flashGathers := by
  unfold Device.flashGathers
  split
  · split
    · exact h.flashAnswers _
    · exact h
  · split
    · exact h.headerRead _ _ _
    · exact h
  · exact h.imageRead _
  all_goals exact h

theorem flashEdge (h : Keeps a d) (fdi : Bool) : Keeps a (d.flashEdge fdi) := by
  unfold Device.flashEdge
  simp only
  split
  · split
    · exact h.same.flashGathers
    · exact h.same
  · exact h

theorem flashReturns (h : Keeps a d) (bytes : List Byte) {f : Device → Device} (hf : Keeps a (f d)) :
    Keeps a (d.flashReturns bytes f) := by
  unfold Device.flashReturns
  split
  · exact hf
  · exact h

theorem releaseRstOut (h : Keeps a d) : Keeps a d.releaseRstOut := h.same

/-! ## Resets (R25, R26, R59, R88, R142, R144, R150, R172, R185) -/

/-- A reset with no entry, no item and no slot left in a queue, that keeps the log. -/
theorem emptied (h : Keeps a d) (hl : LogKept d → LogKept t) (hq : t.portA.queue = [] ∧ t.portB.queue = [])
    (he : t.entries = []) (hi : t.commitQueue = []) (hr : t.mem.rotation = Requester.order) (hw : SourcesKept t) : Keeps a t := by
  refine h.trans ⟨hl, fun _ => ?_, fun _ => ?_, fun _ => ?_, fun _ => ?_, fun _ => hw⟩
  · unfold QueuesKept; rw [hq.1, hq.2]; decide
  · unfold StoreKept; rw [he]; decide
  · unfold ItemsKept; rw [hi]; exact List.nodup_nil
  · unfold RotationKept; rw [hr]; decide

theorem datapathReset (h : Keeps a d) : Keeps a d.datapathReset :=
  h.emptied id ⟨rfl, rfl⟩ rfl rfl rfl
    (sources_of_restarted (fun w => d.windows[w]) fun w => by simp [Device.datapathReset, Device.win]; rfl)

theorem fullReset (h : Keeps a d) (x : ResetSource) : Keeps a (d.fullReset x) :=
  h.emptied id ⟨rfl, rfl⟩ rfl rfl rfl
    (sources_of_empty fun w => by simp [Device.fullReset, Device.win, Window.empty])

theorem rstInReset (h : Keeps a d) : Keeps a d.rstInReset := (h.fullReset _).same

theorem pwrRstReset (h : Keeps a d) : Keeps a d.pwrRstReset :=
  h.emptied (fun _ => ⟨Nat.zero_le 16, rfl, (by decide : (1#16) ≠ 0)⟩) ⟨rfl, rfl⟩ rfl rfl rfl
    (sources_of_empty fun w => by simp [Device.pwrRstReset, Device.fullReset, Device.win, Window.empty])

theorem linkReset (h : Keeps a d) : Keeps a d.linkReset := by
  unfold Device.linkReset
  dsimp only
  refine Keeps.offer ?_ _
  refine h.trans ⟨id, ?_, ?_, ?_, id, ?_⟩
  · intro hq; exact ⟨hq.1, Nat.zero_le 4⟩
  · intro hs; exact (List.length_filter_le _ _).trans hs
  · intro hi; exact List.Nodup.sublist (List.filter_sublist.map _) hi
  · intro hs w ds hd
    simp only [Device.rt, Device.win] at hd ⊢
    simp only [Fin.getElem_fin, Vector.getElem_ofFn, Fin.eta] at hd ⊢
    by_cases hb : d.producedByB w = true
    · simp only [hb, if_true] at hd ⊢
      exact restart_sources _ _ _ hd
    · simp only [hb] at hd ⊢
      exact hs w ds hd

theorem takeLinkReset (h : Keeps a d) : Keeps a d.takeLinkReset := by
  unfold Device.takeLinkReset
  split
  · exact h.linkReset
  · exact h

/-! ## Management commands that change what is kept (R10 to R16, R106, R171) -/

theorem enableWindow (h : Keeps a d) (w : Slot16) (ds : Descriptor) : Keeps a (d.enableWindow w ds) := h.refreshed w _

theorem selectSource (h : Keeps a d) (w : Slot16) (x : Source) : Keeps a (d.selectSource w x) := h.refreshed w _

theorem withdraw (h : Keeps a d) (w : Slot16) : Keeps a (d.withdraw w) := by
  unfold Device.withdraw
  split
  · exact h
  · split
    · exact h.expirePool _ _ _ _
    · exact h.leavePool _

theorem disableWindow (h : Keeps a d) (w : Slot16) : Keeps a (d.disableWindow w) :=
  ((((h.withdraw w).modCounters w _).discardAll w).cutItem w).modRt w _

theorem pauseWindow (h : Keeps a d) (w : Slot16) : Keeps a (d.pauseWindow w) := h.modRt w _

theorem resumeWindow (h : Keeps a d) (w : Slot16) (ds : Descriptor) : Keeps a (d.resumeWindow w ds) := h.modRt w _

theorem takeOldest (h : Keeps a d) : Keeps a d.takeOldest := by
  unfold Device.takeOldest
  split
  · exact h.respond _ _
  · rename_i x rest hl
    unfold Device.done
    refine Keeps.respond ?_ _ _
    refine h.trans ⟨?_, id, id, id, id, id⟩
    rintro ⟨h1, h2, h3⟩
    rw [hl] at h1 h2
    exact ⟨Nat.le_of_succ_le h1, numbered_tail _ _ _ h2, h3⟩

/-! ## The part's own events and timers (log 2, log 3, log 4) -/

theorem take (h : Keeps a d) (u : Urgent) : Keeps a (d.take u) := by
  cases u with
  | resetRelease => exact h.releaseReset _
  | reservation p => exact h.handReservation p
  | orderingEnd p => exact h.endOrdering p
  | queueSpace p => exact h.enterHeldWrite p
  | poolService => exact h.servePool
  | readAdmitted p => exact h.admitRead p
  | holdSet => exact h.setConsumerHold
  | itemStart => exact h.startItem

theorem settle (h : Keeps a d) : Keeps a d.settle := by
  unfold Device.settle
  generalize d.momentBound = n
  induction n generalizing d with
  | zero => exact h
  | succ n ih =>
    unfold Device.settleWithin
    split
    · exact ih (h.take _)
    · exact h

theorem expire (h : Keeps a d) (e : Expiry) : Keeps a (d.expire e) := by
  cases e with
  | holdLimit p => exact h.holdLimitExpires p
  | poolWait p => exact h.poolWaitExpires p
  | lockLimit p => exact h.lockLimitExpires p
  | watchdog w => exact h.watchdogExpires w
  | acquisition x => exact h.acquisitionTimesOut x
  | sync x => exact h.losesSync x
  | lct => exact h.lctExpires
  | settleEnd s => exact h.endSettle s
  | flashRetry => exact h.retryFlash
  | flashTimeout => exact h.endLoad _
  | rstOut => exact h.releaseRstOut

theorem tripExpired (h : Keeps a d) : Keeps a d.tripExpired := by
  unfold Device.tripExpired
  generalize (allWindows.filter _) = l
  induction l generalizing d with
  | nil => exact h
  | cons w l ih => exact ih (h.watchdogExpires w)

theorem runTo (h : Keeps a d) (e : Expiry) : Keeps a (d.runTo e) := by
  unfold Device.runTo Device.atTime
  split
  · split
    · exact (h.expire e).tripExpired
    · split
      · exact ((h.advance _).expire e).tripExpired
      · exact h
  · exact h

end Sys2Proof.Machine.Keeps
end

