-- ==== Sys2Proof/Laws/PerInstr.lean ====
section
/-! SUPPORT. One lemma for each command: the frame that carries it is its command byte and that command's argument bytes (R174,
management frame layout table). -/

namespace Sys2Proof.Laws.FrameLength

/-- A well-formed command's frame, if it has one, is one byte longer than its argument. -/
def Statement (i : Instr) : Prop :=
  ∀ bytes : List Byte, i.wf = true → encodeFrame i = some bytes → bytes.length = 1 + argumentLength (bytes.headD 0)

/-- A command that no frame carries. -/
theorem of_none {i : Instr} (h : encodeFrame i = none) : Statement i := by
  intro bytes _ he
  rw [h] at he
  cases he

/-- A command whose frame is known. -/
theorem of_some {i : Instr} {bytes : List Byte} (h : encodeFrame i = some bytes)
    (hl : bytes.length = 1 + argumentLength (bytes.headD 0)) : Statement i := by
  intro b _ he
  rw [h, Option.some.injEq] at he
  rw [← he]
  exact hl

/-- A byte that names no command has no argument. -/
theorem argumentLength_unnamed (c : Byte) (h : (UnnamedFrame.command c).wf = true) : argumentLength c = 0 := by
  unfold argumentLength
  simp only [UnnamedFrame.wf, commandCodes] at h
  split <;> first | rfl | (rename_i hx; simp [hx] at h)

theorem portRequest (port : Port) (request : Request) : Statement (.portRequest port request) := of_none rfl

theorem orderingEnd (port : Port) : Statement (.orderingEnd port) := of_none rfl

theorem queueSpaceEntry (port : Port) : Statement (.queueSpaceEntry port) := of_none rfl

theorem poolWaitService : Statement .poolWaitService := of_none rfl

theorem readAdmitted (port : Port) : Statement (.readAdmitted port) := of_none rfl

theorem lockReservationHandoff (port : Port) : Statement (.lockReservationHandoff port) := of_none rfl

theorem arbiterGrant : Statement .arbiterGrant := of_none rfl

theorem memoryCompletion (merr : Bool) (data : Word) : Statement (.memoryCompletion merr data) := of_none rfl

theorem itemStart : Statement .itemStart := of_none rfl

theorem consumerHoldSet : Statement .consumerHoldSet := of_none rfl

theorem holdLimitExpiry (port : Port) : Statement (.holdLimitExpiry port) := of_none rfl

theorem poolWaitExpiry (port : Port) : Statement (.poolWaitExpiry port) := of_none rfl

theorem lockLimitExpiry (port : Port) : Statement (.lockLimitExpiry port) := of_none rfl

theorem watchdogExpiry (window : Slot16) : Statement (.watchdogExpiry window) := of_none rfl

theorem strobePulse (strobe : Strobe) (after : Nat) : Statement (.strobePulse strobe after) := of_none rfl

theorem acquisitionTimeout (strobe : Strobe) : Statement (.acquisitionTimeout strobe) := of_none rfl

theorem syncLost (strobe : Strobe) : Statement (.syncLost strobe) := of_none rfl

theorem lctExpiry : Statement .lctExpiry := of_none rfl

theorem readId : Statement .readId := of_some rfl rfl

theorem readStatus : Statement .readStatus := of_some rfl rfl

theorem readFlags : Statement .readFlags := of_some rfl rfl

theorem clearFlags (mask : BitVec 40) : Statement (.clearFlags mask) := of_some rfl rfl

theorem setEnable (mask : BitVec 40) (value : Byte) : Statement (.setEnable mask value) := of_some rfl rfl

theorem setLevel (mask : BitVec 40) (level : Byte) : Statement (.setLevel mask level) := of_some rfl rfl

theorem setThreshold (threshold : Byte) : Statement (.setThreshold threshold) := of_some rfl rfl

theorem readLog : Statement .readLog := of_some rfl rfl

theorem readWindow (window : Byte) : Statement (.readWindow window) := of_some rfl rfl

theorem enable (window : Byte) : Statement (.enable window) := of_some rfl rfl

theorem disable (window : Byte) : Statement (.disable window) := of_some rfl rfl

theorem pause (window : Byte) : Statement (.pause window) := of_some rfl rfl

theorem resume (window : Byte) : Statement (.resume window) := of_some rfl rfl

theorem rearm (window : Byte) : Statement (.rearm window) := of_some rfl rfl

theorem selectSource (window source : Byte) : Statement (.selectSource window source) := of_some rfl rfl

theorem commitNow (window : Byte) : Statement (.commitNow window) := of_some rfl rfl

theorem timerStart (period : Word) : Statement (.timerStart period) := of_some rfl rfl

theorem timerStop (period : Word) : Statement (.timerStop period) := of_some rfl rfl

theorem timerPeriod (period : Word) : Statement (.timerPeriod period) := of_some rfl rfl

theorem readSources : Statement .readSources := of_some rfl rfl

theorem readPorts : Statement .readPorts := of_some rfl rfl

theorem readResetCause : Statement .readResetCause := of_some rfl rfl

theorem softResetDatapath : Statement .softResetDatapath := of_some rfl rfl

theorem softResetFull : Statement .softResetFull := of_some rfl rfl

theorem unknownCommand (frame : UnnamedFrame) : Statement (.unknownCommand frame) := by
  cases frame with
  | command code =>
    intro bytes hw he
    rw [show bytes = [code] from (Option.some.inj he).symm]
    show 1 = 1 + argumentLength code
    rw [argumentLength_unnamed code hw]
  | windowCtrl window action => exact of_some rfl rfl
  | timer action period => exact of_some rfl rfl
  | softReset target => exact of_some rfl rfl
  | edge e => exact of_none rfl

theorem frameAbort : Statement .frameAbort := of_none rfl

theorem pwrRst : Statement .pwrRst := of_none rfl

theorem rstIn : Statement .rstIn := of_none rfl

theorem linkReset : Statement .linkReset := of_none rfl

theorem resetRelease (straps : Straps) : Statement (.resetRelease straps) := of_none rfl

theorem settleEnd (straps : Straps) : Statement (.settleEnd straps) := of_none rfl

theorem flashAnswer (input : FlashInput) : Statement (.flashAnswer input) := of_none rfl

theorem flashRetryWaitEnd : Statement .flashRetryWaitEnd := of_none rfl

theorem flashTimeout : Statement .flashTimeout := of_none rfl

theorem imageReadComplete (words : List Word) : Statement (.imageReadComplete words) := of_none rfl

theorem rstOutRelease : Statement .rstOutRelease := of_none rfl

theorem headerReadComplete (word0 word1 word2 : Word) : Statement (.headerReadComplete word0 word1 word2) := of_none rfl

theorem pwrRstRelease : Statement .pwrRstRelease := of_none rfl

end Sys2Proof.Laws.FrameLength
end

