-- ==== Sys2Proof/Laws/Ports.lean ====
section
/-! SUPPORT. What the operations of the ports and of classification answer (R17 to R24, R72, R131). -/

namespace Sys2Proof.Machine

/-- Malformed requests, as R18 lists them. -/
theorem requestMalformed_iff (r : Request) : requestMalformed r = true ↔
    (r.address.toNat % 4 ≠ 0 ∨ (∃ b ∈ r.beats, b.mask = 0) ∨ r.beats.length = 0 ∨ 8 < r.beats.length ∨
      0xFFFFFC < r.address.toNat + 4 * (r.beats.length - 1) ∨ (r.locked = true ∧ 1 < r.beats.length)) := by
  simp only [requestMalformed, Bool.or_eq_true, decide_eq_true_eq, List.any_eq_true, beq_iff_eq, Bool.and_eq_true, or_assoc]
  rfl

theorem slotsFrom_eq (a : Nat) (bs : List Beat) (n : Nat) :
    slotsFrom (a + 4 * n) bs = (bs.zipIdx n).map fun b => (⟨a + 4 * b.2, b.1.mask, b.1.data⟩ : PostedSlot) := by
  induction bs generalizing n with
  | nil => rfl
  | cons b bs ih =>
    simp only [slotsFrom, List.zipIdx_cons, List.map_cons]
    rw [show a + 4 * n + 4 = a + 4 * (n + 1) by ring, ih]

/-- The slots of a plain write, beat by beat (R131). -/
theorem postedSlots_eq (r : Request) : postedSlots r =
    r.beats.zipIdx.map fun b => (⟨r.address.toNat + 4 * b.2, b.1.mask, b.1.data⟩ : PostedSlot) :=
  slotsFrom_eq r.address.toNat r.beats 0

/-- A read meets no hold when every window it waits on has its hold request and its hold clear (R72, R73). -/
theorem readBlocked_false_iff (d : Device) (c : Current) : d.readBlocked c = false ↔
    ∀ w ∈ d.waitsOn c, (d.rt w).holdRequest = false ∧ (d.rt w).consumerHold = false := by
  simp [Device.readBlocked, Device.raised]

theorem readBlocked_iff (d : Device) (c : Current) : d.readBlocked c = true ↔
    ∃ w ∈ d.waitsOn c, (d.rt w).holdRequest = true ∨ (d.rt w).consumerHold = true := by
  simp [Device.readBlocked, Device.raised]

/-- The status blocks that a request touches (R20, R72). -/
theorem mem_touchedBlocks (d : Device) (r : Request) (w : Slot16) : w ∈ d.touchedBlocks r ↔
    ∃ ds base i, (d.win w).desc = some ds ∧ ds.statusBlock = true ∧ d.config.statusArea = some base ∧ i < r.beats.length ∧
      base + 16 * w.val ≤ r.address.toNat + 4 * i ∧ r.address.toNat + 4 * i < base + 16 * w.val + 16 := by
  have hw : w ∈ allWindows := by revert w; decide
  unfold Device.touchedBlocks Device.statusBlockOn
  cases hb : d.config.statusArea <;> cases hd : (d.win w).desc <;>
    simp [hd, hw, requestAddresses, beatAddress]
  exact fun _ => exists_congr fun _ => and_congr_right fun _ =>
    ⟨fun h => ⟨of_decide_eq_true h.1, of_decide_eq_true h.2⟩, fun h => ⟨decide_eq_true h.1, decide_eq_true h.2⟩⟩

theorem allWindows_pairwise : allWindows.Pairwise (· < ·) := by decide

/-- The window that a status read's record names is the lowest of those whose hold it waits on (R139). -/
theorem find?_touchedBlocks_iff (d : Device) (r : Request) (v : Slot16) :
    (d.touchedBlocks r).find? d.raised = some v ↔
      v ∈ d.touchedBlocks r ∧ d.raised v = true ∧ ∀ u ∈ d.touchedBlocks r, u < v → d.raised u = false := by
  have hs : (d.touchedBlocks r).Pairwise (· < ·) := by
    unfold Device.touchedBlocks
    split
    · exact List.Pairwise.nil
    · exact allWindows_pairwise.filter _
  generalize d.touchedBlocks r = l at hs
  induction l with
  | nil => simp
  | cons x l ih =>
    obtain ⟨hx, hl⟩ := List.pairwise_cons.1 hs
    cases hr : d.raised x with
    | true =>
      rw [List.find?_cons_of_pos (by exact hr), Option.some_inj]
      constructor
      · rintro rfl
        refine ⟨List.mem_cons_self, hr, fun u hu huv => ?_⟩
        rcases List.mem_cons.1 hu with rfl | hu
        · exact absurd huv (lt_irrefl _)
        · exact absurd huv (lt_asymm (hx u hu))
      · rintro ⟨hv, _, h⟩
        rcases List.mem_cons.1 hv with rfl | hv
        · rfl
        · exact absurd (h x List.mem_cons_self (hx v hv)) (by simp [hr])
    | false =>
      rw [List.find?_cons_of_neg (by simp [hr])]
      refine (ih hl).trans ?_
      constructor
      · rintro ⟨hv, h1, h2⟩
        refine ⟨List.mem_cons_of_mem _ hv, h1, fun u hu huv => ?_⟩
        rcases List.mem_cons.1 hu with rfl | hu
        · exact hr
        · exact h2 u hu huv
      · rintro ⟨hv, h1, h2⟩
        rcases List.mem_cons.1 hv with rfl | hv
        · exact absurd h1 (by simp [hr])
        · exact ⟨hv, h1, fun u hu => h2 u (List.mem_cons_of_mem _ hu)⟩

/-! ## Places (R19) -/

theorem windowAt_of_place {d : Device} {a : Nat} {w : Slot16} (h : d.place a = .window w) : d.windowAt a = some w := by
  unfold Device.place at h
  split at h
  · simp_all
  · split at h <;> simp at h

theorem inStatusArea_of_place {d : Device} {a : Nat} (h : d.place a = .status) : d.inStatusArea a = true := by
  unfold Device.place at h
  split at h
  · simp at h
  · split at h <;> simp_all

theorem windowAt_of_status {d : Device} {a : Nat} (h : d.place a = .status) : d.windowAt a = none := by
  unfold Device.place at h
  split at h
  · simp at h
  · assumption

theorem outside_of_place {d : Device} {a : Nat} (h : d.place a = .outside) :
    d.windowAt a = none ∧ d.inStatusArea a = false := by
  unfold Device.place at h
  split at h
  · simp at h
  · split at h <;> simp_all

/-- The place of a request is the place of each of its words (R19). -/
theorem place_of_requestPlace {d : Device} {r : Request} {x : Place} (h : d.requestPlace r = some x) :
    ∀ a ∈ requestAddresses r, d.place a = x := by
  unfold Device.requestPlace at h
  split at h
  · simp at h
  · rename_i a rest he
    rw [he]
    split at h
    · rename_i hx
      simp at hx h
      subst h
      intro b hb
      rcases List.mem_cons.1 hb with hb | hb
      · rw [hb]
      · exact hx b hb
    · simp at h

theorem requestPlace_of_place {d : Device} {r : Request} {x : Place} (hb : r.beats ≠ [])
    (h : ∀ a ∈ requestAddresses r, d.place a = x) : d.requestPlace r = some x := by
  unfold Device.requestPlace
  cases he : requestAddresses r with
  | nil =>
    exfalso
    apply hb
    simpa [requestAddresses] using he
  | cons a rest =>
    rw [he] at h
    have ha := h a (by simp)
    have hall : (rest.all fun y => d.place y == d.place a) = true := by
      simp only [List.all_eq_true, beq_iff_eq]
      intro y hy
      rw [ha, h y (by simp [hy])]
    show (if _ then some (d.place a) else none) = _
    rw [if_pos hall, ha]

/-- A word's window is found from descriptors and states alone (R19). -/
theorem windowAt_congr {d t : Device} (h : ∀ v, (t.win v).desc = (d.win v).desc ∧ (t.rt v).state = (d.rt v).state) (a : Nat) :
    t.windowAt a = d.windowAt a := by
  have he : t.liesIn a = d.liesIn a := by
    funext v
    unfold Device.liesIn
    rw [(h v).1, (h v).2]
  unfold Device.windowAt
  rw [he]

/-- A word lies in a window that is defined, not OFF, and covers it (R19). -/
theorem windowAt_spec {d : Device} {a : Nat} {w : Slot16} (h : d.windowAt a = some w) :
    ∃ ds, (d.win w).desc = some ds ∧ (d.rt w).state ≠ .off ∧ ds.covers a = true := by
  have := List.find?_some h
  unfold Device.liesIn at this
  split at this
  · rename_i ds hd
    exact ⟨ds, hd, by simpa using this⟩
  · simp at this

theorem supervisor_of_meets {p m : Privilege} (h : meetsPrivilege p m = true) : m = .supervisor → p = .supervisor := by
  intro hm
  subst hm
  simpa [meetsPrivilege] using h

/-- What classification inside a window hands on: the producer's read or write, or a consumer read (R20, R21). -/
theorem classifyInWindow_spec {d : Device} {p : Port} {r : Request} {w : Slot16} {c : Class}
    (h : d.classifyInWindow p r w = .handOn c) :
    ∃ ds, (d.win w).desc = some ds ∧
      ((ds.producer = p ∧ (ds.producerMin = .supervisor → r.privilege = .supervisor) ∧
          (c = .producerRead w ∧ r.kind = .read ∨ c = .producerWrite w ∧ r.kind = .write)) ∨
        (ds.producer ≠ p ∧ r.kind = .read ∧ r.locked = false ∧ ds.consumerReads = true ∧
          (ds.consumerMin = .supervisor → r.privilege = .supervisor) ∧ c = .consumerRead w)) := by
  unfold Device.classifyInWindow at h
  split at h
  · simp at h
  · rename_i ds hd
    refine ⟨ds, hd, ?_⟩
    split at h
    · rename_i hp
      split at h
      · rename_i hm
        left
        refine ⟨hp, supervisor_of_meets hm, ?_⟩
        split at h <;> simp at h <;> simp_all
      · simp at h
    · rename_i hp
      split at h
      · simp at h
      · rename_i hn
        split at h
        · rename_i hm
          right
          have hk : r.kind = .read := by cases hk : r.kind <;> simp_all
          simp at h hn
          exact ⟨hp, hk, hn.2.1, hn.2.2, supervisor_of_meets hm, h.symm⟩
        · simp at h

end Sys2Proof.Machine
end

