-- ==== Sys2Proof/Laws/Resets.lean ====
section
/-! SUPPORT. What the operations of start-up and of the resets answer (R25, R129, R142, R181 to R186). -/

namespace Sys2Proof.Machine

/-- A slot restarts with every monitor ABSENT (R25, R102). -/
theorem restart_reset (x : Window) : x.restart .reset = restarted x := by
  unfold Window.restart restarted
  cases hx : x.desc with
  | none => rfl
  | some ds =>
    simp only [Window.refresh, Keeps.effective_eq, startRuntime]
    cases hs : ds.startRunning <;> rfl

/-- A port unit cut short (R142, R144). -/
theorem cutShort_eq (u : PortUnit) : u.cutShort =
    { u with
      current := none, holdTimer := none, queue := [], lock := .noLock
      answer := if u.current = none then u.answer
        else some ⟨match u.kind with | .retryCapable => .retry | .holdOnly => .error, []⟩ } := by
  obtain ⟨k, c, _, _, _, _, _⟩ := u
  cases c <;> cases k <;> rfl

/-- What the four recorded resets do to every block (R59, R88, R142, R150, R160, R172, R186). -/
theorem commonReset_eq (d : Device) (x : ResetSource) : d.commonReset x =
    { d with
      portA := resetPort d .a, portB := resetPort d .b
      entries := [], poolWait := [], commitQueue := []
      mem := ⟨d.mem.outstanding.map cutOff, Requester.order, .free⟩
      fault := d.fault.clearAll
      startup := { d.startup with cause := ⟨x, d.runningCut, d.unissued .a + d.unissued .b⟩ } } := by
  unfold Device.commonReset
  rw [cutShort_eq, cutShort_eq]
  rfl

theorem enterTransparent_eq (d : Device) : d.enterTransparent = transparentMode d := rfl

theorem endLoad_eq (d : Device) (k : ConfigCause) : d.endLoad k = failedLoad d k := rfl

theorem sampleStraps_eq (x : Straps) (d : Device) : d.sampleStraps x = sampled x d := by
  obtain ⟨a, b, c⟩ := x
  cases a <;> cases b <;> cases c <;> rfl

theorem within_iff (a b n : Nat) : within a b n = true ↔ a ≤ n ∧ n ≤ b := by simp [within]

end Sys2Proof.Machine
end

