-- ==== Sys2Proof/Laws/Settle.lean ====
section
/-! SUPPORT. The events of one moment come to an end: each takes something off a weight of what is left to do, and the bound of `settle`
is above that weight, so that settling takes every event of the moment (log 2). -/

namespace Sys2Proof.Machine

/-! ## What is left to do in a moment -/

/-- A request weighs more than all that its acceptance can bring: seventeen items, and a check of the next waiter. -/
def requestWeight : Option Current → Nat
  | none => 0
  | some c => match c.phase with
    | .ordering => 72
    | .held _ => 71
    | .performing => 70

/-- An EPOCH item weighs more than the SAFE item that may follow it (R80). -/
def itemWeight (it : Item) : Nat :=
  match it.kind, it.progress with
  | .epoch, none => 4
  | .epoch, some pr => if pr.phase = .starting then 3 else 0
  | .safe, none => 2
  | .safe, some pr => if pr.phase = .starting then 1 else 0

def queueWeight (q : List Item) : Nat := (q.map itemWeight).sum

/-- What the events of this moment have left to do. -/
def Device.remaining (d : Device) : Nat :=
  (if d.startup.state = .reset then 1 else 0) + requestWeight d.portA.current + requestWeight d.portB.current +
  (if d.poolCheckDue = true then 1 else 0) + queueWeight d.commitQueue

theorem itemWeight_le (it : Item) : itemWeight it ≤ 4 := by
  unfold itemWeight
  repeat' split
  all_goals omega

theorem queueWeight_append (p q : List Item) : queueWeight (p ++ q) = queueWeight p + queueWeight q := by
  simp [queueWeight]

theorem queueWeight_cons (it : Item) (q : List Item) : queueWeight (it :: q) = itemWeight it + queueWeight q := by
  simp [queueWeight]

theorem queueWeight_le (q : List Item) : queueWeight q ≤ 4 * q.length := by
  induction q with
  | nil => simp [queueWeight]
  | cons it q ih =>
    have := itemWeight_le it
    rw [queueWeight_cons, List.length_cons]
    omega

theorem queueWeight_filter_le (f : Item → Bool) (q : List Item) : queueWeight (q.filter f) ≤ queueWeight q := by
  induction q with
  | nil => simp
  | cons it q ih =>
    rw [List.filter_cons]
    split
    · rw [queueWeight_cons, queueWeight_cons]; omega
    · rw [queueWeight_cons]; omega

theorem queueWeight_map_le (f : Item → Item) (hf : ∀ it, itemWeight (f it) ≤ itemWeight it) (q : List Item) :
    queueWeight (q.map f) ≤ queueWeight q := by
  induction q with
  | nil => simp
  | cons it q ih =>
    have := hf it
    rw [List.map_cons, queueWeight_cons, queueWeight_cons]
    omega

theorem requestWeight_le (c : Option Current) : requestWeight c ≤ 72 := by
  unfold requestWeight
  repeat' split
  all_goals omega

theorem requestWeight_some (c : Current) : 70 ≤ requestWeight (some c) := by
  unfold requestWeight
  dsimp only
  split <;> omega

theorem remaining_le_momentBound (d : Device) : d.remaining ≤ d.momentBound := by
  have h1 := requestWeight_le d.portA.current
  have h2 := requestWeight_le d.portB.current
  have h3 := queueWeight_le d.commitQueue
  unfold Device.remaining Device.momentBound
  split <;> split <;> omega

/-! ## What an acceptance brings -/

/-- Start-up and the requests in progress stand, and the commit queue's weight grows by n at the most. -/
structure Brings (n : Nat) (d t : Device) : Prop where
  startup : t.startup = d.startup
  current : ∀ p, (t.port p).current = (d.port p).current
  queue : queueWeight t.commitQueue ≤ queueWeight d.commitQueue + n

namespace Brings

variable {n m : Nat} {d t u : Device}

theorem trans (h : Brings n d t) (g : Brings m t u) : Brings (n + m) d u :=
  ⟨g.startup.trans h.startup, fun p => (g.current p).trans (h.current p), by have := h.queue; have := g.queue; omega⟩

/-- A change of nothing that the events of a moment wait for. -/
theorem same (hs : t.startup = d.startup) (hc : ∀ p, (t.port p).current = (d.port p).current)
    (hq : t.commitQueue = d.commitQueue) : Brings 0 d t := ⟨hs, hc, by rw [hq]; omega⟩

theorem refl (d : Device) : Brings 0 d d := same rfl (fun _ => rfl) rfl

theorem mono (h : Brings n d t) (hn : n ≤ m) : Brings m d t := ⟨h.startup, h.current, by have := h.queue; omega⟩

theorem modRt (d : Device) (w : Slot16) (f : Runtime → Runtime) : Brings 0 d (d.modRt w f) :=
  same rfl (fun p => by cases p <;> rfl) rfl

theorem ifThen {c : Prop} [Decidable c] (h : Brings 0 d t) (g : Brings 0 t u) : Brings 0 d (if c then u else t) := by
  split
  · exact h.trans g
  · exact h

theorem raise (d : Device) (f : Flag) (r : Report) : Brings 0 d (d.raise f r) := same rfl (fun p => by cases p <;> rfl) rfl

theorem join (d : Device) (w : Slot16) (k : ItemKind) : Brings 4 d (d.join w k) := by
  refine ⟨rfl, fun p => by cases p <;> rfl, ?_⟩
  have := itemWeight_le ⟨w, k, none⟩
  rw [show (d.join w k).commitQueue = d.commitQueue ++ [⟨w, k, none⟩] from rfl, queueWeight_append, queueWeight_cons]
  simp only [queueWeight, List.map_nil, List.sum_nil]
  omega

/-- A commit event brings one item at the most (R62, R68). -/
theorem commitEvent (d : Device) (w : Slot16) : Brings 4 d (d.commitEvent w) := by
  unfold Device.commitEvent
  cases d.decideCommit w
  case ignored => exact (refl d).mono (by omega)
  case skipped =>
    unfold Device.applyDecision Device.modCounters
    exact (modRt d w _).mono (by omega)
  case safeJoins => exact (modRt d w _).trans (join _ w .safe)
  case safeServes =>
    unfold Device.applyDecision
    exact (modRt d w _).mono (by omega)
  case deferred =>
    unfold Device.applyDecision
    exact (modRt d w _).mono (by omega)
  case secondDefer => exact ((modRt d w _).trans (raise _ _ _)).mono (by omega)
  case itemPending => exact ((modRt d w _).trans (raise _ _ _)).mono (by omega)
  case late => exact ((modRt d w _).trans (raise _ _ _)).mono (by omega)
  case empty =>
    unfold Device.applyDecision Device.modCounters
    exact (modRt d w _).mono (by omega)
  case committed =>
    have hs : Brings 0 d (d.swapEpoch w) := same rfl (fun p => by cases p <;> rfl) rfl
    exact ((hs.trans (modRt _ w _)).trans (join _ w .epoch)).mono (by omega)

theorem takeDeferredOf (word : Nat) (d : Device) (w : Slot16) : Brings 4 d (d.takeDeferredOf word w) := by
  unfold Device.takeDeferredOf
  split
  · exact (refl d).mono (by omega)
  · split
    · exact ((modRt d w _).trans (commitEvent _ w)).mono (by omega)
    · exact (refl d).mono (by omega)

theorem foldl_takeDeferredOf (word : Nat) (ws : List Slot16) (d : Device) :
    Brings (4 * ws.length) d (ws.foldl (Device.takeDeferredOf word) d) := by
  induction ws generalizing d with
  | nil => exact refl d
  | cons w ws ih => exact ((takeDeferredOf word d w).trans (ih _)).mono (by rw [List.length_cons]; omega)

/-- The end of a lock brings one item at the most for each window (R64, R156). -/
theorem endLock (d : Device) (p : Port) (l : LockRecord) : Brings 64 d (d.endLock p l) := by
  have h1 : Brings 0 d (d.setLock p l) := same (Device.modPort_startup d p _)
    (fun q => by unfold Device.setLock; rw [Device.port_modPort]; split <;> rfl) (Device.modPort_commitQueue d p _)
  unfold Device.endLock
  split
  · exact h1.mono (by omega)
  · rename_i a _
    have h2 : Brings 0 (d.setLock p l) ((d.setLock p l).releaseExclusive p) := by
      unfold Device.releaseExclusive
      split
      · exact same rfl (fun p => by cases p <;> rfl) rfl
      · exact refl _
    exact ((h1.trans h2).trans (foldl_takeDeferredOf a allWindows _)).mono (by decide)

theorem restartWatchdog (d : Device) (w : Slot16) : Brings 0 d (d.restartWatchdog w) := by
  unfold Device.restartWatchdog
  split
  · exact modRt d w _
  · exact refl d

/-- The staging of a write and what it changes of its window, after its answer (R36 to R39, R122). -/
theorem stageWrite (d : Device) (p : Port) (w : Slot16) (r : Request) :
    Brings 0 ({ d with entries := stageBeats w (d.firstOffset w r) r.beats d.entries }.answer p .okay []) (d.stageWrite p w r) := by
  have rearm : ∀ x : Device, Brings 0 x (x.rearm w) := fun x => (modRt x w _).trans (restartWatchdog _ w)
  exact (((refl _).ifThen (restartWatchdog _ w)).ifThen (modRt _ w _)).ifThen (rearm _)

/-- An acceptance brings seventeen items at the most, after its answer (R40, R41, R156). -/
theorem acceptWrite (d : Device) (p : Port) (w : Slot16) (r : Request) (closing : Bool) :
    Brings 68 ({ d with entries := stageBeats w (d.firstOffset w r) r.beats d.entries }.answer p .okay [])
      (d.acceptWrite p w r closing) := by
  have h := stageWrite d p w r
  have read : ∀ x : Device, Brings 0 x { x with freeIndex := x.freeIndex + 1 } := fun x =>
    same rfl (fun p => by cases p <;> rfl) rfl
  unfold Device.acceptWrite
  dsimp only
  split
  · exact h.mono (by omega)
  · exact (h.trans (commitEvent _ w)).mono (by omega)
  · exact (h.trans (endLock _ p _)).mono (by omega)
  · split
    · exact (((h.trans (read _)).trans (commitEvent _ w)).trans (endLock _ p _)).mono (by omega)
    · exact (((h.trans (read _)).trans (endLock _ p _)).trans (commitEvent _ w)).mono (by omega)

end Brings

/-! ## Each event takes something off -/

/-- A request that goes on, with nothing else changed that an event waits for. -/
theorem remaining_lt_of_request {d t : Device} (p : Port) (hs : t.startup.state = d.startup.state)
    (ho : (t.port (otherPort p)).current = (d.port (otherPort p)).current) (hw : t.poolWait = d.poolWait)
    (he : t.entries = d.entries) (hq : t.commitQueue = d.commitQueue)
    (hr : requestWeight (t.port p).current < requestWeight (d.port p).current) : t.remaining < d.remaining := by
  have hp : (d.port p).current.isSome = true := by
    cases hc : (d.port p).current with
    | none => rw [hc] at hr; exact absurd hr (Nat.not_lt_zero _)
    | some c => rfl
  have hd : t.poolCheckDue = true → d.poolCheckDue = true := by
    unfold Device.poolCheckDue Device.freeCount
    rw [hw, he]
    split
    · exact id
    · rename_i x _ _
      intro h
      rw [Bool.and_eq_true] at h ⊢
      refine ⟨?_, h.2⟩
      by_cases hx : x.port = p
      · rw [hx]; exact hp
      · have : x.port = otherPort p := by revert hx; cases x.port <;> cases p <;> simp [otherPort]
        rw [this, ← ho, ← this]; exact h.1
  unfold Device.remaining
  rw [hs, hq]
  have hd' : (if t.poolCheckDue = true then 1 else 0) ≤ if d.poolCheckDue = true then 1 else 0 := by
    split
    · rename_i h; rw [if_pos (hd h)]
    · omega
  cases p <;> simp only [otherPort, Device.port] at ho hr <;> rw [ho] <;> omega

theorem setPhase_lt {d : Device} {p : Port} {c : Current} {ph : Phase} (h : (d.port p).current = some c)
    (hp : requestWeight (some { c with phase := ph }) < requestWeight (some c)) (t : Device) (hs : t.startup = d.startup)
    (hc : ∀ q, (t.port q).current = (d.port q).current) (hw : t.poolWait = d.poolWait) (he : t.entries = d.entries)
    (hq : t.commitQueue = d.commitQueue) : (t.setPhase p ph).remaining < d.remaining := by
  refine remaining_lt_of_request p ?_ ?_ ?_ ?_ ?_ ?_
  · rw [show (t.setPhase p ph).startup = t.startup from Device.modPort_startup t p _, hs]
  · unfold Device.setPhase; rw [Device.port_modPort_other, hc]
  · exact (Device.modPort_poolWait t p _).trans hw
  · exact (Device.modPort_entries t p _).trans he
  · exact (Device.modPort_commitQueue t p _).trans hq
  · unfold Device.setPhase; rw [Device.port_modPort_self]; simp only [hc, h, Option.map_some]; exact hp

/-- A change of a port unit that leaves its request. -/
theorem current_modPort (d : Device) (p q : Port) (f : PortUnit → PortUnit) (hf : (f (d.port q)).current = (d.port q).current) :
    ((d.modPort p f).port q).current = (d.port q).current := by
  rw [Device.port_modPort]; split
  · exact hf
  · rfl

theorem hold_lt {d : Device} {p : Port} {c : Current} {k : HoldCause} (h : (d.port p).current = some c) (hp : c.phase = .ordering)
    (t : Device) (hs : t.startup = d.startup) (hc : ∀ q, (t.port q).current = (d.port q).current) (hw : t.poolWait = d.poolWait)
    (he : t.entries = d.entries) (hq : t.commitQueue = d.commitQueue) : (t.hold p k).remaining < d.remaining := by
  refine setPhase_lt h (by simp [requestWeight, hp]) _ ?_ ?_ ?_ ?_ ?_
  · rw [Device.modPort_startup, hs]
  · exact fun q => (current_modPort t p q _ rfl).trans (hc q)
  · rw [Device.modPort_poolWait, hw]
  · rw [Device.modPort_entries, he]
  · rw [Device.modPort_commitQueue, hq]

theorem release_lt {d : Device} {p : Port} {c : Current} {k : HoldCause} (h : (d.port p).current = some c) (hp : c.phase = .held k)
    (t : Device) (hs : t.startup = d.startup) (hc : ∀ q, (t.port q).current = (d.port q).current) (hw : t.poolWait = d.poolWait)
    (he : t.entries = d.entries) (hq : t.commitQueue = d.commitQueue) : (t.release p).remaining < d.remaining := by
  refine setPhase_lt h (by simp [requestWeight, hp]) _ ?_ ?_ ?_ ?_ ?_
  · rw [Device.modPort_startup, hs]
  · exact fun q => (current_modPort t p q _ rfl).trans (hc q)
  · rw [Device.modPort_poolWait, hw]
  · rw [Device.modPort_entries, he]
  · rw [Device.modPort_commitQueue, hq]

theorem leaveOrdering_lt {d : Device} {p : Port} {c : Current} (h : (d.port p).current = some c) (hp : c.phase = .ordering) :
    (d.leaveOrdering p c).remaining < d.remaining := by
  have perform : ∀ t : Device, t.startup = d.startup → (∀ q, (t.port q).current = (d.port q).current) → t.poolWait = d.poolWait →
      t.entries = d.entries → t.commitQueue = d.commitQueue → (t.setPhase p .performing).remaining < d.remaining :=
    setPhase_lt h (by simp [requestWeight, hp])
  have self := perform d rfl (fun _ => rfl) rfl rfl rfl
  have held : (d.hold p .consumerHold).remaining < d.remaining := hold_lt h hp d rfl (fun _ => rfl) rfl rfl rfl
  have lock : ∀ l q, ((d.setLock p l).port q).current = (d.port q).current := fun l q => current_modPort _ _ _ _ rfl
  unfold Device.leaveOrdering
  split
  · split
    · exact held
    · exact self
  · split
    · exact held
    · exact self
  · split
    · unfold Device.openExclusive
      dsimp only
      split
      · refine perform _ ?_ ?_ ?_ ?_ ?_
        · exact Device.modPort_startup d p _
        · exact fun q => (by cases q <;> rfl : _ = ((d.setLock p (.opening .exclusive c.request.address.toNat)).port q).current).trans (lock _ q)
        · exact Device.modPort_poolWait d p _
        · exact Device.modPort_entries d p _
        · exact Device.modPort_commitQueue d p _
      all_goals
        exact hold_lt h hp _ (Device.modPort_startup d p _) (lock _) (Device.modPort_poolWait d p _) (Device.modPort_entries d p _)
          (Device.modPort_commitQueue d p _)
    · exact self
  · split
    · exact perform _ (Device.modPort_startup d p _) (lock _) (Device.modPort_poolWait d p _) (Device.modPort_entries d p _)
        (Device.modPort_commitQueue d p _)
    · exact self
  · exact self
  · exact self

theorem enterQueue_lt {d : Device} {p : Port} {c : Current} (h : (d.port p).current = some c) (r : Request) :
    (d.enterQueue p r).remaining < d.remaining := by
  have hc := requestWeight_some c
  unfold Device.enterQueue Device.answer
  rw [Device.modPort_modPort]
  refine remaining_lt_of_request p ?_ ?_ ?_ ?_ ?_ ?_
  · rw [Device.modPort_startup]
  · rw [Device.port_modPort_other]
  · exact Device.modPort_poolWait d p _
  · exact Device.modPort_entries d p _
  · exact Device.modPort_commitQueue d p _
  · rw [Device.port_modPort_self, h]
    show requestWeight none < _
    rw [show requestWeight none = 0 from rfl]
    omega

/-- The service of the head, or a check that leaves it. -/
theorem servePool_lt {d : Device} (h : d.poolCheckDue = true) : d.servePool.remaining < d.remaining := by
  have hdue : (if d.poolCheckDue = true then 1 else 0) = 1 := if_pos h
  unfold Device.poolCheckDue at h
  unfold Device.servePool
  split
  · rename_i hw; rw [hw] at h; exact absurd h Bool.false_ne_true
  · rename_i x rest hw
    simp only [hw, Bool.and_eq_true] at h
    obtain ⟨c, hc⟩ := Option.isSome_iff_exists.1 h.1
    rw [hc]
    dsimp only
    split
    · obtain ⟨hs, hk, hq⟩ := Brings.acceptWrite { d with poolWait := rest } x.port x.window c.request c.closing
      generalize Device.acceptWrite { d with poolWait := rest } x.port x.window c.request c.closing = t at hs hk hq ⊢
      have hs' : t.startup = d.startup := hs.trans (Device.modPort_startup _ _ _)
      have hq' : queueWeight t.commitQueue ≤ queueWeight d.commitQueue + 68 := by
        refine hq.trans (le_of_eq ?_)
        unfold Device.answer
        rw [Device.modPort_commitQueue]
      have hn : (t.port x.port).current = none := by rw [hk]; unfold Device.answer; rw [Device.port_modPort_self]
      have ho : (t.port (otherPort x.port)).current = (d.port (otherPort x.port)).current := by
        rw [hk]; unfold Device.answer; rw [Device.port_modPort_other]; cases x.port <;> rfl
      have hc70 := requestWeight_some c
      rw [← hc] at hc70
      have hz : requestWeight none = 0 := rfl
      unfold Device.remaining
      rw [hs', hdue]
      have ht : (if t.poolCheckDue = true then 1 else 0) ≤ 1 := by split <;> omega
      revert hn ho hc70
      cases x.port <;> simp only [otherPort, Device.port] <;> intro hn ho hc70 <;> rw [hn, ho, hz] <;> omega
    · rw [if_pos h.2]
      have hf : (Device.poolCheckDue { d with
          poolWait := { x with need := d.need x.window c.request, checkedAt := some d.freeCount } :: rest }) = false := by
        simp [Device.poolCheckDue, Waiter.checkDue, Device.freeCount]
      unfold Device.remaining
      rw [hf, hdue]
      simp

/-- Neither start-up nor a request, a waiter or an entry changes. -/
def SameWaits (d t : Device) : Prop :=
  t.startup = d.startup ∧ t.portA = d.portA ∧ t.portB = d.portB ∧ t.poolWait = d.poolWait ∧ t.entries = d.entries

theorem remaining_lt_of_queue {d t : Device} (h : SameWaits d t) (hq : queueWeight t.commitQueue < queueWeight d.commitQueue) :
    t.remaining < d.remaining := by
  obtain ⟨h1, h2, h3, h4, h5⟩ := h
  have hp : ∀ p, t.port p = d.port p := fun p => by cases p <;> assumption
  have hd : t.poolCheckDue = d.poolCheckDue := by
    unfold Device.poolCheckDue Device.freeCount
    rw [h4, h5]
    simp only [hp]
  unfold Device.remaining
  rw [h1, h2, h3, hd]
  omega

/-- The start of an item. -/
theorem startItem_lt {d : Device} (h : d.itemCanStart = true) : d.startItem.remaining < d.remaining := by
  unfold Device.itemCanStart at h
  split at h
  · rename_i w k rest hq
    have hi : itemWeight ⟨w, k, some ⟨.starting, d.plannedOf w k, 0, false, 0, [], 0⟩⟩ < itemWeight ⟨w, k, none⟩ := by
      cases k <;> simp [itemWeight]
    unfold Device.startItem
    rw [hq]
    dsimp only
    refine remaining_lt_of_queue ⟨rfl, rfl, rfl, rfl, rfl⟩ ?_
    rw [Device.modRt_commitQueue, hq, queueWeight_cons, queueWeight_cons]
    omega
  · exact absurd h Bool.false_ne_true

/-- Once its item is no longer in STARTING, a window's entry to STATUS brings no more than the SAFE item that follows an EPOCH item. -/
theorem enterStatus_waits (d : Device) (w : Slot16) (k : ItemKind) (pr : Progress) :
    SameWaits d (d.enterStatus w k pr) ∧
      queueWeight (d.enterStatus w k pr).commitQueue ≤ queueWeight d.commitQueue + if k = .epoch then 2 else 0 := by
  unfold Device.enterStatus
  split
  · refine ⟨⟨rfl, rfl, rfl, rfl, rfl⟩, ?_⟩
    refine (queueWeight_map_le _ (fun it => ?_) _).trans (Nat.le_add_right _ _)
    split
    · obtain ⟨_, k', _⟩ := it; cases k' <;> simp [itemWeight]
    · exact le_rfl
  · cases k with
    | epoch =>
      unfold Device.completeItem Device.completeEpoch
      dsimp only
      have hf := queueWeight_filter_le (fun it => it.window != w) d.commitQueue
      split
      · refine ⟨⟨rfl, rfl, rfl, rfl, rfl⟩, ?_⟩
        show queueWeight (d.commitQueue.filter (fun it => it.window != w) ++ [⟨w, .safe, none⟩]) ≤ _
        rw [queueWeight_append, queueWeight_cons]
        simp only [queueWeight, List.map_nil, List.sum_nil, itemWeight, if_true] at hf ⊢
        omega
      · exact ⟨⟨rfl, rfl, rfl, rfl, rfl⟩, hf.trans (Nat.le_add_right _ _)⟩
    | safe => exact ⟨⟨rfl, rfl, rfl, rfl, rfl⟩, (queueWeight_filter_le _ _).trans (Nat.le_add_right _ _)⟩

/-- The hold of a window, with its item's entry to WRITING. -/
theorem setConsumerHold_lt {d : Device} (h : d.holdCanBeSet = true) : d.setConsumerHold.remaining < d.remaining := by
  unfold Device.setConsumerHold
  rw [if_pos h]
  unfold Device.holdCanBeSet at h
  split at h
  · rename_i w k pr rest hq
    have hs : pr.phase = .starting := by simp at h; exact h.1.1
    obtain ⟨t, ht⟩ : ∃ t : Device, t = { d with commitQueue := ⟨w, k, some { pr with phase := .writing }⟩ :: rest }.modRt w
      fun r => { r with consumerHold := true } := ⟨_, rfl⟩
    have hw : SameWaits d t := by rw [ht]; exact ⟨rfl, rfl, rfl, rfl, rfl⟩
    have htq : t.commitQueue = ⟨w, k, some { pr with phase := .writing }⟩ :: rest := by rw [ht]; rfl
    have hweight : queueWeight t.commitQueue + (if k = .epoch then 3 else 1) = queueWeight d.commitQueue := by
      rw [htq, hq, queueWeight_cons, queueWeight_cons]
      cases k <;> simp [itemWeight, hs] <;> omega
    rw [← ht]
    have hi : t.itemOf w = some ⟨w, k, some { pr with phase := .writing }⟩ := by simp [Device.itemOf, htq]
    unfold Device.checkWritten
    rw [hi]
    dsimp only
    split
    · obtain ⟨⟨e1, e2, e3, e4, e5⟩, e6⟩ := enterStatus_waits t w k { pr with phase := .writing }
      refine remaining_lt_of_queue ⟨e1.trans hw.1, e2.trans hw.2.1, e3.trans hw.2.2.1, e4.trans hw.2.2.2.1,
        e5.trans hw.2.2.2.2⟩ ?_
      cases k <;> simp at hweight e6 <;> omega
    · exact remaining_lt_of_queue hw (by cases k <;> simp at hweight <;> omega)
  · exact absurd h Bool.false_ne_true

/-- RESET is left. -/
theorem releaseReset_lt {d : Device} (h : d.resetCanEnd = true) (s : Straps) : (d.releaseReset s).remaining < d.remaining := by
  have hr : d.startup.state = .reset := by simp [Device.resetCanEnd] at h; exact h.1.1
  unfold Device.releaseReset
  rw [if_pos hr]
  have main : ∀ t : Device, t.startup.state ≠ .reset → t.portA.current = d.portA.current → t.portB.current = d.portB.current →
      t.poolWait = d.poolWait → t.entries = d.entries → t.commitQueue = d.commitQueue → t.remaining < d.remaining := by
    intro t h1 h2 h3 h4 h5 h6
    have hp : ∀ p, (t.port p).current = (d.port p).current := fun p => by cases p <;> assumption
    have hd : t.poolCheckDue = d.poolCheckDue := by
      unfold Device.poolCheckDue Device.freeCount
      rw [h4, h5]
      simp only [hp]
    unfold Device.remaining
    rw [if_pos hr, if_neg h1, h2, h3, h6, hd]
    omega
  unfold Device.leaveReset
  dsimp only
  split
  · unfold Device.sampleStraps
    dsimp only
    split
    · exact main _ (by simp) rfl rfl rfl rfl rfl
    · exact main _ (by simp [Device.enterTransparent, Startup.enterReady]) rfl rfl rfl rfl rfl
  · exact main _ (by simp) rfl rfl rfl rfl rfl

/-- An event that is due takes something off what is left to do. -/
theorem take_lt {d : Device} {u : Urgent} (h : d.isReady u = true) : (d.take u).remaining < d.remaining := by
  cases u with
  | resetRelease => exact releaseReset_lt h _
  | reservation p =>
    have hh : d.handoffReady p = true := h
    show (d.handReservation p).remaining < _
    unfold Device.handReservation
    rw [if_pos hh]
    simp only [Device.handoffReady, Device.heldOn, Bool.and_eq_true] at hh
    obtain ⟨-, hh⟩ := hh
    split at hh
    · rename_i c hc
      exact release_lt hc (eq_of_beq hh) _ rfl (fun q => by cases q <;> rfl) rfl rfl rfl
    · exact absurd hh Bool.false_ne_true
  | orderingEnd p =>
    have hh : d.orderingDone p = true := h
    show (d.endOrdering p).remaining < _
    unfold Device.endOrdering
    rw [if_pos hh]
    unfold Device.orderingDone at hh
    split at hh
    · rename_i c hc
      rw [Bool.and_eq_true] at hh
      exact leaveOrdering_lt hc (eq_of_beq hh.1)
    · exact absurd hh Bool.false_ne_true
  | queueSpace p =>
    have hh : d.queueReady p = true := h
    show (d.enterHeldWrite p).remaining < _
    unfold Device.enterHeldWrite
    rw [if_pos hh]
    unfold Device.queueReady at hh
    split at hh
    · rename_i c hc
      exact enterQueue_lt hc _
    · exact absurd hh Bool.false_ne_true
  | poolService => exact servePool_lt h
  | readAdmitted p =>
    have hh : d.readReady p = true := h
    show (d.admitRead p).remaining < _
    unfold Device.admitRead
    rw [if_pos hh]
    unfold Device.readReady at hh
    split at hh
    · rename_i c hc
      rw [Bool.and_eq_true] at hh
      exact release_lt hc (eq_of_beq hh.1) _ rfl (fun _ => rfl) rfl rfl rfl
    · exact absurd hh Bool.false_ne_true
  | holdSet => exact setConsumerHold_lt h
  | itemStart => exact startItem_lt h

/-! ## Settling -/

/-- The first due event is due. -/
theorem isReady_of_urgent {d : Device} {u : Urgent} (h : d.urgent = some u) : d.isReady u = true :=
  List.find?_some h

theorem settleWithin_of_urgent {d : Device} {u : Urgent} (h : d.urgent = some u) (n : Nat) :
    d.settleWithin (n + 1) = (d.take u).settleWithin n := by rw [Device.settleWithin, h]

theorem settleWithin_of_settled {d : Device} (h : Settled d) (n : Nat) : d.settleWithin n = d := by
  cases n with
  | zero => rfl
  | succ n => rw [Device.settleWithin, show d.urgent = none from h]

/-- Every bound above what is left to do settles the part, and the same way. -/
theorem settleWithin_eq (n : Nat) : ∀ (d : Device) (m : Nat), d.remaining ≤ n → d.remaining ≤ m →
    Settled (d.settleWithin n) ∧ d.settleWithin m = d.settleWithin n := by
  induction n with
  | zero =>
    intro d m hn _
    have hs : Settled d := by
      cases h : d.urgent with
      | none => exact h
      | some u => have := take_lt (isReady_of_urgent h); omega
    exact ⟨hs, settleWithin_of_settled hs m⟩
  | succ n ih =>
    intro d m hn hm
    cases h : d.urgent with
    | none => rw [settleWithin_of_settled h, settleWithin_of_settled h]; exact ⟨h, rfl⟩
    | some u =>
      have hlt := take_lt (isReady_of_urgent h)
      obtain ⟨m, rfl⟩ : ∃ k, m = k + 1 := ⟨m - 1, by omega⟩
      rw [settleWithin_of_urgent h, settleWithin_of_urgent h]
      exact ih _ m (by omega) (by omega)

/-- Settling leaves no event of the moment (log 2). -/
theorem settled_settle (d : Device) : Settled d.settle :=
  (settleWithin_eq d.momentBound d d.momentBound (remaining_le_momentBound d) (remaining_le_momentBound d)).1

/-- Settling takes the first due event, and settles what it leaves (log 2). -/
theorem settle_of_urgent {d : Device} {u : Urgent} (h : d.urgent = some u) : d.settle = (d.take u).settle := by
  have h1 := settleWithin_eq (d.momentBound + (d.take u).momentBound + 1) d d.momentBound
    ((remaining_le_momentBound d).trans (by omega)) (remaining_le_momentBound d)
  have h2 := settleWithin_eq (d.momentBound + (d.take u).momentBound) (d.take u) (d.take u).momentBound
    ((remaining_le_momentBound _).trans (by omega)) (remaining_le_momentBound _)
  unfold Device.settle
  rw [h1.2, h2.2, settleWithin_of_urgent h]

end Sys2Proof.Machine
end

