-- ==== Sys2Proof/Laws/Time.lean ====
section
/-! SUPPORT. What time that passes before an expiry leaves (log 4, R166): everything but timers, references and device time. -/

namespace Sys2Proof.Machine

/-- A microsecond timer reaches 0 with the increase of device time that brings it there (R166). -/
theorem untilZero_le (c : Clock) (us n : Nat) (h : 0 < c.perUs) : c.untilZero us ≤ n ↔ us ≤ (c.sub + n) / c.perUs := by
  unfold Clock.untilZero
  rw [Nat.le_div_iff_mul_le h]
  split
  · rename_i h0
    subst h0
    simp
  · omega

theorem advance_win (d : Device) (n : Nat) (w : Slot16) :
    (d.advance n).win w = (d.win w).elapse ((d.clock.sub + n) / d.clock.perUs) := by
  simp [Device.advance, Device.win]

/-- A timer that runs is among those that time runs to (log 4). -/
theorem mem_dueTimes (d : Device) (e : Expiry) (t : Nat) (h : d.timeLeft e = some t) : t ∈ d.dueTimes := by
  have timer : ∀ a, a ∈ d.timers → d.clock.untilZero a ∈ d.dueTimes := fun a ha =>
    List.mem_append_left _ (List.mem_map_of_mem ha)
  have loss : ∀ x, d.untilLoss x = some t → t ∈ d.dueTimes := fun x hx =>
    List.mem_append_right _ (List.mem_filterMap.2 ⟨x, by cases x <;> simp, hx⟩)
  cases e <;> simp only [Device.timeLeft, Option.map_eq_some_iff] at h
  case holdLimit p =>
    split at h
    · obtain ⟨a, h1, rfl⟩ := Option.map_eq_some_iff.1 h
      exact timer a (by cases p <;> simp_all [Device.timers, Device.port])
    · cases h
  case poolWait p =>
    split at h
    · obtain ⟨a, h1, rfl⟩ := Option.map_eq_some_iff.1 h
      exact timer a (by cases p <;> simp_all [Device.timers, Device.port])
    · cases h
  case acquisition x =>
    split at h
    · exact loss x h
    · cases h
  case sync x =>
    split at h
    · exact loss x h
    · cases h
  case watchdog w =>
    obtain ⟨a, h1, rfl⟩ := h
    exact timer a (List.mem_append_left _ (List.mem_filterMap.2 ⟨w, (by decide : ∀ w : Slot16, w ∈ allWindows) w, h1⟩))
  case lockLimit p =>
    obtain ⟨a, h1, rfl⟩ := h
    exact timer a (by cases p <;> simp_all [Device.timers, Device.port])
  all_goals
    obtain ⟨a, h1, rfl⟩ := h
    exact timer a (by simp_all [Device.timers])

theorem reached_port (d : Device) (t : Nat) (p : Port) :
    ((d.reached t).port p).current = (d.port p).current ∧ ((d.reached t).port p).kind = (d.port p).kind ∧
      ((d.reached t).port p).queue = (d.port p).queue := by
  unfold Device.reached
  split
  · simp
  · cases p <;> simp [Device.advance, Device.port, PortUnit.elapse]

theorem reached_rt (d : Device) (t : Nat) (w : Slot16) :
    ((d.reached t).win w).desc = (d.win w).desc ∧ ∃ x, (d.reached t).rt w = { d.rt w with watchdog := x } := by
  unfold Device.reached
  split
  · exact ⟨rfl, _, rfl⟩
  · simp [Device.advance, Device.win, Device.rt, Window.elapse]

theorem reached_openEpoch (d : Device) (t : Nat) (w : Slot16) : ((d.reached t).rt w).openEpoch = (d.rt w).openEpoch := by
  obtain ⟨x, hx⟩ := (reached_rt d t w).2
  simp [hx]

theorem reached_raised (d : Device) (t : Nat) : (d.reached t).raised = d.raised := by
  funext w
  obtain ⟨x, hx⟩ := (reached_rt d t w).2
  simp [Device.raised, hx]

theorem reached_touchedBlocks (d : Device) (t : Nat) (r : Request) : (d.reached t).touchedBlocks r = d.touchedBlocks r := by
  have h1 : (d.reached t).config = d.config := by unfold Device.reached; split <;> rfl
  have h2 : ∀ w, (d.reached t).statusBlockOn w = d.statusBlockOn w := by
    intro w
    simp [Device.statusBlockOn, (reached_rt d t w).1]
  simp only [Device.touchedBlocks, h1, h2]

theorem reached_stores (d : Device) (t : Nat) : (d.reached t).commitQueue = d.commitQueue ∧
    (d.reached t).entries = d.entries ∧ (d.reached t).poolWait = d.poolWait ∧ (d.reached t).mem = d.mem ∧
    (d.reached t).fault = d.fault ∧ (d.reached t).config = d.config := by
  unfold Device.reached
  split <;> simp [Device.advance]

theorem reached_itemOf (d : Device) (t : Nat) (w : Slot16) : (d.reached t).itemOf w = d.itemOf w := by
  simp [Device.itemOf, (reached_stores d t).1]

/-- A lock record keeps its kind and word while its limit runs. -/
theorem reached_opened (d : Device) (t : Nat) (p : Port) (k : LockKind) (a rem : Nat) (h : (d.port p).lock = .opened k a rem) :
    ∃ x, ((d.reached t).port p).lock = .opened k a x := by
  unfold Device.reached
  split
  · exact ⟨rem, h⟩
  · cases p <;> simp_all [Device.advance, Device.port, PortUnit.elapse, LockRecord.elapse]

theorem reached_closing (d : Device) (t : Nat) (p : Port) (k : LockKind) (a rem : Nat)
    (h : (d.port p).lock = .closing k a (some rem)) : ∃ n, ((d.reached t).port p).lock = .closing k a (some n) := by
  unfold Device.reached
  split
  · exact ⟨_, h⟩
  · cases p <;> simp_all [Device.advance, Device.port, PortUnit.elapse, LockRecord.elapse]

theorem reached_monitor (d : Device) (t : Nat) (x : Strobe) :
    ((d.reached t).monitors.get x).state = (d.monitors.get x).state := by
  unfold Device.reached
  split
  · rfl
  · cases x <;> rfl

theorem reached_lct (d : Device) (t : Nat) : (d.reached t).lct.running = d.lct.running ∧
    (d.reached t).lct.period = d.lct.period ∧ (d.reached t).lct.next = d.lct.next := by
  unfold Device.reached
  split <;> simp [Device.advance]

theorem elapseUpTo_startup_state (d : Device) (n : Nat) : (d.elapseUpTo n).startup.state = d.startup.state := by
  unfold Device.elapseUpTo
  simp only []
  split <;> rfl

end Sys2Proof.Machine
end

