-- ==== Sys2Proof/Laws/Watchdog.lean ====
section
/-! SUPPORT. What the expiry of a watchdog leaves of the windows (R110, R113, R115, R116), and what the expiries of one moment leave
(log 36). -/

namespace Sys2Proof.Machine

/-- The other windows are untouched, and the window named keeps its state, its watchdog and its count of trips. -/
def KeepsTrip (w : Slot16) (d t : Device) : Prop :=
  (∀ v, v ≠ w → t.win v = d.win v) ∧ (t.rt w).state = (d.rt w).state ∧ (t.rt w).watchdog = (d.rt w).watchdog ∧
    (t.rt w).counters.trips = (d.rt w).counters.trips

namespace KeepsTrip

variable {w : Slot16} {d t u : Device}

theorem refl (w : Slot16) (d : Device) : KeepsTrip w d d := ⟨fun _ _ => rfl, rfl, rfl, rfl⟩

theorem trans (h : KeepsTrip w d t) (g : KeepsTrip w t u) : KeepsTrip w d u :=
  ⟨fun v hv => (g.1 v hv).trans (h.1 v hv), g.2.1.trans h.2.1, g.2.2.1.trans h.2.2.1, g.2.2.2.trans h.2.2.2⟩

/-- A change of the window's record that leaves the three. -/
theorem modRt (h : KeepsTrip w d t) (f : Runtime → Runtime)
    (hf : ∀ r, (f r).state = r.state ∧ (f r).watchdog = r.watchdog ∧ (f r).counters.trips = r.counters.trips) :
    KeepsTrip w d (t.modRt w f) := by
  refine h.trans ⟨fun v hv => ?_, ?_⟩
  · rw [Device.win_modRt, if_neg hv]
  · rw [Device.rt_modRt_self]; exact hf _

/-- A change of anything but the windows. -/
theorem rest (h : KeepsTrip w d t) (hw : u.windows = t.windows) : KeepsTrip w d u := by
  have hu : ∀ v, u.win v = t.win v := fun v => by simp only [Device.win, hw]
  exact h.trans ⟨fun v _ => hu v, by simp only [Device.rt, hu, and_self]⟩

theorem setFlag (h : KeepsTrip w d t) (f : Flag) : KeepsTrip w d (t.setFlag f) := h.rest rfl

theorem offer (h : KeepsTrip w d t) (r : Report) : KeepsTrip w d (t.offer r) := h.rest rfl

theorem join (h : KeepsTrip w d t) (k : ItemKind) : KeepsTrip w d (t.join w k) := h.rest rfl

theorem modItem (h : KeepsTrip w d t) (f : Item → Item) : KeepsTrip w d (t.modItem w f) := h.rest rfl

theorem removeItem (h : KeepsTrip w d t) : KeepsTrip w d (t.removeItem w) := h.rest rfl

theorem clearHold (h : KeepsTrip w d t) : KeepsTrip w d (t.clearHold w) := by
  unfold Device.clearHold
  exact h.modRt _ fun _ => ⟨rfl, rfl, rfl⟩

theorem completeEpoch (h : KeepsTrip w d t) : KeepsTrip w d (t.completeEpoch w) := by
  unfold Device.completeEpoch
  dsimp only
  split
  · refine KeepsTrip.join (KeepsTrip.modRt (KeepsTrip.removeItem (KeepsTrip.setFlag (KeepsTrip.modRt h.clearHold _ ?_) _)) _ ?_) _ <;>
      exact fun _ => ⟨rfl, rfl, rfl⟩
  · refine KeepsTrip.removeItem (KeepsTrip.setFlag (KeepsTrip.modRt h.clearHold _ ?_) _)
    exact fun _ => ⟨rfl, rfl, rfl⟩

theorem completeItem (h : KeepsTrip w d t) (k : ItemKind) : KeepsTrip w d (t.completeItem w k) := by
  cases k
  · exact h.completeEpoch
  · exact (h.clearHold.setFlag _).removeItem

theorem checkWritten (h : KeepsTrip w d t) : KeepsTrip w d (t.checkWritten w) := by
  unfold Device.checkWritten
  split
  · split
    · unfold Device.enterStatus
      split
      · refine KeepsTrip.modRt (h.modItem _) _ ?_
        exact fun _ => ⟨rfl, rfl, rfl⟩
      · exact h.completeItem _
    · exact h
  · exact h

theorem discardDraining (h : KeepsTrip w d t) : KeepsTrip w d (t.discardDraining w) := by
  unfold Device.discardDraining Device.modCounters
  refine KeepsTrip.modRt (h.rest ?_) _ ?_
  · rfl
  · exact fun _ => ⟨rfl, rfl, rfl⟩

theorem convertItem (h : KeepsTrip w d t) (p : Option Progress) : KeepsTrip w d (t.convertItem w p) := by
  unfold Device.convertItem
  refine KeepsTrip.modRt (h.discardDraining.modItem _) _ ?_
  exact fun _ => ⟨rfl, rfl, rfl⟩

theorem continueAsSafe (h : KeepsTrip w d t) (pr : Progress) (n : Nat) : KeepsTrip w d (t.continueAsSafe w pr n) := by
  unfold Device.continueAsSafe
  dsimp only
  split
  · exact h.discardDraining.modItem _
  · refine KeepsTrip.checkWritten (KeepsTrip.modRt (h.discardDraining.modItem _) _ ?_)
    exact fun _ => ⟨rfl, rfl, rfl⟩

theorem immediateSafeLoad (h : KeepsTrip w d t) : KeepsTrip w d (t.immediateSafeLoad w) := by
  unfold Device.immediateSafeLoad
  dsimp only
  split
  · exact h.join _
  · exact h
  · exact h.convertItem _
  · split
    · exact h.convertItem _
    · exact h.continueAsSafe _ _
    · refine h.modRt _ ?_
      exact fun _ => ⟨rfl, rfl, rfl⟩

end KeepsTrip

/-- A trip of a window (R113): the window is TRIPPED, its watchdog stopped, the trip counted, and no other window changes. -/
theorem trip_windows (d : Device) (w : Slot16) (mode : TripMode) :
    (∀ v, v ≠ w → (d.trip w mode).win v = d.win v) ∧ ((d.trip w mode).rt w).state = .tripped ∧
      ((d.trip w mode).rt w).watchdog = none ∧
      ((d.trip w mode).rt w).counters.trips = satInc (d.rt w).counters.trips := by
  obtain ⟨t, ht⟩ : ∃ t, t = d.modRt w fun r =>
    { r with state := .tripped, watchdog := none, counters := { r.counters with trips := satInc r.counters.trips } } := ⟨_, rfl⟩
  have h : KeepsTrip w t (d.trip w mode) := by
    rw [ht]
    cases mode
    · exact (((KeepsTrip.refl w _).setFlag _).offer _).immediateSafeLoad
    · refine KeepsTrip.modRt (((KeepsTrip.refl w _).setFlag _).offer _) _ ?_
      exact fun _ => ⟨rfl, rfl, rfl⟩
  have hr : t.rt w = { d.rt w with
      state := .tripped, watchdog := none
      counters := { (d.rt w).counters with trips := satInc (d.rt w).counters.trips } } := by
    rw [ht, Device.rt_modRt_self]
  refine ⟨fun v hv => (h.1 v hv).trans ?_, h.2.1.trans ?_, h.2.2.1.trans ?_, h.2.2.2.trans ?_⟩
  · rw [ht, Device.win_modRt, if_neg hv]
  all_goals rw [hr]

/-- The expiry of a watchdog changes no other window. -/
theorem watchdogExpires_win (d : Device) {w v : Slot16} (hv : v ≠ w) : (d.watchdogExpires w).win v = d.win v := by
  unfold Device.watchdogExpires
  split
  · split
    · exact (trip_windows d w _).1 v hv
    · rfl
  · rfl

/-- Expiries change no window but those they are for. -/
theorem foldl_watchdogExpires_win (ws : List Slot16) (v : Slot16) (hv : v ∉ ws) (d : Device) :
    (ws.foldl Device.watchdogExpires d).win v = d.win v := by
  induction ws generalizing d with
  | nil => rfl
  | cons w ws ih =>
    rw [List.mem_cons, not_or] at hv
    rw [List.foldl_cons, ih hv.2, watchdogExpires_win d hv.1]

theorem mem_expired (d : Device) (w : Slot16) :
    w ∈ allWindows.filter (fun w => (d.rt w).watchdog == some 0) ↔ (d.rt w).watchdog = some 0 := by
  simp [List.mem_filter, mem_allWindows w]

theorem nodup_allWindows : allWindows.Nodup := by decide

/-- With no watchdog at 0 nothing expires. -/
theorem tripExpired_of_none {d : Device} (h : ∀ w, (d.rt w).watchdog ≠ some 0) : d.tripExpired = d := by
  unfold Device.tripExpired
  rw [List.filter_eq_nil_iff.2 fun w _ => by simp [h w]]
  rfl

/-- A window whose watchdog is not at 0 is left as it is. -/
theorem tripExpired_win {d : Device} {w : Slot16} (h : (d.rt w).watchdog ≠ some 0) : d.tripExpired.win w = d.win w :=
  foldl_watchdogExpires_win _ _ (fun hw => h ((mem_expired d w).1 hw)) _

/-- The one watchdog at 0 expires. -/
theorem tripExpired_of_one {d : Device} {w : Slot16} (h : (d.rt w).watchdog = some 0)
    (ho : ∀ v, v ≠ w → (d.rt v).watchdog ≠ some 0) : d.tripExpired = d.watchdogExpires w := by
  have hf : allWindows.filter (fun v => (d.rt v).watchdog == some 0) = allWindows.filter fun v => v == w := by
    refine List.filter_congr fun v _ => ?_
    by_cases hv : v = w
    · simp [hv, h]
    · simp [hv, ho v hv]
  have h1 : ∀ w : Slot16, (allWindows.filter fun v => v == w) = [w] := by decide
  unfold Device.tripExpired
  rw [hf, h1]
  rfl

/-- A window that expiries are for is tripped by the first that is for it. -/
theorem foldl_watchdogExpires_tripped (ws : List Slot16) (w : Slot16) (hw : w ∈ ws) (hn : ws.Nodup) (d : Device) (ds : Descriptor)
    (hd : (d.win w).desc = some ds) (hr : (d.rt w).state = .running) :
    ((ws.foldl Device.watchdogExpires d).rt w).state = .tripped ∧ ((ws.foldl Device.watchdogExpires d).rt w).watchdog = none ∧
      ((ws.foldl Device.watchdogExpires d).rt w).counters.trips = satInc (d.rt w).counters.trips := by
  induction ws generalizing d with
  | nil => exact absurd hw List.not_mem_nil
  | cons v ws ih =>
    rw [List.nodup_cons] at hn
    rw [List.foldl_cons]
    by_cases hv : w = v
    · have he : d.watchdogExpires w = d.trip w ds.tripMode := by simp only [Device.watchdogExpires, hd, hr, if_true]
      have hk := foldl_watchdogExpires_win ws w (hv ▸ hn.1) (d.watchdogExpires w)
      rw [← hv]
      simp only [Device.rt, hk]
      rw [he]
      exact (trip_windows d w _).2
    · have hk := watchdogExpires_win d hv
      have := ih ((List.mem_cons.1 hw).resolve_left hv) hn.2 (d.watchdogExpires v) (by rw [hk]; exact hd)
        (by simp only [Device.rt, hk]; exact hr)
      simpa only [Device.rt, hk] using this

/-- A RUNNING window whose watchdog is at 0 is tripped (R113). -/
theorem tripExpired_tripped {d : Device} {w : Slot16} {ds : Descriptor} (hd : (d.win w).desc = some ds)
    (hr : (d.rt w).state = .running) (h : (d.rt w).watchdog = some 0) :
    (d.tripExpired.rt w).state = .tripped ∧ (d.tripExpired.rt w).watchdog = none ∧
      (d.tripExpired.rt w).counters.trips = satInc (d.rt w).counters.trips :=
  foldl_watchdogExpires_tripped _ w ((mem_expired d w).2 h) (nodup_allWindows.filter _) d ds hd hr

end Sys2Proof.Machine
end

