-- ==== Sys2Proof/Tests/Slice0.lean ====
section
/-! SUPPORT. The package's own tests: ill-formed commands, words and bytes written out from the spec, one step of the commands on
small states, and for every statement with hypotheses a state that meets them. -/

namespace Sys2Proof.Machine.Test

/-! ## Small states -/

/-- READY in transparent mode, with both inputs deasserted. -/
def transparent : Device :=
  Device.enterTransparent { Device.reset with startup := { Device.reset.startup with pwrRst := false, settled := true } }

/-- A descriptor: eight words at 0x1000, produced by A, with status block, watchdog, closing word 7 and a safe image of two words. -/
def sampleDesc : Descriptor where
  words := [0x1000, 0x008B0008, 0, 0, 0, 0, 0, 0]
  base := 0x1000
  length := 8
  producer := .a
  consumerReads := true
  producerMin := .user
  consumerMin := .supervisor
  startRunning := true
  statusBlock := true
  source := .close
  fallback := .hold
  closePolicy := .loose
  closeOffset := some 7
  quota := 4
  watchdogPeriod := some 5
  tripMode := .immediate
  autoRearm := true
  safeImage := some ⟨0, 2⟩

/-- The record of the sample window, RUNNING with effective source CLOSE. -/
def sampleRuntime : Runtime :=
  { Runtime.off with state := .running, selected := .close, effective := .close, openEpoch := 1, watchdog := some 50 }

/-- READY with a loaded image of one window, slot 2, and a status area at 0x2000. -/
def loaded : Device :=
  { transparent with
    startup := { transparent.startup with transparent := false }
    windows := transparent.windows.set 2 ⟨some sampleDesc, sampleRuntime⟩
    safeStore := [0xAA, 0xBB]
    config := { transparent.config with statusArea := some 0x2000 } }

/-- The sample window with another descriptor. -/
def withDesc (f : Descriptor → Descriptor) (d : Device) : Device := d.modWin 2 fun x => { x with desc := x.desc.map f }

/-- A request of some beats with every byte enabled. -/
def request (k : AccessKind) (a : Nat) (beats : Nat) (locked : Bool) : Request :=
  ⟨k, BitVec.ofNat 24 a, List.replicate beats ⟨0xF, 0x11223344⟩, .user, locked⟩

/-- A supervisor's read. -/
def superRead (a : Nat) (beats : Nat) : Request := { request .read a beats false with privilege := .supervisor }

/-- A request in progress. -/
def current (r : Request) (c : Class) (ph : Phase) (closing : Bool) : Current := newCurrent r c ph closing

/-- A port with a request in progress, and a hold timer of 1 us where it is held. -/
def busy (p : Port) (c : Current) (d : Device) : Device :=
  d.modPort p fun u =>
    { u with current := some c, holdTimer := match c.phase with | .held _ => some 1 | .ordering => none | .performing => none }

/-- A port with slots in its queue. -/
def queued (p : Port) (n : Nat) (d : Device) : Device :=
  d.modPort p fun u => { u with queue := List.replicate n ⟨0x4000, 0xF, 7⟩ }

/-- An access outstanding at the memory port. -/
def accessing (k : AccessKind) (o : Owner) (dropped : Bool) (d : Device) : Device :=
  { d with mem := { d.mem with outstanding := some ⟨⟨k, 0x1000, 0xF, 7⟩, o, dropped⟩ } }

/-- A running item at the head of the commit queue. -/
def running (k : ItemKind) (pr : Progress) (d : Device) : Device := { d with commitQueue := [⟨2, k, some pr⟩] }

/-- The progress of an item in a phase. -/
def progress (ph : ItemPhase) (planned written status : Nat) : Progress := ⟨ph, planned, written, false, 0, [1, 2, 3, 4], status⟩

/-- A staging entry of the sample window. -/
def entry (offset : Nat) (e : EpochTag) : Entry := ⟨2, offset, 0xF, 9, e⟩

/-- What a command leaves of the part. -/
def after (i : Instr) (d : Device) : Device :=
  match exec i ⟨d, []⟩ with
  | .next t => t.dev
  | .fault _ => d
  | .refused _ => d

/-! ## Ill-formed commands -/

theorem test_wf_request : (Instr.portRequest .a (request .read 0 16 false)).wf = false ∧
    (Instr.portRequest .a (request .read 0 15 false)).wf = true := by decide

theorem test_wf_unknownCommand : (Instr.unknownCommand (.command 0x41)).wf = false ∧
    (Instr.unknownCommand (.command 0x42)).wf = true := by decide

theorem test_wf_windowCtrl : (Instr.unknownCommand (.windowCtrl 3 5)).wf = false ∧
    (Instr.unknownCommand (.windowCtrl 3 6)).wf = true ∧ (Instr.unknownCommand (.windowCtrl 3 0)).wf = true := by decide

theorem test_wf_timer : (Instr.unknownCommand (.timer 3 10)).wf = false ∧
    (Instr.unknownCommand (.timer 4 10)).wf = true := by decide

theorem test_wf_softReset : (Instr.unknownCommand (.softReset 2)).wf = false ∧
    (Instr.unknownCommand (.softReset 3)).wf = true := by decide

theorem test_wf_image : (Instr.imageReadComplete (List.replicate 142 0)).wf = false ∧
    (Instr.imageReadComplete (List.replicate 143 0)).wf = true ∧
    (Instr.imageReadComplete (List.replicate 656 0)).wf = false := by decide +kernel

/-! ## Bytes from the spec -/

theorem test_frame_setLevel : decodeFrame [0x13, 0x00, 0x00, 0x01, 0x00, 0x02, 0x03] = some (.setLevel 0x0000010002 3) := by decide

theorem test_frame_windowCtrl : decodeFrame [0x21, 0x05, 0x02] = some (.disable 5) := by decide

theorem test_frame_timer : decodeFrame [0x30, 0x03, 0x00, 0x00, 0x03, 0xE8] = some (.timerPeriod 1000) := by decide

theorem test_frame_notComplete : decodeFrame [0x21, 0x05] = none := by decide

/-- The CRC-16 with polynomial 0x1021 from 0xFFFF, over the bytes "123456789". -/
theorem test_crc : ([0x31, 0x32, 0x33, 0x34, 0x35, 0x36, 0x37, 0x38, 0x39] : List Byte).foldl crcByte 0xFFFF = 0x29B1 := by
  decide +kernel

theorem test_decodeTableWord : decodeTableWord 16 0x0005 = none := rfl

/-! ## Hypotheses of the statements: states that meet them -/

/-- The expiries before the local cycle timer's, in the model's order (log 3). -/
def beforeLct : List Expiry :=
  [.holdLimit .a, .holdLimit .b, .poolWait .a, .poolWait .b, .lockLimit .a, .lockLimit .b] ++
  (List.finRange 16).map .watchdog ++
  [.acquisition .tsa, .sync .tsa, .acquisition .tsb, .sync .tsb, .acquisition .fms, .sync .fms, .acquisition .fme, .sync .fme]

/-- With no due time at 0, no expiry is due. -/
theorem test_meets_quiet (d : Device) (h : ∀ x ∈ d.dueTimes, x ≠ 0) (e : Expiry) : d.timeLeft e ≠ some 0 :=
  fun he => h 0 (mem_dueTimes d e 0 he) rfl

theorem test_meets_IdleStepActsByItself :
    ({ Device.reset with startup := { Device.reset.startup with pwrRst := false } } : Device).urgent = some .resetRelease ∧
    (let d := { loaded with lct := ⟨true, 1000, none, some 0⟩ }
     Settled d ∧ d.timeLeft .lct = some 0 ∧ ∀ x ∈ beforeLct, d.timeLeft x ≠ some 0) ∧
    (let d := queued .a 1 loaded
     Settled d ∧ (∀ x ∈ d.dueTimes, x ≠ 0) ∧ d.mem.outstanding = none ∧ d.mem.exclusive = .free ∧
     Requester.channel .a ∈ d.mem.rotation ∧ d.pendingOf (.channel .a) ≠ none) ∧
    (Settled loaded ∧ (∀ x ∈ loaded.dueTimes, x ≠ 0) ∧ ∀ r ∈ loaded.mem.rotation, loaded.pendingOf r = none) ∧
    (let d := accessing .write (.posted .a) false (queued .a 1 loaded)
     Settled d ∧ (∀ x ∈ d.dueTimes, x ≠ 0) ∧ d.mem.outstanding ≠ none) := by decide

/-- A step with no command waiting is the row of what is due. -/
theorem test_step_idle :
    step ⟨{ Device.reset with startup := { Device.reset.startup with pwrRst := false } }, []⟩ =
      exec (.resetRelease Device.reset.straps) ⟨{ Device.reset with startup := { Device.reset.startup with pwrRst := false } }, []⟩ ∧
    step ⟨{ loaded with lct := ⟨true, 1000, none, some 0⟩ }, []⟩ = exec .lctExpiry ⟨{ loaded with lct := ⟨true, 1000, none, some 0⟩ }, []⟩ ∧
    step ⟨queued .a 1 loaded, []⟩ = exec .arbiterGrant ⟨queued .a 1 loaded, []⟩ := ⟨rfl, rfl, rfl⟩

theorem test_meets_IdleStepActsByItself_timers : 0 < loaded.clock.perUs ∧
    (loaded.monitors.get .tsa).since = none ∧
    (∀ k ∈ [HoldCause.consumerHold, .queueSpace, .lockWait, .poolWait],
      ((busy .a (current (request .write 0x4000 3 false) .plainWrite (.held k) false) loaded).port .a).current =
        some (current (request .write 0x4000 3 false) .plainWrite (.held k) false)) ∧
    (∀ p ∈ [Port.a, .b], (loaded.port p).current = none ∧ (loaded.port p).lock = .noLock) ∧
    ((loaded.setLock .a (.opened .exclusive 0x4000 5)).port .a).lock = .opened .exclusive 0x4000 5 ∧
    ((loaded.setLock .b (.closing (.window 2) 0x1000 (some 5))).port .b).lock = .closing (.window 2) 0x1000 (some 5) ∧
    (let d := loaded.setMonitor .tsa ⟨.acquiring, 1, some 7, 0, 0⟩
     (d.monitors.get .tsa).since = some 7 ∧ (d.monitors.get .tsa).state = .acquiring) ∧
    ((loaded.setMonitor .tsb ⟨.present, 3, some 7, 0, 0⟩).monitors.get .tsb).state = .present ∧
    loaded.startup.loader = .idle ∧
    ({ loaded with startup := { loaded.startup with loader := .retryWait 5 } } : Device).startup.loader = .retryWait 5 ∧
    loaded.timeLeft (.watchdog 2) = some 5000 ∧ 5000 ∈ loaded.dueTimes := by decide

theorem test_meets_CommandsFollowEventsOfTheMoment :
    ownEvent .readFlags = false ∧
    (busy .a (current (request .read 0x4000 1 false) .plainRead .ordering false) loaded).urgent = some (.orderingEnd .a) := by decide

theorem test_meets_RequestIsNotTaken :
    (Settled Device.reset ∧ Device.reset.startup.state ≠ .ready) ∧
    (let d := busy .a (current (request .read 0x4000 1 false) .plainRead .performing false) loaded
     Settled d ∧ d.startup.state = .ready ∧ (d.port .a).current ≠ none) := by decide

theorem test_meets_MalformedRequestIsRefused : Takes loaded .a ∧ Takes (loaded.setLock .b (.broken 0x1000)) .b ∧
    (request .read 0x1002 1 false).address.toNat % 4 ≠ 0 ∧
    (∃ b ∈ ({ request .write 0x1000 2 false with beats := [⟨0xF, 1⟩, ⟨0, 2⟩] } : Request).beats, b.mask = 0) ∧
    (request .read 0x1000 0 false).beats.length = 0 ∧ 8 < (request .read 0x1000 9 false).beats.length ∧
    (let r := request .read 0xFFFFFC 2 false; 0xFFFFFC < r.address.toNat + 4 * (r.beats.length - 1)) ∧
    (let r := request .read 0x1000 2 true; r.locked = true ∧ 1 < r.beats.length) := by decide

theorem test_meets_RefusedByClassification : TakesUnlocked loaded .a ∧ TakesUnlocked loaded .b ∧
    (let r := request .write 0x1000 1 false
     requestMalformed r = false ∧ r.locked = false ∧ loaded.classify .b r = .refuse .role (some 2)) ∧
    loaded.classify .b (request .read 0x1000 1 false) = .refuse .privilege (some 2) ∧
    loaded.classify .a (request .write 0x101C 2 false) = .refuse .limit (some 2) ∧
    loaded.classify .a (request .write 0x2000 1 false) = .refuse .statusWrite none ∧
    ({ loaded with config := { loaded.config with confinedA := true } } : Device).classify .a (request .read 0x4000 1 false) =
      .refuse .confined none := by decide

theorem test_meets_LockRecordTurnsRequestsAway :
    (let r := request .write 0x4000 1 true
     Takes loaded .a ∧ requestMalformed r = false ∧ (loaded.port .a).lock = .noLock ∧ r.locked = true ∧ r.kind = .write) ∧
    (let d := loaded.setLock .a (.opened .exclusive 0x4000 5)
     Takes d .a ∧ (d.port .a).lock = .opened .exclusive 0x4000 5 ∧
     (let r := request .write 0x4000 1 false; ¬(r.locked = true ∧ r.kind = .write ∧ r.address.toNat = 0x4000)) ∧
     (let r := request .read 0x4000 1 true; ¬(r.locked = true ∧ r.kind = .write ∧ r.address.toNat = 0x4000)) ∧
     (let r := request .write 0x4004 1 true; ¬(r.locked = true ∧ r.kind = .write ∧ r.address.toNat = 0x4000))) ∧
    (let d := loaded.setLock .a (.broken 0x4000)
     Takes d .a ∧ (d.port .a).lock = .broken 0x4000 ∧ (request .write 0x4000 1 true).address.toNat = 0x4000 ∧
     (let r := request .read 0x4000 1 true
      requestMalformed r = false ∧ ¬(r.locked = true ∧ r.kind = .write ∧ r.address.toNat = 0x4000))) := by decide

theorem test_meets_ClosingWriteFollowsItsClass :
    (let d := loaded.setLock .a (.opened .exclusive 0x4000 5)
     let r := request .write 0x4000 1 true
     Takes d .a ∧ requestMalformed r = false ∧ r.address.toNat = 0x4000 ∧ d.classify .a r = .handOn .plainWrite ∧
     ({ d with config := { d.config with confinedA := true } } : Device).classify .a r = .refuse .confined none) ∧
    (let d := loaded.setLock .a (.opened (.window 2) 0x1000 5)
     let r := request .write 0x1000 1 true
     Takes d .a ∧ d.classify .a r = .handOn (.producerWrite 2) ∧ (d.win 2).desc = some sampleDesc ∧
     d.coversClosing 2 r = false ∧ (d.openList 2).length + d.need 2 r ≤ sampleDesc.quota ∧
     (d.poolWait = [] ∧ d.entries.length + d.need 2 r ≤ 256) ∧
     (let f := { d with entries := [entry 1 .opened, entry 2 .opened, entry 3 .opened, entry 4 .opened] }
      ¬((f.openList 2).length + f.need 2 r ≤ sampleDesc.quota)) ∧
     (let f := { d with poolWait := [⟨.b, 2, 1, none⟩] }
      Takes f .a ∧ ¬(f.need 2 r = 0 ∨ (f.poolWait = [] ∧ f.entries.length + f.need 2 r ≤ 256)))) := by decide

theorem test_meets_ClosingWriteFollowsItsClass_closingWord :
    (let r := request .write 0x101C 1 true
     ∀ st ∈ [WindowState.running, .tripped, .paused],
       let d := (loaded.modRt 2 fun x => { x with state := st }).setLock .a (.opened (.window 2) 0x101C 5)
       Takes d .a ∧ (d.port .a).lock = .opened (.window 2) 0x101C 5 ∧ requestMalformed r = false ∧
       d.classify .a r = .handOn (.producerWrite 2) ∧ (d.win 2).desc = some sampleDesc ∧
       (d.openList 2).length + d.need 2 r ≤ sampleDesc.quota ∧ d.poolWait = [] ∧ d.entries.length + d.need 2 r ≤ 256 ∧
       d.coversClosing 2 r = true ∧ (d.rt 2).effective = .close ∧ (d.rt 2).state = st) ∧ sampleDesc.autoRearm = true := by
  decide

theorem test_meets_ClassificationIsSound :
    loaded.classify .a (request .read 0x4000 8 false) = .handOn .plainRead ∧
    loaded.classify .a (request .write 0x0FFC 1 false) = .handOn .plainWrite ∧
    loaded.classify .b (request .read 0x20FC 1 false) = .handOn .statusRead ∧
    loaded.classify .a (request .read 0x1000 8 false) = .handOn (.producerRead 2) ∧
    loaded.classify .a (request .write 0x101C 1 false) = .handOn (.producerWrite 2) ∧
    loaded.classify .b (superRead 0x1000 8) = .handOn (.consumerRead 2) := by decide

theorem test_meets_Refusals :
    (let ws := requestAddresses (request .write 0x101C 2 false)
     0x101C ∈ ws ∧ 0x1020 ∈ ws ∧ loaded.windowAt 0x101C ≠ loaded.windowAt 0x1020) ∧
    (let ws := requestAddresses (request .read 0x20FC 2 false)
     0x20FC ∈ ws ∧ 0x2100 ∈ ws ∧ loaded.windowAt 0x20FC = none ∧ loaded.windowAt 0x2100 = none ∧
     loaded.inStatusArea 0x20FC ≠ loaded.inStatusArea 0x2100) ∧
    (∀ a ∈ requestAddresses (request .read 0x2000 1 true), loaded.windowAt a = none ∧ loaded.inStatusArea a = true) ∧
    (∀ a ∈ requestAddresses (request .write 0x4000 1 false), loaded.windowAt a = none ∧ loaded.inStatusArea a = false) ∧
    (∀ a ∈ requestAddresses (request .read 0x1000 8 false), loaded.windowAt a = some 2) ∧
    (let d := withDesc (fun ds => { ds with producerMin := .supervisor, consumerReads := false }) loaded
     d.classify .a (request .read 0x1000 1 false) = .refuse .privilege (some 2) ∧
     d.classify .b (superRead 0x1000 1) = .refuse .role (some 2)) := by decide

theorem test_meets_HandedOn :
    (let r := request .write 0x4000 2 false
     r.beats ≠ [] ∧ (∀ a ∈ requestAddresses r, loaded.windowAt a = none ∧ loaded.inStatusArea a = false) ∧
     loaded.confined .a = false) ∧
    (let r := request .read 0x20FC 1 false
     r.beats ≠ [] ∧ r.locked = false ∧ ∀ a ∈ requestAddresses r, loaded.windowAt a = none ∧ loaded.inStatusArea a = true) ∧
    (let r := superRead 0x1000 8
     r.beats ≠ [] ∧ (∀ a ∈ requestAddresses r, loaded.windowAt a = some 2) ∧ sampleDesc.producer ≠ .b ∧ r.locked = false ∧
     sampleDesc.consumerReads = true ∧ (sampleDesc.consumerMin = .supervisor → r.privilege = .supervisor) ∧
     (sampleDesc.producerMin = .supervisor → r.privilege = .supervisor)) := by decide

theorem test_meets_PlainWriteIsPosted :
    (let r := request .write 0x4000 4 false
     TakesUnlocked loaded .a ∧ requestMalformed r = false ∧ loaded.classify .a r = .handOn .plainWrite ∧
     (loaded.port .a).queue.length + r.beats.length ≤ 4) ∧
    (let d := queued .a 1 loaded
     TakesUnlocked d .a ∧ 4 < (d.port .a).queue.length + (request .write 0x4000 4 false).beats.length) ∧
    (let r := request .write 0x4000 5 false
     requestMalformed r = false ∧ loaded.classify .a r = .handOn .plainWrite ∧ 4 < r.beats.length) := by decide

theorem test_meets_ReadEntersOrdering : TakesUnlocked loaded .b ∧ requestMalformed (superRead 0x1000 8) = false ∧
    loaded.classify .b (superRead 0x1000 8) = .handOn (.consumerRead 2) := by decide

/-- A port with a request in ORDERING. -/
def ordering (p : Port) (r : Request) (c : Class) : Device := busy p (current r c .ordering false) loaded

theorem test_meets_OrderingEndsWithAnEmptyQueue :
    (let d := ordering .a (request .write 0x4000 5 false) .plainWrite
     (d.port .a).current = some (current (request .write 0x4000 5 false) .plainWrite .ordering false) ∧ (d.port .a).queue = []) ∧
    (let c := current (superRead 0x1000 1) (.consumerRead 2) .ordering false
     (∀ w ∈ loaded.waitsOn c, (loaded.rt w).holdRequest = false ∧ (loaded.rt w).consumerHold = false) ∧
     (let d := loaded.modRt 2 fun r => { r with holdRequest := true }
      ∃ w ∈ d.waitsOn c, (d.rt w).holdRequest = true ∨ (d.rt w).consumerHold = true)) ∧
    (let c := current (request .read 0x2020 1 false) .statusRead .ordering false
     (∀ w ∈ loaded.waitsOn c, (loaded.rt w).holdRequest = false ∧ (loaded.rt w).consumerHold = false) ∧
     (let d := loaded.modRt 2 fun r => { r with consumerHold := true }
      ∃ w ∈ d.waitsOn c, (d.rt w).holdRequest = true ∨ (d.rt w).consumerHold = true)) ∧
    loaded.mem.exclusive = .free ∧
    ({ loaded with mem := { loaded.mem with exclusive := .held .b } } : Device).mem.exclusive ≠ .free := by decide

theorem test_meets_OrderingGoesOn_queued : ((queued .a 1 loaded).port .a).queue ≠ [] := by decide

theorem test_meets_HoldsThatStay :
    (let c := current (request .write 0x4000 3 false) .plainWrite (.held .queueSpace) false
     let d := busy .a c (queued .a 2 loaded)
     (d.port .a).current = some c ∧ 4 < (d.port .a).queue.length + c.request.beats.length) ∧
    (let c := current (superRead 0x1000 1) (.consumerRead 2) (.held .consumerHold) false
     let d := busy .b c (loaded.modRt 2 fun r => { r with consumerHold := true })
     (d.port .b).current = some c ∧ ∃ w ∈ d.waitsOn c, (d.rt w).consumerHold = true) ∧
    (let c := current (request .read 0x4000 1 true) .plainRead (.held .lockWait) false
     let d := { busy .b c loaded with mem := { loaded.mem with exclusive := .held .a } }
     (d.port .b).current = some c ∧ d.mem.exclusive ≠ .free) := by decide

/-- Two windows with status block on, in slots 2 and 4. -/
def twoBlocks : Device := { loaded with windows := loaded.windows.set 4 ⟨some sampleDesc, sampleRuntime⟩ }

/-- The status blocks touched, at both ends of window 2's sixteen bytes from 0x2020; the classes that wait on none. -/
theorem test_meets_ClearedHolds_waits :
    (∀ a ∈ [0x2020, 0x202C], loaded.waitsOn (current (request .read a 1 false) .statusRead .ordering false) = [2]) ∧
    (∀ a ∈ [0x201C, 0x2030], loaded.waitsOn (current (request .read a 1 false) .statusRead .ordering false) = []) ∧
    loaded.waitsOn (current (request .read 0x201C 2 false) .statusRead .ordering false) = [2] ∧
    twoBlocks.waitsOn (current (request .read 0x202C 6 false) .statusRead .ordering false) = [2, 4] ∧
    loaded.waitsOn (current (superRead 0x1000 1) (.consumerRead 2) .ordering false) = [2] ∧
    (∀ c ∈ [Class.plainRead, .plainWrite, .producerRead 2, .producerWrite 2],
      loaded.waitsOn (current (request .read 0x2020 1 false) c .ordering false) = []) := by decide

theorem test_meets_HoldLimit_lowest :
    (let c := current (request .read 0x202C 6 false) .statusRead (.held .consumerHold) false
     let raise : Slot16 → Device → Device := fun w d => d.modRt w fun r => { r with consumerHold := true }
     (twoBlocks.touchedBlocks c.request).find? (raise 4 (raise 2 twoBlocks)).raised = some 2 ∧
     (twoBlocks.touchedBlocks c.request).find? (raise 4 twoBlocks).raised = some 4) := by decide

/-- A word's bytes: of the open entry, of the draining one below it, of the memory word below both. -/
theorem test_overlay :
    (let d := { loaded with entries := [⟨2, 3, 0b0011, 0x00001122, .opened⟩, ⟨2, 3, 0b0110, 0x00334400, .draining⟩] }
     d.overlay 2 3 0xAABBCCDD = 0xAA331122 ∧ d.overlay 2 4 0xAABBCCDD = 0xAABBCCDD) := by decide

theorem test_meets_ClearedHoldsGoOn :
    (let d := busy .a (current (request .write 0x4000 3 false) .plainWrite (.held .queueSpace) false) (queued .a 1 loaded)
     (d.port .a).queue.length + 3 ≤ 4 ∧ d.urgent = some (.queueSpace .a)) ∧
    (let d := busy .b (current (superRead 0x1000 1) (.consumerRead 2) (.held .consumerHold) false) loaded
     d.urgent = some (.readAdmitted .b)) ∧
    (let d := busy .b (current (request .read 0x4000 1 true) .plainRead (.held .lockWait) false) loaded
     d.mem.exclusive = .free ∧ d.urgent = some (.reservation .b)) := by decide

theorem test_meets_ProducerWriteIsStaged :
    (let r := request .write 0x1000 4 false
     TakesUnlocked loaded .a ∧ requestMalformed r = false ∧ loaded.classify .a r = .handOn (.producerWrite 2) ∧
     (loaded.win 2).desc = some sampleDesc ∧ loaded.coversClosing 2 r = false ∧
     (loaded.openList 2).length + loaded.need 2 r ≤ sampleDesc.quota ∧
     (loaded.poolWait = [] ∧ loaded.entries.length + loaded.need 2 r ≤ 256) ∧ (loaded.rt 2).state = .running) ∧
    (let d := { loaded.modRt 2 fun r => { r with state := .paused, watchdog := none } with entries := [entry 0 .opened] }
     let r := request .write 0x1000 1 false
     TakesUnlocked d .a ∧ d.classify .a r = .handOn (.producerWrite 2) ∧ d.need 2 r = 0 ∧ (d.rt 2).state ≠ .running) := by decide

/-- The sample window in a state, with an effective source. -/
def inState (st : WindowState) (x : Source) (rearm : Bool) : Device :=
  withDesc (fun ds => { ds with autoRearm := rearm }) (loaded.modRt 2 fun r => { r with state := st, effective := x, watchdog := none })

theorem test_meets_ClosingWriteActs :
    (let r := request .write 0x101C 1 false
     (∀ d ∈ [inState .running .manual true, inState .running .close true, inState .paused .close true,
         inState .tripped .close false, inState .tripped .manual true, inState .tripped .close true],
       TakesUnlocked d .a ∧ d.classify .a r = .handOn (.producerWrite 2) ∧ d.coversClosing 2 r = true ∧
       (d.openList 2).length + d.need 2 r ≤ 4 ∧ d.poolWait = [] ∧ d.entries.length + d.need 2 r ≤ 256)) := by decide

theorem test_meets_StoreRefusesOrMakesWait :
    (let d := { loaded with entries := [entry 1 .opened, entry 2 .opened, entry 3 .opened, entry 4 .opened] }
     let r := request .write 0x1000 1 false
     TakesUnlocked d .a ∧ d.classify .a r = .handOn (.producerWrite 2) ∧ sampleDesc.quota < (d.openList 2).length + d.need 2 r) ∧
    (let d := { loaded with poolWait := [⟨.b, 3, 1, none⟩] }
     let r := request .write 0x1000 4 false
     TakesUnlocked d .a ∧ (d.openList 2).length + d.need 2 r ≤ sampleDesc.quota ∧ d.need 2 r ≠ 0 ∧ d.poolWait ≠ []) := by decide

/-- A full store: the draining entries of another window. -/
def full : Device := { loaded with entries := List.replicate 256 ⟨3, 0, 0xF, 0, .draining⟩ }

theorem test_meets_StoreIsFull : TakesUnlocked full .a ∧
    256 < full.entries.length + full.need 2 (request .write 0x1000 1 false) := by decide +kernel

/-- A producer write that waits in the pool-wait list. -/
def waiting : Device :=
  { busy .a (current (request .write 0x1000 1 false) (.producerWrite 2) (.held .poolWait) false) loaded with
    poolWait := [⟨.a, 2, 1, none⟩] }

theorem test_meets_PoolServiceAcceptsTheHead :
    (waiting.port .a).current = some (current (request .write 0x1000 1 false) (.producerWrite 2) (.held .poolWait) false) ∧
    (waiting.win 2).desc = some sampleDesc ∧ waiting.coversClosing 2 (request .write 0x1000 1 false) = false ∧
    waiting.need 2 (request .write 0x1000 1 false) ≤ waiting.freeCount ∧ waiting.urgent = some .poolService := by decide

/-- A lock's closing write that waits in the pool-wait list. -/
def waitingClosing (a : Nat) : Device :=
  { (busy .a (current (request .write a 1 true) (.producerWrite 2) (.held .poolWait) true) loaded).setLock .a
      (.closing (.window 2) a (some 1)) with
    poolWait := [⟨.a, 2, 1, none⟩] }

theorem test_meets_PoolServiceOfClosingWrites :
    (∀ a ∈ [0x1000, 0x101C], let d := waitingClosing a
     (d.port .a).current = some (current (request .write a 1 true) (.producerWrite 2) (.held .poolWait) true) ∧
     (d.port .a).lock = .closing (.window 2) a (some 1) ∧ (d.win 2).desc = some sampleDesc ∧
     d.need 2 (request .write a 1 true) ≤ d.freeCount ∧ d.urgent = some .poolService) ∧
    (waitingClosing 0x1000).coversClosing 2 (request .write 0x1000 1 true) = false ∧
    (waitingClosing 0x101C).coversClosing 2 (request .write 0x101C 1 true) = true ∧
    ((waitingClosing 0x101C).rt 2).effective = .close ∧ ((waitingClosing 0x101C).rt 2).state = .running := by decide

/-- A request held on a cause whose hold timer runs out in 1 us. -/
def held (p : Port) (r : Request) (c : Class) (k : HoldCause) : Device := busy p (current r c (.held k) false) loaded

theorem test_meets_HoldLimitAnswersTheRequest :
    (let d := (held .b (superRead 0x1000 1) (.consumerRead 2) .consumerHold).modRt 2 fun r => { r with consumerHold := true }
     NextDue d (.holdLimit .b) 100) ∧
    (let d := (held .b (request .read 0x2020 1 false) .statusRead .consumerHold).modRt 2 fun r => { r with holdRequest := true }
     NextDue d (.holdLimit .b) 100) ∧
    (let d := queued .a 4 (held .a (request .write 0x4000 1 false) .plainWrite .queueSpace)
     NextDue d (.holdLimit .a) 100) ∧
    (let d := held .a (request .read 0x4000 1 true) .plainRead .lockWait
     let e := { d.setLock .a (.opening .exclusive 0x4000) with mem := { d.mem with exclusive := .held .b } }
     NextDue e (.holdLimit .a) 100) ∧
    (let d := (queued .a 4 (held .a (request .write 0x4000 1 false) .plainWrite .queueSpace)).modPort .a fun u =>
       { u with kind := .retryCapable, holdTimer := some 0 }
     NextDue d (.holdLimit .a) 0) := by decide

/-- A producer write that waits while the pool is full, checked at a free count. -/
def waitingFull (d : Device) (n : Option Nat) : Device := { d with entries := full.entries, poolWait := [⟨.a, 2, 1, n⟩] }

theorem test_meets_PoolChecks : (∀ n ∈ [none, some 0], let d := waitingFull waiting n
    d.freeCount < d.need 2 (request .write 0x1000 1 false) ∧ (d.urgent = some .poolService ↔ n = none)) := by decide +kernel

theorem test_meets_PoolWaitExpiresUnstaged : NextDue (waitingFull waiting (some 0)) (.poolWait .a) 100 ∧
    ((waitingFull waiting (some 0)).port .a).kind = .holdOnly ∧
    NextDue (waitingFull (waitingClosing 0x1000) (some 0)) (.poolWait .a) 100 := by decide +kernel

theorem test_meets_LockLimitBreaksTheLock :
    (let d := { loaded.setLock .a (.opened .exclusive 0x4000 3) with mem := { loaded.mem with exclusive := .held .a } }
     NextDue d (.lockLimit .a) 300) ∧
    (let d := loaded.setLock .a (.opened (.window 2) 0x1000 3); NextDue d (.lockLimit .a) 300) := by decide

theorem test_meets_LockLimitOfAWaitingWrite :
    (let d := waitingFull (waitingClosing 0x1000) (some 0)
     NextDue d (.lockLimit .a) 100 ∧ (d.port .a).lock = .closing (.window 2) 0x1000 (some 1)) := by decide +kernel

theorem test_meets_GrantGoesToTheEarliest :
    (let d := queued .b 1 loaded
     Settled d ∧ d.mem.outstanding = none ∧ d.mem.rotation = [.channel .a] ++ .channel .b :: [.engine] ∧
     d.mem.rotation.Nodup ∧ (∀ q ∈ [Requester.channel .a], d.pendingOf q = none) ∧ (d.pendingOf (.channel .b)).isSome = true) ∧
    (let d := { queued .a 1 (busy .b (current (request .read 0x4000 1 true) .plainRead .performing false) loaded) with
       mem := { loaded.mem with exclusive := .held .b } }
     Settled d ∧ (d.pendingOf (.channel .a)).isSome = true ∧ Requester.channel .a ≠ .channel .b ∧
     (d.pendingOf (.channel .b)).isSome = true ∧ d.mem.exclusive = .held .b) ∧
    (let d := accessing .write (.posted .a) false (queued .b 1 loaded)
     Settled d ∧ d.mem.outstanding ≠ none ∧ (d.pendingOf (.channel .b)).isSome = true ∧ after .arbiterGrant d = d) ∧
    (let d := { queued .a 1 loaded with mem := { loaded.mem with exclusive := .held .b } }
     Settled d ∧ d.pendingOf (.channel .b) = none ∧ (d.pendingOf (.channel .a)).isSome = true ∧ after .arbiterGrant d = d) ∧
    (Settled loaded ∧ ∀ r ∈ loaded.mem.rotation, loaded.pendingOf r = none) := by decide

/-- What each requester asks the memory port for. -/
theorem test_meets_GrantGoesToTheEarliest_pending :
    loaded.mem.outstanding = none ∧ loaded.commitQueue = [] ∧
    ((queued .a 2 loaded).port .a).queue = ⟨0x4000, 0xF, 7⟩ :: [⟨0x4000, 0xF, 7⟩] ∧
    (let c := current (request .write 0x4000 5 false) .plainWrite .performing false
     let d := busy .a c loaded
     (d.port .a).queue = [] ∧ (d.port .a).current = some c ∧ c.request.beats[c.done]? = some ⟨0xF, 0x11223344⟩) ∧
    (∀ x ∈ [Class.plainRead, .statusRead, .producerRead 2, .consumerRead 2],
      (busy .b (current (superRead 0x1000 1) x .performing false) loaded).pendingOf (.channel .b) =
        some (⟨.read, 0x1000, 0xF, 0⟩, .read .b)) ∧
    (running .epoch (progress .starting 2 0 0) loaded).pendingOf .engine = none ∧
    ({ running .epoch (progress .writing 1 0 0) loaded with entries := [entry 3 .draining] } : Device).drainList 2 =
      entry 3 .draining :: [] ∧
    wordsBelow loaded 2 = 0 ∧ wordsBelow loaded 3 = 2 ∧ loaded.safeStore[wordsBelow loaded 2 + 1]? = some 0xBB ∧
    (progress .status 1 1 3).block[(progress .status 1 1 3).statusDone]? = some 4 := by decide

theorem test_meets_WritesComplete :
    (let d := accessing .write (.posted .a) true loaded
     Settled d ∧ (d.mem.outstanding.map Outstanding.dropped) = some true) ∧
    (let d := accessing .write (.posted .a) false (queued .a 2 loaded); Settled d) ∧
    (let c := current (request .write 0x4000 5 false) .plainWrite .performing false
     Settled (accessing .write (.through .a) false (busy .a c loaded)) ∧ c.closing = false ∧
     c.done + 1 < c.request.beats.length ∧
     Settled (accessing .write (.through .a) false (busy .a { c with done := 4 } loaded)) ∧ 5 ≤ 4 + 1) := by decide

theorem test_meets_ReadWordCompletes :
    (let c := current (request .read 0x1000 2 false) (.producerRead 2) .performing false
     let d := accessing .read (.read .a) false (busy .a c loaded)
     Settled d ∧ (d.port .a).current = some c ∧ c.request.locked = false ∧ c.done + 1 < c.request.beats.length) ∧
    (let c := { current (request .read 0x4000 2 false) .plainRead .performing false with done := 1, words := [5] }
     Settled (accessing .read (.read .a) false (busy .a c loaded)) ∧ c.request.beats.length ≤ c.done + 1) := by decide

theorem test_meets_LockedReadOpensItsLock :
    (let c := current (request .read 0x4000 1 true) .plainRead .performing false
     let d := accessing .read (.read .a) false ((busy .a c loaded).setLock .a (.opening .exclusive 0x4000))
     Settled d ∧ (d.port .a).current = some c ∧ c.request.locked = true ∧ c.request.beats.length ≤ c.done + 1 ∧
     (d.port .a).lock = .opening .exclusive 0x4000) := by decide

theorem test_meets_ClosingWriteEndsTheLock :
    (let c := current (request .write 0x4000 1 true) .plainWrite .performing true
     let d := accessing .write (.through .a) false ((busy .a c loaded).setLock .a (.closing .exclusive 0x4000 none))
     Settled d ∧ (d.port .a).current = some c ∧ c.closing = true ∧ (d.port .a).lock = .closing .exclusive 0x4000 none) := by decide

theorem test_meets_CommitRuleFollowsItsRows :
    (inState .off .close true).decideCommit 2 = .ignored ∧ (inState .paused .close true).decideCommit 2 = .skipped ∧
    (inState .tripped .close true).decideCommit 2 = .skipped ∧
    (let d := withDesc (fun ds => { ds with tripMode := .atEvent })
       ((inState .tripped .close true).modRt 2 fun r => { r with safeLoadPending := true })
     d.decideCommit 2 = .safeJoins ∧
     ({ d with commitQueue := [⟨2, .safe, none⟩] } : Device).decideCommit 2 = .safeServes ∧
     ({ d with commitQueue := [⟨2, .epoch, none⟩] } : Device).decideCommit 2 = .skipped) ∧
    (let d := loaded.setLock .a (.opened (.window 2) 0x101C 3)
     d.producerLockOn 2 = true ∧ d.decideCommit 2 = .deferred ∧
     (d.modRt 2 fun r => { r with deferredCommit := true }).decideCommit 2 = .secondDefer) ∧
    ({ loaded with commitQueue := [⟨2, .epoch, none⟩] } : Device).decideCommit 2 = .itemPending ∧
    (loaded.modRt 2 fun r => { r with drainingEpoch := some 1 }).decideCommit 2 = .itemPending ∧
    (withDesc (fun ds => { ds with closePolicy := .strict }) loaded).decideCommit 2 = .late ∧
    loaded.decideCommit 2 = .empty ∧
    ({ loaded with entries := [entry 0 .opened] } : Device).decideCommit 2 = .committed := by decide

/-- A lock on the first and the last word of the window counts for the commit rule in its three states, one beside the window does not. -/
theorem test_meets_CommitRule_locks :
    (∀ l ∈ [LockRecord.opening .exclusive 0x1000, .opened (.window 2) 0x101C 3, .closing (.window 2) 0x101C none],
      (loaded.setLock .a l).producerLockOn 2 = true) ∧
    (∀ l ∈ [LockRecord.noLock, .broken 0x1000, .opening .exclusive 0x0FFC, .opened .exclusive 0x1020 3],
      (loaded.setLock .a l).producerLockOn 2 = false) ∧
    (loaded.setLock .b (.opened .exclusive 0x1000 3)).producerLockOn 2 = false := by decide

theorem test_meets_CommitNowHasItsOutcome : ServingWindows loaded ∧ (2 : Byte).toNat = (2 : Slot16).val ∧
    (loaded.win 2).desc = some sampleDesc ∧ ServingWindows ({ loaded with entries := [entry 0 .opened] } : Device) ∧
    ServingWindows (inState .off .close true) ∧ ServingWindows (inState .paused .close true) ∧
    15 < (16 : Byte).toNat ∧ (3 : Byte).toNat = (3 : Slot16).val ∧ (loaded.win 3).desc = none := by decide

theorem test_meets_ItemStartsBehindItsHold :
    (let d := { loaded with commitQueue := [⟨2, .safe, none⟩] }; d.urgent = some .itemStart) ∧
    (let d := running .safe (progress .starting 2 0 0) loaded; d.urgent = some .holdSet) ∧
    (let d := running .safe (progress .starting 0 0 0) loaded; d.urgent = some .holdSet) ∧
    (let c := current (superRead 0x1000 1) (.consumerRead 2) .performing false
     let d := running .safe (progress .starting 2 0 0) (busy .b c loaded)
     (d.port .b).current = some c ∧ c.phase = .performing ∧ 2 ∈ d.waitsOn c ∧ d.urgent = none) := by decide

theorem test_meets_ItemStarts_noReader (p : Port) (c : Current) : (loaded.port p).current ≠ some c := by
  have h : (loaded.port p).current = none := by cases p <;> decide
  rw [h]
  exact nofun

/-- An EPOCH item in WRITING with two entries to write. -/
def draining : Device :=
  { running .epoch (progress .writing 2 0 0) (loaded.modRt 2 fun r => { r with drainingEpoch := some 1, consumerHold := true }) with
    entries := [entry 5 .opened, entry 0 .draining, entry 1 .draining] }

theorem test_meets_DrainWriteRemovesItsEntry :
    (let d := accessing .write (.drain 2) false draining
     Settled d ∧ d.commitQueue = [⟨2, .epoch, some (progress .writing 2 0 0)⟩] ∧ (d.rt 2).drainingEpoch = some 1 ∧
     d.entries = [entry 5 .opened] ++ entry 0 .draining :: [entry 1 .draining] ∧
     (∀ y ∈ [entry 5 .opened], y.window ≠ 2 ∨ y.epoch ≠ .draining)) ∧
    (let d := accessing .write (.drain 2) false { draining with
       commitQueue := [⟨2, .epoch, some (progress .writing 2 1 0)⟩], entries := [entry 5 .opened, entry 1 .draining] }
     Settled d ∧ d.statusBlockOn 2 = true ∧ d.entries = [entry 5 .opened] ++ entry 1 .draining :: []) ∧
    (∀ n ∈ [0, 1], Settled (accessing .write (.safeWord 2) false (running .safe (progress .writing 2 n 0) loaded))) := by decide

/-- A drain write in progress whose item an IMMEDIATE trip has made a SAFE item. -/
def cutDrain (planned : Nat) : Device :=
  accessing .write (.drain 2) false { running .safe (progress .writing planned 0 0)
    (loaded.modRt 2 fun r => { r with state := .tripped, drainingEpoch := some 1, consumerHold := true }) with
      entries := [entry 5 .opened, entry 0 .draining] }

theorem test_meets_DrainWriteRemovesItsEntry_safe : ∀ n ∈ [1, 3],
    (let d := cutDrain n
     Settled d ∧ (d.mem.outstanding.map Outstanding.dropped) = some false ∧
     d.commitQueue = [⟨2, .safe, some (progress .writing n 0 0)⟩] ∧ (d.rt 2).drainingEpoch = some 1 ∧
     d.entries = [entry 5 .opened] ++ entry 0 .draining :: []) := by decide

theorem test_meets_StatusWordsEndTheItem :
    Settled (accessing .write (.statusWord 2) false (running .epoch (progress .status 1 1 2) loaded)) ∧
    Settled (accessing .write (.statusWord 2) false (running .epoch (progress .status 1 1 3) loaded)) ∧
    Settled (accessing .write (.statusWord 2) false (running .safe (progress .status 1 1 3) loaded)) ∧
    (progress .status 1 1 3).block = 1 :: [2, 3, 4] := by decide

/-- An EPOCH item of the sample window in a phase, with three entries to write. -/
def drainingIn (ph : ItemPhase) (safe : Option SafeImage) : Device :=
  withDesc (fun ds => { ds with safeImage := safe }) { running .epoch (progress ph 3 0 0) loaded with
    entries := [entry 5 .opened, entry 0 .draining, entry 1 .draining, entry 2 .draining] }

theorem test_meets_WatchdogTripsTheWindow_running :
    (∀ ph ∈ [ItemPhase.writing, .status], NextDue (drainingIn ph (some ⟨0, 2⟩)) (.watchdog 2) 5000) ∧
    NextDue (drainingIn .writing none) (.watchdog 2) 5000 ∧
    (let c := current (superRead 0x1000 1) (.consumerRead 2) .performing false
     NextDue (busy .b c (drainingIn .starting (some ⟨0, 2⟩))) (.watchdog 2) 5000) ∧
    (drainingIn .writing (some ⟨0, 2⟩)).inFlight (.drain 2) = false ∧
    (let d := accessing .write (.drain 2) false (drainingIn .writing (some ⟨0, 2⟩))
     NextDue d (.watchdog 2) 5000 ∧ d.inFlight (.drain 2) = true ∧
     d.entries = [entry 5 .opened] ++ entry 0 .draining :: [entry 1 .draining, entry 2 .draining] ∧
     (entry 0 .draining).isDraining 2 = true ∧ (∀ y ∈ [entry 5 .opened], y.isDraining 2 = false)) := by decide

/-- The sample window twice, with watchdogs. -/
def twoWatchdogs (x y : Nat) : Device :=
  (loaded.modWin 2 fun _ => ⟨some sampleDesc, { sampleRuntime with watchdog := some x }⟩).modWin 3 fun _ =>
    ⟨some { sampleDesc with base := 0x1100 }, { sampleRuntime with watchdog := some y }⟩

theorem test_meets_WatchdogTripsTheWindow_expired :
    (∀ w ∈ [(2 : Slot16), 3], let d := twoWatchdogs 0 0
      (d.win w).desc.isSome = true ∧ (d.rt w).state = .running ∧ (d.rt w).watchdog = some 0) ∧
    (let d := twoWatchdogs 0 4
     (d.rt 2).watchdog = some 0 ∧ ∀ v : Slot16, v ≠ 2 → (d.rt v).watchdog ≠ some 0) ∧
    (∀ w : Slot16, ((twoWatchdogs 3 4).rt w).watchdog ≠ some 0) := by decide

theorem test_meets_WatchdogTripsTheWindow :
    NextDue loaded (.watchdog 2) 5000 ∧ (loaded.rt 2).state = .running ∧ loaded.itemOf 2 = none ∧
    (let d := withDesc (fun ds => { ds with tripMode := .atEvent }) loaded; NextDue d (.watchdog 2) 5000) ∧
    NextDue (running .safe (progress .writing 2 0 0) loaded) (.watchdog 2) 5000 ∧
    (let d := { running .epoch (progress .writing 1 0 0) loaded with
       commitQueue := [⟨3, .epoch, some (progress .writing 1 0 0)⟩, ⟨2, .epoch, none⟩] }
     NextDue d (.watchdog 2) 5000 ∧ d.itemOf 2 = some ⟨2, .epoch, none⟩ ∧ d.inFlight (.drain 2) = false) := by decide

/-- READY with one monitor in a state, its reference some bus clocks back. -/
def monitored (st : MonitorState) (count : Nat) (since : Option Nat) : Device :=
  loaded.setMonitor .tsa ⟨st, count, since, 0, 0⟩

theorem test_meets_PulseIsTakenByItsMonitor :
    Settled loaded ∧ loaded.startup.state = .ready ∧ loaded.period .tsa * loaded.clock.perUs = 100000 ∧
    (let d := monitored .absent 0 none
     (∀ y ∈ d.dueTimes, 5 ≤ y) ∧ ((d.reached 5).monitors.get .tsa).state = .absent) ∧
    (let d := monitored .acquiring 1 (some 0)
     Settled d ∧ (∀ y ∈ d.dueTimes, 5000 ≤ y) ∧ 5000 ∈ d.dueTimes ∧
     (d.reached 5000).monitors.get .tsa = ⟨.acquiring, 1, some 5000, 0, 0⟩) ∧
    (∀ m ∈ [(⟨.acquiring, 1, some 75000, 0, 0⟩ : Monitor), ⟨.acquiring, 2, some 125000, 0, 0⟩, ⟨.present, 3, some 125001, 0, 0⟩,
        ⟨.present, 3, some 74999, 0, 0⟩, ⟨.present, 3, some 75000, 0, 0⟩],
      ((loaded.setMonitor .tsa m).reached 0).monitors.get .tsa = m) ∧
    (Settled Device.reset ∧ Device.reset.startup.state ≠ .ready ∧ ∀ y ∈ Device.reset.dueTimes, 0 ≤ y) := by decide

theorem test_meets_MonitorTimesOut : NextDue (monitored .acquiring 2 (some 149990)) (.acquisition .tsa) 10 ∧
    NextDue (monitored .present 3 (some 150000)) (.sync .tsa) 0 := by decide

theorem test_meets_LctExpiryIsDelivered :
    (let d := { loaded with lct := ⟨true, 1000, some 20, some 3⟩ }; NextDue d .lct 300) := by decide

theorem test_meets_TimerCommandsActOnTheLct : Serving loaded ∧ loaded.lct.running = false ∧
    (loaded.rt 2).state ≠ .off ∧ (loaded.rt 2).selected ≠ .lct ∧ loaded.lctInUse = false ∧
    (inState .paused .lct true).lctInUse = true ∧ Serving (inState .paused .lct true) ∧
    (9 : Word).toNat < 10 ∧ 10 ≤ (10 : Word).toNat ∧ (1000000 : Word).toNat ≤ 1000000 ∧
    1000000 < (1000001 : Word).toNat := by decide

theorem test_meets_SelectSourceNeedsItsSource : ServingWindows loaded ∧ 15 < (16 : Byte).toNat ∧ 6 < (7 : Byte).toNat ∧
    (loaded.win 3).desc = none ∧ (loaded.win 2).desc = some sampleDesc ∧
    (let sources := [Source.tsa, .tsb, .fms, .fme, .lct, .close, .manual]
     sources[(0 : Byte).toNat]? = some (strobeSource .tsa) ∧ sources[(4 : Byte).toNat]? = some .lct ∧
     sources[(6 : Byte).toNat]? = some .manual) ∧
    (loaded.monitors.get .tsa).state ≠ .present ∧ loaded.lct.running = false ∧
    ServingWindows (monitored .present 3 (some 5)) := by decide

theorem test_meets_FlagCommandsChangeTheNamedFlags : Serving loaded ∧ (1 : Byte).toNat ≤ 1 ∧ 1 < (2 : Byte).toNat ∧
    (3 : Byte).toNat ≤ 3 ∧ 3 < (4 : Byte).toNat := by decide

/-- A fault unit with the flag TRIP-side bit 16 active at level 2, threshold 1. -/
def activeUnit : FaultUnit := { FaultUnit.reset with flags := 1 <<< 16, enables := 1 <<< 16, levels := 2 <<< 32, threshold := 1 }

theorem test_meets_IrqFollowsTheActiveFlags : activeUnit.irq = true ∧ activeUnit.lvl = 2 ∧ FaultUnit.reset.irq = false := by decide

/-- A record of the fault log. -/
def record (n : Nat) : FaultRecord :=
  ⟨BitVec.ofNat 16 n, 5, ⟨.access, some (.access .role), some 2, some .b, some 0x1000, some 1⟩⟩

theorem test_meets_LogStoresOrOverflows : loaded.fault.log.length < 16 ∧
    16 ≤ ((List.range 16).map fun n => record (n + 1)).length := by decide

theorem test_meets_ReadLogReturnsTheOldest : Serving loaded ∧ loaded.fault.log = [] ∧
    Serving ({ loaded with fault := { loaded.fault with log := [record 1, record 2] } } : Device) ∧
    Serving (after .linkReset loaded) ∧
    (after .linkReset loaded).fault.log.map (fun x => x.report.detail) = [some (.linkReset ⟨none, 0, 0, 0, false⟩)] ∧
    (Detail.linkReset ⟨some .safe, 3, 4, 4, true⟩).code = 0x46 ∧ (Detail.config .overlap).code = 6 := by decide

theorem test_meets_ReadsChangeOnlyTheAnswer : Settled loaded ∧ loaded.startup.pwrRst = false ∧ loaded.startup.state = .ready ∧
    (∀ ds, (loaded.win 2).desc = some ds → ds.words.length = 8) ∧ (loaded.win 3).desc = none := by decide

theorem test_meets_FramesAreTurnedAway : (Settled Device.reset ∧ Device.reset.startup.pwrRst = true) ∧
    (let d : Device := { Device.reset with startup := { Device.reset.startup with pwrRst := false, rstIn := true } }
     Settled d ∧ d.startup.pwrRst = false ∧ d.startup.state ≠ .ready) ∧
    (Settled transparent ∧ transparent.startup.state = .ready ∧ transparent.startup.transparent = true) ∧
    (Settled loaded ∧ loaded.startup.transparent = false) ∧ needsReady .readFlags = true ∧ needsImage (.enable 2) = true ∧
    managementCommand .readFlags = true := by decide

/-- The part with its management link unit in a state. -/
def linked (u : Link) : Device := { loaded with link := u }

theorem test_meets_FramesAreTurnedAway_edges :
    (∀ u ∈ [Link.idle false, Link.idle true, ⟨.command, true, [], [true, true, true, true, true, true], [], 0, none⟩,
        ⟨.command, true, [], [false, false, false, true, false, true, false], [], 0, none⟩,
        ⟨.argument, true, [0x14], [false, false, false, false, false, false, true], [], 0, none⟩,
        ⟨.turnaround, true, [], [], [0, 1], 6, some false⟩, ⟨.turnaround, true, [], [], [0, 1], 7, some false⟩,
        ⟨.response, true, [], [], [0, 1], 23, some false⟩, ⟨.response, true, [], [], [0, 1], 24, some true⟩],
      Settled (linked u) ∧ (linked u).startup.pwrRst = false) ∧
    ([false, false, false, true, false, true, false] ++ [false] = [0, 1, 2, 3, 4, 5, 6, 7].map fun i =>
      (0x14 : Byte).getLsbD (7 - i)) ∧
    decodeFrame [0x14] = none ∧ decodeFrame [0x14, 3] = some (.setThreshold 3) ∧ 23 = 8 + 8 * 1 + 7 := by decide

theorem test_meets_WindowControlsFollowTheState : ServingWindows loaded ∧ (loaded.win 3).desc = none ∧ 15 < (16 : Byte).toNat ∧
    (∀ st ∈ [WindowState.off, .running, .paused, .tripped],
      let d := inState st .close true
      ServingWindows d ∧ (d.rt 2).state = st ∧ (d.win 2).desc.isSome = true) := by decide

theorem test_meets_DisableTakesTheWindowOff : ServingWindows loaded ∧ (loaded.rt 2).state ≠ .off ∧
    (loaded.win 3).desc = none ∧ (ServingWindows (inState .off .close true) ∧ ((inState .off .close true).rt 2).state = .off) := by
  decide

theorem test_meets_Resets : Serving loaded ∧ Settled loaded ∧ Settled Device.reset ∧ Device.reset.startup.state ≠ .ready := by decide

theorem test_meets_LinkResetTouchesOnlyB :
    (let d := withDesc (fun ds => { ds with producer := .b }) loaded
     Settled d ∧ d.startup.state = .ready ∧ d.producedByB 2 = true ∧ loaded.producedByB 2 = false) := by decide

/-- A start-up state. -/
def starting (f : Startup → Startup) : Device := { Device.reset with startup := f Device.reset.startup }

theorem test_meets_ResetIsLeftThroughStraps :
    (Device.reset.startup.state = .reset ∧ Device.reset.startup.settled = false) ∧
    (let d := starting fun u => { u with settled := true }; d.startup.state = .reset ∧ d.startup.settled = true) ∧
    loaded.startup.state ≠ .reset ∧
    (let d := starting fun u => { u with pwrRst := false, state := .settle, settleTimer := some 20000 }
     NextDue d (.settleEnd ⟨true, true, false⟩) 2000000) ∧
    (let d := starting fun u => { u with rstIn := true }
     Settled d ∧ d.startup.pwrRst = true ∧ d.startup.rstIn = true) := by decide

theorem test_meets_FlashIsAwaitedFiftyMilliseconds :
    (let d := starting fun u => { u with pwrRst := false, state := .load, loader := .awaiting, flashTimer := some 50000, fsel := true }
     Settled d ∧ d.startup.loader = .awaiting ∧ NextDue d .flashTimeout 5000000) ∧
    (let d := starting fun u => { u with settled := true }; d.startup.state = .reset ∧ d.startup.settled = true) ∧
    (let d := starting fun u => { u with pwrRst := false, state := .load, loader := .retryWait 1000, flashTimer := some 49000 }
     NextDue d .flashRetry 100000) ∧
    NextDue (loaded.modRt 2 fun r => { r with watchdog := none }) .rstOut 1000000 := by decide

/-- LOAD with the loader and the flash link in some state, FSEL asserted. -/
def reading (l : Loader) (u : FlashLink) : Device :=
  starting fun x => { x with
    pwrRst := false, settled := true, state := .load, loader := l, flashTimer := some 50000, fsel := true, flash := u }

/-- The first seven bits of 0x48. -/
def sevenBits : List Bool := [false, true, false, false, true, false, false]

theorem test_meets_FlashIsAwaitedFiftyMilliseconds_edges :
    (∀ u ∈ [FlashLink.idle, ⟨true, some true, 31, [], []⟩, ⟨true, none, 32, [], sevenBits⟩, ⟨false, some true, 7, [], []⟩,
        ⟨false, none, 32, [], sevenBits.take 6⟩, ⟨false, none, 32, [], sevenBits⟩],
      Settled (reading .awaiting u) ∧ (reading .awaiting u).startup.fsel = true) ∧
    sevenBits ++ [false] = [0, 1, 2, 3, 4, 5, 6, 7].map (fun i => (0x48 : Byte).getLsbD (7 - i)) ∧
    (⟨false, none, 32, [], sevenBits⟩ : FlashLink).Agrees [0x48] ∧ FlashLink.idle.Agrees [0xFF] ∧
    ¬(⟨false, none, 32, [], sevenBits⟩ : FlashLink).Agrees [0xFF] ∧ Device.reset.startup.fsel = false := by decide

/-- An image that passes every check: the least values of the device section, one window of one word in slot 2. -/
def imageBody : List Word :=
  [0x48533120, 146, 1, 1, 1, 1, 0, 10, 10, 10, 10, 10, 0, 0, 0, 0, 0] ++ List.replicate 16 0 ++
  [0x1000, 1, 6, 1, 0, 0, 0, 0] ++ List.replicate 104 0

/-- The words of an image after its header, with the CRC that is due or another. -/
def imageRest (body : List Word) (bad : Word) : List Word := body.drop 3 ++ [(crcWords body).setWidth 32 ^^^ bad]

/-- An image from its body. -/
def imageOf (body : List Word) (bad : Word) : List Word := body.take 3 ++ imageRest body bad

/-- The image with the word of some number replaced. -/
def imageWith (n : Nat) (x : Word) : List Word := imageBody.set n x

theorem test_meets_Images_length : (imageRest imageBody 0).length + 3 = 146 := by decide +kernel

theorem test_meets_GoodImageIsAppliedWhole :
    (let i := imageOf imageBody 0
     crcHolds i = true ∧ fieldsHold i = true ∧ safeTotal (readSlots i) ≤ 512 ∧ 146 = 146 + safeTotal (readSlots i) ∧
     rangesHold i = true) := by decide +kernel

theorem test_meets_FirstFailedCheckEndsTheLoad :
    crcHolds (imageOf imageBody 1) = false ∧
    (let i := imageOf (imageWith 3 0) 0; crcHolds i = true ∧ fieldsHold i = false) ∧
    (let i := imageOf ((imageWith 34 64).set 38 0x80010000) 0
     crcHolds i = true ∧ fieldsHold i = true ∧ safeTotal (readSlots i) = 1 ∧ 146 ≠ 146 + safeTotal (readSlots i)) ∧
    (let i := imageOf (((imageWith 41 0x1000).set 42 1).set 43 6 |>.set 44 1) 0
     crcHolds i = true ∧ fieldsHold i = true ∧ safeTotal (readSlots i) = 0 ∧ rangesHold i = false) := by decide +kernel

/-- Nine windows with a safe image of 64 words each. -/
def imageTooMuch : List Word :=
  (List.range 9).foldl (fun b n => (((b.set (17 + 8 * n) (BitVec.ofNat 32 (0x1000 + 0x100 * n))).set (18 + 8 * n) 64).set
    (19 + 8 * n) 6).set (20 + 8 * n) 1 |>.set (22 + 8 * n) 0x80400000) (imageBody.set 1 658 ++ List.replicate 512 0)

/-- The image of one window has its fields where the layout tables put them. -/
theorem test_meets_ImageFields :
    (let image := imageOf imageBody 0
     image.length = 146 ∧ (readSlot image 2).map Descriptor.base = some 0x1000 ∧ readSlot image 3 = none ∧
     (image.getD (17 + 8 * 2 + 1) 0).toNat / 2 ^ 0 % 2 ^ 13 = 1) := by decide +kernel

theorem test_meets_SafeTotal :
    (let i := imageOf imageTooMuch 0
     i.length = 658 ∧ crcHolds i = true ∧ fieldsHold i = true ∧ 512 < safeTotal (readSlots i)) := by decide +kernel

theorem test_meets_Headers : (0x48533121 : Word) ≠ 0x48533120 ∧ (145 : Word).toNat < 146 ∧ 658 < (659 : Word).toNat ∧
    Settled (reading .header (.shifted [0x48])) ∧ (FlashLink.shifted [0x48]).Agrees ([0x48533120, 146, 1].flatMap bytesOfWord) ∧
    ¬(FlashLink.shifted [0x49]).Agrees ([0x48533120, 146, 1].flatMap bytesOfWord) := by decide

/-- The bytes of words without the last one. -/
def allButLast (ws : List Word) : List Byte := (ws.flatMap bytesOfWord).dropLast

/-- The last byte of the header, 0x01, and the last byte of the rest of an image are in hand. -/
theorem test_meets_FirstFailedCheckEndsTheLoad_edges :
    (let rest := List.replicate 142 0 ++ [0x48]
     Settled (reading .header ⟨false, none, 32, allButLast [0x48533120, 146, 1], List.replicate 7 false⟩) ∧
     allButLast [0x48533120, 146, 1] ++ [1] = [0x48533120, 146, 1].flatMap bytesOfWord ∧
     List.replicate 7 false ++ [true] = [0, 1, 2, 3, 4, 5, 6, 7].map (fun i => (1 : Byte).getLsbD (7 - i)) ∧
     ([0x48, 0x53] ++ [1] : List Byte).length < 12 ∧
     Settled (reading (.image 0x48533120 146 1) ⟨false, none, 32, allButLast rest, sevenBits⟩) ∧
     allButLast rest ++ [0x48] = rest.flatMap bytesOfWord ∧ rest.length + 3 = (146 : Word).toNat ∧
     ([1] ++ [0x48] : List Byte).length + 12 < 4 * (146 : Word).toNat ∧
     (FlashLink.shifted []).Agrees (rest.flatMap bytesOfWord) ∧ ¬(FlashLink.shifted [1]).Agrees (rest.flatMap bytesOfWord)) := by
  decide +kernel

theorem test_meets_Invariants : LogKept loaded ∧ QueuesKept loaded ∧ StoreKept loaded ∧ ItemsKept loaded ∧ RotationKept loaded ∧ SourcesKept loaded ∧
    step ⟨loaded, [.readFlags]⟩ = .next ⟨loaded.done loaded.fault.flagBytes, []⟩ :=
  ⟨by decide, by decide, by decide, by decide, by decide, by decide, rfl⟩

theorem test_meets_FrameBytesSpellTheirCommand : (Instr.setThreshold 2).wf = true ∧
    encodeFrame (.setThreshold 2) = some [0x14, 2] ∧ Settled loaded ∧ loaded.startup.pwrRst = false := by decide

/-! ## One step of the commands -/

/-- The sample window's record after a command. -/
def rtAfter (i : Instr) (d : Device) : Runtime := (after i d).rt 2

theorem test_portRequest_staged :
    (let d := after (.portRequest .a (request .write 0x1000 2 false)) (loaded.modRt 2 fun r => { r with watchdog := some 1 })
     d.openList 2 = [⟨2, 0, 0xF, 0x11223344, .opened⟩, ⟨2, 1, 0xF, 0x11223344, .opened⟩] ∧
     d.portA.answer = some ⟨.okay, []⟩ ∧ (d.rt 2).watchdog = some 50) := by decide

theorem test_portRequest_closing :
    (let d := after (.portRequest .a (request .write 0x101C 1 false)) loaded
     (d.drainList 2).length = 1 ∧ (d.rt 2).openEpoch = 2 ∧ (d.rt 2).drainingEpoch = some 1 ∧
     d.commitQueue = [⟨2, .epoch, none⟩] ∧ (d.rt 2).closeMark = false) := by decide

theorem test_orderingEnd_idle : after (.orderingEnd .a) loaded = loaded := by decide

theorem test_queueSpaceEntry :
    (let d := busy .a (current (request .write 0x4000 3 false) .plainWrite (.held .queueSpace) false) (queued .a 1 loaded)
     (after (.queueSpaceEntry .a) d).portA.queue.map PostedSlot.address = [0x4000, 0x4000, 0x4004, 0x4008]) := by decide

theorem test_poolWaitService : (after .poolWaitService waiting).poolWait = [] ∧
    (after .poolWaitService waiting).entries.length = 1 := by decide

theorem test_poolWaitService_keeps : (after .poolWaitService (waitingFull waiting none)).poolWait = [⟨.a, 2, 1, some 0⟩] := by
  decide +kernel

theorem test_readAdmitted :
    (let d := busy .b (current (superRead 0x1000 1) (.consumerRead 2) (.held .consumerHold) false) loaded
     (after (.readAdmitted .b) d).portB.current.map Current.phase = some .performing) := by decide

theorem test_arbiterGrant :
    (let d := after .arbiterGrant (queued .b 1 loaded)
     d.mem.outstanding.map Outstanding.owner = some (.posted .b) ∧
     d.mem.rotation = [.channel .a, .engine, .channel .b]) := by decide

theorem test_memoryCompletion_overlay :
    (let c := current (request .read 0x1000 1 false) (.producerRead 2) .performing false
     let d := { accessing .read (.read .a) false (busy .a c loaded) with
       entries := [⟨2, 0, 0x3, 0x0000BEEF, .opened⟩, ⟨2, 0, 0x4, 0x00AA0000, .draining⟩] }
     (after (.memoryCompletion false 0x12345678) d).portA.answer = some ⟨.okay, [0x12AABEEF]⟩) := by decide

theorem test_memoryCompletion_drain :
    (let d := after (.memoryCompletion false 0) (accessing .write (.drain 2) false draining)
     d.drainList 2 = [entry 1 .draining] ∧ d.mem.outstanding = none) := by decide

theorem test_itemStart : (after .itemStart { loaded with commitQueue := [⟨2, .safe, none⟩] }).commitQueue =
    [⟨2, .safe, some ⟨.starting, 2, 0, false, 0, [], 0⟩⟩] := by decide

theorem test_consumerHoldSet_empty :
    (let d := after .consumerHoldSet (running .safe (progress .starting 0 0 0) (withDesc (fun ds => { ds with statusBlock := false }) loaded))
     d.commitQueue = [] ∧ d.fault.isSet (.cmt 2) = true ∧ (d.rt 2).consumerHold = false) := by decide

theorem test_statusBlock :
    (let d := after .consumerHoldSet (running .safe (progress .starting 0 0 0) (loaded.modRt 2 fun r => { r with lastCommitted := 6 }))
     d.commitQueue.map Item.progress = [some ⟨.status, 0, 0, false, 0, [6, 0x01020000, 0, 0], 0⟩]) := by decide

theorem test_lockLimitExpiry :
    (let d := after (.lockLimitExpiry .a) (loaded.setLock .a (.opened .exclusive 0x4000 3))
     d.portA.lock = .broken 0x4000 ∧ d.clock.deviceTime = 3 ∧ d.fault.isSet .lock = true ∧ d.fault.log.length = 1) := by decide

theorem test_watchdogExpiry :
    (let d := after (.watchdogExpiry 2) loaded
     (d.rt 2).state = .tripped ∧ d.clock.deviceTime = 50 ∧ d.commitQueue = [⟨2, .safe, none⟩] ∧
     d.fault.log.map FaultRecord.time = [50]) := by decide

/-- The bus clock period in which a watchdog's count reaches 0 trips the window. -/
theorem test_idle_watchdog :
    (let d := ({ twoWatchdogs 1 1 with clock := { loaded.clock with sub := 99 } } : Device).idle
     d.clock.deviceTime = 1 ∧ (d.rt 2).state = .tripped ∧ (d.rt 3).state = .tripped ∧
     d.fault.log.map (fun x => x.report.window) = [some 2, some 3]) := by decide

theorem test_strobePulse_limits :
    (after (.strobePulse .tsa 0) (monitored .present 3 (some 75000))).monitors.tsa = ⟨.present, 3, some 0, 0, 0⟩ ∧
    (after (.strobePulse .tsa 0) (monitored .present 3 (some 74999))).monitors.tsa = ⟨.present, 3, some 74999, 1, 0⟩ := by decide

theorem test_strobePulse_acquires :
    (after (.strobePulse .tsa 100000) (monitored .acquiring 2 (some 0))).monitors.tsa.state = .acquiring ∧
    (let d := (monitored .acquiring 2 (some 0)).modRt 2 fun r => { r with watchdog := none }
     (after (.strobePulse .tsa 100000) d).monitors.tsa = ⟨.present, 3, some 0, 0, 0⟩) := by decide

theorem test_syncLost :
    (let d := after (.syncLost .tsa) (monitored .present 3 (some 149999))
     d.monitors.tsa = ⟨.lost, 0, none, 0, 1⟩ ∧ d.fault.isSet .sync = true) := by decide

theorem test_lctExpiry : (after .lctExpiry { loaded with lct := ⟨true, 1000, some 20, some 3⟩ }).lct = ⟨true, 20, none, some 20⟩ := by
  decide

theorem test_readId : (after .readId loaded).link =
    ⟨.turnaround, true, [], [], [0, 0x03, 0xA7, 0x31, 0x20, 2, 1], 0, some false⟩ := by decide

/-- The part after a list of edges on the management link. -/
def afterEdges (es : List LinkEdge) (d : Device) : Device := es.foldl (fun d e => after (.unknownCommand (.edge e)) d) d

/-- The command byte of SET_THRESHOLD comes in, most significant bit first. -/
theorem test_edges_command :
    (afterEdges [.select, .rise false, .rise false, .rise false, .rise true, .rise false, .rise true, .rise false, .rise false]
      loaded).link = ⟨.argument, true, [0x14], [], [], 0, none⟩ := by decide

/-- The last edge of SET_THRESHOLD takes the command, and TURNAROUND begins. -/
theorem test_edges_taken :
    (let d := afterEdges [.rise true]
       (linked ⟨.argument, true, [0x14], [false, false, false, false, false, false, true], [], 0, none⟩)
     d.fault.threshold = 3 ∧ d.link = ⟨.turnaround, true, [], [], [0], 0, some false⟩) := by decide

/-- After the eight edges of TURNAROUND the first bit of the answer stands on MDO; MSEL deasserted ends the frame. -/
theorem test_edges_response :
    (let d := afterEdges (List.replicate 8 (.rise true)) (linked (.taken [0x85]))
     d.link.phase = .response ∧ (afterEdges [.fall] d).link.mdo = some true ∧
     (afterEdges [.fall, .rise true, .fall] d).link.mdo = some false ∧ (after .frameAbort d).link = .idle false) := by
  decide

theorem test_readFlags :
    (let d : Device := { loaded with fault := { activeUnit with threshold := 1 } }
     (after .readFlags d).link.response =
       [0] ++ [0, 0, 1, 0, 0] ++ [0, 0, 1, 0, 0] ++ [0, 0, 0, 0, 0, 2, 0, 0, 0, 0] ++ [1, 0x82]) := by decide

theorem test_clearFlags : (after (.clearFlags 0x10001) { loaded with fault := activeUnit }).fault.flags = 0 := by decide

theorem test_setLevel : (after (.setLevel 0x10001 3) loaded).fault.levels = 0x300000003 := by decide +kernel

theorem test_readLog :
    (let d : Device := { loaded with fault := { loaded.fault with log := [record 1, record 2] } }
     (after .readLog d).fault.log = [record 2]) := by decide

theorem test_commitNow_empty : (after (.commitNow 2) loaded).link.response = [0, 4] ∧
    (rtAfter (.commitNow 2) loaded).counters.emptyEvents = 1 := by decide

theorem test_disable :
    (let d := after (.disable 2) { draining with entries := [entry 5 .opened, entry 0 .draining] }
     (d.rt 2).state = .off ∧ (d.rt 2).counters.discarded = 2 ∧ d.entries = [] ∧ d.commitQueue = []) := by decide

theorem test_enable : rtAfter (.enable 2) (inState .off .close true) = { sampleRuntime with watchdog := some 50 } := by decide

theorem test_selectSource : (after (.selectSource 2 0) loaded).link.response = [1] ∧
    (rtAfter (.selectSource 2 6) loaded).effective = .manual := by decide

theorem test_timerPeriod : (after (.timerPeriod 9) loaded).link.response = [2] ∧ (after (.timerPeriod 10) loaded).lct.period = 10 := by
  decide

theorem test_readResetCause : (after .readResetCause loaded).link.response = [0, 1, 0, 0, 0, 0, 0, 0] := by decide

theorem test_softResetDatapath :
    (let d := after .softResetDatapath draining
     d.entries = [] ∧ d.commitQueue = [] ∧ (d.rt 2).state = .running ∧
     d.startup.cause = ⟨.softDatapath, some ⟨2, .epoch, 0, 2⟩, 0⟩) := by decide

theorem test_softResetFull : (after .softResetFull loaded).startup.state = .reset ∧
    (after .softResetFull loaded).urgent = some .resetRelease := by decide

theorem test_linkReset :
    (let d := after .linkReset (queued .b 3 (withDesc (fun ds => { ds with producer := .b }) draining))
     d.entries = [] ∧ d.portB.counters.postedLost = 3 ∧ d.fault.log.length = 1) := by decide

theorem test_startUp_transparent :
    (let d := after (.settleEnd ⟨false, true, false⟩) (after (.resetRelease ⟨false, true, false⟩) Device.reset)
     d.startup.state = .ready ∧ d.startup.transparent = true ∧ d.portA.kind = .retryCapable ∧ d.clock.deviceTime = 20000 ∧
     d.startup.rstOut = true ∧ d.startup.rstOutTimer = some 10000) := by decide

theorem test_startUp_load :
    (let d := after (.headerReadComplete 0x48533120 146 1) (after (.flashAnswer (.byte 0x48))
       (after (.settleEnd ⟨true, false, false⟩) (after (.resetRelease ⟨true, false, false⟩) Device.reset)))
     d.startup.state = .load ∧ d.startup.loader = .image 0x48533120 146 1) := by decide

/-- The read command on FDO: 0x03 and address 0, most significant bit first. -/
theorem test_flash_command : ((List.range 32).map fun n => (FlashLink.fall ⟨true, none, n, [], []⟩).fdo) =
    (List.replicate 6 false ++ [true, true] ++ List.replicate 24 false).map some := by decide

/-- The edge that ends the first byte answers or begins the 1 ms wait; the edge that ends the header's last byte applies its checks. -/
theorem test_flash_edges :
    (after (.flashAnswer (.edge false)) (reading .awaiting ⟨false, none, 32, [], sevenBits⟩)).startup.loader = .header ∧
    (after (.flashAnswer (.edge true)) (reading .awaiting ⟨false, none, 32, [], List.replicate 7 true⟩)).startup.loader =
      .retryWait 1000 ∧
    (after (.flashAnswer (.edge true))
      (reading .header ⟨false, none, 32, allButLast [0x48533120, 146, 1], List.replicate 7 false⟩)).startup.loader =
      .image 0x48533120 146 1 ∧
    (after (.headerReadComplete 0x49533120 146 1) (reading .header (.shifted [0x48]))).startup.loader = .header := by decide

theorem test_imageReadComplete :
    (let d := reading (.image 0x48533120 146 1) (.shifted [])
     let t := after (.imageReadComplete (imageRest imageBody 0)) d
     t.startup.state = .ready ∧ t.startup.transparent = false ∧ ((t.win 2).desc.map Descriptor.base) = some 0x1000 ∧
     (t.rt 2).state = .off ∧ (after (.imageReadComplete (imageRest imageBody 1)) d).startup.transparent = true) := by decide +kernel

end Sys2Proof.Machine.Test
end

/-! SUPPORT. What a checked management command answers (steps 4 and 5 of R176), what the TIMER commands make of the LCT, and when a
source can be selected. -/

namespace Sys2Proof.Machine

/-! ## Checked commands (R176) -/

theorem done_nil (d : Device) : d.done [] = d.answering [0] := rfl

theorem requireArg_true (d : Device) (f : Device → Device) : d.requireArg true f = f d := rfl

theorem requireArg_false (d : Device) (f : Device → Device) : d.requireArg false f = d.answering [2] := rfl

theorem requireState_true (d : Device) (f : Device → Device) : d.requireState true f = f d := rfl

theorem requireState_false (d : Device) (f : Device → Device) : d.requireState false f = d.answering [1] := rfl

theorem within_eq_true {low high n : Nat} (hlow : low ≤ n) (hhigh : n ≤ high) : within low high n = true := by
  simp [within, hlow, hhigh]

theorem within_eq_false {low high n : Nat} (h : n < low ∨ high < n) : within low high n = false := by
  unfold within
  rcases h with h | h
  · rw [decide_eq_false (Nat.not_le.mpr h), Bool.false_and]
  · rw [decide_eq_false (Nat.not_le.mpr h), Bool.and_false]

/-! ## The local cycle timer (R99 to R101) -/

theorem Lct.begin_eq (t : Lct) : t.begin = ⟨true, t.next.getD t.period, none, some (t.next.getD t.period)⟩ := rfl

theorem Lct.stop_running {t : Lct} (h : t.running = true) : t.stop = ⟨false, t.next.getD t.period, none, none⟩ := by
  rw [Lct.stop, if_pos h]
  rfl

theorem Lct.stop_stopped {t : Lct} (h : t.running = false) : t.stop = t := by
  rw [Lct.stop, if_neg (Bool.eq_false_iff.mp h)]

theorem Lct.setPeriod_running {t : Lct} (h : t.running = true) (p : Nat) : t.setPeriod p = { t with next := some p } := by
  rw [Lct.setPeriod, if_pos h]

theorem Lct.setPeriod_stopped {t : Lct} (h : t.running = false) (p : Nat) :
    t.setPeriod p = { t with period := p, next := none } := by
  rw [Lct.setPeriod, if_neg (Bool.eq_false_iff.mp h)]

/-- What keeps the LCT from being stopped (R101). -/
theorem lctInUse_iff (d : Device) : d.lctInUse = true ↔
    ∃ (w : Slot16) (ds : Descriptor), (d.win w).desc = some ds ∧ (d.rt w).state ≠ .off ∧
      ((d.rt w).selected = .lct ∨ (d.rt w).effective = .lct) := by
  simp [Device.lctInUse, mem_allWindows, Option.isSome_iff_exists, and_assoc]

/-! ## Selecting a source (R102, R106) -/

/-- The sources in the order of their codes in the layout table. -/
theorem sourceOfByte_eq (code : Byte) :
    Source.ofByte code = [Source.tsa, .tsb, .fms, .fme, .lct, .close, .manual][code.toNat]? := by
  rcases Nat.lt_or_ge 6 code.toNat with h | h
  · rw [sourceOfByte_none h, List.getElem?_eq_none h]
  · unfold Source.ofByte
    interval_cases code.toNat <;> rfl

theorem strobeSource_of_strobe? {x : Source} {y : Strobe} (h : x.strobe? = some y) : x = strobeSource y := by
  cases x <;> cases h <;> rfl

/-- A strobe's source is available exactly while its monitor is PRESENT (R106). -/
theorem sourceAvailable_strobe (d : Device) (y : Strobe) :
    d.sourceAvailable (strobeSource y) = ((d.monitors.get y).state == .present) := by
  cases y <;> rfl

theorem sourceAvailable_lct (d : Device) : d.sourceAvailable .lct = d.lct.running := rfl

/-- R106's table: a source can be selected when it has its monitor PRESENT, or its timer running, or needs neither. -/
theorem sourceAvailable_of {d : Device} {x : Source}
    (hstrobe : ∀ y, x = strobeSource y → (d.monitors.get y).state = .present)
    (hlct : x = .lct → d.lct.running = true) : d.sourceAvailable x = true := by
  have monitored (y : Strobe) (h : x = strobeSource y) : d.sourceAvailable x = true := by
    rw [h, sourceAvailable_strobe, hstrobe y h, beq_self_eq_true]
  cases x with
  | tsa => exact monitored .tsa rfl
  | tsb => exact monitored .tsb rfl
  | fms => exact monitored .fms rfl
  | fme => exact monitored .fme rfl
  | lct => exact hlct rfl
  | close => rfl
  | manual => rfl

/-- A source whose monitor is PRESENT is not in fallback (R102). -/
theorem effective_of_present {m : Monitors} {x : Source} (h : ∀ y, x = strobeSource y → (m.get y).state = .present)
    (fallback : Fallback) : m.effective x fallback = x := by
  unfold Monitors.effective
  cases hx : x.strobe? with
  | none => rfl
  | some y => exact if_pos (h y (strobeSource_of_strobe? hx))

/-- The record that a selected source leaves when its monitor, if it has one, is PRESENT (R7, R102). -/
theorem selectSource_of_present {d : Device} {w : Slot16} {ds : Descriptor} {x : Source} (hd : (d.win w).desc = some ds)
    (h : ∀ y, x = strobeSource y → (d.monitors.get y).state = .present) :
    d.selectSource w x = d.modRt w fun r => { r with selected := x, effective := x } := by
  rw [Device.selectSource, refreshWindow_modRt d w _ ds hd]
  simp only [effective_of_present h]

theorem trySelect_unnamed {d : Device} {code : Byte} (h : 6 < code.toNat) (w : Slot16) :
    d.trySelect w code = d.answering [2] := by
  rw [Device.trySelect, sourceOfByte_none h]
  rfl

theorem trySelect_named {d : Device} {code : Byte} {x : Source} (h : Source.ofByte code = some x) (w : Slot16) :
    d.trySelect w code = d.requireState (d.sourceAvailable x) fun d => (d.selectSource w x).done [] := by
  rw [Device.trySelect, h]

theorem trySelect_unavailable {d : Device} {code : Byte} {x : Source} (h : Source.ofByte code = some x)
    (ha : d.sourceAvailable x = false) (w : Slot16) : d.trySelect w code = d.answering [1] := by
  rw [trySelect_named h, ha, requireState_false]

/-- A command refused for an argument of its own is refused so whatever the index names (R178). -/
theorem onDefined_answering (d : Device) (index : Byte) : (d.onDefined index fun _ _ => d.answering [2]) = d.answering [2] := by
  unfold Device.onDefined
  split
  · rfl
  · split <;> rfl

/-- An index above 15, an empty slot or a code above 6 is REFUSED_ARGUMENT (R106, R178). -/
theorem onDefined_trySelect_refused {d : Device} {index code : Byte}
    (h : 15 < index.toNat ∨ 6 < code.toNat ∨ ∃ w : Slot16, index.toNat = w.val ∧ (d.win w).desc = none) :
    (d.onDefined index fun w _ => d.trySelect w code) = d.answering [2] := by
  rcases h with hindex | hcode | hempty
  · exact onDefined_refused (.inl hindex) _
  · simp only [trySelect_unnamed hcode]
    exact onDefined_answering d index
  · exact onDefined_refused (.inr hempty) _

/-! ## The statements of the timing sources -/

/-- Settles O37: START and STOP are stated for every period, so nothing of them rests on it; the refusals are those of `requireState`
and `requireArg`, and the timer that an accepted command leaves is that of `Lct.begin`, `Lct.stop` or `Lct.setPeriod`. -/
theorem timerCommandsActOnTheLct : Obligations.TimerCommandsActOnTheLct := by
  intro s period hs t p sets inUse
  have hstop := exec_timerStop s period hs
  have hset := exec_timerPeriod s period hs
  beta_reduce at hstop hset
  have hfree (h : ¬inUse) : s.dev.lctInUse = false := Bool.eq_false_iff.mpr (mt (lctInUse_iff s.dev).mp h)
  refine ⟨exec_timerStart s period hs, ?stopRefused, ?stopRunning, ?stopStopped, ?outOfRange, ?setRunning, ?setStopped⟩
  case stopRefused =>
    intro huse
    rw [hstop, (lctInUse_iff s.dev).mpr huse, Bool.not_true, requireState_false]
  case stopRunning =>
    intro huse hrun
    rw [hstop, hfree huse, Bool.not_false, requireState_true, Lct.stop_running hrun, done_nil]
  case stopStopped =>
    intro huse hrun
    rw [hstop, hfree huse, Bool.not_false, requireState_true, Lct.stop_stopped hrun, done_nil]
  case outOfRange =>
    intro h
    rw [hset, within_eq_false h, requireArg_false]
  case setRunning =>
    intro hlow hhigh hrun
    rw [hset, within_eq_true hlow hhigh, requireArg_true, Lct.setPeriod_running hrun, done_nil]
  case setStopped =>
    intro hlow hhigh hrun
    rw [hset, within_eq_true hlow hhigh, requireArg_true, Lct.setPeriod_stopped hrun, done_nil]

/-- Settles O38: an accepted source is available, so its monitor is PRESENT if it has one, and R102 makes the selected source the
effective one. -/
theorem selectSourceNeedsItsSource : Obligations.SelectSourceNeedsItsSource := by
  intro s index code hs refused
  have hexec := exec_selectSource s index code hs
  beta_reduce at hexec
  refine ⟨fun h => ?_, fun w ds x hw hd hcode => ?_⟩
  · show exec _ s = _
    rw [hexec, onDefined_trySelect_refused h]
  have hx : Source.ofByte code = some x := (sourceOfByte_eq code).trans hcode
  rw [onDefined_some hw hd] at hexec
  have refusedOf (ha : s.dev.sourceAvailable x = false) : refused 1 := by
    show exec _ s = _
    rw [hexec, trySelect_unavailable hx ha]
  refine ⟨?absent, ?stopped, ?accepted⟩
  case absent =>
    rintro ⟨y, rfl, hy⟩
    exact refusedOf ((sourceAvailable_strobe s.dev y).trans (beq_eq_false_iff_ne.mpr hy))
  case stopped =>
    rintro ⟨rfl, hrun⟩
    exact refusedOf ((sourceAvailable_lct s.dev).trans hrun)
  case accepted =>
    intro hpresent hrun
    rw [hexec, trySelect_named hx, sourceAvailable_of hpresent hrun, requireState_true,
      selectSource_of_present hd hpresent, done_nil]

end Sys2Proof.Machine

/-! SUPPORT. The interrupt outputs of the fault unit (R164): LVL as the greatest element of a list of levels, with 0 in it for the case
that no flag is active. -/

namespace Sys2Proof.Machine

/-! ## Active flags -/

theorem mem_flagPositions {p : Nat} : p ∈ flagPositions ↔ p < 40 := List.mem_range

theorem active_iff {u : FaultUnit} {p : Nat} : u.active p = true ↔
    u.flags.getLsbD p = true ∧ u.enables.getLsbD p = true ∧ u.threshold.toNat < (u.level p).toNat := by
  simp [FaultUnit.active, and_assoc]

theorem irq_iff {u : FaultUnit} : u.irq = true ↔ ∃ p < 40, u.active p = true := by
  simp [FaultUnit.irq, mem_flagPositions]

/-! ## The highest active level -/

/-- The levels of the active flags, the lowest position first. -/
def FaultUnit.activeLevels (u : FaultUnit) : List Nat :=
  (flagPositions.filter u.active).map fun p => (u.level p).toNat

theorem mem_activeLevels {u : FaultUnit} {n : Nat} :
    n ∈ u.activeLevels ↔ ∃ p < 40, u.active p = true ∧ (u.level p).toNat = n := by
  simp [FaultUnit.activeLevels, mem_flagPositions, and_assoc]

theorem lvl_eq_foldl_max (u : FaultUnit) : u.lvl = u.activeLevels.foldl max 0 := by
  rw [FaultUnit.lvl, FaultUnit.activeLevels, List.foldl_map, List.foldl_filter]

/-- The 0 stands for LVL when no flag is active. -/
theorem max?_activeLevels (u : FaultUnit) : (0 :: u.activeLevels).max? = some u.lvl := by
  rw [List.max?_cons', lvl_eq_foldl_max]

theorem lvl_eq_zero_or_mem (u : FaultUnit) : u.lvl = 0 ∨ u.lvl ∈ u.activeLevels :=
  List.mem_cons.mp (List.max?_eq_some_iff.mp (max?_activeLevels u)).1

theorem level_le_lvl {u : FaultUnit} {p : Nat} (hp : p < 40) (ha : u.active p = true) : (u.level p).toNat ≤ u.lvl :=
  (List.max?_eq_some_iff.mp (max?_activeLevels u)).2 _ (List.mem_cons_of_mem _ (mem_activeLevels.mpr ⟨p, hp, ha, rfl⟩))

/-- An active flag of any level leaves LVL 0 only by having level 0 itself, so that LVL is the level of an active flag either way. -/
theorem exists_active_level_eq_lvl {u : FaultUnit} (h : u.irq = true) :
    ∃ p < 40, u.active p = true ∧ (u.level p).toNat = u.lvl := by
  rcases lvl_eq_zero_or_mem u with hzero | hmem
  · obtain ⟨p, hp, ha⟩ := irq_iff.mp h
    have hle : (u.level p).toNat ≤ 0 := hzero ▸ level_le_lvl hp ha
    exact ⟨p, hp, ha, (Nat.le_zero.mp hle).trans hzero.symm⟩
  · exact mem_activeLevels.mp hmem

theorem lvl_of_not_irq {u : FaultUnit} (h : u.irq = false) : u.lvl = 0 := by
  rcases lvl_eq_zero_or_mem u with hzero | hmem
  · exact hzero
  · obtain ⟨p, hp, ha, -⟩ := mem_activeLevels.mp hmem
    exact absurd (irq_iff.mpr ⟨p, hp, ha⟩) (Bool.eq_false_iff.mp h)

/-! ## The statement of the interrupt outputs -/

/-- Settles O40: the statement's active flags are the model's, and LVL is the greatest of 0 and their levels. -/
theorem irqFollowsTheActiveFlags : Obligations.IrqFollowsTheActiveFlags := by
  intro u active
  have hactive (p : Nat) : active p ↔ p < 40 ∧ u.active p = true := and_congr_right fun _ => active_iff.symm
  refine ⟨?irq, ?upper, ?attained, lvl_of_not_irq⟩
  case irq => simp only [irq_iff, hactive]
  case upper =>
    intro p h
    obtain ⟨hp, ha⟩ := (hactive p).mp h
    exact level_le_lvl hp ha
  case attained =>
    intro h
    obtain ⟨p, hp, ha, hlevel⟩ := exists_active_level_eq_lvl h
    exact ⟨p, (hactive p).mpr ⟨hp, ha⟩, hlevel⟩

end Sys2Proof.Machine

/-! SUPPORT. Every command keeps what the operations it is made of keep, and so does a step. -/

namespace Sys2Proof.Machine

/-! ## Operations that keep the kept properties, whatever the part -/

/-- An operation of the part that keeps the kept properties in every state. -/
def Steady (f : Device → Device) : Prop := ∀ d, Keeps d (f d)

namespace Steady

variable {f g : Device → Device}

theorem comp (hg : Steady g) (hf : Steady f) : Steady fun d => g (f d) := fun d => (hf d).trans (hg _)

/-- A command acts on what the events of the moment leave (log 2). -/
theorem settled (h : Steady f) : Steady fun d => f d.settle := comp h fun d => (Keeps.refl d).settle

theorem runTo (e : Expiry) : Steady fun d => d.settle.runTo e := settled fun d => (Keeps.refl d).runTo e

theorem linkEdge (e : LinkEdge) : Steady fun d => d.linkEdge e := fun d => (Keeps.refl d).same

theorem strobe (x : Strobe) (after : Nat) : Steady fun d => d.strobe x after := by
  intro d
  have h := (Keeps.refl d).elapseUpTo after
  unfold Device.strobe
  dsimp only
  refine Keeps.tripExpired ?_
  split
  · exact h.pulse x
  · exact h

/-! ## Management commands (R174 to R178) -/

theorem respond (st : Status) (data : List Byte) : Steady fun d => d.respond st data := fun d => (Keeps.refl d).respond st data

/-- A command that answers what it reads. -/
theorem answers (h : Steady f) (data : Device → List Byte) : Steady fun d => (f d).done (data d) :=
  fun d => (h d).respond .done (data d)

theorem command (h : Steady f) : Steady fun d => d.command f := by
  intro d
  unfold Device.command
  dsimp only
  split
  · exact (Keeps.refl d).settle
  · exact h.settled d

theorem whenReady (h : Steady f) : Steady fun d => d.whenReady f := by
  intro d
  unfold Device.whenReady
  dsimp only
  split
  · exact h d
  · exact respond _ _ d

theorem whenOpaque (h : Steady f) : Steady fun d => d.whenOpaque f := by
  intro d
  unfold Device.whenOpaque
  dsimp only
  split
  · exact respond _ _ d
  · exact h d

theorem managed (h : Steady f) : Steady fun d => d.managed f := h.whenReady.command

theorem managedWindow (h : Steady f) : Steady fun d => d.managedWindow f := h.whenOpaque.managed

theorem requireArg (h : Steady f) (ok : Bool) : Steady fun d => d.requireArg ok f := by
  intro d
  cases ok
  · exact respond _ _ d
  · exact h d

theorem requireState (h : Steady f) (ok : Device → Bool) : Steady fun d => d.requireState (ok d) f := by
  intro d
  unfold Device.requireState
  dsimp only
  split
  · exact h d
  · exact respond _ _ d

theorem onSlot {f : Device → Slot16 → Device} (h : ∀ w, Steady (f · w)) (index : Byte) :
    Steady fun d => match slotOfByte index with
      | none => d.respond .refusedArgument []
      | some w => f d w := by
  intro d
  dsimp only
  split
  · exact respond _ _ d
  · exact h _ d

theorem onDefined {f : Device → Slot16 → Descriptor → Device} (h : ∀ w ds, Steady (f · w ds)) (index : Byte) :
    Steady fun d => d.onDefined index (f d) := by
  intro d
  dsimp only [Device.onDefined]
  split
  · exact respond _ _ d
  · split
    · exact respond _ _ d
    · exact h _ _ d

theorem trySelect (w : Slot16) (source : Byte) : Steady fun d => d.trySelect w source := by
  intro d
  unfold Device.trySelect
  split
  · exact respond _ _ d
  · rename_i x _
    exact requireState (answers (fun d => (Keeps.refl d).selectSource w x) fun _ => []) (·.sourceAvailable x) d

theorem disableSlot (w : Slot16) : Steady fun d => d.disableSlot w := by
  intro d
  unfold Device.disableSlot
  dsimp only
  split
  · exact Keeps.refl d
  · split
    · exact Keeps.refl d
    · exact (Keeps.refl d).disableWindow w

theorem answerUnnamed (frame : UnnamedFrame) : Steady fun d => d.answerUnnamed frame := by
  cases frame with
  | command code => exact command (respond _ _)
  | windowCtrl w action => exact managedWindow (respond _ _)
  | timer action period => exact managed (respond _ _)
  | softReset target => exact managed (respond _ _)
  | edge e => exact fun d => Keeps.refl d

end Steady

/-! ## Commands and steps -/

/-- An outcome that is a next state keeps what a state held. -/
def Outkeeps (d : Device) (o : Host.Outcome State Fault Refusal) : Prop := ∀ t, o = .next t → Keeps d t.dev

theorem Steady.next {f : Device → Device} (h : Steady f) (s : State) : Outkeeps s.dev (.next (s.onDevice f)) := by
  rintro t ⟨⟩
  exact h s.dev

/-- A command that a frame carries keeps the kept properties. -/
theorem outkeeps_management {c : Instr} (hc : managementCommand c = true) (s : State) : Outkeeps s.dev (exec c s) := by
  have same : ∀ {f : Device → Device}, (∀ d, Keeps.view (f d) = Keeps.view d) → ∀ data : Device → List Byte,
      Steady fun d => (f d).done (data d) := fun h data => Steady.answers (fun d => (Keeps.refl d).same (h d)) data
  have read : ∀ data : Device → List Byte, Steady fun d => d.done (data d) := same fun _ => rfl
  cases c
  case readId => exact (Steady.command (read _)).next s
  case readStatus => exact (Steady.command (read _)).next s
  case readFlags => exact (Steady.managed (read _)).next s
  case clearFlags mask => exact (Steady.managed (same (f := fun d => { d with fault := d.fault.clear mask }) (fun _ => rfl) _)).next s
  case setEnable mask value =>
    exact (Steady.managed (Steady.requireArg
      (same (f := fun d => { d with fault := d.fault.setEnables mask (value == 1) }) (fun _ => rfl) _) _)).next s
  case setLevel mask level =>
    exact (Steady.managed (Steady.requireArg
      (same (f := fun d => { d with fault := d.fault.setLevels mask (level.extractLsb' 0 2) }) (fun _ => rfl) _) _)).next s
  case setThreshold threshold =>
    exact (Steady.managed (Steady.requireArg
      (same (f := fun d => { d with fault := { d.fault with threshold := threshold.extractLsb' 0 2 } }) (fun _ => rfl) _) _)).next s
  case readLog => exact (Steady.managed fun d => (Keeps.refl d).takeOldest).next s
  case readWindow index => exact (Steady.managed (Steady.onSlot (fun w => read (·.windowBytes w)) index)).next s
  case enable index =>
    exact (Steady.managedWindow (Steady.onDefined (fun w ds => Steady.requireState
      (Steady.answers (fun d => (Keeps.refl d).enableWindow w ds) _) fun d => (d.rt w).state == .off) index)).next s
  case disable index =>
    exact (Steady.managedWindow (Steady.onSlot (fun w => Steady.answers (Steady.disableSlot w) _) index)).next s
  case pause index =>
    exact (Steady.managedWindow (Steady.onDefined (fun w _ => Steady.requireState
      (Steady.answers (fun d => (Keeps.refl d).pauseWindow w) _) fun d => (d.rt w).state == .running) index)).next s
  case resume index =>
    exact (Steady.managedWindow (Steady.onDefined (fun w ds => Steady.requireState
      (Steady.answers (fun d => (Keeps.refl d).resumeWindow w ds) _) fun d => (d.rt w).state == .paused) index)).next s
  case rearm index =>
    exact (Steady.managedWindow (Steady.onDefined (fun w _ => Steady.requireState
      (Steady.answers (fun d => (Keeps.refl d).rearm w) _) fun d => (d.rt w).state == .tripped) index)).next s
  case selectSource index source =>
    exact (Steady.managedWindow (Steady.onDefined (fun w _ => Steady.trySelect w source) index)).next s
  case commitNow index =>
    exact (Steady.managedWindow (Steady.onDefined (fun w _ =>
      Steady.answers (fun d => (Keeps.refl d).commitEvent w) fun d => [(d.decideCommit w).outcome.code]) index)).next s
  case timerStart period => exact (Steady.managed (same (f := fun d => { d with lct := d.lct.begin }) (fun _ => rfl) _)).next s
  case timerStop period =>
    exact (Steady.managed (Steady.requireState (same (f := fun d => { d with lct := d.lct.stop }) (fun _ => rfl) _)
      fun d => !d.lctInUse)).next s
  case timerPeriod period =>
    exact (Steady.managed (Steady.requireArg
      (same (f := fun d => { d with lct := d.lct.setPeriod period.toNat }) (fun _ => rfl) _) _)).next s
  case readSources => exact (Steady.managed (read _)).next s
  case readPorts => exact (Steady.managed (read _)).next s
  case readResetCause => exact (Steady.managed (read _)).next s
  case softResetDatapath => exact (Steady.managed (Steady.answers (fun d => (Keeps.refl d).datapathReset) _)).next s
  case softResetFull => exact (Steady.managed (Steady.answers (fun d => (Keeps.refl d).fullReset .softFull) _)).next s
  case unknownCommand frame =>
    cases frame
    case edge e => exact absurd hc Bool.false_ne_true
    all_goals exact (Steady.answerUnnamed _).next s
  all_goals exact absurd hc Bool.false_ne_true

/-- An edge of a frame: it takes the frame's command or moves the link unit on (R174). -/
theorem outkeeps_edge (e : LinkEdge) (s : State) : Outkeeps s.dev (exec (.unknownCommand (.edge e)) s) := by
  have hs : Keeps s.dev s.dev.settle := (Keeps.refl _).settle
  rw [show exec (.unknownCommand (.edge e)) s = takeEdge e s from rfl]
  unfold takeEdge
  split
  · rename_i c hc
    have hm := managementCommand_of_frameTaken hc
    rw [takeFrame_eq_exec c _ hm]
    exact fun t ht => hs.trans (outkeeps_management hm { s with dev := s.dev.settle } t ht)
  · rintro t ⟨⟩
    exact hs.trans (Steady.linkEdge e _)

/-- Every command keeps the kept properties. -/
theorem outkeeps_exec (c : Instr) (s : State) : Outkeeps s.dev (exec c s) := by
  cases c
  case unknownCommand frame =>
    cases frame
    case edge e => exact outkeeps_edge e s
    all_goals exact outkeeps_management rfl s
  case portRequest p r => exact (Steady.settled fun d => (Keeps.refl d).takeRequest p r).next s
  case orderingEnd p => exact Steady.next (fun d => (Keeps.refl d).endOrdering p) s
  case queueSpaceEntry p => exact Steady.next (fun d => (Keeps.refl d).enterHeldWrite p) s
  case poolWaitService => exact Steady.next (fun d => (Keeps.refl d).servePool) s
  case readAdmitted p => exact Steady.next (fun d => (Keeps.refl d).admitRead p) s
  case lockReservationHandoff p => exact Steady.next (fun d => (Keeps.refl d).handReservation p) s
  case arbiterGrant => exact (Steady.settled fun d => (Keeps.refl d).grant).next s
  case memoryCompletion merr data => exact (Steady.settled fun d => (Keeps.refl d).memoryCompletes merr data).next s
  case itemStart => exact Steady.next (fun d => (Keeps.refl d).startItem) s
  case consumerHoldSet => exact Steady.next (fun d => (Keeps.refl d).setConsumerHold) s
  case holdLimitExpiry p => exact (Steady.runTo (.holdLimit p)).next s
  case poolWaitExpiry p => exact (Steady.runTo (.poolWait p)).next s
  case lockLimitExpiry p => exact (Steady.runTo (.lockLimit p)).next s
  case watchdogExpiry w => exact (Steady.runTo (.watchdog w)).next s
  case strobePulse x after => exact (Steady.settled (Steady.strobe x after)).next s
  case acquisitionTimeout x => exact (Steady.runTo (.acquisition x)).next s
  case syncLost x => exact (Steady.runTo (.sync x)).next s
  case lctExpiry => exact (Steady.runTo .lct).next s
  case frameAbort => exact (Steady.settled fun d => (Keeps.refl d).same).next s
  case pwrRst => exact (Steady.settled fun d => (Keeps.refl d).pwrRstReset).next s
  case rstIn => exact (Steady.settled fun d => (Keeps.refl d).rstInReset).next s
  case linkReset => exact (Steady.settled fun d => (Keeps.refl d).takeLinkReset).next s
  case resetRelease straps => exact Steady.next (fun d => (Keeps.refl d).releaseReset straps) s
  case settleEnd straps => exact (Steady.runTo (.settleEnd straps)).next s
  case flashAnswer input =>
    cases input with
    | byte x => exact (Steady.settled fun d => (Keeps.refl d).flashReturns [x] ((Keeps.refl d).flashAnswers x)).next s
    | edge fdi => exact (Steady.settled fun d => (Keeps.refl d).flashEdge fdi).next s
  case flashRetryWaitEnd => exact (Steady.runTo .flashRetry).next s
  case flashTimeout => exact (Steady.runTo .flashTimeout).next s
  case imageReadComplete words =>
    exact (Steady.settled fun d => (Keeps.refl d).flashReturns _ ((Keeps.refl d).imageRead words)).next s
  case rstOutRelease => exact (Steady.runTo .rstOut).next s
  case headerReadComplete word0 word1 word2 =>
    exact (Steady.settled fun d => (Keeps.refl d).flashReturns _ ((Keeps.refl d).headerRead word0 word1 word2)).next s
  case pwrRstRelease => exact (Steady.settled fun d => (Keeps.refl d).releasePwrRst).next s
  all_goals exact outkeeps_management rfl s

/-- What the part does by itself keeps the kept properties (log 3). -/
theorem keeps_idle (d : Device) : Keeps d d.idle := by
  have h := Keeps.refl d
  unfold Device.idle
  split
  · exact h.take _
  · split
    · exact (h.expire _).tripExpired
    · split
      · exact h.grant
      · exact (h.advance 1).tripExpired

/-- Every step keeps the kept properties. -/
theorem keeps_step {s t : State} (h : step s = .next t) : Keeps s.dev t.dev := by
  unfold step at h
  split at h
  · rename_i c rest _
    exact outkeeps_exec c { s with pending := rest } t h
  · cases h
    exact keeps_idle s.dev

/-! ## The statements -/

/-- Settles O55: the log's part of what a step keeps. -/
theorem everyStepKeepsTheLog : Obligations.EveryStepKeepsTheLog :=
  fun _ _ hlog hstep => (keeps_step hstep).log hlog

/-- Settles O56: the buffers' part of what a step keeps. -/
theorem everyStepKeepsTheBuffers : Obligations.EveryStepKeepsTheBuffers :=
  fun _ _ hqueues hstore hstep => ⟨(keeps_step hstep).queues hqueues, (keeps_step hstep).store hstore⟩

/-- Settles O57: the commit queue's and the arbiter's part of what a step keeps. -/
theorem everyStepKeepsQueueAndRotation : Obligations.EveryStepKeepsQueueAndRotation :=
  fun _ _ hitems hrotation hstep => ⟨(keeps_step hstep).items hitems, (keeps_step hstep).rotation hrotation⟩

/-- Settles O58: the effective sources' part of what a step keeps. -/
theorem everyStepKeepsEffectiveSources : Obligations.EveryStepKeepsEffectiveSources :=
  fun _ _ hsources hstep => (keeps_step hstep).sources hsources

/-- Every slot is empty after PWR_RST (R25). -/
theorem win_reset (w : Slot16) : State.reset.dev.win w = Window.empty := by
  simp [State.reset, Device.reset, Device.win]

/-- Settles O59: after reset the log, the buffers and the queue are empty, and no window is defined. -/
theorem keptPropertiesHoldAtReset : Obligations.KeptPropertiesHoldAtReset := by
  refine ⟨by decide, by decide, by decide, by decide, by decide, fun w ds hd => ?sources, by decide⟩
  case sources =>
    rw [win_reset w] at hd
    cases hd

/-- Settles O1: the front command is what `step` runs. -/
theorem stepRunsFrontCommand : Obligations.StepRunsFrontCommand := fun _ _ _ => rfl

/-- Settles O4: the slots and ports are those of `Window.empty` and `PortUnit.reset`, and the rest is what `Device.reset` gives. -/
theorem powerOnStateHoldsSpecValues : Obligations.PowerOnStateHoldsSpecValues := by
  have hport (p : Port) : State.reset.dev.port p = PortUnit.reset := by cases p <;> rfl
  have hmonitor (x : Strobe) : State.reset.dev.monitors.get x = Monitor.reset := by cases x <;> rfl
  refine ⟨rfl, rfl, rfl, rfl, rfl, rfl, rfl, rfl, rfl, rfl, rfl, rfl, fun w => ?windows, rfl, rfl, rfl, rfl, rfl, rfl, rfl,
    fun p => ?ports, hmonitor, rfl, rfl, rfl, rfl, rfl, rfl, rfl, by decide, by decide, rfl, rfl, rfl, rfl, rfl⟩
  case windows =>
    rw [show State.reset.dev.rt w = Runtime.off from congrArg Window.rt (win_reset w), win_reset w]
    exact ⟨rfl, rfl, rfl, rfl, rfl, rfl, rfl, rfl, rfl, rfl, rfl, rfl, rfl, rfl, rfl⟩
  case ports =>
    rw [hport p]
    exact ⟨rfl, rfl, rfl, rfl, rfl, rfl⟩

end Sys2Proof.Machine

/-! SUPPORT. What a port answers a request that it takes or turns away (R17 to R23, R127, R141, R155, R158). -/

namespace Sys2Proof.Machine

/-- Two outcomes are the same next state when they leave the same part. -/
theorem next_congr {d t : Device} (s : State) (h : d = t) :
    (.next { s with dev := d } : Host.Outcome State Fault Refusal) = .next { s with dev := t } := by rw [h]

/-! ## A port unit under the updates of the part -/

/-- What a change of a port unit leaves depends on the present unit alone. -/
theorem modPort_congr (d : Device) (p : Port) (f g : PortUnit → PortUnit) (h : f (d.port p) = g (d.port p)) :
    d.modPort p f = d.modPort p g := by
  cases p
  · exact congrArg (fun u => { d with portA := u }) h
  · exact congrArg (fun u => { d with portB := u }) h

theorem modPort_id (d : Device) (p : Port) (f : PortUnit → PortUnit) (h : f (d.port p) = d.port p) : d.modPort p f = d := by
  rw [modPort_congr d p f id h]
  cases p <;> rfl

@[simp] theorem port_setFlag (d : Device) (f : Flag) (p : Port) : (d.setFlag f).port p = d.port p := by cases p <;> rfl

@[simp] theorem port_offer (d : Device) (r : Report) (p : Port) : (d.offer r).port p = d.port p := by cases p <;> rfl

@[simp] theorem port_modRt (d : Device) (w : Slot16) (f : Runtime → Runtime) (p : Port) : (d.modRt w f).port p = d.port p := by
  cases p <;> rfl

theorem offer_modPort (d : Device) (p : Port) (f : PortUnit → PortUnit) (r : Report) :
    (d.modPort p f).offer r = (d.offer r).modPort p f := by cases p <;> rfl

theorem setFlag_modPort (d : Device) (p : Port) (f : PortUnit → PortUnit) (x : Flag) :
    (d.modPort p f).setFlag x = (d.setFlag x).modPort p f := by cases p <;> rfl

@[simp] theorem win_modPort (d : Device) (p : Port) (f : PortUnit → PortUnit) (w : Slot16) : (d.modPort p f).win w = d.win w := by
  cases p <;> rfl

@[simp] theorem rt_modPort (d : Device) (p : Port) (f : PortUnit → PortUnit) (w : Slot16) : (d.modPort p f).rt w = d.rt w := by
  cases p <;> rfl

@[simp] theorem holdLimit_modPort (d : Device) (p q : Port) (f : PortUnit → PortUnit) :
    (d.modPort p f).holdLimit q = d.holdLimit q := by cases p <;> cases q <;> rfl

/-! ## Answers and phases (R127, R128, R137) -/

/-- An answer ERROR that counts a refusal (R23). -/
theorem refusal_eq (d : Device) (p : Port) : (d.countRefusal p).answer p .error [] = d.modPort p fun u =>
    { u with
      current := none, holdTimer := none, answer := some ⟨.error, []⟩
      counters := { u.counters with refusals := satInc u.counters.refusals } } := Device.modPort_modPort d p _ _

theorem refuseAccess_eq (d : Device) (p : Port) (r : Request) (k : AccessDetail) (w : Option Slot16) :
    d.refuseAccess p r k w = ((d.setFlag .access).offer
      { kind := .access, detail := some (.access k), window := w, port := some p, address := some r.address.toNat,
        epoch := none }).modPort p fun u =>
      { u with
        current := none, holdTimer := none, answer := some ⟨.error, []⟩
        counters := { u.counters with refusals := satInc u.counters.refusals } } := refusal_eq _ p

/-- A request starts to wait with its port's hold limit (R137). -/
theorem hold_eq {d : Device} {p : Port} {c : Current} (hc : (d.port p).current = some c) (k : HoldCause) :
    d.hold p k = d.modPort p fun u =>
      { u with current := some { c with phase := .held k }, holdTimer := some (d.holdLimit p) } := by
  rw [Device.hold, Device.setPhase, Device.modPort_modPort]
  refine modPort_congr d p _ _ ?_
  rw [hc]
  rfl

theorem release_eq {d : Device} {p : Port} {c : Current} (hc : (d.port p).current = some c) :
    d.release p = d.modPort p fun u => { u with current := some { c with phase := .performing }, holdTimer := none } := by
  rw [Device.release, Device.setPhase, Device.modPort_modPort]
  refine modPort_congr d p _ _ ?_
  rw [hc]
  rfl

/-- A request begins and starts to wait at once. -/
theorem begin_hold_eq (d : Device) (p : Port) (r : Request) (c : Class) (ph : Phase) (closing : Bool) (k : HoldCause) :
    (d.begin p r c ph closing).hold p k = d.modPort p fun u =>
      { u with current := some ⟨r, c, .held k, 0, [], false, closing⟩, holdTimer := some (d.holdLimit p) } := by
  rw [hold_eq (c := newCurrent r c ph closing) (by rw [Device.begin, Device.port_modPort_self]), Device.begin,
    Device.modPort_modPort, holdLimit_modPort]
  rfl

/-- A plain write enters its port's queue (R131, R132). -/
theorem enterQueue_eq (d : Device) (p : Port) (r : Request) : d.enterQueue p r = d.modPort p fun u =>
    { u with
      current := none, holdTimer := none, answer := some ⟨.okay, []⟩
      queue := u.queue ++ (r.beats.zipIdx.map fun b => ⟨r.address.toNat + 4 * b.2, b.1.mask, b.1.data⟩) } := by
  rw [Device.enterQueue, Device.answer, Device.modPort_modPort, postedSlots_eq]

theorem queueFits_iff (d : Device) (p : Port) (r : Request) :
    d.queueFits p r = true ↔ (d.port p).queue.length + r.beats.length ≤ 4 := decide_eq_true_iff

/-! ## The events of a moment do not look at locks -/

/-- No event of a moment waits for a lock record. -/
theorem urgent_setLock (d : Device) (p : Port) (l : LockRecord) : (d.setLock p l).urgent = d.urgent := by
  have hready : (d.setLock p l).isReady = d.isReady := by
    funext u
    cases u with
    | poolService =>
      have hcurrent (q : Port) : ((d.setLock p l).port q).current = (d.port q).current := current_modPort d p q _ rfl
      simp only [Device.isReady, Device.poolCheckDue, Device.freeCount, hcurrent]
      rw [show (d.setLock p l).poolWait = d.poolWait from Device.modPort_poolWait d p _,
        show (d.setLock p l).entries = d.entries from Device.modPort_entries d p _]
    | reservation q => cases p <;> cases q <;> rfl
    | orderingEnd q => cases p <;> cases q <;> rfl
    | queueSpace q => cases p <;> cases q <;> rfl
    | readAdmitted q => cases p <;> cases q <;> rfl
    | resetRelease => cases p <;> rfl
    | holdSet => cases p <;> rfl
    | itemStart => cases p <;> rfl
  simp only [Device.urgent, hready]

/-! ## Step 1 (R17, R18, R155, R158) -/

theorem takeRequest_malformed {d : Device} {p : Port} {r : Request} (h : Takes d p) (hm : requestMalformed r = true) :
    d.takeRequest p r = d.takeMalformed p r := by
  obtain ⟨-, hready, hnone⟩ := h
  simp [Device.takeRequest, hready, hnone, hm]

theorem takeRequest_wellFormed {d : Device} {p : Port} {r : Request} (h : Takes d p) (hm : requestMalformed r = false) :
    d.takeRequest p r = d.takeWellFormed p r := by
  obtain ⟨-, hready, hnone⟩ := h
  simp [Device.takeRequest, hready, hnone, hm]

/-- A well-formed request on a port with no lock record, but a locked write, goes to classification. -/
theorem takeRequest_unlocked {d : Device} {p : Port} {r : Request} (h : TakesUnlocked d p) (hm : requestMalformed r = false)
    (hl : ¬(r.locked = true ∧ r.kind = .write)) : d.takeRequest p r = d.classifyAndHandOn p r false := by
  obtain ⟨htakes, hlock⟩ := h
  simp [takeRequest_wellFormed htakes hm, Device.takeWellFormed, hlock, Device.takeUnlocked, hl]

/-- A request that classification hands on from a port with no lock record. -/
theorem exec_handedOn {s : State} {p : Port} {r : Request} {c : Class} (h : TakesUnlocked s.dev p)
    (hm : requestMalformed r = false) (hl : ¬(r.locked = true ∧ r.kind = .write)) (hc : s.dev.classify p r = .handOn c) :
    exec (.portRequest p r) s = .next { s with dev := s.dev.handOn p r false c } := by
  rw [exec_portRequest s p r h.1.1, takeRequest_unlocked h hm hl, Device.classifyAndHandOn, hc]

/-- What is done with a malformed request (R18, log 12). -/
theorem takeMalformed_eq (d : Device) (p : Port) (r : Request) : d.takeMalformed p r =
    ((d.setFlag .access).offer
      { kind := .access, detail := some (.access .malformed), window := none, port := some p,
        address := some r.address.toNat, epoch := none }).modPort p fun u =>
      { u with
        current := none, holdTimer := none, answer := some ⟨.error, []⟩
        lock := match u.lock with | .broken _ => .noLock | l => l
        counters := { u.counters with refusals := satInc u.counters.refusals } } := by
  unfold Device.takeMalformed
  dsimp only
  cases hl : (d.port p).lock with
  | broken a =>
    simp only [refuseAccess_eq, Device.setLock, setFlag_modPort, offer_modPort, Device.modPort_modPort]
    refine modPort_congr _ p _ _ ?_
    rw [port_offer, port_setFlag, hl]
  | _ =>
    simp only [refuseAccess_eq]
    refine modPort_congr _ p _ _ ?_
    rw [port_offer, port_setFlag, hl]

theorem isLockedWriteTo_iff (r : Request) (a : Nat) :
    isLockedWriteTo r a = true ↔ r.locked = true ∧ r.kind = .write ∧ r.address.toNat = a := by
  simp [isLockedWriteTo, and_assoc]

theorem takeWellFormed_opened {d : Device} {p : Port} {k : LockKind} {a rem : Nat} (hl : (d.port p).lock = .opened k a rem)
    (r : Request) : d.takeWellFormed p r =
      if isLockedWriteTo r a then d.classifyAndHandOn p r true else d.refuseLockMisuse p r k.slot? := by
  simp only [Device.takeWellFormed, hl]

theorem takeWellFormed_broken {d : Device} {p : Port} {a : Nat} (hl : (d.port p).lock = .broken a) (r : Request) :
    d.takeWellFormed p r =
      if isLockedWriteTo r a then d.refuseLockLate p a else (d.setLock p .noLock).takeUnlocked p r := by
  simp only [Device.takeWellFormed, hl]

/-- Which misuse of an open lock a request is (R155). -/
theorem misuseDetail_eq (r : Request) : misuseDetail r =
    if r.locked = false then .unlocked else if r.kind = .read then .secondLock else .wrongWord := by
  unfold misuseDetail
  cases r.locked <;> cases r.kind <;> rfl

/-! ## The statements about requests that are turned away -/

/-- Settles O5: outside READY `takeRequest` answers by the port's kind, and a busy port meets its second branch. -/
theorem requestIsNotTaken : Obligations.RequestIsNotTaken := by
  intro s p r hs
  rw [exec_portRequest s p r hs]
  refine ⟨fun hstate => ?away, fun hstate hbusy => ?busy⟩
  case away =>
    rw [Device.takeRequest, if_pos hstate, Device.answer]
    congr 2
    refine modPort_congr _ p _ _ ?_
    cases (s.dev.port p).kind <;> rfl
  case busy =>
    rw [Device.takeRequest, if_neg (not_not.mpr hstate), if_pos (Option.isSome_iff_ne_none.mpr hbusy)]

/-- Settles O6: the six forms of R18 are what `requestMalformed` tests. -/
theorem malformedRequestIsRefused : Obligations.MalformedRequestIsRefused := by
  intro s p r hs hform
  rw [exec_portRequest s p r hs.1, takeRequest_malformed hs ((requestMalformed_iff r).mpr hform)]
  exact next_congr s (takeMalformed_eq s.dev p r)

/-- Settles O7: a refusal of steps 2 to 5 is `refuseAccess`. -/
theorem refusedByClassification : Obligations.RefusedByClassification := by
  intro s p r k w hs hm hl hc
  rw [exec_portRequest s p r hs.1.1, takeRequest_unlocked hs hm hl, Device.classifyAndHandOn, hc]
  exact next_congr s (refuseAccess_eq s.dev p r k w)

/-- A request on a port with an open lock that is not its closing write (R155). -/
theorem refuseLockMisuse_eq (d : Device) (p : Port) (r : Request) (w : Option Slot16) : d.refuseLockMisuse p r w =
    ((d.setFlag .lock).offer
      { kind := .lockMisuse, detail := some (.lockMisuse (misuseDetail r)), window := w, port := some p,
        address := some r.address.toNat, epoch := none }).modPort p fun u =>
      { u with
        current := none, holdTimer := none, answer := some ⟨.error, []⟩
        counters := { u.counters with refusals := satInc u.counters.refusals } } := refusal_eq _ p

/-- A late closing write (R158). -/
theorem refuseLockLate_eq (d : Device) (p : Port) (a : Nat) : d.refuseLockLate p a =
    ((d.setFlag .lock).offer
      { kind := .lockLate, detail := none, window := d.windowAt a, port := some p, address := some a,
        epoch := none }).modPort p fun u =>
      { u with
        current := none, holdTimer := none, answer := some ⟨.error, []⟩, lock := .noLock
        counters := { u.counters with refusals := satInc u.counters.refusals } } := by
  rw [Device.refuseLockLate, refusal_eq, Device.setLock, Device.modPort_modPort]
  rfl

/-- Settles O8: the branches of `takeWellFormed` by the lock record; what an answer leaves of the record is the record itself, but for
a late closing write. -/
theorem lockRecordTurnsRequestsAway : Obligations.LockRecordTurnsRequestsAway := by
  refine ⟨?refuses, ?broken⟩
  case refuses =>
    intro s p r hs hm refused
    refine ⟨?unlocked, ?opened, ?late⟩
    case unlocked =>
      intro hl hlocked hwrite
      show exec _ s = _
      rw [exec_portRequest s p r hs.1, takeRequest_wellFormed hs hm, Device.takeWellFormed, hl]
      simp only [Device.takeUnlocked, hlocked, hwrite, and_self, if_true, refuseAccess_eq]
      congr 2
      refine modPort_congr _ p _ _ ?_
      rw [port_offer, port_setFlag, hl]
    case opened =>
      intro k a rem hl hr
      show exec _ s = _
      rw [exec_portRequest s p r hs.1, takeRequest_wellFormed hs hm, takeWellFormed_opened hl,
        if_neg (mt (isLockedWriteTo_iff r a).mp hr), refuseLockMisuse_eq, misuseDetail_eq]
      cases k <;> (
        congr 2
        refine modPort_congr _ p _ _ ?_
        rw [port_offer, port_setFlag, hl])
    case late =>
      intro a hl hlocked hwrite ha
      show exec _ s = _
      rw [exec_portRequest s p r hs.1, takeRequest_wellFormed hs hm, takeWellFormed_broken hl,
        if_pos ((isLockedWriteTo_iff r a).mpr ⟨hlocked, hwrite, ha⟩), refuseLockLate_eq]
  case broken =>
    intro s p r a hs hm hl hr t
    obtain ⟨hsettled, hready, hnone⟩ := hs
    have ht : TakesUnlocked t.dev p := by
      refine ⟨⟨(urgent_setLock s.dev p .noLock).trans hsettled, ?_, ?_⟩, ?_⟩
      · exact (congrArg Startup.state (Device.modPort_startup s.dev p _)).trans hready
      · exact (current_modPort s.dev p p _ rfl).trans hnone
      · exact congrArg PortUnit.lock (Device.port_modPort_self s.dev p _)
    refine ⟨ht, ?_⟩
    rw [exec_portRequest s p r hsettled, exec_portRequest t p r ht.1.1, takeRequest_wellFormed ⟨hsettled, hready, hnone⟩ hm,
      takeRequest_wellFormed ht.1 hm, takeWellFormed_broken hl, if_neg (mt (isLockedWriteTo_iff r a).mp hr),
      Device.takeWellFormed, ht.2]
    rfl

/-! ## The statements about requests that go on -/

/-- Settles O11: the three branches of `takePlainWrite`. -/
theorem plainWriteIsPosted : Obligations.PlainWriteIsPosted := by
  intro s p r hs hm hl hc
  rw [exec_handedOn hs hm (fun h => Bool.false_ne_true (hl.symm.trans h.1)) hc]
  refine ⟨fun hshort hfits => ?posted, fun hshort hfull => ?held, fun hlong => ?through⟩
  case posted =>
    rw [← enterQueue_eq, Device.handOn, if_neg Bool.false_ne_true, Device.takePlainWrite, if_neg (Nat.not_lt.mpr hshort),
      if_pos ((queueFits_iff _ p r).mpr hfits)]
  case held =>
    rw [← begin_hold_eq s.dev p r .plainWrite .performing false .queueSpace, Device.handOn, if_neg Bool.false_ne_true,
      Device.takePlainWrite, if_neg (Nat.not_lt.mpr hshort),
      if_neg (mt (queueFits_iff _ p r).mp (Nat.not_le.mpr hfull))]
  case through =>
    rw [Device.handOn, if_neg Bool.false_ne_true, Device.takePlainWrite, if_pos hlong]
    rfl

/-- Classification hands a read on as a read (R20 to R22). -/
theorem classify_read {d : Device} {p : Port} {r : Request} {c : Class} (hk : r.kind = .read) (h : d.classify p r = .handOn c) :
    c ≠ .plainWrite ∧ ∀ w, c ≠ .producerWrite w := by
  unfold Device.classify at h
  split at h
  · cases h
  · split at h
    · cases h
      exact ⟨nofun, nofun⟩
    · cases h
  · split at h
    · cases h
    · rw [hk] at h
      cases h
      exact ⟨nofun, nofun⟩
  · obtain ⟨ds, -, ⟨-, -, ⟨rfl, -⟩ | ⟨-, hwrite⟩⟩ | ⟨-, -, -, -, -, rfl⟩⟩ := classifyInWindow_spec h
    · exact ⟨nofun, nofun⟩
    · exact absurd (hk.symm.trans hwrite) nofun
    · exact ⟨nofun, nofun⟩

/-- Settles O12: each class of a read is handed on to ORDERING. -/
theorem readEntersOrdering : Obligations.ReadEntersOrdering := by
  intro s p r c hs hm hk hc
  rw [exec_handedOn hs hm (fun h => absurd (hk.symm.trans h.2) nofun) hc]
  obtain ⟨hplain, hproducer⟩ := classify_read hk hc
  cases c with
  | plainWrite => exact absurd rfl hplain
  | producerWrite w => exact absurd rfl (hproducer w)
  | _ => rfl

end Sys2Proof.Machine

/-! SUPPORT. Where classification hands a request on, the end of ORDERING, and holds that clear (R19 to R22, R72, R73, R132, R136, R152,
R153). -/

namespace Sys2Proof.Machine

/-! ## Classification (R19 to R22) -/

theorem place_of_windowAt {d : Device} {a : Nat} {w : Slot16} (h : d.windowAt a = some w) : d.place a = .window w := by
  rw [Device.place, h]

theorem place_of_inStatusArea {d : Device} {a : Nat} (h : d.windowAt a = none ∧ d.inStatusArea a = true) :
    d.place a = .status := by
  simp only [Device.place, h.1, h.2, if_true]

theorem place_of_outside {d : Device} {a : Nat} (h : d.windowAt a = none ∧ d.inStatusArea a = false) :
    d.place a = .outside := by
  simp only [Device.place, h.1, h.2, Bool.false_eq_true, if_false]

/-- A request with words in two places lies in none (R19). -/
theorem requestPlace_of_straddles {d : Device} {r : Request} {a b : Nat} (ha : a ∈ requestAddresses r)
    (hb : b ∈ requestAddresses r) (h : d.place a ≠ d.place b) : d.requestPlace r = none := by
  cases hp : d.requestPlace r with
  | none => rfl
  | some x => exact absurd ((place_of_requestPlace hp a ha).trans (place_of_requestPlace hp b hb).symm) h

theorem inStatusArea_iff (d : Device) (a : Nat) : d.inStatusArea a = true ↔
    ∃ base, d.config.statusArea = some base ∧ base ≤ a ∧ a < base + 256 := by
  unfold Device.inStatusArea
  cases d.config.statusArea <;> simp

theorem covers_iff (ds : Descriptor) (a : Nat) : ds.covers a = true ↔ ds.base ≤ a ∧ a < ds.base + 4 * ds.length := by
  simp [Descriptor.covers]

theorem liesIn_iff (d : Device) (a : Nat) (w : Slot16) : d.liesIn a w = true ↔
    ∃ ds, (d.win w).desc = some ds ∧ (d.rt w).state ≠ .off ∧ ds.base ≤ a ∧ a < ds.base + 4 * ds.length := by
  unfold Device.liesIn
  cases (d.win w).desc with
  | none => simp
  | some ds => simp [covers_iff]

theorem windowAt_none_iff (d : Device) (a : Nat) : d.windowAt a = none ↔
    ∀ w ds, (d.win w).desc = some ds → (d.rt w).state ≠ .off → ¬(ds.base ≤ a ∧ a < ds.base + 4 * ds.length) := by
  rw [Device.windowAt, List.find?_eq_none]
  constructor
  · intro h w ds hd hs hin
    exact h w (mem_allWindows w) ((liesIn_iff d a w).mpr ⟨ds, hd, hs, hin⟩)
  · intro h w _ hw
    obtain ⟨ds, hd, hs, hin⟩ := (liesIn_iff d a w).mp hw
    exact h w ds hd hs hin

theorem meetsPrivilege_iff (p m : Privilege) : meetsPrivilege p m = true ↔ (m = .supervisor → p = .supervisor) := by
  cases p <;> cases m <;> decide

theorem classify_of_place {d : Device} {r : Request} {x : Place} (p : Port) (hb : r.beats ≠ [])
    (h : ∀ a ∈ requestAddresses r, d.place a = x) : d.classify p r =
      match x with
      | .status => if r.kind = .read ∧ ¬r.locked then .handOn .statusRead else .refuse .statusWrite none
      | .outside =>
        if d.confined p then .refuse .confined none
        else match r.kind with
          | .read => .handOn .plainRead
          | .write => .handOn .plainWrite
      | .window w => d.classifyInWindow p r w := by
  rw [Device.classify, requestPlace_of_place hb h]
  cases x <;> rfl

theorem classify_in_window {d : Device} {r : Request} {w : Slot16} (p : Port) (hb : r.beats ≠ [])
    (h : ∀ a ∈ requestAddresses r, d.windowAt a = some w) : d.classify p r = d.classifyInWindow p r w :=
  classify_of_place p hb fun a ha => place_of_windowAt (h a ha)

/-- The producer of a window is refused for its privilege alone (R22). -/
theorem classifyInWindow_producer {d : Device} {p : Port} {r : Request} {w : Slot16} {ds : Descriptor}
    (hd : (d.win w).desc = some ds) (hp : ds.producer = p) : d.classifyInWindow p r w =
      if meetsPrivilege r.privilege ds.producerMin then
        match r.kind with
        | .read => .handOn (.producerRead w)
        | .write => .handOn (.producerWrite w)
      else .refuse .privilege (some w) := by
  rw [Device.classifyInWindow, hd]
  exact if_pos hp

/-- The other port meets role before privilege (R22). -/
theorem classifyInWindow_consumer {d : Device} {p : Port} {r : Request} {w : Slot16} {ds : Descriptor}
    (hd : (d.win w).desc = some ds) (hp : ds.producer ≠ p) : d.classifyInWindow p r w =
      if r.kind = .write ∨ r.locked ∨ ¬ds.consumerReads then .refuse .role (some w)
      else if meetsPrivilege r.privilege ds.consumerMin then .handOn (.consumerRead w)
      else .refuse .privilege (some w) := by
  rw [Device.classifyInWindow, hd]
  exact if_neg hp

/-- What a hand-on says of the request's words and roles (R19 to R22). -/
theorem classify_handOn {d : Device} {p : Port} {r : Request} {c : Class} (h : d.classify p r = .handOn c) :
    (c = .statusRead ∧ d.requestPlace r = some .status ∧ r.kind = .read ∧ r.locked = false) ∨
    (c = .plainRead ∧ d.requestPlace r = some .outside ∧ r.kind = .read ∧ d.confined p = false) ∨
    (c = .plainWrite ∧ d.requestPlace r = some .outside ∧ r.kind = .write ∧ d.confined p = false) ∨
    (∃ w, d.requestPlace r = some (.window w) ∧ d.classifyInWindow p r w = .handOn c) := by
  unfold Device.classify at h
  split at h
  · cases h
  · rename_i hplace
    split at h
    · rename_i hr
      cases h
      exact .inl ⟨rfl, hplace, hr.1, Bool.eq_false_of_not_eq_true hr.2⟩
    · cases h
  · rename_i hplace
    split at h
    · cases h
    · rename_i hfree
      have hfree := Bool.eq_false_of_not_eq_true hfree
      split at h <;> cases h <;> rename_i hk
      · exact .inr (.inl ⟨rfl, hplace, hk, hfree⟩)
      · exact .inr (.inr (.inl ⟨rfl, hplace, hk, hfree⟩))
  · rename_i w hplace
    exact .inr (.inr (.inr ⟨w, hplace, h⟩))

/-- A window that a request lies in covers each of its words and is not OFF, when it has a word at all. -/
theorem covers_of_requestPlace {d : Device} {r : Request} {w : Slot16} {ds : Descriptor}
    (h : d.requestPlace r = some (.window w)) (hd : (d.win w).desc = some ds) :
    (d.rt w).state ≠ .off ∧ ∀ a ∈ requestAddresses r, ds.covers a = true := by
  have each (a : Nat) (ha : a ∈ requestAddresses r) : (d.rt w).state ≠ .off ∧ ds.covers a = true := by
    obtain ⟨ds', hd', hs, hc⟩ := windowAt_spec (windowAt_of_place (place_of_requestPlace h a ha))
    cases hd.symm.trans hd'
    exact ⟨hs, hc⟩
  refine ⟨?_, fun a ha => (each a ha).2⟩
  cases hw : requestAddresses r with
  | nil => rw [Device.requestPlace, hw] at h; cases h
  | cons a rest => exact (each a (hw ▸ List.mem_cons_self)).1

/-- Settles O10: `classify` goes by the place of the request, and inside a window by `classifyInWindow`. -/
theorem classificationIsSound : Obligations.ClassificationIsSound := by
  refine ⟨?sound, ?refuses, ?handsOn⟩
  case sound =>
    intro d p r c h
    obtain ⟨rfl, hplace, hk, hl⟩ | ⟨rfl, hplace, hk, hf⟩ | ⟨rfl, hplace, hk, hf⟩ | ⟨w, hplace, hin⟩ := classify_handOn h
    · exact ⟨hk, hl, fun a ha => inStatusArea_of_place (place_of_requestPlace hplace a ha)⟩
    · exact ⟨hk, hf, fun a ha => outside_of_place (place_of_requestPlace hplace a ha)⟩
    · exact ⟨hk, hf, fun a ha => outside_of_place (place_of_requestPlace hplace a ha)⟩
    · obtain ⟨ds, hd, ⟨hp, hmin, ⟨rfl, hk⟩ | ⟨rfl, hk⟩⟩ | ⟨hp, hk, hl, hreads, hmin, rfl⟩⟩ := classifyInWindow_spec hin
      all_goals obtain ⟨hs, hcovers⟩ := covers_of_requestPlace hplace hd
      · exact ⟨hk, ds, hd, hs, hp, hmin, hcovers⟩
      · exact ⟨hk, ds, hd, hs, hp, hmin, hcovers⟩
      · exact ⟨hk, hl, ds, hd, hs, hp, hreads, hmin, hcovers⟩
  case refuses =>
    intro d p r hb words refuses
    refine ⟨?straddles, ?status, ?confined, ?window⟩
    case straddles =>
      rintro ⟨a, ha, b, hb', hne⟩
      have hplace : d.place a ≠ d.place b := by
        intro heq
        rcases hne with hne | ⟨hna, hnb, hne⟩
        · simp only [Device.place] at heq
          grind
        · simp only [Device.place, hna, hnb] at heq
          grind
      show d.classify p r = _
      rw [Device.classify, requestPlace_of_straddles ha hb' hplace]
    case status =>
      intro hin hr
      show d.classify p r = _
      rw [classify_of_place p hb fun a ha => place_of_inStatusArea (hin a ha)]
      refine if_neg fun ⟨hk, hl⟩ => ?_
      rcases hr with hr | hr
      · exact absurd (hk.symm.trans hr) nofun
      · exact hl hr
    case confined =>
      intro hout hconf
      show d.classify p r = _
      rw [classify_of_place p hb fun a ha => place_of_outside (hout a ha)]
      exact if_pos hconf
    case window =>
      intro w ds hin hd
      refine ⟨fun hp hmin hpriv => ?_, fun hp hr => ?_, fun hp hk hl hreads hmin hpriv => ?_⟩ <;> show d.classify p r = _
      · rw [classify_in_window p hb hin, classifyInWindow_producer hd hp, hmin, hpriv]
        rfl
      · rw [classify_in_window p hb hin, classifyInWindow_consumer hd hp, if_pos]
        simpa using hr
      · rw [classify_in_window p hb hin, classifyInWindow_consumer hd hp, if_neg (by simp [hk, hl, hreads]), hmin, hpriv]
        rfl
  case handsOn =>
    intro d p r hb words handsOn meets
    refine ⟨rfl, inStatusArea_iff d, windowAt_none_iff d, ?found, ?outside, ?status, ?window⟩
    case found =>
      intro a w h
      exact (liesIn_iff d a w).mp (List.find?_some h)
    case outside =>
      intro hout hfree
      refine ⟨fun hk => ?_, fun hk => ?_⟩ <;> show d.classify p r = _ <;>
        rw [classify_of_place p hb fun a ha => place_of_outside (hout a ha)] <;> simp [hfree, hk]
    case status =>
      intro hin hk hl
      show d.classify p r = _
      rw [classify_of_place p hb fun a ha => place_of_inStatusArea (hin a ha)]
      exact if_pos ⟨hk, by simp [hl]⟩
    case window =>
      intro w ds hin hd
      refine ⟨fun hp hmeets => ⟨fun hk => ?_, fun hk => ?_⟩, fun hp hk hl hreads hmeets => ?_⟩ <;> show d.classify p r = _
      · rw [classify_in_window p hb hin, classifyInWindow_producer hd hp, if_pos ((meetsPrivilege_iff _ _).mpr hmeets), hk]
      · rw [classify_in_window p hb hin, classifyInWindow_producer hd hp, if_pos ((meetsPrivilege_iff _ _).mpr hmeets), hk]
      · rw [classify_in_window p hb hin, classifyInWindow_consumer hd hp, if_neg (by simp [hk, hl, hreads]),
          if_pos ((meetsPrivilege_iff _ _).mpr hmeets)]

/-! ## The end of ORDERING (R136, R137, R152, R154) -/

theorem setLock_self (d : Device) (p : Port) : d.setLock p (d.port p).lock = d := modPort_id d p _ rfl

theorem setLock_setPhase_eq {d : Device} {p : Port} {c : Current} (hc : (d.port p).current = some c) (ph : Phase)
    (l : LockRecord) : (d.setLock p l).setPhase p ph = d.modPort p fun u =>
      { u with current := some { c with phase := ph }, lock := l, holdTimer := (d.port p).holdTimer } := by
  rw [Device.setLock, Device.setPhase, Device.modPort_modPort]
  refine modPort_congr d p _ _ ?_
  rw [hc]
  rfl

theorem setPhase_eq_lock {d : Device} {p : Port} {c : Current} (hc : (d.port p).current = some c) (ph : Phase) :
    d.setPhase p ph = d.modPort p fun u =>
      { u with
        current := some { c with phase := ph }, lock := (d.port p).lock, holdTimer := (d.port p).holdTimer } :=
  (congrArg (·.setPhase p ph) (setLock_self d p).symm).trans (setLock_setPhase_eq hc ph _)

theorem setLock_hold_eq {d : Device} {p : Port} {c : Current} (hc : (d.port p).current = some c) (k : HoldCause)
    (l : LockRecord) : (d.setLock p l).hold p k = d.modPort p fun u =>
      { u with current := some { c with phase := .held k }, lock := l, holdTimer := some (d.holdLimit p) } := by
  have hc' : ((d.setLock p l).port p).current = some c := (current_modPort d p p _ rfl).trans hc
  rw [hold_eq hc', Device.setLock, Device.modPort_modPort, holdLimit_modPort]

theorem hold_eq_lock {d : Device} {p : Port} {c : Current} (hc : (d.port p).current = some c) (k : HoldCause) :
    d.hold p k = d.modPort p fun u =>
      { u with current := some { c with phase := .held k }, lock := (d.port p).lock, holdTimer := some (d.holdLimit p) } :=
  (congrArg (·.hold p k) (setLock_self d p).symm).trans (setLock_hold_eq hc k _)

/-- A read that consumer holds can stop: to PERFORMING, or held (R73). -/
theorem leaveOrdering_read {d : Device} {p : Port} {c : Current} (h : (∃ w, c.cls = .consumerRead w) ∨ c.cls = .statusRead) :
    d.leaveOrdering p c = if d.readBlocked c then d.hold p .consumerHold else d.setPhase p .performing := by
  obtain ⟨w, h⟩ | h := h <;> simp only [Device.leaveOrdering, h]

theorem openExclusive_free {d : Device} {p : Port} {c : Current} (hc : (d.port p).current = some c)
    (hfree : d.mem.exclusive = .free) (r : Request) : d.openExclusive p r =
      { d.modPort p fun u =>
          { u with
            current := some { c with phase := .performing }, lock := .opening .exclusive r.address.toNat
            holdTimer := (d.port p).holdTimer } with
        mem := { d.mem with exclusive := .reserved p } } := by
  simp only [Device.openExclusive, hfree]
  rw [← setLock_setPhase_eq hc]
  cases p <;> rfl

theorem openExclusive_busy {d : Device} (p : Port) (hbusy : d.mem.exclusive ≠ .free) (r : Request) :
    d.openExclusive p r = (d.setLock p (.opening .exclusive r.address.toNat)).hold p .lockWait := by
  unfold Device.openExclusive
  dsimp only
  split
  · rename_i hfree
    exact absurd hfree hbusy
  · rfl
  · rfl

theorem endOrdering_eq {d : Device} {p : Port} {c : Current} (hc : (d.port p).current = some c) (hph : c.phase = .ordering)
    (hq : (d.port p).queue = []) : d.endOrdering p = d.leaveOrdering p c := by
  simp [Device.endOrdering, Device.orderingDone, hc, hph, hq]

/-- While the queue holds a slot ORDERING does not end (R136). -/
theorem endOrdering_of_queue {d : Device} {p : Port} (hq : (d.port p).queue ≠ []) : d.endOrdering p = d := by
  refine if_neg ?_
  unfold Device.orderingDone
  split <;> simp [hq]

/-- Settles O13: one case of `leaveOrdering` for each class, and its two answers where a hold or the memory lock decides. -/
theorem orderingEndsWithAnEmptyQueue : Obligations.OrderingEndsWithAnEmptyQueue := by
  refine ⟨?ends, fun s p hq => ?stays⟩
  case ends =>
    intro s p c hc hph hq goes lock timer a
    rw [exec_orderingEnd, endOrdering_eq hc hph hq]
    refine ⟨?plain, fun w hcls => ?producer, fun hcls hclear => ?admitted, fun hcls hraised => ?held,
      fun hcls hlocked hfree => ?reserved, fun hcls hlocked hbusy => ?waits⟩
    case plain =>
      rintro (hcls | ⟨hcls, hl⟩)
      · rw [Device.leaveOrdering, hcls]
        exact next_congr s (setPhase_eq_lock hc .performing)
      · rw [Device.leaveOrdering, hcls, hl]
        exact next_congr s (setPhase_eq_lock hc .performing)
    case producer =>
      rw [Device.leaveOrdering, hcls]
      cases hl : c.request.locked
      · exact next_congr s (setPhase_eq_lock hc .performing)
      · exact next_congr s (setLock_setPhase_eq hc .performing _)
    case admitted =>
      rw [leaveOrdering_read hcls, if_neg (Bool.not_eq_true _ ▸ (readBlocked_false_iff s.dev c).mpr hclear),
        setPhase_eq_lock hc]
    case held =>
      rw [leaveOrdering_read hcls, if_pos ((readBlocked_iff s.dev c).mpr hraised), hold_eq_lock hc]
    case reserved =>
      have h : s.dev.leaveOrdering p c = s.dev.openExclusive p c.request := by
        simp only [Device.leaveOrdering, hcls, hlocked, if_true]
      rw [h, openExclusive_free hc hfree]
    case waits =>
      have h : s.dev.leaveOrdering p c = s.dev.openExclusive p c.request := by
        simp only [Device.leaveOrdering, hcls, hlocked, if_true]
      rw [h, openExclusive_busy p hbusy, setLock_hold_eq hc]
  case stays =>
    rw [exec_orderingEnd, endOrdering_of_queue hq]

/-! ## Holds that clear (R72, R73, R132, R153) -/

theorem queueReady_iff {d : Device} {p : Port} {c : Current} (hc : (d.port p).current = some c) : d.queueReady p = true ↔
    c.phase = .held .queueSpace ∧ (d.port p).queue.length + c.request.beats.length ≤ 4 := by
  simp [Device.queueReady, hc, queueFits_iff]

theorem readReady_iff {d : Device} {p : Port} {c : Current} (hc : (d.port p).current = some c) : d.readReady p = true ↔
    c.phase = .held .consumerHold ∧ d.readBlocked c = false := by
  simp [Device.readReady, hc]

theorem handoffReady_iff {d : Device} {p : Port} {c : Current} (hc : (d.port p).current = some c) :
    d.handoffReady p = true ↔ d.mem.exclusive = .free ∧ c.phase = .held .lockWait := by
  simp [Device.handoffReady, Device.heldOn, hc]

theorem handReservation_eq {d : Device} {p : Port} {c : Current} (hc : (d.port p).current = some c)
    (hph : c.phase = .held .lockWait) (hfree : d.mem.exclusive = .free) : d.handReservation p =
      { d.modPort p fun u => { u with current := some { c with phase := .performing }, holdTimer := none } with
        mem := { d.mem with exclusive := .reserved p } } := by
  rw [Device.handReservation, if_pos ((handoffReady_iff hc).mpr ⟨hfree, hph⟩), ← release_eq hc]
  cases p <;> rfl

/-- Settles O14: each operation does nothing until its cause clears, and `waitsOn` goes by the class. -/
theorem clearedHoldsGoOn : Obligations.ClearedHoldsGoOn := by
  refine ⟨?holds, ?waits⟩
  case holds =>
    intro s p c hc goesOn
    refine ⟨fun hph hfits => ?enters, fun hph hclear => ?admitted, fun hph hfree => ?passes, fun hph hfull => ?noRoom,
      fun hph hraised => ?raised, fun hph hbusy => ?busy⟩
    case enters =>
      rw [exec_queueSpaceEntry, Device.enterHeldWrite, if_pos ((queueReady_iff hc).mpr ⟨hph, hfits⟩), hc]
      exact next_congr s (enterQueue_eq s.dev p c.request)
    case admitted =>
      rw [exec_readAdmitted, Device.admitRead,
        if_pos ((readReady_iff hc).mpr ⟨hph, (readBlocked_false_iff s.dev c).mpr hclear⟩), release_eq hc]
    case passes =>
      rw [exec_lockReservationHandoff, handReservation_eq hc hph hfree]
    case noRoom =>
      rw [exec_queueSpaceEntry, Device.enterHeldWrite,
        if_neg fun h => Nat.not_le.mpr hfull ((queueReady_iff hc).mp h).2]
    case raised =>
      rw [exec_readAdmitted, Device.admitRead, if_neg]
      intro h
      exact absurd ((readBlocked_iff s.dev c).mpr hraised) (by simp [((readReady_iff hc).mp h).2])
    case busy =>
      rw [exec_lockReservationHandoff, Device.handReservation, if_neg fun h => hbusy ((handoffReady_iff hc).mp h).1]
  case waits =>
    intro d c w touches
    refine ⟨fun h => ?_, fun h => ?_, fun v h => ?_, fun v h => ?_, fun v h => ?_, fun h => ?_⟩ <;>
      simp only [Device.waitsOn, h, List.not_mem_nil, not_false_eq_true, List.mem_singleton]
    exact mem_touchedBlocks d c.request w

end Sys2Proof.Machine

/-! SUPPORT. Producer writes: the quota and pool checks, acceptance, and the closing write of a lock (R33 to R45, R122, R155, R156). -/

namespace Sys2Proof.Machine

/-! ## What an accepted write leaves (R36 to R39, R122) -/

/-- A producer write staged whole and answered OKAY (R36). -/
def stagedWrite (d : Device) (p : Port) (w : Slot16) (ds : Descriptor) (r : Request) : Device :=
  { d with entries := stageBeats w ((r.address.toNat - ds.base) / 4) r.beats d.entries }.modPort p fun u =>
    { u with current := none, holdTimer := none, answer := some ⟨.okay, []⟩ }

theorem rt_stagedWrite (d : Device) (p : Port) (w v : Slot16) (ds : Descriptor) (r : Request) :
    (stagedWrite d p w ds r).rt v = d.rt v := rt_modPort _ p _ v

/-- What an accepted write makes of its window's runtime record (R38, R39, R122). -/
def acceptedRt (d : Device) (w : Slot16) (ds : Descriptor) (r : Request) (x : Runtime) : Runtime :=
  let covers := d.coversClosing w r
  let rearms := covers && (d.rt w).state == .tripped && ds.autoRearm
  { x with
    closeMark := x.closeMark || covers
    watchdog := if (d.rt w).state = WindowState.running ∨ rearms = true then ds.watchdogPeriod.map (· * 10) else x.watchdog
    state := if rearms = true then WindowState.running else x.state
    safeLoadPending := x.safeLoadPending && !rearms }

theorem acceptedWrite_eq (d : Device) (p : Port) (w : Slot16) (ds : Descriptor) (r : Request) :
    acceptedWrite d p w ds r = (stagedWrite d p w ds r).modRt w (acceptedRt d w ds r) := rfl

theorem acceptedWrite_modRt {d : Device} {w : Slot16} {ds : Descriptor} {r : Request} (p : Port) (f : Runtime → Runtime)
    (h : acceptedRt d w ds r (d.rt w) = f (d.rt w)) : acceptedWrite d p w ds r = (stagedWrite d p w ds r).modRt w f := by
  rw [acceptedWrite_eq]
  exact modRt_congr _ w _ _ (by rw [rt_stagedWrite, h])

/-- An accepted write that does not cover the closing word (R36, R38). -/
theorem acceptedWrite_open {d : Device} {w : Slot16} {r : Request} (p : Port) (ds : Descriptor)
    (hc : d.coversClosing w r = false) : acceptedWrite d p w ds r =
      if (d.rt w).state = .running then
        (stagedWrite d p w ds r).modRt w fun x => { x with watchdog := ds.watchdogPeriod.map (· * 10) }
      else stagedWrite d p w ds r := by
  by_cases hs : (d.rt w).state = .running
  · rw [if_pos hs]
    exact acceptedWrite_modRt p _ (by simp [acceptedRt, hc, hs])
  · rw [if_neg hs, acceptedWrite_eq]
    exact modRt_id _ w _ (by rw [rt_stagedWrite]; simp [acceptedRt, hc, hs])

/-- An accepted write of the closing word of a RUNNING window (R38, R39). -/
theorem acceptedWrite_running {d : Device} {w : Slot16} {r : Request} (p : Port) (ds : Descriptor)
    (hc : d.coversClosing w r = true) (hs : (d.rt w).state = .running) : acceptedWrite d p w ds r =
      (stagedWrite d p w ds r).modRt w fun x =>
        { x with watchdog := ds.watchdogPeriod.map (· * 10), closeMark := true } :=
  acceptedWrite_modRt p _ (by simp [acceptedRt, hc, hs])

/-- An accepted write of the closing word that neither restarts nor re-arms its window (R39). -/
theorem acceptedWrite_idle {d : Device} {w : Slot16} {r : Request} {ds : Descriptor} (p : Port)
    (hc : d.coversClosing w r = true)
    (hs : (d.rt w).state = .paused ∨ ((d.rt w).state = .tripped ∧ ds.autoRearm = false)) : acceptedWrite d p w ds r =
      (stagedWrite d p w ds r).modRt w fun x => { x with closeMark := true } := by
  refine acceptedWrite_modRt p _ ?_
  obtain hs | ⟨hs, ha⟩ := hs
  · simp [acceptedRt, hc, hs]
  · simp [acceptedRt, hc, hs, ha]

/-- An accepted write of the closing word of a TRIPPED window with auto re-arm (R122). -/
theorem acceptedWrite_rearms {d : Device} {w : Slot16} {r : Request} {ds : Descriptor} (p : Port)
    (hc : d.coversClosing w r = true) (hs : (d.rt w).state = .tripped) (ha : ds.autoRearm = true) :
    acceptedWrite d p w ds r = (stagedWrite d p w ds r).modRt w fun x =>
      { x with
        closeMark := true, state := .running, safeLoadPending := false, watchdog := ds.watchdogPeriod.map (· * 10) } :=
  acceptedWrite_modRt p _ (by simp [acceptedRt, hc, hs, ha])

/-! ## Acceptance (R40, R41, R156) -/

/-- When a write is a commit event (R40, R122). -/
abbrev IsCloseEvent (d : Device) (w : Slot16) (ds : Descriptor) (r : Request) : Prop :=
  d.coversClosing w r = true ∧ (d.rt w).effective = .close ∧
    ((d.rt w).state = .running ∨ ((d.rt w).state = .tripped ∧ ds.autoRearm = true))

section
variable {d : Device} {p : Port} {w : Slot16} {r : Request} {ds : Descriptor} (hd : (d.win w).desc = some ds)
include hd

theorem acceptWrite_quiet (he : ¬IsCloseEvent d w ds r) : d.acceptWrite p w r false = acceptedWrite d p w ds r := by
  have hev : (acceptedWrite d p w ds r).closeEvent w r = false :=
    Bool.eq_false_of_not_eq_true fun h => he ((closeEvent_acceptedWrite d p w ds r).mp h)
  simp only [Device.acceptWrite, stageWrite_eq hd, hev]

theorem acceptWrite_event (he : IsCloseEvent d w ds r) :
    d.acceptWrite p w r false = (acceptedWrite d p w ds r).commitEvent w := by
  simp only [Device.acceptWrite, stageWrite_eq hd, (closeEvent_acceptedWrite d p w ds r).mpr he]

theorem acceptWrite_closing_quiet {a : Nat} (hl : (d.port p).lock.heldWord = some a) (he : ¬IsCloseEvent d w ds r) :
    d.acceptWrite p w r true = lockEnded (acceptedWrite d p w ds r) p a .noLock := by
  have hev : (acceptedWrite d p w ds r).closeEvent w r = false :=
    Bool.eq_false_of_not_eq_true fun h => he ((closeEvent_acceptedWrite d p w ds r).mp h)
  simp only [Device.acceptWrite, stageWrite_eq hd, hev]
  exact endLock_eq _ p _ (by rw [acceptedWrite_lock, hl])

/-- The order of a commit event and the end of the lock is a free value (log 14). -/
theorem acceptWrite_closing_event {a : Nat} (hl : (d.port p).lock.heldWord = some a) (he : IsCloseEvent d w ds r) :
    let accepted := acceptedWrite d p w ds r
    let read : Device := { accepted with freeIndex := accepted.freeIndex + 1 }
    d.acceptWrite p w r true = lockEnded (read.commitEvent w) p a .noLock ∨
      d.acceptWrite p w r true = (lockEnded read p a .noLock).commitEvent w := by
  intro accepted read
  have hread : (read.port p).lock.heldWord = some a := by
    rw [show read.port p = accepted.port p by cases p <;> rfl, acceptedWrite_lock, hl]
  have hcommit : ((read.commitEvent w).port p).lock.heldWord = some a := by rw [commitEvent_port, hread]
  rw [← endLock_eq _ p _ hread, ← endLock_eq _ p _ hcommit]
  simp only [Device.acceptWrite, stageWrite_eq hd, (closeEvent_acceptedWrite d p w ds r).mpr he]
  by_cases hfirst : Config.closeEventFirst accepted.freeIndex
  · exact .inl (if_pos hfirst)
  · exact .inr (if_neg hfirst)

/-! ## The quota and pool checks (R33 to R35, R43) -/

theorem storeWrite_refused (hq : ds.quota < (d.openList w).length + d.need w r) (closing : Bool) :
    d.storeWrite p w r closing = d.refuseQuota p w r := by
  have hquota : d.quota w = ds.quota := by simp only [Device.quota, hd]
  rw [Device.storeWrite, hquota]
  exact if_pos hq

theorem storeWrite_accepted (hq : (d.openList w).length + d.need w r ≤ ds.quota)
    (hroom : d.need w r = 0 ∨ (d.poolWait = [] ∧ d.entries.length + d.need w r ≤ 256)) (closing : Bool) :
    d.storeWrite p w r closing = d.acceptWrite p w r closing := by
  have hquota : d.quota w = ds.quota := by simp only [Device.quota, hd]
  rw [Device.storeWrite, hquota]
  exact (if_neg (Nat.not_lt.mpr hq)).trans (if_pos ((room_iff d (d.need w r)).mpr hroom))

theorem storeWrite_waits (hq : (d.openList w).length + d.need w r ≤ ds.quota)
    (hroom : ¬(d.need w r = 0 ∨ (d.poolWait = [] ∧ d.entries.length + d.need w r ≤ 256))) (closing : Bool) :
    d.storeWrite p w r closing =
      { d.modPort p fun u =>
          { u with
            current := some ⟨r, .producerWrite w, .held .poolWait, 0, [], false, closing⟩
            holdTimer := some (d.holdLimit p) } with
        poolWait := d.poolWait ++ [⟨p, w, d.need w r, none⟩] } := by
  have hquota : d.quota w = ds.quota := by simp only [Device.quota, hd]
  rw [Device.storeWrite, hquota]
  refine (if_neg (Nat.not_lt.mpr hq)).trans ((if_neg (mt (room_iff d (d.need w r)).mp hroom)).trans ?_)
  refine (begin_hold_eq _ p r _ _ closing .poolWait).trans ?_
  cases p <;> rfl

end

/-- What a lock record is after its closing write was not accepted (R156). -/
def LockRecord.reopened : LockRecord → LockRecord
  | .closing k a (some rem) => .opened k a rem
  | l => l

theorem reopenLock_eq (d : Device) (p : Port) :
    d.reopenLock p = d.modPort p fun u => { u with lock := u.lock.reopened } := by
  unfold Device.reopenLock
  split <;> rename_i hl
  case h_1 => exact modPort_congr d p _ _ (by rw [hl]; rfl)
  all_goals exact (modPort_id d p _ (by rw [hl, LockRecord.reopened, ← hl]; nofun)).symm

/-- Refusal for quota (R34). -/
theorem refuseQuota_eq (d : Device) (p : Port) (w : Slot16) (r : Request) : d.refuseQuota p w r =
    (((d.modRt w fun x =>
        { x with counters := { x.counters with quotaRefusals := satInc x.counters.quotaRefusals } }).setFlag (.wex w)).offer
      { kind := .quota, detail := none, window := some w, port := some p, address := some r.address.toNat,
        epoch := some (d.rt w).openEpoch }).modPort p fun u =>
      { u with
        current := none, holdTimer := none, answer := some ⟨.error, []⟩, lock := u.lock.reopened
        counters := { u.counters with refusals := satInc u.counters.refusals } } := by
  rw [Device.refuseQuota, refusal_eq, reopenLock_eq, Device.modPort_modPort]
  rfl

/-- A producer write handed to the store from a port with no lock record. -/
theorem exec_producerWrite {s : State} {p : Port} {r : Request} {w : Slot16} (h : TakesUnlocked s.dev p)
    (hm : requestMalformed r = false) (hl : r.locked = false) (hc : s.dev.classify p r = .handOn (.producerWrite w)) :
    exec (.portRequest p r) s = .next { s with dev := s.dev.storeWrite p w r false } :=
  (exec_handedOn h hm (fun hlocked => Bool.false_ne_true (hl.symm.trans hlocked.1)) hc).trans rfl

/-! ## The statements about producer writes -/

/-- Settles O15: the write is accepted and is no commit event. -/
theorem producerWriteIsStaged : Obligations.ProducerWriteIsStaged := by
  intro s p r w ds hs hm hl hc hd hcovers hquota hroom staged
  rw [exec_producerWrite hs hm hl hc, storeWrite_accepted hd hquota hroom,
    acceptWrite_quiet hd (fun he => Bool.false_ne_true (hcovers.symm.trans he.1)), acceptedWrite_open p ds hcovers]
  rfl

/-- Settles O16: the cases of an accepted write of the closing word, each a commit event or not. -/
theorem closingWriteActs : Obligations.ClosingWriteActs := by
  refine ⟨?covers, ?acts⟩
  case covers =>
    intro d w r ds hd
    simp only [Device.coversClosing, hd, firstOffset_eq hd]
    cases hoffset : ds.closeOffset with
    | none => simp
    | some c =>
      refine (coversOffset_iff _ r.beats c).trans ⟨fun ⟨i, b, h⟩ => ⟨c, i, b, rfl, h⟩, ?_⟩
      rintro ⟨k, i, b, hk, h⟩
      cases hk
      exact ⟨i, b, h⟩
  case acts =>
    intro s p r w ds hs hm hl hc hd hcovers hquota hroom staged full
    rw [exec_producerWrite hs hm hl hc, storeWrite_accepted hd hquota hroom]
    refine ⟨fun hstate heff => ?running, fun hstate heff => ?commits, fun hstate => ?idle,
      fun hstate hauto heff => ?rearms, fun hstate hauto heff => ?rearmsCommits⟩
    case running =>
      rw [acceptWrite_quiet hd fun he => heff he.2.1, acceptedWrite_running p ds hcovers hstate]
      rfl
    case commits =>
      rw [acceptWrite_event hd ⟨hcovers, heff, .inl hstate⟩, acceptedWrite_running p ds hcovers hstate]
      rfl
    case idle =>
      rw [acceptWrite_quiet hd, acceptedWrite_idle p hcovers hstate]
      · rfl
      · rintro ⟨-, -, hrun | ⟨htrip, hauto⟩⟩
        · simp [hrun] at hstate
        · simp [htrip, hauto] at hstate
    case rearms =>
      rw [acceptWrite_quiet hd fun he => heff he.2.1, acceptedWrite_rearms p hcovers hstate hauto]
      rfl
    case rearmsCommits =>
      rw [acceptWrite_event hd ⟨hcovers, heff, .inr ⟨hstate, hauto⟩⟩, acceptedWrite_rearms p hcovers hstate hauto]
      rfl

/-- Settles O18: the two ways in which `storeWrite` does not accept. -/
theorem storeRefusesOrMakesWait : Obligations.StoreRefusesOrMakesWait := by
  intro s p r w ds hs hm hl hc hd
  rw [exec_producerWrite hs hm hl hc]
  refine ⟨fun hquota => ?refused, fun hquota hneed hfull => ?waits⟩
  case refused =>
    rw [storeWrite_refused hd hquota, refuseQuota_eq]
    refine next_congr s (modPort_congr _ p _ _ ?_)
    rw [port_offer, port_setFlag, port_modRt, hs.2]
    rfl
  case waits =>
    rw [storeWrite_waits hd hquota]
    rintro (h | ⟨hempty, hfits⟩)
    · exact hneed h
    · exact hfull.elim (· hempty) (Nat.not_lt.mpr hfits)

/-! ## The pool-wait list (R44, R45) -/

theorem servePool_accepts {d : Device} {x : Waiter} {rest : List Waiter} {c : Current} (hp : d.poolWait = x :: rest)
    (hc : (d.port x.port).current = some c) (hn : d.need x.window c.request ≤ d.freeCount) :
    d.servePool = { d with poolWait := rest }.acceptWrite x.port x.window c.request c.closing := by
  rw [Device.servePool, hp]
  dsimp only
  rw [hc]
  exact if_pos hn

theorem checkDue_iff (x : Waiter) (n : Nat) :
    x.checkDue n = true ↔ x.checkedAt = none ∨ ∃ m, x.checkedAt = some m ∧ m < n := by
  unfold Waiter.checkDue
  cases x.checkedAt <;> simp

theorem servePool_keeps {d : Device} {x : Waiter} {rest : List Waiter} {c : Current} (hp : d.poolWait = x :: rest)
    (hc : (d.port x.port).current = some c) (hn : d.freeCount < d.need x.window c.request)
    (hdue : x.checkDue d.freeCount = true) : d.servePool =
      { d with poolWait := { x with need := d.need x.window c.request, checkedAt := some d.freeCount } :: rest } := by
  rw [Device.servePool, hp]
  dsimp only
  rw [hc]
  exact (if_neg (Nat.not_le.mpr hn)).trans (if_pos hdue)

/-- Settles O19: `servePool` accepts by the cases of an acceptance, or keeps the head with its need. -/
theorem poolServiceAcceptsTheHead : Obligations.PoolServiceAcceptsTheHead := by
  refine ⟨?plain, ?all⟩
  case plain =>
    intro s x rest c ds hp hc hclosing hd hcovers hneed staged
    have hd' : (({ s.dev with poolWait := rest } : Device).win x.window).desc = some ds := hd
    have hcovers' : ({ s.dev with poolWait := rest } : Device).coversClosing x.window c.request = false := hcovers
    rw [exec_poolWaitService, servePool_accepts hp hc hneed, hclosing,
      acceptWrite_quiet hd' (fun he => Bool.false_ne_true (hcovers'.symm.trans he.1)), acceptedWrite_open x.port ds hcovers']
    rfl
  case all =>
    intro s x rest c ds hp hc hd r event accepted becomes
    have hd' : (({ s.dev with poolWait := rest } : Device).win x.window).desc = some ds := hd
    have hlock (k : LockKind) (a : Nat) (l : Option Nat) (h : (s.dev.port x.port).lock = .closing k a l) :
        (({ s.dev with poolWait := rest } : Device).port x.port).lock.heldWord = some a := by
      rw [show ({ s.dev with poolWait := rest } : Device).port x.port = s.dev.port x.port by cases x.port <;> rfl, h]
      rfl
    refine ⟨fun hneed => ?fits, fun hneed hdue => ?kept⟩
    case fits =>
      have hserve (t : Device) (h : ({ s.dev with poolWait := rest } : Device).acceptWrite x.port x.window c.request c.closing
          = t) : becomes t := by
        rw [← servePool_accepts hp hc hneed] at h
        exact (exec_poolWaitService s).trans (next_congr s h)
      refine ⟨fun hclosing hquiet => hserve _ ?_, fun hclosing hevent => hserve _ ?_,
        fun k a l hclosing hl hquiet => hserve _ ?_, fun k a l hclosing hl hevent => ?_⟩
      · rw [hclosing, acceptWrite_quiet hd' hquiet]
      · rw [hclosing, acceptWrite_event hd' hevent]
      · rw [hclosing, acceptWrite_closing_quiet hd' (hlock k a l hl) hquiet]
      · exact (acceptWrite_closing_event hd' (hlock k a l hl) hevent).imp (fun h => hserve _ (by rw [hclosing, h]))
          (fun h => hserve _ (by rw [hclosing, h]))
    case kept =>
      show exec _ s = _
      rw [exec_poolWaitService, servePool_keeps hp hc hneed ((checkDue_iff x _).mpr hdue)]

/-! ## The closing write of a lock (R155, R156) -/

theorem exec_closingWrite {s : State} {p : Port} {r : Request} {k : LockKind} {a rem : Nat} (h : Takes s.dev p)
    (hl : (s.dev.port p).lock = .opened k a rem) (hm : requestMalformed r = false) (hlocked : r.locked = true)
    (hk : r.kind = .write) (ha : r.address.toNat = a) :
    exec (.portRequest p r) s = .next { s with dev := s.dev.classifyAndHandOn p r true } := by
  rw [exec_portRequest s p r h.1, takeRequest_wellFormed h hm, takeWellFormed_opened hl,
    if_pos ((isLockedWriteTo_iff r a).mpr ⟨hlocked, hk, ha⟩)]

theorem startClosing_eq {d : Device} {p : Port} {k : LockKind} {a rem : Nat} (hl : (d.port p).lock = .opened k a rem)
    (limitRuns : Bool) : d.startClosing p limitRuns =
      d.modPort p fun u => { u with lock := .closing k a (if limitRuns then some rem else none) } := by
  simp only [Device.startClosing, hl]
  rfl

theorem need_modPort (d : Device) (p : Port) (f : PortUnit → PortUnit) (w : Slot16) (r : Request) :
    (d.modPort p f).need w r = d.need w r := by cases p <;> rfl

theorem openList_modPort (d : Device) (p : Port) (f : PortUnit → PortUnit) (w : Slot16) :
    (d.modPort p f).openList w = d.openList w := by cases p <;> rfl

theorem coversClosing_modPort (d : Device) (p : Port) (f : PortUnit → PortUnit) (w : Slot16) (r : Request) :
    (d.modPort p f).coversClosing w r = d.coversClosing w r := by cases p <;> rfl

theorem modRt_modPort (d : Device) (p : Port) (f : PortUnit → PortUnit) (w : Slot16) (g : Runtime → Runtime) :
    (d.modPort p f).modRt w g = (d.modRt w g).modPort p f := by cases p <;> rfl

/-- Settles O9: the closing write goes to the store (or the memory port) behind a CLOSING record, and the store's answers follow. -/
theorem closingWriteFollowsItsClass : Obligations.ClosingWriteFollowsItsClass := by
  intro s p r k a rem hs hl hm hlocked hk ha becomes refused
  have hexec (t : Device) (h : s.dev.classifyAndHandOn p r true = t) : becomes t :=
    (exec_closingWrite hs hl hm hlocked hk ha).trans (next_congr s h)
  refine ⟨fun x w hc => hexec _ ?refuse, fun hc => hexec _ ?plain, fun w ds hc hd => ?producer⟩
  case refuse =>
    rw [Device.classifyAndHandOn, hc]
    exact ha ▸ refuseAccess_eq s.dev p r x w
  case plain =>
    rw [Device.classifyAndHandOn, hc]
    refine (congrArg (·.begin p r .plainWrite .performing true) (startClosing_eq hl false)).trans ?_
    rw [Device.begin, Device.modPort_modPort]
    rfl
  case producer =>
    have hstore (t : Device) (h : (s.dev.modPort p fun u => { u with lock := .closing k a (some rem) }).storeWrite p w r true
        = t) : becomes t := by
      refine hexec t ?_
      rw [Device.classifyAndHandOn, hc]
      exact (congrArg (·.storeWrite p w r true) (startClosing_eq hl true)).trans h
    generalize hclosing : (s.dev.modPort p fun u => { u with lock := .closing k a (some rem) }) = closing at hstore ⊢
    have hd' : (closing.win w).desc = some ds := by rw [← hclosing, win_modPort, hd]
    have hneed : closing.need w r = s.dev.need w r := by rw [← hclosing, need_modPort]
    have hopen : closing.openList w = s.dev.openList w := by rw [← hclosing, openList_modPort]
    have hpool : closing.poolWait = s.dev.poolWait := by rw [← hclosing, Device.modPort_poolWait]
    have hentries : closing.entries = s.dev.entries := by rw [← hclosing, Device.modPort_entries]
    have hcovers : closing.coversClosing w r = s.dev.coversClosing w r := by rw [← hclosing, coversClosing_modPort]
    have hrt : closing.rt w = s.dev.rt w := by rw [← hclosing, rt_modPort]
    have hheld : (closing.port p).lock.heldWord = some a := by rw [← hclosing, Device.port_modPort_self]; rfl
    intro fits room
    have haccept (hfits : fits) (hroom : room) (t : Device) (h : closing.acceptWrite p w r true = t) : becomes t := by
      refine hstore t ?_
      rw [storeWrite_accepted hd' (by rw [hopen, hneed]; exact hfits) (by rw [hneed, hpool, hentries]; exact hroom), h]
    refine ⟨fun hfull => hstore _ ?quota, fun hfits hroom hopenWord => ?staged, ?accepted, fun hfits hwait => hstore _ ?waits⟩
    case quota =>
      rw [storeWrite_refused hd' (by rw [hopen, hneed]; exact Nat.not_le.mp hfull), refuseQuota_eq, hrt, ha, ← hclosing,
        modRt_modPort, setFlag_modPort, offer_modPort, Device.modPort_modPort]
      refine modPort_congr _ p _ _ ?_
      rw [port_offer, port_setFlag, port_modRt]
      generalize s.dev.port p = u at hl
      cases u
      cases hl
      rfl
    case staged =>
      intro staged
      refine haccept hfits hroom _ ?_
      have hquiet : ¬IsCloseEvent closing w ds r := fun he => Bool.false_ne_true (hopenWord.symm.trans (hcovers.symm.trans he.1))
      rw [acceptWrite_closing_quiet hd' hheld hquiet, acceptedWrite_open p ds (hcovers.trans hopenWord), hrt, ← hclosing, lockEnded]
      refine congrArg (Device.takeDeferred · a) ?_
      subst ha
      split <;> cases p <;> rfl
    case accepted =>
      intro st event accepted read
      have hevent : IsCloseEvent closing w ds r ↔ event := by rw [IsCloseEvent, hcovers, hrt]
      refine ⟨fun hfits hroom hquiet => haccept hfits hroom _ ?_, fun hfits hroom he => ?_⟩
      · rw [acceptWrite_closing_quiet hd' hheld (mt hevent.mp hquiet)]
      · exact (acceptWrite_closing_event hd' hheld (hevent.mpr he)).imp (haccept hfits hroom _) (haccept hfits hroom _)
    case waits =>
      rw [storeWrite_waits hd' (by rw [hopen, hneed]; exact hfits) (by rw [hneed, hpool, hentries]; exact hwait), hneed,
        hpool, ← hclosing, holdLimit_modPort, Device.modPort_modPort]

end Sys2Proof.Machine

/-! SUPPORT. What staged beats read back as (R33, R36, R37, R52). -/

namespace Sys2Proof.Machine

/-! ## The entry of a word after a beat is staged -/

theorem findEntry_eq_find? (es : List Entry) (test : Entry → Bool) (k : Nat) :
    findEntry es test k = (es.filter test).find? (·.offset == k) := by
  rw [findEntry, List.find?_filter]
  exact congrArg (List.find? · es) (funext fun e => by cases test e <;> simp [Bool.beq_eq_decide_eq])

theorem findEntry_of_hasOpen {w : Slot16} {k : Nat} {es : List Entry} (h : hasOpen w k es = true) :
    ∃ e, findEntry es (·.isOpen w) k = some e := by
  obtain ⟨e, hmem, he⟩ := List.any_eq_true.mp h
  exact Option.isSome_iff_exists.mp (List.find?_isSome.mpr ⟨e, hmem, he⟩)

theorem findEntry_of_not_hasOpen {w : Slot16} {k : Nat} {es : List Entry} (h : ¬hasOpen w k es = true) :
    findEntry es (·.isOpen w) k = none :=
  List.find?_eq_none.mpr fun e hmem he => h (List.any_eq_true.mpr ⟨e, hmem, he⟩)

theorem findEntry_append_other {es : List Entry} {test : Entry → Bool} {k : Nat} {x : Entry}
    (h : (test x && x.offset == k) = false) : findEntry (es ++ [x]) test k = findEntry es test k := by
  rw [findEntry, List.find?_append, List.find?_cons_of_neg (by simp [h])]
  exact Option.or_none

/-- Open entries of other words are as they were (R36, R37). -/
theorem findEntry_stageBeat_other {w v : Slot16} {k j : Nat} (h : ¬(v = w ∧ j = k)) (b : Beat) (es : List Entry) :
    findEntry (stageBeat w k b es) (·.isOpen v) j = findEntry es (·.isOpen v) j := by
  unfold stageBeat
  split
  · rw [findEntry_merge_open]
    simp only [h, if_false]
    exact Option.map_id'
  · refine findEntry_append_other (Bool.eq_false_of_not_eq_true fun hx => ?_)
    obtain ⟨hopen, hoffset⟩ := Bool.and_eq_true_iff.mp hx
    simp only [Entry.isOpen, Bool.and_eq_true, beq_iff_eq] at hopen hoffset
    exact h ⟨hopen.1.symm, hoffset.symm⟩

/-- No draining entry changes (R37). -/
theorem findEntry_stageBeat_draining (w v : Slot16) (k j : Nat) (b : Beat) (es : List Entry) :
    findEntry (stageBeat w k b es) (·.isDraining v) j = findEntry es (·.isDraining v) j := by
  unfold stageBeat
  split
  · exact findEntry_merge_draining es w v k j b
  · exact findEntry_append_other (by simp [Entry.isDraining])

theorem drainEntries_stageBeat (w v : Slot16) (k : Nat) (b : Beat) (es : List Entry) :
    (stageBeat w k b es).filter (·.isDraining v) = es.filter (·.isDraining v) := by
  unfold stageBeat
  split
  · exact drainEntries_merge es w v k b
  · rw [List.filter_append, List.filter_cons_of_neg (by simp [Entry.isDraining])]
    exact List.append_nil _

/-! ## One beat (R36, R37, R52) -/

/-- The staged word reads as the beat laid over what it read as before. -/
theorem overlay_stageBeat_self (d : Device) (w : Slot16) (k : Nat) (b : Beat) (m : Word) :
    ({ d with entries := stageBeat w k b d.entries } : Device).overlay w k m = layBytes b.mask b.data (d.overlay w k m) := by
  simp only [Device.overlay, findEntry_stageBeat_draining]
  by_cases h : hasOpen w k d.entries = true
  · obtain ⟨e, he⟩ := findEntry_of_hasOpen h
    rw [stageBeat, if_pos h, findEntry_merge_open, he]
    simp only [Option.map_some, and_self, if_true]
    exact layBytes_merge e.mask b.mask e.data b.data _
  · have hnone := findEntry_of_not_hasOpen h
    rw [stageBeat, if_neg h, hnone, findEntry, List.find?_append, show List.find? _ d.entries = none from hnone,
      Option.none_or, List.find?_cons_of_pos (by simp [Entry.isOpen])]
    exact layBytes_select b.mask b.data _

theorem overlay_stageBeat_other {w v : Slot16} {k j : Nat} (h : ¬(v = w ∧ j = k)) (d : Device) (b : Beat) (m : Word) :
    ({ d with entries := stageBeat w k b d.entries } : Device).overlay v j m = d.overlay v j m := by
  simp only [Device.overlay, findEntry_stageBeat_draining, findEntry_stageBeat_other h]

theorem length_stageBeat (w : Slot16) (k : Nat) (b : Beat) (es : List Entry) :
    (stageBeat w k b es).length = es.length + if hasOpen w k es then 0 else 1 := by
  unfold stageBeat
  split
  · exact List.length_map ..
  · exact List.length_append

/-! ## A burst -/

theorem overlay_stageBeats_other {w v : Slot16} {k j : Nat} (beats : List Beat) (h : v ≠ w ∨ j < k ∨ k + beats.length ≤ j)
    (d : Device) (m : Word) :
    ({ d with entries := stageBeats w k beats d.entries } : Device).overlay v j m = d.overlay v j m := by
  induction beats generalizing k d with
  | nil => rfl
  | cons b rest ih =>
    rw [List.length_cons] at h
    have hrest : v ≠ w ∨ j < k + 1 ∨ k + 1 + rest.length ≤ j := by
      rcases h with h | h
      · exact .inl h
      · exact .inr (by omega)
    have hfirst : ¬(v = w ∧ j = k) := by
      rintro ⟨rfl, rfl⟩
      rcases h with h | h
      · exact h rfl
      · omega
    exact (ih hrest { d with entries := stageBeat w k b d.entries }).trans (overlay_stageBeat_other hfirst d b m)

theorem overlay_stageBeats (w : Slot16) (k : Nat) (beats : List Beat) (i : Nat) (b : Beat) (h : beats[i]? = some b)
    (d : Device) (m : Word) :
    ({ d with entries := stageBeats w k beats d.entries } : Device).overlay w (k + i) m =
      layBytes b.mask b.data (d.overlay w (k + i) m) := by
  induction beats generalizing k i d with
  | nil => simp at h
  | cons x rest ih =>
    cases i with
    | zero =>
      obtain rfl : x = b := by simpa using h
      exact (overlay_stageBeats_other rest (.inr (.inl (Nat.lt_succ_self k)))
        { d with entries := stageBeat w k x d.entries } m).trans (overlay_stageBeat_self d w k x m)
    | succ i =>
      have hrest := ih (k + 1) i (by simpa using h) { d with entries := stageBeat w k x d.entries }
      rw [Nat.add_right_comm, Nat.add_assoc, overlay_stageBeat_other (fun hk => by omega)] at hrest
      exact hrest

theorem drainEntries_stageBeats (w v : Slot16) (k : Nat) (beats : List Beat) (es : List Entry) :
    (stageBeats w k beats es).filter (·.isDraining v) = es.filter (·.isDraining v) := by
  induction beats generalizing k es with
  | nil => rfl
  | cons b rest ih => exact (ih (k + 1) _).trans (drainEntries_stageBeat w v k b es)

/-- The beats of a burst whose word has no open entry, in beat order (R33). -/
def newOffsets (w : Slot16) (k n : Nat) (es : List Entry) : List Nat :=
  (List.range n).filter fun i => !hasOpen w (k + i) es

theorem newOffsets_succ (w : Slot16) (k n : Nat) (es : List Entry) :
    newOffsets w k (n + 1) es = (if hasOpen w k es then [] else [0]) ++ (newOffsets w (k + 1) n es).map (· + 1) := by
  rw [newOffsets, List.range_succ_eq_map, List.filter_cons, List.filter_map]
  have htail : ((fun i => !hasOpen w (k + i) es) ∘ Nat.succ) = fun i => !hasOpen w (k + 1 + i) es := by
    funext i
    rw [Function.comp, Nat.add_assoc, Nat.add_comm 1 i]
  rw [htail]
  by_cases h : hasOpen w k es = true <;> simp [h, newOffsets]

theorem newOffsets_congr {w : Slot16} {k n : Nat} {es fs : List Entry} (h : ∀ j, k ≤ j → hasOpen w j es = hasOpen w j fs) :
    newOffsets w k n es = newOffsets w k n fs :=
  List.filter_congr fun i _ => by rw [h (k + i) (Nat.le_add_right k i)]

theorem needOf_eq_length (w : Slot16) (k : Nat) (beats : List Beat) (es : List Entry) :
    needOf w k beats es = (newOffsets w k beats.length es).length := by
  induction beats generalizing k with
  | nil => rfl
  | cons b rest ih =>
    rw [needOf, ih, List.length_cons, newOffsets_succ, List.length_append, List.length_map]
    split <;> rfl

/-- The new words of a burst stand at the tail, in beat order (R36). -/
theorem offsets_stageBeats (d : Device) (w : Slot16) (k : Nat) (beats : List Beat) :
    (({ d with entries := stageBeats w k beats d.entries } : Device).openList w).map Entry.offset =
      (d.openList w).map Entry.offset ++ (newOffsets w k beats.length d.entries).map (k + ·) := by
  induction beats generalizing k d with
  | nil => exact (List.append_nil _).symm
  | cons b rest ih =>
    have hrest := ih { d with entries := stageBeat w k b d.entries } (k + 1)
    rw [offsets_stageBeat, newOffsets_congr (fs := d.entries) fun j hj => Keeps.hasOpen_stageBeat w k j b d.entries (by omega)]
      at hrest
    refine hrest.trans ?_
    rw [List.append_assoc, List.length_cons, newOffsets_succ, List.map_append, List.map_map]
    have hshift : (k + 1 + ·) = (k + ·) ∘ (· + 1) := by
      funext i
      simp only [Function.comp]
      omega
    rw [← hshift]
    split <;> rfl

/-- Settles O17: a beat and a burst through the entry that a word's read finds, and the bytes of such a read. -/
theorem stagedBeatReadsBack : Obligations.StagedBeatReadsBack := by
  refine ⟨?beat, ?burst, ?reads⟩
  case beat =>
    intro d w k b m d'
    exact ⟨overlay_stageBeat_self d w k b m, fun j hj => overlay_stageBeat_other (fun h => hj h.2) d b m,
      fun v j hv => overlay_stageBeat_other (fun h => hv h.1) d b m, fun v => drainEntries_stageBeat w v k b d.entries,
      length_stageBeat w k b d.entries⟩
  case burst =>
    intro d w k beats m d' added
    have hadded : added = newOffsets w k beats.length d.entries := by
      refine List.filter_congr fun i _ => ?_
      simp [hasOpen, Device.openList, List.any_filter]
    refine ⟨fun i b h => overlay_stageBeats w k beats i b h d m, fun j hj => overlay_stageBeats_other beats (.inr hj) d m,
      fun v j hv => overlay_stageBeats_other beats (.inl hv) d m, fun v => drainEntries_stageBeats w v k beats d.entries,
      ?_, ?_, ?_⟩
    · rw [hadded]
      exact offsets_stageBeats d w k beats
    · rw [hadded, ← needOf_eq_length]
      exact Keeps.stageBeats_length w beats k d.entries
    · rintro r ds hd rfl rfl
      rw [hadded, ← needOf_eq_length, Device.need, firstOffset_eq hd]
  case reads =>
    intro d w k m byte laid entry
    refine ⟨fun i hi => overlay_byte d w k m hi, fun hopen hdrain => ?_⟩
    rw [Device.overlay, findEntry_eq_find?, findEntry_eq_find?, show List.find? _ (d.entries.filter (·.isOpen w)) = none from hopen,
      show List.find? _ (d.entries.filter (·.isDraining w)) = none from hdrain]
    rfl

end Sys2Proof.Machine

/-! SUPPORT. Hold limits and lock limits that run out (R46, R139, R152, R156, R157, R158). -/

namespace Sys2Proof.Machine

/-! ## Answers of an expired limit (R46, R139) -/

theorem answerExpired_retry {d : Device} {p : Port} (hk : (d.port p).kind = .retryCapable) : d.answerExpired p =
    d.modPort p fun u =>
      { u with
        current := none, holdTimer := none, answer := some ⟨.retry, []⟩
        counters := { u.counters with retries := satInc u.counters.retries } } := by
  rw [Device.answerExpired, hk]
  exact Device.modPort_modPort d p _ _

theorem answerExpired_error {d : Device} {p : Port} (hk : (d.port p).kind = .holdOnly) : d.answerExpired p =
    d.modPort p fun u =>
      { u with
        current := none, holdTimer := none, answer := some ⟨.error, []⟩
        counters := { u.counters with holdTimeouts := satInc u.counters.holdTimeouts } } := by
  rw [Device.answerExpired, hk]
  exact Device.modPort_modPort d p _ _

theorem holdLimitExpires_eq {d : Device} {p : Port} {c : Current} {k : HoldCause} (hc : (d.port p).current = some c)
    (hph : c.phase = .held k) (hk : k ≠ .poolWait) : d.holdLimitExpires p = d.holdExpires p c k := by
  rw [Device.holdLimitExpires, hc]
  dsimp only
  rw [hph]
  cases k with
  | poolWait => exact absurd rfl hk
  | _ => rfl

theorem holdExpires_retry {d : Device} {p : Port} (hk : (d.port p).kind = .retryCapable) (c : Current) (k : HoldCause) :
    d.holdExpires p c k =
      let answered := (d.setFlag .hold).modPort p fun u =>
        { u with
          current := none, holdTimer := none, answer := some ⟨.retry, []⟩
          counters := { u.counters with retries := satInc u.counters.retries } }
      if k = .lockWait then answered.endLock p .noLock else answered := by
  unfold Device.holdExpires
  dsimp only
  rw [if_neg (c := (d.port p).kind = .holdOnly) (by rw [hk]; nofun), answerExpired_retry (by rw [port_setFlag, hk])]

theorem holdExpires_error {d : Device} {p : Port} (hk : (d.port p).kind = .holdOnly) (c : Current) (k : HoldCause) :
    d.holdExpires p c k =
      let answered := ((d.setFlag .hold).offer (d.holdReport p c k)).modPort p fun u =>
        { u with
          current := none, holdTimer := none, answer := some ⟨.error, []⟩
          counters := { u.counters with holdTimeouts := satInc u.counters.holdTimeouts } }
      if k = .lockWait then answered.endLock p .noLock else answered := by
  unfold Device.holdExpires
  dsimp only
  rw [if_pos hk, answerExpired_error (by rw [port_offer, port_setFlag, hk])]

/-- The subject of a HOLD_TIMEOUT record is the one of the moment when time began to run to the expiry. -/
theorem holdReport_reached (d : Device) (t : Nat) (p : Port) (c : Current) (k : HoldCause) :
    (d.reached t).holdReport p c k = d.holdReport p c k := by
  simp only [Device.holdReport, Device.holdSubject, reached_openEpoch, reached_touchedBlocks, reached_raised]

theorem raised_iff (d : Device) (w : Slot16) :
    d.raised w = true ↔ (d.rt w).holdRequest = true ∨ (d.rt w).consumerHold = true := Bool.or_eq_true_iff

theorem raised_false_iff (d : Device) (w : Slot16) :
    d.raised w = false ↔ (d.rt w).holdRequest = false ∧ (d.rt w).consumerHold = false := Bool.or_eq_false_iff

/-- Settles O20: what `holdExpires` does for each kind of port, with the record of the moment before time ran. -/
theorem holdLimitAnswersTheRequest : Obligations.HoldLimitAnswersTheRequest := by
  refine ⟨?expires, ?lowest⟩
  case expires =>
    intro s p c k t hdue hc hph hk d report answered
    obtain ⟨hcurrent, hkind, -⟩ := reached_port s.dev t p
    have hreport : (s.dev.reached t).holdReport p c k = report := by
      rw [holdReport_reached, Device.holdReport, Device.holdSubject]
      show _ = Report.mk ..
      cases c.cls <;> rfl
    have hexpires : (s.dev.reached t).holdLimitExpires p =
        if k = .lockWait then answered.endLock p .noLock else answered := by
      rw [holdLimitExpires_eq (hcurrent.trans hc) hph hk]
      cases hport : (s.dev.port p).kind with
      | retryCapable =>
        rw [holdExpires_retry (hkind.trans hport)]
        simp only [answered, hport]
        rfl
      | holdOnly =>
        rw [holdExpires_error (hkind.trans hport), hreport]
        simp only [answered, hport]
        rfl
    rw [exec_holdLimitExpiry s p hdue]
    exact next_congr s (congrArg Device.tripExpired hexpires)
  case lowest =>
    intro d c v hcls
    have hwaits : d.waitsOn c = d.touchedBlocks c.request := by simp only [Device.waitsOn, hcls]
    rw [find?_touchedBlocks_iff, hwaits, raised_iff]
    simp only [raised_false_iff]

/-! ## A pool wait that runs out (R46, R156) -/

theorem poolWaitExpires_eq {d : Device} {p : Port} {c : Current} {w : Slot16} (hc : (d.port p).current = some c)
    (hph : c.phase = .held .poolWait) (hcls : c.cls = .producerWrite w) :
    d.poolWaitExpires p = d.expirePool p w c.request (d.rt w).openEpoch := by
  rw [Device.poolWaitExpires, hc]
  dsimp only
  rw [hph, hcls]

theorem expirePool_retry {d : Device} {p : Port} (hk : (d.port p).kind = .retryCapable) (w : Slot16) (r : Request)
    (epoch : Word) : d.expirePool p w r epoch =
      ((d.leavePool p).setFlag .pool).modPort p fun u =>
        { u with
          current := none, holdTimer := none, answer := some ⟨.retry, []⟩, lock := u.lock.reopened
          counters := { u.counters with retries := satInc u.counters.retries } } := by
  unfold Device.expirePool
  dsimp only
  have hkind : (((d.leavePool p).setFlag .pool).port p).kind = .retryCapable := by cases p <;> exact hk
  rw [if_neg (by rw [hk]; nofun), answerExpired_retry hkind, reopenLock_eq, Device.modPort_modPort]

theorem expirePool_error {d : Device} {p : Port} (hk : (d.port p).kind = .holdOnly) (w : Slot16) (r : Request)
    (epoch : Word) : d.expirePool p w r epoch =
      (((d.leavePool p).setFlag .pool).offer
        { kind := .pool, detail := none, window := some w, port := some p, address := some r.address.toNat,
          epoch := some epoch }).modPort p fun u =>
        { u with
          current := none, holdTimer := none, answer := some ⟨.error, []⟩, lock := u.lock.reopened
          counters := { u.counters with holdTimeouts := satInc u.counters.holdTimeouts } } := by
  unfold Device.expirePool
  dsimp only
  have hkind (x : Report) : ((((d.leavePool p).setFlag .pool).offer x).port p).kind = .holdOnly := by cases p <;> exact hk
  rw [if_pos hk, answerExpired_error (hkind _), reopenLock_eq, Device.modPort_modPort]

/-- What a lock record is after its closing write was not accepted, case by case (R156). -/
theorem reopened_eq (l : LockRecord) :
    l.reopened = match l with | .closing k a (some rem) => .opened k a rem | l => l := by
  cases l with
  | closing k a rem => cases rem <;> rfl
  | _ => rfl

/-- Settles O21: what `expirePool` does for each kind of port. -/
theorem poolWaitExpiresUnstaged : Obligations.PoolWaitExpiresUnstaged := by
  intro s p c w t hdue hc hph hcls d reopened
  obtain ⟨hcurrent, hkind, -⟩ := reached_port s.dev t p
  have hreopened (l : LockRecord) : reopened l = l.reopened := (reopened_eq l).symm
  have hd : ((s.dev.reached t).leavePool p).setFlag .pool = d := by
    show ({ (s.dev.reached t).setFlag .pool with poolWait := (s.dev.reached t).poolWait.filter _ } : Device) = _
    rw [(reached_stores s.dev t).2.2.1]
  rw [exec_poolWaitExpiry s p hdue]
  refine next_congr s (congrArg Device.tripExpired ?_)
  refine (poolWaitExpires_eq (hcurrent.trans hc) hph hcls).trans ?_
  cases hport : (s.dev.port p).kind with
  | retryCapable =>
    rw [expirePool_retry (hkind.trans hport), hd]
    simp only [hreopened]
  | holdOnly =>
    rw [expirePool_error (hkind.trans hport), hd, reached_openEpoch]
    simp only [hreopened]

/-! ## A lock limit that runs out (R157, R158) -/

theorem lockLimitExpires_opened {d : Device} {p : Port} {k : LockKind} {a rem : Nat}
    (hl : (d.port p).lock = .opened k a rem) : d.lockLimitExpires p = d.breakLock p a k.slot? false := by
  simp only [Device.lockLimitExpires, hl]

theorem lockLimitExpires_closing {d : Device} {p : Port} {k : LockKind} {a rem : Nat}
    (hl : (d.port p).lock = .closing k a (some rem)) : d.lockLimitExpires p = d.breakLock p a k.slot? true := by
  simp only [Device.lockLimitExpires, hl]

/-- The lock of a port breaks, no closing write waiting (R157). -/
theorem breakLock_alone {d : Device} {p : Port} {a : Nat} (hl : (d.port p).lock.heldWord = some a) (w : Option Slot16) :
    d.breakLock p a w false = ((lockEnded d p a (.broken a)).setFlag .lock).offer (d.brokenReport p a w) := by
  rw [← endLock_eq d p _ hl]
  rfl

/-- The lock of a port breaks under a closing write that waits (R157, R158). -/
theorem breakLock_waiting {d : Device} {p : Port} {a : Nat} (hl : (d.port p).lock.heldWord = some a) (w : Option Slot16) :
    d.breakLock p a w true =
      (((lockEnded (d.leavePool p) p a (.broken a)).setFlag .lock).offer (d.brokenReport p a w)).refuseLockLate p a := by
  have hport : (d.leavePool p).port p = d.port p := by cases p <;> rfl
  rw [← endLock_eq (d.leavePool p) p _ (by rw [hport, hl])]
  rfl

/-- A LOCK_BROKEN record is the one of the moment when time began to run to the expiry. -/
theorem brokenReport_reached (d : Device) (t : Nat) (p : Port) (a : Nat) (w : Option Slot16) :
    (d.reached t).brokenReport p a w = d.brokenReport p a w := by
  simp only [Device.brokenReport, reached_openEpoch]

theorem windowAt_reached (d : Device) (t a : Nat) : (d.reached t).windowAt a = d.windowAt a := by
  refine windowAt_congr (fun v => ?_) a
  obtain ⟨hdesc, x, hrt⟩ := reached_rt d t v
  exact ⟨hdesc, by rw [hrt]⟩

/-- The end of a lock moves no window (R156). -/
theorem windowAt_lockEnded (d : Device) (p : Port) (word : Nat) (final : LockRecord) (a : Nat) :
    (lockEnded d p word final).windowAt a = d.windowAt a := by
  refine windowAt_congr (fun v => ?_) a
  obtain ⟨hdesc, hstate⟩ := takeDeferred_state
    { d.modPort p fun u => { u with lock := final } with
      mem := { d.mem with exclusive := if d.mem.exclusive = .held p then .free else d.mem.exclusive } } word v
  exact ⟨hdesc.trans (congrArg Window.desc (win_modPort d p _ v)), hstate.trans (congrArg Runtime.state (rt_modPort d p _ v))⟩

theorem windowAt_raised (d : Device) (f : Flag) (r : Report) (a : Nat) : ((d.setFlag f).offer r).windowAt a = d.windowAt a := rfl

theorem windowAt_leavePool (d : Device) (p : Port) (a : Nat) : (d.leavePool p).windowAt a = d.windowAt a := rfl

theorem takeDeferredOf_eq (word : Nat) (d : Device) (w : Slot16) : Device.takeDeferredOf word d w =
    match (d.win w).desc with
    | some ds =>
      if (d.rt w).deferredCommit = true ∧ ds.base ≤ word ∧ word < ds.base + 4 * ds.length then
        (d.modRt w fun r => { r with deferredCommit := false }).commitEvent w
      else d
    | none => d := by
  unfold Device.takeDeferredOf
  cases (d.win w).desc with
  | none => rfl
  | some ds => simp only [covers_iff]

theorem allWindows_eq_finRange : allWindows = List.finRange 16 := by decide

/-- Settles O22: `breakLock` for an open lock and for a closing write that waits, and `takeDeferred` window by window. -/
theorem lockLimitBreaksTheLock : Obligations.LockLimitBreaksTheLock := by
  refine ⟨?opened, ?closing, ?deferred⟩
  case opened =>
    intro s p k a rem t hdue hl d broken released
    obtain ⟨x, hreached⟩ := reached_opened s.dev t p k a rem hl
    rw [exec_lockLimitExpiry s p hdue]
    refine next_congr s (congrArg Device.tripExpired ?_)
    refine (lockLimitExpires_opened hreached).trans ?_
    have hreleased : ({ (s.dev.reached t).modPort p fun u => { u with lock := .broken a } with
        mem := { (s.dev.reached t).mem with
          exclusive := if (s.dev.reached t).mem.exclusive = .held p then .free else (s.dev.reached t).mem.exclusive } } :
        Device) = released := by cases p <;> rfl
    rw [breakLock_alone (by rw [hreached]; rfl), brokenReport_reached, lockEnded, hreleased]
    cases k <;> rfl
  case closing =>
    intro s p k a rem t hdue hl d broken
    obtain ⟨x, hreached⟩ := reached_closing s.dev t p k a rem hl
    rw [exec_lockLimitExpiry s p hdue]
    refine next_congr s (congrArg Device.tripExpired ?_)
    refine (lockLimitExpires_closing hreached).trans ?_
    have hpool : (s.dev.reached t).leavePool p = d := by
      rw [Device.leavePool, (reached_stores s.dev t).2.2.1]
    have hwindow : d.windowAt a = s.dev.windowAt a := by
      rw [← hpool, windowAt_leavePool, windowAt_reached]
    rw [breakLock_waiting (by rw [hreached]; rfl), brokenReport_reached, hpool, refuseLockLate_eq, windowAt_raised,
      windowAt_lockEnded, hwindow]
    cases k <;> rfl
  case deferred =>
    intro d word
    rw [Device.takeDeferred, allWindows_eq_finRange]
    exact congrArg (List.foldl · d (List.finRange 16)) (funext fun x => funext fun w => takeDeferredOf_eq word x w)

end Sys2Proof.Machine

/-! SUPPORT. The memory port: what is pending, who is granted, and what a completion does (R130, R133 to R135, R146 to R156). -/

namespace Sys2Proof.Machine

/-! ## The grant (R148, R149, R152) -/

theorem admits_iff (x : ExclusiveLock) (r : Requester) : x.admits r = true ↔ ∀ p, x = .held p → r = .channel p := by
  cases x <;> simp [ExclusiveLock.admits]

theorem eligible_iff (d : Device) (r : Requester) : d.eligible r = true ↔
    d.pendingOf r ≠ none ∧ ∀ p, d.mem.exclusive = .held p → r = .channel p := by
  rw [Device.eligible, Bool.and_eq_true_iff, admits_iff, Option.isSome_iff_ne_none]
  exact and_comm

theorem winner_of_split {d : Device} {before after : List Requester} {r : Requester}
    (h : d.mem.rotation = before ++ r :: after) (hb : ∀ q ∈ before, d.eligible q = false) (hr : d.eligible r = true) :
    d.winner = some r :=
  List.find?_eq_some_iff_append.mpr ⟨hr, before, after, h, fun q hq => by rw [hb q hq]; rfl⟩

theorem winner_none_iff (d : Device) : d.winner = none ↔ ∀ r ∈ d.mem.rotation, ¬d.eligible r = true :=
  List.find?_eq_none

theorem grant_of_winner {d : Device} {r : Requester} {x : PendingAccess} (ho : d.mem.outstanding = none)
    (hw : d.winner = some r) (hx : d.pendingOf r = some x) : d.grant = d.issue r x := by
  rw [Device.grant, ho, hw]
  dsimp only
  rw [hx]

theorem grant_of_busy {d : Device} (h : d.mem.outstanding ≠ none) : d.grant = d := by
  unfold Device.grant
  split
  · exact absurd ‹_› h
  · rfl

theorem grant_of_no_winner {d : Device} (h : d.winner = none) : d.grant = d := by
  unfold Device.grant
  split
  · rename_i hw
    exact absurd (h.symm.trans hw) nofun
  · rfl

/-- The grant of a read takes the reservation of its port (R152). -/
theorem atGrant_reserved (p : Port) (o : Owner) :
    (ExclusiveLock.reserved p).atGrant o = if o = .read p then .held p else .reserved p := by
  cases o with
  | read q => simp only [ExclusiveLock.atGrant, Owner.read.injEq, eq_comm]
  | _ => rfl

/-! ## What is pending (R130, R133, R135, R148) -/

theorem channelPending_posted {d : Device} {p : Port} {x : PostedSlot} {rest : List PostedSlot}
    (h : (d.port p).queue = x :: rest) :
    d.channelPending p = some (⟨.write, x.address, x.mask, x.data⟩, .posted p) := by rw [Device.channelPending, h]

theorem channelPending_current {d : Device} {p : Port} (h : (d.port p).queue = []) :
    d.channelPending p = (d.port p).current.bind (nextAccess p) := by rw [Device.channelPending, h]

theorem nextAccess_performing {c : Current} {b : Beat} (p : Port) (hph : c.phase = .performing)
    (hb : c.request.beats[c.done]? = some b) : nextAccess p c =
      match c.cls with
      | .plainWrite => some (⟨.write, beatAddress c.request c.done, b.mask, b.data⟩, .through p)
      | .producerWrite _ => none
      | _ => some (⟨.read, beatAddress c.request c.done, b.mask, 0⟩, .read p) := by
  rw [nextAccess, hph, hb]
  cases c.cls <;> rfl

theorem nextAccess_of_not_performing {c : Current} (p : Port) (hph : c.phase ≠ .performing) : nextAccess p c = none := by
  unfold nextAccess
  split
  · exact absurd ‹_› hph
  · rfl

/-- Settles O23: the winner is the first eligible requester, and each requester's pending access by its case. -/
theorem grantGoesToTheEarliest : Obligations.GrantGoesToTheEarliest := by
  refine ⟨?granted, ?nothing, ?channel, ?idle, ?running⟩
  case granted =>
    intro s before after r x hs ho hrot hnodup hbefore hx hheld
    have hr : s.dev.eligible r = true := (eligible_iff s.dev r).mpr ⟨hx ▸ nofun, hheld⟩
    have hb (q : Requester) (hq : q ∈ before) : s.dev.eligible q = false := by
      refine Bool.eq_false_of_not_eq_true fun he => ?_
      obtain ⟨hpending, honly⟩ := (eligible_iff s.dev q).mp he
      obtain hnone | ⟨p, hp, hne⟩ := hbefore q hq
      · exact hpending hnone
      · exact hne (honly p hp)
    rw [exec_arbiterGrant s hs, grant_of_winner ho (winner_of_split hrot hb hr) hx, Device.issue]
    have hrotate : rotate s.dev.mem.rotation r = before ++ after ++ [r] := by
      rw [hrot]
      exact rotate_split before after r (hrot ▸ hnodup)
    rw [hrotate]
    cases s.dev.mem.exclusive with
    | reserved p => rw [atGrant_reserved]
    | _ => rfl
  case nothing =>
    intro s hs
    refine ⟨fun ho => ?_, fun p hp hnone => ?_, fun hnone => ?_⟩ <;> rw [exec_arbiterGrant s hs]
    · rw [grant_of_busy ho]
    · rw [grant_of_no_winner ((winner_none_iff s.dev).mpr fun r _ he => ?_)]
      obtain ⟨hpending, honly⟩ := (eligible_iff s.dev r).mp he
      exact hpending (honly p hp ▸ hnone)
    · rw [grant_of_no_winner ((winner_none_iff s.dev).mpr fun r hr he => ?_)]
      exact ((eligible_iff s.dev r).mp he).1 (hnone r hr)
  case channel =>
    intro d p _
    refine ⟨fun x rest h => channelPending_posted h, fun c b hq hc hph hb => ?_, fun hq hnone => ?_⟩
    · have hnext : d.pendingOf (.channel p) = nextAccess p c := by
        rw [Device.pendingOf, channelPending_current hq, hc, Option.bind_some]
      rw [hnext, nextAccess_performing p hph hb]
      refine ⟨fun hcls => by rw [hcls]; rfl, ?_⟩
      rintro (hcls | hcls | ⟨w, hcls | hcls⟩) <;> rw [hcls] <;> rfl
    · rw [Device.pendingOf, channelPending_current hq]
      cases hc : (d.port p).current with
      | none => rfl
      | some c => exact nextAccess_of_not_performing p (hnone c hc)
  case idle =>
    intro d _ h
    unfold Device.pendingOf Device.enginePending
    dsimp only
    split
    · exact absurd ‹_› (h _ _ _ _)
    · rfl
  case running =>
    intro d w ds k pr rest _ hq hd
    refine ⟨fun hph => ?_, fun e es hph hk hdrain => ?_, fun img v hph hk himg hv => ?_, fun base v hph hbase hv => ?_⟩ <;>
      rw [Device.pendingOf, Device.enginePending, hq] <;> dsimp only <;> rw [hph]
    · rw [hk]
      simp only [Device.drainAccess, hd, hdrain]
      rfl
    · rw [hk]
      simp only [Device.safeAccess, hd, himg, regionStart_eq, hv]
      rfl
    · simp only [Device.statusAccess, hbase, hv]
      rfl

/-! ## Completions (R147) -/

theorem memoryCompletes_dropped {d : Device} {x : Outstanding} (h : d.mem.outstanding = some x) (hx : x.dropped = true)
    (merr : Bool) (data : Word) :
    d.memoryCompletes merr data = { d with mem := { d.mem with outstanding := none } } := by
  rw [Device.memoryCompletes, h]
  exact if_pos hx

theorem memoryCompletes_handed {d : Device} {x : Outstanding} (h : d.mem.outstanding = some x) (hx : x.dropped = false)
    (merr : Bool) (data : Word) :
    d.memoryCompletes merr data = ({ d with mem := { d.mem with outstanding := none } } : Device).complete x merr data := by
  rw [Device.memoryCompletes, h]
  exact if_neg (hx ▸ Bool.false_ne_true)

theorem complete_posted {x : Outstanding} {p : Port} (h : x.owner = .posted p) (d : Device) (merr : Bool) (data : Word) :
    d.complete x merr data = d.postedCompleted p x.access.address merr := by rw [Device.complete, h]

theorem complete_through {d : Device} {x : Outstanding} {p : Port} {c : Current} (h : x.owner = .through p)
    (hc : (d.port p).current = some c) (merr : Bool) (data : Word) :
    d.complete x merr data = d.throughCompleted p c x.access.address merr := by
  rw [Device.complete, h]
  dsimp only
  rw [hc]

theorem complete_read {d : Device} {x : Outstanding} {p : Port} {c : Current} (h : x.owner = .read p)
    (hc : (d.port p).current = some c) (merr : Bool) (data : Word) :
    d.complete x merr data =
      if merr then d.readFailed p c x.access.address else d.readCompleted p c x.access.mask data := by
  rw [Device.complete, h]
  dsimp only
  rw [hc]

theorem port_outstanding (d : Device) (o : Option Outstanding) (p : Port) :
    ({ d with mem := { d.mem with outstanding := o } } : Device).port p = d.port p := by cases p <;> rfl

/-- Settles O24: a dropped completion, a posted slot, and a written-through beat. -/
theorem writesComplete : Obligations.WritesComplete := by
  intro s x p merr data hs hx d reported becomes
  have hbecomes (t : Device) (h : s.dev.memoryCompletes merr data = t) : becomes t :=
    (exec_memoryCompletion s merr data hs).trans (next_congr s h)
  refine ⟨fun hdropped => hbecomes _ (memoryCompletes_dropped hx hdropped merr data),
    fun hdropped howner => hbecomes _ ?posted, fun c hdropped howner hc hclosing => ?through⟩
  case posted =>
    rw [memoryCompletes_handed hx hdropped, complete_posted howner, Device.postedCompleted]
    simp only [List.drop_one]
    rfl
  case through =>
    have hcurrent : (d.port p).current = some c := by rw [port_outstanding, hc]
    have hthrough (t : Device) (h : d.throughCompleted p c x.access.address merr = t) : becomes t :=
      hbecomes t (by rw [memoryCompletes_handed hx hdropped, complete_through howner hcurrent, h])
    refine ⟨fun hmore => hthrough _ ?next, fun hlast => hthrough _ ?last⟩
    case next =>
      rw [Device.throughCompleted, if_neg (hclosing ▸ Bool.false_ne_true)]
      exact if_pos hmore
    case last =>
      rw [Device.throughCompleted, if_neg (hclosing ▸ Bool.false_ne_true)]
      refine (if_neg (Nat.not_lt.mpr hlast)).trans ?_
      simp only [Bool.or_eq_true]
      rfl

/-! ## Reads (R52, R55, R128, R130, R152, R154) -/

/-- The window that a MEMORY_READ record carries (R55, R130). -/
def Class.readWindow? : Class → Option Slot16
  | .consumerRead w => some w
  | .producerRead w => some w
  | _ => none

theorem readSubject_eq (d : Device) (c : Class) :
    d.readSubject c = (c.readWindow?, c.readWindow?.map fun w => (d.rt w).openEpoch) := by cases c <;> rfl

/-- A word of a read before its disabled bytes are cleared (R52). -/
def Device.readData (d : Device) (c : Current) (data : Word) : Word :=
  match c.cls with
  | .producerRead w => d.overlay w (d.firstOffset w c.request + c.done) data
  | _ => data

theorem readWord_eq (d : Device) (c : Current) (mask : Mask) (data : Word) :
    d.readWord c mask data = d.readData c data &&& maskBits mask := by
  unfold Device.readWord Device.readData
  cases c.cls <;> rfl

theorem readFailed_eq (d : Device) (p : Port) (c : Current) (address : Nat) : d.readFailed p c address =
    let answered := ((d.setFlag .memory).offer
      { kind := .memoryRead, detail := none, window := c.cls.readWindow?, port := some p, address := some address,
        epoch := c.cls.readWindow?.map fun w => (d.rt w).openEpoch }).modPort p fun u =>
      { u with current := none, holdTimer := none, answer := some ⟨.error, []⟩ }
    if c.request.locked then answered.endLock p .noLock else answered := by
  rw [Device.readFailed, readSubject_eq]
  rfl

theorem readCompleted_next {c : Current} (h : c.done + 1 < c.request.beats.length) (d : Device) (p : Port) (mask : Mask)
    (data : Word) : d.readCompleted p c mask data = d.modPort p fun u =>
      { u with current := some { c with done := c.done + 1, words := c.words ++ [d.readData c data &&& maskBits mask] } } := by
  rw [Device.readCompleted, readWord_eq]
  exact if_pos h

theorem readCompleted_last {c : Current} (h : c.request.beats.length ≤ c.done + 1) (d : Device) (p : Port) (mask : Mask)
    (data : Word) : d.readCompleted p c mask data =
      let answered := d.modPort p fun u =>
        { u with
          current := none, holdTimer := none
          answer := some ⟨.okay, c.words ++ [d.readData c data &&& maskBits mask]⟩ }
      if c.request.locked then answered.openLock p else answered := by
  rw [Device.readCompleted, readWord_eq]
  exact if_neg (Nat.not_lt.mpr h)

theorem openLock_eq {d : Device} {p : Port} {k : LockKind} {a : Nat} (hl : (d.port p).lock = .opening k a) :
    d.openLock p = d.modPort p fun u => { u with lock := .opened k a d.config.lockLimit } := by
  simp only [Device.openLock, hl]
  rfl

/-- Settles O25: an unlocked read's word by `readCompleted` and `readFailed`. -/
theorem readWordCompletes : Obligations.ReadWordCompletes := by
  intro s x p c data hs hx hdropped howner hc hlocked d word subject
  have hcurrent : (d.port p).current = some c := by rw [port_outstanding, hc]
  have hword : d.readData c data &&& maskBits x.access.mask = word := by
    show _ = HAnd.hAnd _ _
    unfold Device.readData
    cases c.cls <;> rfl
  have hsubject : c.cls.readWindow? = subject := by
    show _ = (match c.cls with | .consumerRead w => some w | .producerRead w => some w | _ => none)
    cases c.cls <;> rfl
  refine ⟨fun hmore => ?next, fun hlast => ?last, ?failed⟩ <;>
    rw [exec_memoryCompletion s _ data hs, memoryCompletes_handed hx hdropped, complete_read howner hcurrent]
  case next =>
    rw [← hword]
    exact next_congr s (readCompleted_next hmore d p x.access.mask data)
  case last =>
    rw [← hword]
    refine next_congr s ((readCompleted_last hlast d p x.access.mask data).trans ?_)
    exact if_neg (hlocked ▸ Bool.false_ne_true)
  case failed =>
    rw [← hsubject]
    refine next_congr s ((readFailed_eq d p c x.access.address).trans ?_)
    exact if_neg (hlocked ▸ Bool.false_ne_true)

/-- Settles O26: a locked read's last word by `readCompleted` and `openLock`, and `readFailed` and `endLock`. -/
theorem lockedReadOpensItsLock : Obligations.LockedReadOpensItsLock := by
  intro s x p c k a data hs hx hdropped howner hc hlocked hlast hl d word subject
  have hport : d.port p = s.dev.port p := port_outstanding s.dev none p
  have hcurrent : (d.port p).current = some c := by rw [hport, hc]
  have hword : d.readData c data &&& maskBits x.access.mask = word := by
    show _ = HAnd.hAnd _ _
    unfold Device.readData
    cases c.cls <;> rfl
  have hsubject : c.cls.readWindow? = subject := by
    show _ = (match c.cls with | .consumerRead w => some w | .producerRead w => some w | _ => none)
    cases c.cls <;> rfl
  refine ⟨?opens, ?failed⟩ <;>
    rw [exec_memoryCompletion s _ data hs, memoryCompletes_handed hx hdropped, complete_read howner hcurrent]
  case opens =>
    rw [← hword]
    refine next_congr s ((readCompleted_last hlast d p x.access.mask data).trans ((if_pos hlocked).trans ?_))
    refine (openLock_eq (k := k) (a := a) (by rw [Device.port_modPort_self, hport]; exact hl)).trans ?_
    rw [Device.modPort_modPort, Device.modPort_config]
  case failed =>
    rw [← hsubject]
    refine next_congr s ((readFailed_eq d p c x.access.address).trans ((if_pos hlocked).trans ?_))
    exact endLock_eq _ p _ (by rw [Device.port_modPort_self, port_offer, port_setFlag, hport]; exact congrArg _ hl)

/-- Settles O27: `closingCompleted`, and the end of the lock. -/
theorem closingWriteEndsTheLock : Obligations.ClosingWriteEndsTheLock := by
  intro s x p c k a l merr data hs hx hdropped howner hc hclosing hl d reported
  have hport := port_outstanding s.dev none p
  rw [exec_memoryCompletion s merr data hs, memoryCompletes_handed hx hdropped,
    complete_through howner (by rw [hport, hc]), Device.throughCompleted, if_pos hclosing, Device.closingCompleted]
  refine next_congr s ((endLock_eq (a := a) _ p _ ?held).trans (congrArg (Device.takeDeferred · a) ?ended))
  case held =>
    rw [Device.answer, Device.port_modPort_self]
    cases merr <;> cases p <;> exact congrArg LockRecord.heldWord hl
  case ended =>
    cases merr <;> cases p <;> rfl

end Sys2Proof.Machine

/-! SUPPORT. The commit rule and its outcomes, and the commit items from their start to their completion (R60 to R86). -/

namespace Sys2Proof.Machine

/-! ## The commit rule (R61, R68) -/

section
variable {d : Device} {w : Slot16} {ds : Descriptor} (hd : (d.win w).desc = some ds)
include hd

theorem decideCommit_tripped (hs : (d.rt w).state = .tripped) : d.decideCommit w = d.decideTripped w ds := by
  simp only [Device.decideCommit, hd, hs]

/-- Rows 4 to 9 of R61. -/
theorem decideCommit_running (hs : (d.rt w).state = .running) : d.decideCommit w =
    if d.producerLockOn w then
      if (d.rt w).deferredCommit then .secondDefer else .deferred
    else if (d.itemOf w).isSome ∨ (d.rt w).drainingEpoch.isSome then .itemPending
    else if ds.closePolicy = .strict ∧ ¬(d.rt w).closeMark then .late
    else if (d.openList w).isEmpty then .empty
    else .committed := by
  simp only [Device.decideCommit, hd, hs]

end

theorem decideTripped_pending {d : Device} {w : Slot16} {ds : Descriptor} (hm : ds.tripMode = .atEvent) (hp : (d.rt w).safeLoadPending = true) :
    d.decideTripped w ds =
      match (d.itemOf w).map Item.kind with
      | none => .safeJoins
      | some .safe => .safeServes
      | some .epoch => .skipped := by
  rw [Device.decideTripped]
  exact if_pos ⟨hm, hp⟩

/-- Settles O28: the rows of `decideCommit` from the top. -/
theorem commitRuleFollowsItsRows : Obligations.CommitRuleFollowsItsRows := by
  intro d w ds hd item r
  refine ⟨fun hs => ?off, fun hs => ?paused, fun hs hm hp hitem => ?joins, fun hs hm hp hitem => ?serves,
    fun hs hm hp hitem => ?meetsEpoch, fun hs hnot => ?skipped, fun hs hl hf => ?deferred, fun hs hl hf => ?second,
    fun hs hl hbusy => ?pending, fun hs hl hitem hdrain => ?free, producerLockOn_iff hd⟩
  case off => simp only [Device.decideCommit, hd, show (d.rt w).state = .off from hs]
  case paused => simp only [Device.decideCommit, hd, show (d.rt w).state = .paused from hs]
  case joins => rw [decideCommit_tripped hd hs, decideTripped_pending hm hp, show (d.itemOf w).map Item.kind = none from hitem]
  case serves =>
    rw [decideCommit_tripped hd hs, decideTripped_pending hm hp, show (d.itemOf w).map Item.kind = some .safe from hitem]
  case meetsEpoch =>
    rw [decideCommit_tripped hd hs, decideTripped_pending hm hp, show (d.itemOf w).map Item.kind = some .epoch from hitem]
  case skipped =>
    rw [decideCommit_tripped hd hs, Device.decideTripped, if_neg]
    rintro ⟨hm, hp⟩
    obtain hnot | hnot := hnot
    · exact absurd (hm.symm.trans hnot) nofun
    · exact Bool.false_ne_true (hnot.symm.trans hp)
  case deferred => rw [decideCommit_running hd hs, if_pos hl, if_neg (show (d.rt w).deferredCommit ≠ true from hf ▸ nofun)]
  case second => rw [decideCommit_running hd hs, if_pos hl, if_pos hf]
  case pending =>
    rw [decideCommit_running hd hs, if_neg (hl ▸ Bool.false_ne_true), if_pos]
    refine hbusy.imp (fun h => Option.isSome_iff_ne_none.mpr fun hnone => h ?_) Option.isSome_iff_ne_none.mpr
    exact congrArg (Option.map Item.kind) hnone
  case free =>
    have hnone : ¬((d.itemOf w).isSome ∨ (d.rt w).drainingEpoch.isSome) := by
      simp [Option.map_eq_none_iff.mp hitem, show (d.rt w).drainingEpoch = none from hdrain]
    have hlate : (ds.closePolicy = .strict ∧ ¬(d.rt w).closeMark = true) ↔ (ds.closePolicy = .strict ∧ r.closeMark = false) := by
      rw [Bool.not_eq_true]
    rw [decideCommit_running hd hs, if_neg (hl ▸ Bool.false_ne_true), if_neg hnone]
    refine ⟨fun h => if_pos (hlate.mpr h), fun h hopen => ?_, fun h hopen => ?_⟩ <;> rw [if_neg (mt hlate.mp h)]
    · exact if_pos (List.isEmpty_iff.mpr hopen)
    · exact if_neg (mt List.isEmpty_iff.mp hopen)

/-! ## The outcomes of a commit event (R62 to R68) -/

/-- Outcome COMMITTED (R62). -/
theorem commitEpoch_eq (d : Device) (w : Slot16) : d.commitEpoch w =
    { d.modRt w fun x =>
        { x with
          closeMark := false, drainingEpoch := some (d.rt w).openEpoch
          openEpoch := if (d.rt w).openEpoch = 0xFFFFFFFF then 1 else (d.rt w).openEpoch + 1 } with
      entries := d.entries.map fun e => if e.window = w ∧ e.epoch = .opened then { e with epoch := .draining } else e
      commitQueue := d.commitQueue ++ [⟨w, .epoch, none⟩] } := by
  have hswap : (fun e : Entry => if e.isOpen w then { e with epoch := .draining } else e) =
      fun e => if e.window = w ∧ e.epoch = .opened then { e with epoch := .draining } else e := by
    funext e
    simp [Entry.isOpen]
  rw [Device.commitEpoch, Device.swapEpoch, hswap]
  rw [modRt_congr ({ d with entries := _ } : Device) w _ (fun x =>
    { x with
      closeMark := false, drainingEpoch := some (d.rt w).openEpoch
      openEpoch := if (d.rt w).openEpoch = 0xFFFFFFFF then 1 else (d.rt w).openEpoch + 1 }) rfl]
  rfl

/-- Settles O29: `applyDecision`, outcome by outcome, and the refusal of an index that names no window. -/
theorem commitNowHasItsOutcome : Obligations.CommitNowHasItsOutcome := by
  refine ⟨?outcomes, ?refused⟩
  case outcomes =>
    intro s index w ds hs hi hd r count overrun answers
    have hanswers {t : Device} {x : Decision} (hx : s.dev.decideCommit w = x) (h : s.dev.applyDecision w x = t) :
        answers t x.outcome.code := by
      refine (exec_commitNow s index hs).trans (next_congr s ((onDefined_some hi hd _).trans ?_))
      rw [Device.commitEvent, hx, h]
      rfl
    cases hx : s.dev.decideCommit w with
    | committed => exact hanswers hx (commitEpoch_eq s.dev w)
    | _ => exact hanswers hx rfl
  case refused =>
    intro s index hs hnone
    rw [exec_commitNow s index hs]
    exact next_congr s (onDefined_refused hnone _)

/-! ## The start of an item (R71, R72, R79) -/

theorem plannedOf_safe (d : Device) (w : Slot16) : d.plannedOf w .safe =
    match (d.win w).desc with
    | some ds => match ds.safeImage with | some i => i.count | none => 0
    | none => 0 := by
  rw [Device.plannedOf]
  cases (d.win w).desc with
  | none => rfl
  | some ds => rfl

theorem startItem_eq {d : Device} {w : Slot16} {k : ItemKind} {rest : List Item} (hq : d.commitQueue = ⟨w, k, none⟩ :: rest) :
    d.startItem = { d.modRt w fun x => { x with holdRequest := true } with
      commitQueue := ⟨w, k, some ⟨.starting, d.plannedOf w k, 0, false, 0, [], 0⟩⟩ :: rest } := by
  rw [Device.startItem, hq]
  rfl

theorem admittedOn_iff (d : Device) (p : Port) (w : Slot16) : d.admittedOn p w = true ↔
    ∃ c, (d.port p).current = some c ∧ c.phase = .performing ∧ w ∈ d.waitsOn c := by
  unfold Device.admittedOn
  cases (d.port p).current <;> simp

theorem forall_port {P : Port → Prop} : (∀ p, P p) ↔ P .a ∧ P .b :=
  ⟨fun h => ⟨h .a, h .b⟩, fun ⟨ha, hb⟩ p => by cases p <;> assumption⟩

theorem holdCanBeSet_iff {d : Device} {w : Slot16} {k : ItemKind} {pr : Progress} {rest : List Item}
    (hq : d.commitQueue = ⟨w, k, some pr⟩ :: rest) : d.holdCanBeSet = true ↔
      pr.phase = .starting ∧ ∀ p c, (d.port p).current = some c → c.phase = .performing → w ∉ d.waitsOn c := by
  have hadmitted (p : Port) : (!d.admittedOn p w) = true ↔
      ∀ c, (d.port p).current = some c → c.phase = .performing → w ∉ d.waitsOn c := by
    rw [Bool.not_eq_true', ← Bool.not_eq_true, admittedOn_iff]
    simp
  rw [Device.holdCanBeSet, hq]
  simp only [Bool.and_eq_true, beq_iff_eq, hadmitted, forall_port (P := fun p => ∀ c, _ → _ → w ∉ d.waitsOn c), and_assoc]

theorem setConsumerHold_eq {d : Device} {w : Slot16} {k : ItemKind} {pr : Progress} {rest : List Item}
    (hq : d.commitQueue = ⟨w, k, some pr⟩ :: rest) (hset : d.holdCanBeSet = true) : d.setConsumerHold =
      ({ d.modRt w fun r => { r with consumerHold := true } with
        commitQueue := ⟨w, k, some { pr with phase := .writing }⟩ :: rest } : Device).checkWritten w := by
  rw [Device.setConsumerHold, if_pos hset, hq]
  rfl

/-- The item of a window has writes left (R71, R75). -/
theorem checkWritten_more {d : Device} {w : Slot16} {k : ItemKind} {pr : Progress} {rest : List Item}
    (hq : d.commitQueue = ⟨w, k, some pr⟩ :: rest) (hmore : pr.written ≠ pr.planned) : d.checkWritten w = d := by
  rw [Device.checkWritten, itemOf_head hq]
  exact if_neg fun h => hmore h.2

/-- The item of a window has no writes left (R71, R75, R79). -/
theorem checkWritten_last {d : Device} {w : Slot16} {k : ItemKind} {pr : Progress} {rest : List Item}
    (hrest : ∀ it ∈ rest, it.window ≠ w) (hph : pr.phase = .writing) (hlast : pr.written = pr.planned) :
    ({ d with commitQueue := ⟨w, k, some pr⟩ :: rest } : Device).checkWritten w = statusEntered d w k pr rest := by
  rw [checkWritten_head (k := k) (pr := pr) rfl hrest, if_pos ⟨hph, hlast⟩, statusEntered_queue]

theorem enginePending_starting {d : Device} {w : Slot16} {k : ItemKind} {pr : Progress} {rest : List Item}
    (hq : d.commitQueue = ⟨w, k, some pr⟩ :: rest) (hph : pr.phase = .starting) : d.enginePending = none := by
  rw [Device.enginePending, hq]
  dsimp only
  rw [hph]

/-- Settles O30: `startItem` and `setConsumerHold` on the head of the queue. -/
theorem itemStartsBehindItsHold : Obligations.ItemStartsBehindItsHold := by
  refine ⟨?starts, ?holds⟩
  case starts =>
    intro s w k rest planned
    refine ⟨fun hq => ?started, fun pr hq hph hmore hclear => ?writing⟩
    case started =>
      have hplanned : s.dev.plannedOf w k = planned := by
        cases k with
        | epoch => rfl
        | safe => exact plannedOf_safe s.dev w
      rw [exec_itemStart, startItem_eq hq, hplanned]
    case writing =>
      rw [exec_consumerHoldSet, setConsumerHold_eq hq ((holdCanBeSet_iff hq).mpr ⟨hph, hclear⟩),
        checkWritten_more (k := k) (pr := { pr with phase := .writing }) rfl hmore.ne]
  case holds =>
    intro s w k pr rest hq hph
    refine ⟨enginePending_starting hq hph, fun ⟨p, c, hc, hperf, hmem⟩ => ?admitted, fun hlast hrest hclear => ?empty⟩
    case admitted =>
      rw [exec_consumerHoldSet, Device.setConsumerHold, if_neg fun h => ((holdCanBeSet_iff hq).mp h).2 p c hc hperf hmem]
    case empty =>
      rw [exec_consumerHoldSet, setConsumerHold_eq hq ((holdCanBeSet_iff hq).mpr ⟨hph, hclear⟩)]
      exact next_congr s (checkWritten_last hrest rfl hlast)

/-! ## Data writes that complete (R75, R76, R79, R81) -/

theorem modProgress_head {d : Device} {w : Slot16} {k : ItemKind} {pr : Progress} {rest : List Item} (f : Progress → Progress)
    (hq : d.commitQueue = ⟨w, k, some pr⟩ :: rest) (hrest : ∀ it ∈ rest, it.window ≠ w) :
    d.modProgress w f = { d with commitQueue := ⟨w, k, some (f pr)⟩ :: rest } := modItem_head _ hq hrest

/-- A drain write's MERR as it is reported (R76). -/
def reportedDrain (d : Device) (w : Slot16) (address : Nat) (epoch : Word) (merr : Bool) : Device :=
  if merr then ((d.modRt w
      fun y => { y with counters := { y.counters with drainErrors := satInc y.counters.drainErrors } }).setFlag (.wex w)).offer
    { kind := .commitWrite, detail := some (.commitWrite .entry), window := some w, port := none,
      address := some address, epoch := some epoch }
  else d

/-- The progress of an item after a data write (R75, R76). -/
abbrev Progress.wrote (pr : Progress) (merr : Bool) : Progress :=
  { pr with written := pr.written + 1, writeError := pr.writeError || merr }

/-- The report, the entry and the progress of a drain write that completes (R75, R76). -/
theorem drainWritten_head {d : Device} {w : Slot16} {k : ItemKind} {pr : Progress} {rest : List Item}
    {before after : List Entry} {e : Entry} {epoch : Word} (hq : d.commitQueue = ⟨w, k, some pr⟩ :: rest)
    (hrest : ∀ it ∈ rest, it.window ≠ w) (hepoch : (d.rt w).drainingEpoch = some epoch)
    (hE : d.entries = before ++ e :: after) (he : e.window = w) (hdrain : e.epoch = .draining)
    (hb : ∀ y ∈ before, y.window ≠ w ∨ y.epoch ≠ .draining) (address : Nat) (merr : Bool) :
    let reported := if merr then d.drainError w address else d
    ({ reported with entries := reported.entries.eraseP (·.isDraining w) } : Device).modProgress w
        (fun pr => { pr with written := pr.written + 1 }) =
      { reportedDrain { d with entries := before ++ after } w address epoch merr with
        commitQueue := ⟨w, k, some (pr.wrote merr)⟩ :: rest } := by
  have herase : d.entries.eraseP (·.isDraining w) = before ++ after := by
    rw [hE]
    refine eraseP_at _ before after e (by simp [Entry.isDraining, he, hdrain]) fun y hy => ?_
    simpa [Entry.isDraining, Classical.or_iff_not_imp_left] using hb y hy
  cases merr with
  | false =>
    show ({ d with entries := d.entries.eraseP _ } : Device).modProgress w _ = _
    rw [herase, Progress.wrote, Bool.or_false]
    exact modProgress_head (d := { d with entries := before ++ after }) _ hq hrest
  | true =>
    have herror : d.drainError w address = { reportedDrain d w address epoch true with
        commitQueue := ⟨w, k, some { pr with writeError := true }⟩ :: rest } := by
      rw [Device.drainError, hepoch]
      exact congrArg (Device.raiseWrite · w .entry address epoch) (modProgress_head
        (d := d.modCounters w fun c => { c with drainErrors := satInc c.drainErrors }) _ hq hrest)
    show ({ d.drainError w address with entries := (d.drainError w address).entries.eraseP _ } : Device).modProgress w _ = _
    rw [herror, show (reportedDrain d w address epoch true).entries.eraseP (·.isDraining w) = before ++ after from herase,
      Progress.wrote, Bool.or_true]
    exact modProgress_head (d := { reportedDrain d w address epoch true with
      entries := before ++ after, commitQueue := ⟨w, k, some { pr with writeError := true }⟩ :: rest }) _ rfl hrest

/-- A drain write of the item at the head completes (R75, R76, R81). -/
theorem drainCompleted_head {d : Device} {w : Slot16} {k : ItemKind} {pr : Progress} {rest : List Item}
    {before after : List Entry} {e : Entry} {epoch : Word} (hq : d.commitQueue = ⟨w, k, some pr⟩ :: rest)
    (hrest : ∀ it ∈ rest, it.window ≠ w) (hepoch : (d.rt w).drainingEpoch = some epoch)
    (hE : d.entries = before ++ e :: after) (he : e.window = w) (hdrain : e.epoch = .draining)
    (hb : ∀ y ∈ before, y.window ≠ w ∨ y.epoch ≠ .draining) (address : Nat) (merr : Bool) :
    d.drainCompleted w address merr =
      let wrote : Device := { reportedDrain { d with entries := before ++ after } w address epoch merr with
        commitQueue := ⟨w, k, some (pr.wrote merr)⟩ :: rest }
      (if k = .safe then wrote.modRt w fun r => { r with drainingEpoch := none } else wrote).checkWritten w := by
  have hkind : ((d.itemOf w).map Item.kind = some ItemKind.safe) ↔ k = .safe := by
    rw [itemOf_head hq]
    simp
  rw [← drainWritten_head hq hrest hepoch hE he hdrain hb address merr]
  unfold Device.drainCompleted
  simp only [hkind]

/-- A drain write of an EPOCH item (R75). -/
theorem drainCompleted_epoch {d : Device} {w : Slot16} {pr : Progress} {rest : List Item}
    {before after : List Entry} {e : Entry} {epoch : Word} (hq : d.commitQueue = ⟨w, .epoch, some pr⟩ :: rest)
    (hrest : ∀ it ∈ rest, it.window ≠ w) (hepoch : (d.rt w).drainingEpoch = some epoch)
    (hE : d.entries = before ++ e :: after) (he : e.window = w) (hdrain : e.epoch = .draining)
    (hb : ∀ y ∈ before, y.window ≠ w ∨ y.epoch ≠ .draining) (address : Nat) (merr : Bool) :
    d.drainCompleted w address merr =
      ({ reportedDrain { d with entries := before ++ after } w address epoch merr with
        commitQueue := ⟨w, .epoch, some (pr.wrote merr)⟩ :: rest } : Device).checkWritten w :=
  drainCompleted_head hq hrest hepoch hE he hdrain hb address merr

/-- The last drain write of an item that a trip made a SAFE item (R81): the draining epoch is gone. -/
theorem drainCompleted_safe {d : Device} {w : Slot16} {pr : Progress} {rest : List Item}
    {before after : List Entry} {e : Entry} {epoch : Word} (hq : d.commitQueue = ⟨w, .safe, some pr⟩ :: rest)
    (hrest : ∀ it ∈ rest, it.window ≠ w) (hepoch : (d.rt w).drainingEpoch = some epoch)
    (hE : d.entries = before ++ e :: after) (he : e.window = w) (hdrain : e.epoch = .draining)
    (hb : ∀ y ∈ before, y.window ≠ w ∨ y.epoch ≠ .draining) (address : Nat) (merr : Bool) :
    d.drainCompleted w address merr =
      ({ reportedDrain (({ d with entries := before ++ after } : Device).modRt w fun y => { y with drainingEpoch := none })
          w address epoch merr with
        commitQueue := ⟨w, .safe, some (pr.wrote merr)⟩ :: rest } : Device).checkWritten w := by
  rw [drainCompleted_head hq hrest hepoch hE he hdrain hb address merr]
  refine congrArg (Device.checkWritten · w) ?_
  cases merr with
  | false => rfl
  | true =>
    have hcomm (D : Device) (f g : Runtime → Runtime) (h : ∀ r, g (f r) = f (g r)) :
        (D.modRt w f).modRt w g = (D.modRt w g).modRt w f := by simp only [Device.modRt_modRt, h]
    have hswap := hcomm { d with entries := before ++ after }
      (fun y => { y with counters := { y.counters with drainErrors := satInc y.counters.drainErrors } })
      (fun y => { y with drainingEpoch := none }) fun _ => rfl
    rw [reportedDrain, reportedDrain, if_pos rfl, if_pos rfl, ← hswap]
    rfl

/-- A safe-image word's MERR as it is reported (R79). -/
def reportedSafe (d : Device) (w : Slot16) (address : Nat) (merr : Bool) : Device :=
  if merr then (d.setFlag (.wex w)).offer
    { kind := .commitWrite, detail := some (.commitWrite .safeWord), window := some w, port := none,
      address := some address, epoch := some (d.rt w).openEpoch }
  else d

/-- A safe-image word of the item at the head completes (R79). -/
theorem safeWordCompleted_head {d : Device} {w : Slot16} {k : ItemKind} {pr : Progress} {rest : List Item}
    (hq : d.commitQueue = ⟨w, k, some pr⟩ :: rest) (hrest : ∀ it ∈ rest, it.window ≠ w) (address : Nat) (merr : Bool) :
    d.safeWordCompleted w address merr =
      ({ reportedSafe d w address merr with
        commitQueue := ⟨w, k, some { pr with
          written := pr.written + 1, safeDone := pr.safeDone + 1, writeError := pr.writeError || merr }⟩ :: rest } :
        Device).checkWritten w := by
  unfold Device.safeWordCompleted
  cases merr with
  | false =>
    simp only [Bool.false_eq_true, if_false, reportedSafe, Bool.or_false]
    rw [modProgress_head (k := k) (pr := pr) _ hq hrest]
  | true =>
    simp only [if_true, reportedSafe, Bool.or_true]
    rw [modProgress_head (k := k) (pr := pr) _ hq hrest, modProgress_head (k := k) (pr := { pr with writeError := true }) _ rfl hrest]
    rfl

theorem complete_drain {x : Outstanding} {w : Slot16} (h : x.owner = .drain w) (d : Device) (merr : Bool) (data : Word) :
    d.complete x merr data = d.drainCompleted w x.access.address merr := by rw [Device.complete, h]

theorem complete_safeWord {x : Outstanding} {w : Slot16} (h : x.owner = .safeWord w) (d : Device) (merr : Bool) (data : Word) :
    d.complete x merr data = d.safeWordCompleted w x.access.address merr := by rw [Device.complete, h]

theorem complete_statusWord {x : Outstanding} {w : Slot16} (h : x.owner = .statusWord w) (d : Device) (merr : Bool)
    (data : Word) : d.complete x merr data = d.statusWordCompleted w x.access.address merr := by rw [Device.complete, h]

/-- Settles O31: the completion of a drain write or a safe-image word of the item at the head, with writes left or as its last. -/
theorem drainWriteRemovesItsEntry : Obligations.DrainWriteRemovesItsEntry := by
  refine ⟨?more, ?last, ?safeWord, ?cut⟩
  case more =>
    intro s x w pr rest before after e epoch data hs hx hdropped howner hq hrest hepoch hmore hE he hdrain hb d
    let freed : Device := { s.dev with mem := { s.dev.mem with outstanding := none } }
    have hexec (merr : Bool) : exec (.memoryCompletion merr data) s = .next { s with
        dev := { reportedDrain d w x.access.address epoch merr with
          commitQueue := ⟨w, .epoch, some (pr.wrote merr)⟩ :: rest } } := by
      rw [exec_memoryCompletion s merr data hs, memoryCompletes_handed hx hdropped, complete_drain howner]
      refine next_congr s ((drainCompleted_epoch (d := freed) hq hrest hepoch hE he hdrain hb _ merr).trans ?_)
      exact checkWritten_more (k := .epoch) (pr := pr.wrote merr) rfl hmore.ne
    refine ⟨(hexec false).trans ?_, (hexec true).trans ?_⟩
    · rw [Progress.wrote, Bool.or_false]
      rfl
    · rw [Progress.wrote, Bool.or_true]
      rfl
  case last =>
    intro s x w pr rest before after e epoch data merr hs hx hdropped howner hq hrest hepoch hph hlast hE he hdrain hb d reported
    let freed : Device := { s.dev with mem := { s.dev.mem with outstanding := none } }
    rw [exec_memoryCompletion s merr data hs, memoryCompletes_handed hx hdropped, complete_drain howner]
    refine next_congr s ((drainCompleted_epoch (d := freed) hq hrest hepoch hE he hdrain hb _ merr).trans ?_)
    exact checkWritten_last (d := reportedDrain d w x.access.address epoch merr) hrest hph hlast
  case safeWord =>
    intro s x w pr rest data merr hs hx hdropped howner hq hrest hph d reported pr'
    rw [exec_memoryCompletion s merr data hs, memoryCompletes_handed hx hdropped, complete_safeWord howner]
    refine ⟨fun hmore => ?_, fun hlast => ?_⟩ <;>
      refine next_congr s ((safeWordCompleted_head (d := d) (k := .safe) (pr := pr) hq hrest _ merr).trans ?_)
    · exact checkWritten_more (k := .safe) (pr := pr') rfl hmore.ne
    · exact checkWritten_last (d := reportedSafe d w x.access.address merr) hrest hph hlast
  case cut =>
    intro s x w pr rest before after e epoch data merr hs hx hdropped howner hq hrest hepoch hph hE he hdrain hb d reported pr'
    let freed : Device := { s.dev with mem := { s.dev.mem with outstanding := none } }
    rw [exec_memoryCompletion s merr data hs, memoryCompletes_handed hx hdropped, complete_drain howner]
    refine ⟨fun hmore => ?_, fun hlast => ?_⟩ <;>
      refine next_congr s ((drainCompleted_safe (d := freed) hq hrest hepoch hE he hdrain hb _ merr).trans ?_)
    · exact checkWritten_more (k := .safe) (pr := pr') rfl hmore.ne
    · exact checkWritten_last (d := reportedDrain d w x.access.address epoch merr) hrest hph hlast

/-! ## Status words (R82 to R85) -/

theorem statusWordCompleted_next {d : Device} {w : Slot16} {k : ItemKind} {pr : Progress} {rest : List Item}
    (hq : d.commitQueue = ⟨w, k, some pr⟩ :: rest) (hrest : ∀ it ∈ rest, it.window ≠ w) (hmore : pr.statusDone + 1 < 4)
    (address : Nat) : d.statusWordCompleted w address false =
      { d with commitQueue := ⟨w, k, some { pr with statusDone := pr.statusDone + 1 }⟩ :: rest } := by
  rw [Device.statusWordCompleted, itemOf_head hq]
  exact (if_pos hmore).trans (modProgress_head _ hq hrest)

theorem statusWordCompleted_last {d : Device} {w : Slot16} {k : ItemKind} {pr : Progress} {rest : List Item}
    (hq : d.commitQueue = ⟨w, k, some pr⟩ :: rest) (hrest : ∀ it ∈ rest, it.window ≠ w) (hlast : 4 ≤ pr.statusDone + 1)
    (address : Nat) : d.statusWordCompleted w address false = completedItem d w k rest := by
  rw [Device.statusWordCompleted, itemOf_head hq]
  exact (if_neg (Nat.not_lt.mpr hlast)).trans (completeItem_head hq hrest)

/-- MERR of a status word adds WEX and a record, and nothing else (R85). -/
theorem statusWordCompleted_error {d : Device} {w : Slot16} {k : ItemKind} {pr : Progress} {rest : List Item} {e : Word}
    {block : List Word} (hq : d.commitQueue = ⟨w, k, some pr⟩ :: rest) (hblock : pr.block = e :: block) (address : Nat) :
    d.statusWordCompleted w address true =
      ((d.setFlag (.wex w)).offer
        { kind := .commitWrite, detail := some (.commitWrite .statusWord), window := some w, port := none,
          address := some address, epoch := some e }).statusWordCompleted w address false := by
  rw [Device.statusWordCompleted, Device.statusWordCompleted, itemOf_head hq,
    itemOf_head (d := (d.setFlag (.wex w)).offer _) (k := k) (p := some pr) (rest := rest) hq]
  dsimp only
  rw [hblock]
  rfl

/-- No event of a moment waits for a flag or a record. -/
theorem urgent_raised (d : Device) (f : Flag) (r : Report) : ((d.setFlag f).offer r).urgent = d.urgent := by
  have hready : ((d.setFlag f).offer r).isReady = d.isReady := by
    funext u
    cases u with
    | reservation p => cases p <;> rfl
    | orderingEnd p => cases p <;> rfl
    | queueSpace p => cases p <;> rfl
    | readAdmitted p => cases p <;> rfl
    | poolService =>
      show Device.poolCheckDue _ = _
      unfold Device.poolCheckDue
      simp only [port_offer, port_setFlag]
      rfl
    | _ => rfl
  simp only [Device.urgent, hready]

/-- Settles O32: the completion of a status word, and the fields of the words of a block. -/
theorem statusWordsEndTheItem : Obligations.StatusWordsEndTheItem := by
  refine ⟨?words, ?error, ?block⟩
  case words =>
    intro s x w k pr rest data hs hx hdropped howner hq hrest d
    rw [exec_memoryCompletion s false data hs, memoryCompletes_handed hx hdropped, complete_statusWord howner]
    refine ⟨fun hmore => ?_, fun hlast hk => ?_, fun hlast hk => ?_⟩
    · exact next_congr s (statusWordCompleted_next (d := d) hq hrest hmore _)
    · subst hk
      exact next_congr s (statusWordCompleted_last (d := d) hq hrest hlast _)
    · subst hk
      exact next_congr s (statusWordCompleted_last (d := d) hq hrest hlast _)
  case error =>
    intro s x w k pr rest data e block hs hx hdropped howner hq hblock t
    have ht : Settled t.dev := (urgent_raised s.dev _ _).trans hs
    refine ⟨ht, ?_⟩
    rw [exec_memoryCompletion s true data hs, exec_memoryCompletion t false data ht, memoryCompletes_handed hx hdropped,
      memoryCompletes_handed (d := t.dev) hx hdropped, complete_statusWord howner, complete_statusWord howner]
    exact next_congr s (statusWordCompleted_error (d := { s.dev with mem := { s.dev.mem with outstanding := none } })
      (k := k) (rest := rest) hq hblock _)
  case block =>
    intro d w k pr r
    obtain ⟨hwritten, htripped, hsafe, hlate, hoverrun, herror, hpaused, hzero, hzero', hstate⟩ := statusWord1_fields
      r.state.code (r.state == .paused) pr.writeError r.overrunSince r.lateSince (k == .safe) (r.state == .tripped)
      (BitVec.ofNat 16 pr.written)
    obtain ⟨hlateCount, hoverrunCount⟩ := append_halves r.counters.overrun r.counters.late
    refine ⟨_, _, _, rfl, fun e hk hepoch => ?_, fun hk => ?_, fun hle => ?_, htripped, hsafe, hlate, hoverrun, herror,
      hpaused, hzero, hzero', hstate.trans ?_, hlateCount, hoverrunCount⟩
    · subst hk
      show r.drainingEpoch.getD r.lastCommitted = e
      rw [hepoch]
      rfl
    · subst hk
      rfl
    · refine (congrArg BitVec.toNat hwritten).trans ?_
      rw [BitVec.toNat_ofNat]
      omega
    · cases r.state <;> rfl

end Sys2Proof.Machine

/-! SUPPORT. Trips, pulses and timeouts: what a watchdog, a monitor and the local cycle timer leave (R89 to R98, R113 to R116). -/

namespace Sys2Proof.Machine

/-! ## A trip and its report (R113) -/

/-- A tripped window, its runtime record changed further, with WEX and a TRIP record (R113). -/
def tripReported (d : Device) (w : Slot16) (m : TripMode) (f : Runtime → Runtime) : Device :=
  ((d.modRt w fun r =>
    f { r with state := .tripped, watchdog := none, counters := { r.counters with trips := satInc r.counters.trips } }).setFlag
    (.wex w)).offer
    { kind := .trip, detail := some (.trip m), window := some w, port := none, address := none,
      epoch := some (d.rt w).openEpoch }

theorem modRt_raised (d : Device) (w : Slot16) (f g : Runtime → Runtime) (x : Flag) (r : Report) :
    (((d.modRt w f).setFlag x).offer r).modRt w g = ((d.modRt w fun y => g (f y)).setFlag x).offer r :=
  congrArg (fun t : Device => (t.setFlag x).offer r) (Device.modRt_modRt d w f g)

theorem modRt_entries (d : Device) (w : Slot16) (f g : Runtime → Runtime) (es : List Entry) :
    ({ d.modRt w f with entries := es } : Device).modRt w g = { d.modRt w fun y => g (f y) with entries := es } :=
  congrArg (fun t : Device => { t with entries := es }) (Device.modRt_modRt d w f g)

theorem tripReported_modRt (d : Device) (w : Slot16) (m : TripMode) (f g : Runtime → Runtime) :
    (tripReported d w m f).modRt w g = tripReported d w m fun r => g (f r) := by
  rw [tripReported, tripReported, modRt_raised]

theorem desc_tripReported (d : Device) (w v : Slot16) (m : TripMode) (f : Runtime → Runtime) :
    ((tripReported d w m f).win v).desc = (d.win v).desc :=
  Device.desc_modRt d w v fun r =>
    f { r with state := .tripped, watchdog := none, counters := { r.counters with trips := satInc r.counters.trips } }

theorem trip_atEvent (d : Device) (w : Slot16) :
    d.trip w .atEvent = tripReported d w .atEvent fun r => { r with safeLoadPending := true } :=
  tripReported_modRt d w .atEvent id fun r => { r with safeLoadPending := true }

theorem trip_immediate (d : Device) (w : Slot16) :
    d.trip w .immediate = (tripReported d w .immediate id).immediateSafeLoad w := rfl

theorem watchdogExpires_running {d : Device} {w : Slot16} {ds : Descriptor} (hd : (d.win w).desc = some ds)
    (hs : (d.rt w).state = .running) : d.watchdogExpires w = d.trip w ds.tripMode := by
  simp only [Device.watchdogExpires, hd, hs, if_true]

theorem exec_watchdogExpiry_running {s : State} {w : Slot16} {ds : Descriptor} {t : Nat}
    (h : NextDue s.dev (.watchdog w) t) (hd : (s.dev.win w).desc = some ds) (hs : (s.dev.rt w).state = .running) :
    exec (.watchdogExpiry w) s = .next { s with dev := ((s.dev.reached t).trip w ds.tripMode).tripExpired } := by
  obtain ⟨hdesc, x, hrt⟩ := reached_rt s.dev t w
  rw [exec_watchdogExpiry s w h, Device.expire,
    watchdogExpires_running (hdesc.trans hd) ((congrArg Runtime.state hrt).trans hs)]

/-! ## Safe loads after a trip (R56, R80, R81) -/

theorem plannedOf_safe_desc {d : Device} {w : Slot16} {ds : Descriptor} (hd : (d.win w).desc = some ds) :
    d.plannedOf w .safe = ds.safeCount := by simp only [Device.plannedOf, hd]

theorem immediateSafeLoad_joins {d : Device} {w : Slot16} (hi : d.itemOf w = none) : d.immediateSafeLoad w = d.join w .safe := by
  simp only [Device.immediateSafeLoad, hi]

theorem immediateSafeLoad_served {d : Device} {w : Slot16} (hi : (d.itemOf w).map Item.kind = some .safe) :
    d.immediateSafeLoad w = d := by
  obtain ⟨⟨v, k, p⟩, hitem, rfl⟩ := Option.map_eq_some_iff.mp hi
  simp only [Device.immediateSafeLoad, hitem]

theorem immediateSafeLoad_waiting {d : Device} {w : Slot16} (hi : d.itemOf w = some ⟨w, .epoch, none⟩) :
    d.immediateSafeLoad w = d.convertItem w none := by simp only [Device.immediateSafeLoad, hi]

section
variable {d : Device} {w : Slot16} {pr : Progress} {rest : List Item} (hq : d.commitQueue = ⟨w, .epoch, some pr⟩ :: rest)
include hq

theorem immediateSafeLoad_starting (hph : pr.phase = .starting) :
    d.immediateSafeLoad w = d.convertItem w (some { pr with planned := d.plannedOf w .safe }) := by
  simp only [Device.immediateSafeLoad, itemOf_head hq, hph]

theorem immediateSafeLoad_writing (hph : pr.phase = .writing) :
    d.immediateSafeLoad w = d.continueAsSafe w pr (d.plannedOf w .safe) := by
  simp only [Device.immediateSafeLoad, itemOf_head hq, hph]

theorem immediateSafeLoad_status (hph : pr.phase = .status) :
    d.immediateSafeLoad w = d.modRt w fun r => { r with safeAfterItem := true } := by
  simp only [Device.immediateSafeLoad, itemOf_head hq, hph]

end

/-- Entries discarded by a trip are counted (R56). -/
abbrev Runtime.discards (n : Nat) (r : Runtime) : Runtime :=
  { r with counters := { r.counters with discarded := satAdd r.counters.discarded n } }

/-- A window without its draining epoch, whose entries were not being written (R56, R80). -/
def Device.drainCleared (d : Device) (w : Slot16) : Device :=
  { d.modRt w fun r => { Runtime.discards (d.drainList w).length r with drainingEpoch := none } with
    entries := d.entries.filter fun e => !(e.isDraining w) }

theorem discardDraining_modRt {d : Device} {w : Slot16} (h : d.inFlight (.drain w) = false) :
    (d.discardDraining w).modRt w (fun r => { r with drainingEpoch := none }) = d.drainCleared w := by
  rw [discardDraining_all h]
  exact modRt_entries d w _ _ _

theorem convertItem_cleared {d : Device} {w : Slot16} (h : d.inFlight (.drain w) = false) (p : Option Progress) :
    d.convertItem w p = (d.drainCleared w).modItem w fun it => { it with kind := .safe, progress := p } := by
  rw [← discardDraining_modRt h]
  rfl

theorem convertItem_head {d : Device} {w : Slot16} {k : ItemKind} {q : Option Progress} {rest : List Item}
    (hq : d.commitQueue = ⟨w, k, q⟩ :: rest) (hrest : ∀ it ∈ rest, it.window ≠ w) (h : d.inFlight (.drain w) = false)
    (p : Option Progress) : d.convertItem w p = { d.drainCleared w with commitQueue := ⟨w, .safe, p⟩ :: rest } := by
  rw [convertItem_cleared h]
  exact modItem_head (d := d.drainCleared w) _ hq hrest

theorem continueAsSafe_idle {d : Device} {w : Slot16} {k : ItemKind} {pr : Progress} {rest : List Item}
    (hq : d.commitQueue = ⟨w, k, some pr⟩ :: rest) (hrest : ∀ it ∈ rest, it.window ≠ w) (h : d.inFlight (.drain w) = false)
    (n : Nat) : d.continueAsSafe w pr n =
      ({ d.drainCleared w with
        commitQueue := ⟨w, .safe, some { pr with planned := pr.written + n, safeDone := 0 }⟩ :: rest } : Device).checkWritten
        w := by
  rw [← modItem_head (d := d.drainCleared w) (fun it =>
    { it with kind := .safe, progress := some { pr with planned := pr.written + n, safeDone := 0 } }) hq hrest,
    ← discardDraining_modRt h]
  simp only [Device.continueAsSafe, h, Bool.false_eq_true, if_false, Nat.add_zero]
  rfl

theorem continueAsSafe_inFlight {d : Device} {w : Slot16} {k : ItemKind} {pr : Progress} {rest : List Item}
    {before after : List Entry} {e : Entry}
    (hq : d.commitQueue = ⟨w, k, some pr⟩ :: rest) (hrest : ∀ it ∈ rest, it.window ≠ w) (h : d.inFlight (.drain w) = true)
    (hE : d.entries = before ++ e :: after) (he : e.isDraining w = true) (hb : ∀ y ∈ before, y.isDraining w = false)
    (n : Nat) : d.continueAsSafe w pr n =
      { d.modRt w (Runtime.discards (after.filter (·.isDraining w)).length) with
        entries := before ++ e :: after.filter fun y => !(y.isDraining w)
        commitQueue := ⟨w, .safe, some { pr with planned := pr.written + 1 + n, safeDone := 0 }⟩ :: rest } := by
  simp only [Device.continueAsSafe, h, if_true]
  rw [discardDraining_inFlight h hE he hb]
  exact modItem_head (k := k) (p := some pr) _ hq hrest

/-- Settles O33: a trip by its mode and the item that it meets, and the expiries of one moment. -/
theorem watchdogTripsTheWindow : Obligations.WatchdogTripsTheWindow := by
  refine ⟨?waiting, ?running, fun d => ⟨tripExpired_of_none, fun w => tripExpired_of_one, fun w ds => tripExpired_tripped,
    fun w => tripExpired_win⟩⟩
  case waiting =>
    intro s w ds t hdue hd hs tripped becomes
    obtain ⟨hqueue, hentries, -, hmem, -⟩ := reached_stores s.dev t
    have htripped (m : TripMode) (f : Runtime → Runtime) : tripReported (s.dev.reached t) w m f = tripped m f := by
      rw [tripReported, reached_openEpoch]
    have hbecomes {m : TripMode} (hm : ds.tripMode = m) {y : Device} (h : (s.dev.reached t).trip w m = y) : becomes y := by
      subst hm
      exact (exec_watchdogExpiry_running hdue hd hs).trans (next_congr s (congrArg Device.tripExpired h))
    have hitem : (tripReported (s.dev.reached t) w .immediate id).itemOf w = s.dev.itemOf w := reached_itemOf s.dev t w
    refine ⟨fun hm => hbecomes hm ?atEvent, fun hm hi => hbecomes hm ?joins, fun hm hi => hbecomes hm ?served,
      fun hm hi hfly => hbecomes hm ?converted⟩
    case atEvent => rw [trip_atEvent, htripped]
    case joins =>
      rw [trip_immediate, immediateSafeLoad_joins (hitem.trans hi), ← htripped, ← hqueue]
      rfl
    case served =>
      rw [trip_immediate, immediateSafeLoad_served ((congrArg (Option.map Item.kind) hitem).trans hi), htripped]
    case converted =>
      have hfly' : (tripReported (s.dev.reached t) w .immediate id).inFlight (.drain w) = false := by
        rw [← hfly, Device.inFlight, Device.inFlight, ← hmem]
        rfl
      have hlist : (tripReported (s.dev.reached t) w .immediate id).drainList w = s.dev.drainList w :=
        congrArg (List.filter _) hentries
      have hkept : (tripReported (s.dev.reached t) w .immediate id).entries = s.dev.entries := hentries
      have hconverted : (fun it : Item => if it.window = w then ({ it with kind := .safe, progress := none } : Item) else it) =
          fun it => if it.window = w then ⟨w, .safe, none⟩ else it := by
        funext it
        by_cases h : it.window = w <;> simp [h]
      rw [trip_immediate, immediateSafeLoad_waiting (hitem.trans hi), convertItem_cleared hfly', Device.drainCleared, hlist,
        hkept, tripReported_modRt, htripped, Device.modItem, hconverted]
      refine congrArg (fun q => ({ tripped .immediate (fun r =>
        { r with
          drainingEpoch := none
          counters := { r.counters with discarded := satAdd r.counters.discarded (s.dev.drainList w).length } }) with
        entries := s.dev.entries.filter fun e => !(e.isDraining w), commitQueue := q } : Device)) ?_
      exact congrArg (List.map _) hqueue
  case running =>
    intro s w ds t pr rest hdue hd hs hm hq hrest tripped discards safe becomes cleared
    obtain ⟨hqueue, hentries, -, hmem, -⟩ := reached_stores s.dev t
    have htripped (f : Runtime → Runtime) : tripReported (s.dev.reached t) w .immediate f = tripped f := by
      rw [tripReported, reached_openEpoch]
    have hbecomes {y : Device} (h : (tripReported (s.dev.reached t) w .immediate id).immediateSafeLoad w = y) : becomes y :=
      (exec_watchdogExpiry_running hdue hd hs).trans
        (next_congr s (congrArg Device.tripExpired ((congrArg _ hm).trans h)))
    have hq' : (tripReported (s.dev.reached t) w .immediate id).commitQueue = ⟨w, .epoch, some pr⟩ :: rest := hqueue.trans hq
    have hfly (b : Bool) (h : s.dev.inFlight (.drain w) = b) :
        (tripReported (s.dev.reached t) w .immediate id).inFlight (.drain w) = b := by
      rw [← h, Device.inFlight, Device.inFlight, ← hmem]
      rfl
    have hcount : (tripReported (s.dev.reached t) w .immediate id).plannedOf w .safe = ds.safeCount :=
      plannedOf_safe_desc ((desc_tripReported _ w w _ _).trans ((reached_rt s.dev t w).1.trans hd))
    have hcleared : (tripReported (s.dev.reached t) w .immediate id).drainCleared w = cleared := by
      have hlist : (tripReported (s.dev.reached t) w .immediate id).drainList w = s.dev.drainList w :=
        congrArg (List.filter _) hentries
      have hkept : (tripReported (s.dev.reached t) w .immediate id).entries = s.dev.entries := hentries
      rw [Device.drainCleared, hlist, hkept, tripReported_modRt, htripped]
      rfl
    refine ⟨fun hph hnone => hbecomes ?starting, fun hph hnone hsome => hbecomes ?writing, fun hph hnone hzero => hbecomes ?empty,
      fun before e after hph hin hE he hb => hbecomes ?inFlight, fun hph => hbecomes ?status⟩
    case starting =>
      rw [immediateSafeLoad_starting hq' hph, convertItem_head hq' hrest (hfly _ hnone), hcount, hcleared]
    case writing =>
      rw [immediateSafeLoad_writing hq' hph, continueAsSafe_idle hq' hrest (hfly _ hnone), hcount, hcleared]
      exact checkWritten_more (k := .safe) (pr := { pr with planned := pr.written + ds.safeCount, safeDone := 0 }) rfl
        (by simpa using hsome)
    case empty =>
      rw [immediateSafeLoad_writing hq' hph, continueAsSafe_idle hq' hrest (hfly _ hnone), hcount, hcleared, hzero]
      exact checkWritten_last hrest hph rfl
    case inFlight =>
      rw [immediateSafeLoad_writing hq' hph,
        continueAsSafe_inFlight hq' hrest (hfly _ hin) (hentries.trans hE) he hb, hcount, tripReported_modRt, htripped]
      rfl
    case status =>
      rw [immediateSafeLoad_status hq' hph, tripReported_modRt, htripped]
      rfl

/-! ## Pulses (R90 to R96) -/

theorem foldl_min_eq {l : List Nat} {n t : Nat} (hn : t ≤ n) (hl : ∀ y ∈ l, t ≤ y) (h : t = n ∨ t ∈ l) : l.foldl min n = t := by
  induction l generalizing n with
  | nil => exact (h.resolve_right List.not_mem_nil).symm
  | cons x l ih =>
    have hx : t ≤ x := hl x List.mem_cons_self
    refine ih (Nat.le_min.mpr ⟨hn, hx⟩) (fun y hy => hl y (List.mem_cons_of_mem _ hy)) ?_
    obtain rfl | h := h
    · exact .inl (Nat.min_eq_left hx).symm
    · obtain rfl | h := List.mem_cons.mp h
      · exact .inl (Nat.min_eq_right hn).symm
      · exact .inr h

/-- Time runs up to the first thing that is due (log 5). -/
theorem elapseUpTo_eq_reached {d : Device} {n t : Nat} (hn : t ≤ n) (hl : ∀ y ∈ d.dueTimes, t ≤ y)
    (h : t = n ∨ t ∈ d.dueTimes) : d.elapseUpTo n = d.reached t := by
  rw [Device.elapseUpTo, foldl_min_eq hn hl h]
  rfl

theorem reached_startup_state (d : Device) (t : Nat) : (d.reached t).startup.state = d.startup.state := by
  unfold Device.reached
  split <;> rfl

section
variable {d : Device} {x : Strobe} {e : Nat}

/-- A pulse that neither completes an acquisition nor is delivered changes its monitor alone. -/
theorem pulse_quiet {m : Monitor} (hm : (d.monitors.get x).pulse (d.period x) d.clock.perUs = m)
    (hc : (d.monitors.get x).completes (d.period x) d.clock.perUs = false)
    (hdel : (d.monitors.get x).delivers (d.period x) d.clock.perUs = false) : d.pulse x = d.setMonitor x m := by
  simp only [Device.pulse, hm, hc, hdel, Bool.false_eq_true, if_false]

theorem pulse_starts (hs : (d.monitors.get x).state = .absent ∨ (d.monitors.get x).state = .lost) :
    d.pulse x = d.setMonitor x { d.monitors.get x with state := .acquiring, count := 1, since := some 0 } := by
  refine pulse_quiet ?_ ?_ ?_ <;> obtain hs | hs := hs <;>
    simp [Monitor.pulse, Monitor.start, Monitor.completes, Monitor.delivers, hs]

theorem pulse_restarts (hs : (d.monitors.get x).state = .acquiring) (he : (d.monitors.get x).since = some e)
    (hb : inBand e (d.period x) d.clock.perUs = false) :
    d.pulse x = d.setMonitor x { d.monitors.get x with state := .acquiring, count := 1, since := some 0 } := by
  refine pulse_quiet ?_ ?_ ?_ <;> simp [Monitor.pulse, Monitor.start, Monitor.completes, Monitor.delivers, hs, he, hb]

theorem pulse_counts (hs : (d.monitors.get x).state = .acquiring) (he : (d.monitors.get x).since = some e)
    (hb : inBand e (d.period x) d.clock.perUs = true) (hc : (d.monitors.get x).count = 1) :
    d.pulse x = d.setMonitor x { d.monitors.get x with count := 2, since := some 0 } := by
  refine pulse_quiet ?_ ?_ ?_ <;> simp [Monitor.pulse, Monitor.acquire, Monitor.completes, Monitor.delivers, hs, he, hb, hc]

theorem pulse_completes (hs : (d.monitors.get x).state = .acquiring) (he : (d.monitors.get x).since = some e)
    (hb : inBand e (d.period x) d.clock.perUs = true) (hc : (d.monitors.get x).count = 2) :
    d.pulse x = (d.setMonitor x { d.monitors.get x with state := .present, count := 3, since := some 0 }).refreshSource
      (strobeSource x) := by
  have hm : (d.monitors.get x).pulse (d.period x) d.clock.perUs =
      { d.monitors.get x with state := .present, count := 3, since := some 0 } := by
    simp [Monitor.pulse, Monitor.acquire, hs, he, hb, hc]
  have hcompletes : (d.monitors.get x).completes (d.period x) d.clock.perUs = true := by
    simp [Monitor.completes, hm, hs]
  simp only [Device.pulse, hm, hcompletes, if_true]

theorem pulse_glitches (hs : (d.monitors.get x).state = .present) (he : (d.monitors.get x).since = some e)
    (hb : inBand e (d.period x) d.clock.perUs = false) :
    d.pulse x = d.setMonitor x { d.monitors.get x with glitches := satInc (d.monitors.get x).glitches } := by
  refine pulse_quiet ?_ ?_ ?_ <;> simp [Monitor.pulse, Monitor.completes, Monitor.delivers, hs, he, hb]

theorem pulse_delivers (hs : (d.monitors.get x).state = .present) (he : (d.monitors.get x).since = some e)
    (hb : inBand e (d.period x) d.clock.perUs = true) :
    d.pulse x = (d.setMonitor x { d.monitors.get x with since := some 0 }).deliver (strobeSource x) := by
  have hm : (d.monitors.get x).pulse (d.period x) d.clock.perUs = { d.monitors.get x with since := some 0 } := by
    simp [Monitor.pulse, hs, he, hb]
  have hcompletes : (d.monitors.get x).completes (d.period x) d.clock.perUs = false := by simp [Monitor.completes, hs]
  have hdelivers : (d.monitors.get x).delivers (d.period x) d.clock.perUs = true := by simp [Monitor.delivers, hs, he, hb]
  simp only [Device.pulse, hm, hcompletes, hdelivers, Bool.false_eq_true, if_false, if_true]

end

/-- Settles O34: `pulse` by the state of the monitor and the band of its interval. -/
theorem pulseIsTakenByItsMonitor : Obligations.PulseIsTakenByItsMonitor := by
  intro s x after t hs hle hmin ht d m band becomes started
  have hbecomes {y : Device} (h : (if d.startup.state = .ready then d.pulse x else d) = y) : becomes y := by
    refine (exec_strobePulse s x after hs).trans (next_congr s ?_)
    rw [Device.strobe, elapseUpTo_eq_reached hle hmin ht, ← h]
  have hstate : d.startup.state = s.dev.startup.state := reached_startup_state s.dev t
  refine ⟨fun hready => hbecomes (if_neg (hstate.symm ▸ hready)), fun hready => ?_⟩
  have hpulse {y : Device} (h : d.pulse x = y) : becomes y := hbecomes ((if_pos (hstate.trans hready)).trans h)
  have hout (e : Nat) (h : 4 * e < 3 * band ∨ 5 * band < 4 * e) : inBand e (d.period x) d.clock.perUs = false := inBand_false h
  have hin (e : Nat) (hlow : 3 * band ≤ 4 * e) (hhigh : 4 * e ≤ 5 * band) : inBand e (d.period x) d.clock.perUs = true :=
    (inBand_iff e _ _).mpr ⟨hlow, hhigh⟩
  exact ⟨fun hm => hpulse (pulse_starts hm), fun e hm he h => hpulse (pulse_restarts hm he (hout e h)),
    fun e hm he hlow hhigh hc => hpulse (pulse_counts hm he (hin e hlow hhigh) hc),
    fun e hm he hlow hhigh hc => hpulse (pulse_completes hm he (hin e hlow hhigh) hc),
    fun e hm he h => hpulse (pulse_glitches hm he (hout e h)),
    fun e hm he hlow hhigh => hpulse (pulse_delivers hm he (hin e hlow hhigh))⟩

/-! ## Timeouts and the local cycle timer (R92, R95, R98) -/

theorem acquiring_of_timeLeft {d : Device} {x : Strobe} {t : Nat} (h : d.timeLeft (.acquisition x) = some t) :
    (d.monitors.get x).state = .acquiring := by
  by_contra hs
  rw [Device.timeLeft, if_neg hs] at h
  cases h

theorem present_of_timeLeft {d : Device} {x : Strobe} {t : Nat} (h : d.timeLeft (.sync x) = some t) :
    (d.monitors.get x).state = .present := by
  by_contra hs
  rw [Device.timeLeft, if_neg hs] at h
  cases h

/-- Settles O35: a timer that runs tells the state of its monitor. -/
theorem monitorTimesOut : Obligations.MonitorTimesOut := by
  intro s x t d m
  refine ⟨fun hdue => ?acquiring, fun hdue => ?present⟩
  case acquiring =>
    rw [exec_acquisitionTimeout s x hdue]
    exact next_congr s (congrArg Device.tripExpired
      (if_pos ((reached_monitor s.dev t x).trans (acquiring_of_timeLeft hdue.2.1))))
  case present =>
    rw [exec_syncLost s x hdue]
    exact next_congr s (congrArg Device.tripExpired
      (if_pos ((reached_monitor s.dev t x).trans (present_of_timeLeft hdue.2.1))))

/-- Settles O36: the new period begins, and the windows that receive the expiry are those of the moment. -/
theorem lctExpiryIsDelivered : Obligations.LctExpiryIsDelivered := by
  intro s t hdue hrun d p
  obtain ⟨hrunning, hperiod, hnext⟩ := reached_lct s.dev t
  rw [exec_lctExpiry s hdue]
  refine next_congr s (congrArg Device.tripExpired ((if_pos (hrunning.trans hrun)).trans ?_))
  rw [Lct.begin_eq, hperiod, hnext]
  rfl

end Sys2Proof.Machine

/-! SUPPORT. The fault unit's commands and log (R163 to R171) and the bytes of the reading commands (R177, R178, R140). -/

namespace Sys2Proof.Machine

/-! ## Levels under a mask (R165) -/

/-- A level that fits two bits is its own low two bits. -/
theorem extract_level {v : Byte} (h : v.toNat ≤ 3) : v.extractLsb' 0 2 = v.setWidth 2 ∧ (v.setWidth 2).toNat = v.toNat := by
  refine ⟨BitVec.eq_of_toNat_eq ?_, ?_⟩
  · simp
  · rw [BitVec.toNat_setWidth]
    omega

/-- SET_LEVEL gives the level to the flags named, and leaves the others' (R165). -/
theorem level_setLevels (u : FaultUnit) (mask : BitVec 40) (l : BitVec 2) {p : Nat} (hp : p < 40) :
    (u.setLevels mask l).level p = if mask.getLsbD p then l else u.level p := by
  apply BitVec.eq_of_getLsbD_eq
  intro i hi
  have hlt : 2 * p + i < 80 := by omega
  have hhalf : (2 * p + i) / 2 = p := by omega
  have hmod : (2 * p + i) % 2 = i := by omega
  have hone : i ≤ 1 := by omega
  simp only [FaultUnit.level, FaultUnit.setLevels, BitVec.getLsbD_extractLsb', BitVec.getLsbD_or, BitVec.getLsbD_and,
    BitVec.getLsbD_not, BitVec.getLsbD_replicate, doubled_getLsbD mask 40 (Nat.le_refl _) _ hlt, hhalf, hmod, hi, hlt, hp,
    decide_true, Bool.true_and]
  cases mask.getLsbD p <;> simp [hone]

/-- SET_ENABLE gives the value to the flags named (R165). -/
theorem enables_setEnables (u : FaultUnit) (mask : BitVec 40) (value : Bool) {p : Nat} (hp : p < 40) :
    (u.setEnables mask value).enables.getLsbD p = if mask.getLsbD p then value else u.enables.getLsbD p := by
  cases value with
  | false =>
    simp only [FaultUnit.setEnables, Bool.false_eq_true, if_false, BitVec.getLsbD_and, BitVec.getLsbD_not, hp, decide_true,
      Bool.true_and]
    cases mask.getLsbD p <;> simp
  | true =>
    simp only [FaultUnit.setEnables, if_true, BitVec.getLsbD_or]
    cases mask.getLsbD p <;> simp

theorem flags_clear (u : FaultUnit) (mask : BitVec 40) {p : Nat} (hp : p < 40) :
    (u.clear mask).flags.getLsbD p = (u.flags.getLsbD p && !mask.getLsbD p) := by
  simp [FaultUnit.clear, hp]

/-- Settles O39: the range of an argument is `requireArg`'s, and a flag's bits under the mask are those of `flags_clear`,
`enables_setEnables` and `level_setLevels`. -/
theorem flagCommandsChangeTheNamedFlags : Obligations.FlagCommandsChangeTheNamedFlags := by
  intro s mask v hs u sets refused
  have henable := exec_setEnable s mask v hs
  have hlevel := exec_setLevel s mask v hs
  have hthreshold := exec_setThreshold s v hs
  beta_reduce at henable hlevel hthreshold
  refine ⟨⟨_, exec_clearFlags s mask hs, fun p hp => flags_clear u mask hp⟩, ?enable, ?enableRefused, ?level, ?levelRefused,
    ?threshold, ?thresholdRefused⟩
  case enable =>
    intro hv
    rw [within_eq_true (Nat.zero_le _) hv, requireArg_true, done_nil] at henable
    exact ⟨_, henable, fun p hp => enables_setEnables u mask (v == 1) hp⟩
  case enableRefused =>
    intro hv
    rw [henable, within_eq_false (.inr hv), requireArg_false]
  case level =>
    intro hv
    obtain ⟨hextract, hval⟩ := extract_level hv
    rw [within_eq_true (Nat.zero_le _) hv, requireArg_true, done_nil, hextract] at hlevel
    refine ⟨_, hlevel, fun p hp => ?_⟩
    have := congrArg BitVec.toNat (level_setLevels u mask (v.setWidth 2) hp)
    rw [apply_ite BitVec.toNat, hval] at this
    exact this
  case levelRefused =>
    intro hv
    rw [hlevel, within_eq_false (.inr hv), requireArg_false]
  case threshold =>
    intro hv
    rw [hthreshold, within_eq_true (Nat.zero_le _) hv, requireArg_true, done_nil, (extract_level hv).1]
  case thresholdRefused =>
    intro hv
    rw [hthreshold, within_eq_false (.inr hv), requireArg_false]

/-! ## The log (R169 to R171) -/

theorem twoPow_logFull : BitVec.twoPow 40 Flag.logFull.position = 1#40 <<< 38 := by decide

theorem satInc_eq (c : Count) : satInc c = if c = 65535 then 65535 else c + 1 := by
  by_cases h : c = 65535#16
  · exact (if_pos h).trans (h.trans (if_pos h).symm)
  · exact (if_neg h).trans (if_neg h).symm

/-- Settles O41: the two branches of `FaultUnit.offer`. -/
theorem logStoresOrOverflows : Obligations.LogStoresOrOverflows := by
  intro d r u
  refine ⟨fun hroom => ?_, fun hfull => ?_⟩
  · rw [Device.offer, FaultUnit.offer, if_pos hroom]
    rfl
  · rw [Device.offer, FaultUnit.offer, if_neg (Nat.not_lt.mpr hfull), FaultUnit.set, twoPow_logFull, satInc_eq]

/-- A field of a list of bytes, by its position and length. -/
theorem take_drop_of_eq_append {α : Type} {l pre part post : List α} {k n : Nat} (h : l = pre ++ (part ++ post))
    (hk : pre.length = k) (hn : part.length = n) : (l.drop k).take n = part := by
  subst hk hn
  rw [h, List.drop_left, List.take_left]

theorem getElem?_of_eq_append {α : Type} {l pre post : List α} {x : α} {k : Nat} (h : l = pre ++ (x :: post))
    (hk : pre.length = k) : l[k]? = some x := by
  subst hk
  rw [h, List.getElem?_append_right (Nat.le_refl _), Nat.sub_self, List.getElem?_cons_zero]

/-- Bytes 0..7 of a record: the presence byte, the sequence number, the time and the kind. -/
def FaultRecord.headBytes (x : FaultRecord) : List Byte :=
  x.report.presence :: (beBytes 2 x.sequence.toNat ++ beBytes 4 x.time.toNat ++ [x.report.kind.code])

theorem headBytes_length (x : FaultRecord) : x.headBytes.length = 8 := by
  simp [FaultRecord.headBytes, beBytes_length]

/-- The five optional fields of a record as bytes. -/
def Report.detailField (r : Report) (free : Nat → Byte) : List Byte := optionalBytes free 8 5 (r.detail.map (Detail.bytes free))
def Report.windowField (r : Report) (free : Nat → Byte) : List Byte :=
  optionalBytes free 13 1 (r.window.map fun w => [BitVec.ofNat 8 w.val])
def Report.portField (r : Report) (free : Nat → Byte) : List Byte := optionalBytes free 14 1 (r.port.map fun p => [portByte p])
def Report.addressField (r : Report) (free : Nat → Byte) : List Byte := optionalBytes free 15 3 (r.address.map (beBytes 3))
def Report.epochField (r : Report) (free : Nat → Byte) : List Byte :=
  optionalBytes free 18 4 (r.epoch.map fun e => beBytes 4 e.toNat)

section
variable (r : Report) (free : Nat → Byte)

/-- An optional field has one length, present or absent. -/
theorem optionalBytes_map_length {α : Type} (pos n : Nat) (o : Option α) {f : α → List Byte} (hf : ∀ a, (f a).length = n) :
    (optionalBytes free pos n (o.map f)).length = n := by
  refine optionalBytes_length free pos n _ fun l hl => ?_
  obtain ⟨a, -, rfl⟩ := Option.map_eq_some_iff.mp hl
  exact hf a

theorem detailField_length : (r.detailField free).length = 5 :=
  optionalBytes_map_length free 8 5 r.detail (detailBytes_length free)
theorem windowField_length : (r.windowField free).length = 1 := optionalBytes_map_length free 13 1 r.window fun _ => rfl
theorem portField_length : (r.portField free).length = 1 := optionalBytes_map_length free 14 1 r.port fun _ => rfl
theorem addressField_length : (r.addressField free).length = 3 :=
  optionalBytes_map_length free 15 3 r.address fun a => beBytes_length 3 a
theorem epochField_length : (r.epochField free).length = 4 :=
  optionalBytes_map_length free 18 4 r.epoch fun e => beBytes_length 4 e.toNat
end

section
variable (x : FaultRecord) (n : Nat) (free : Nat → Byte)

theorem recordBytes_eq : x.bytes n free = x.headBytes ++ x.report.detailField free ++ x.report.windowField free ++
    x.report.portField free ++ x.report.addressField free ++ x.report.epochField free ++ [BitVec.ofNat 8 n] := by
  simp only [FaultRecord.bytes, FaultRecord.headBytes, Report.detailField, Report.windowField, Report.portField,
    Report.addressField, Report.epochField, List.append_assoc, List.cons_append]

/-- The fields of a record stand at the positions of the layout table (R171). -/
theorem recordBytes_fields :
    (x.bytes n free).length = 23 ∧
    (x.bytes n free).take 8 = x.headBytes ∧
    ((x.bytes n free).drop 8).take 5 = x.report.detailField free ∧
    ((x.bytes n free).drop 13).take 1 = x.report.windowField free ∧
    ((x.bytes n free).drop 14).take 1 = x.report.portField free ∧
    ((x.bytes n free).drop 15).take 3 = x.report.addressField free ∧
    ((x.bytes n free).drop 18).take 4 = x.report.epochField free ∧
    (x.bytes n free)[22]? = some (BitVec.ofNat 8 n) := by
  have hhead := headBytes_length x
  have hdetail := detailField_length x.report free
  have hwindow := windowField_length x.report free
  have hport := portField_length x.report free
  have haddress := addressField_length x.report free
  have hepoch := epochField_length x.report free
  rw [recordBytes_eq]
  refine ⟨?length, ?head, ?detail, ?window, ?port, ?address, ?epoch, ?remaining⟩
  case length => simp only [List.length_append, List.length_singleton, hhead, hdetail, hwindow, hport, haddress, hepoch]
  case head => exact take_drop_of_eq_append (pre := []) (by simp only [List.append_assoc, List.nil_append]; rfl) rfl hhead
  case detail => exact take_drop_of_eq_append (by simp only [List.append_assoc]; rfl) hhead hdetail
  case window =>
    exact take_drop_of_eq_append (pre := x.headBytes ++ x.report.detailField free) (by simp only [List.append_assoc]; rfl)
      (by simp only [List.length_append, hhead, hdetail]) hwindow
  case port =>
    exact take_drop_of_eq_append (pre := x.headBytes ++ x.report.detailField free ++ x.report.windowField free)
      (by simp only [List.append_assoc]; rfl) (by simp only [List.length_append, hhead, hdetail, hwindow]) hport
  case address =>
    exact take_drop_of_eq_append
      (pre := x.headBytes ++ x.report.detailField free ++ x.report.windowField free ++ x.report.portField free)
      (by simp only [List.append_assoc]; rfl) (by simp only [List.length_append, hhead, hdetail, hwindow, hport]) haddress
  case epoch =>
    exact take_drop_of_eq_append (pre := x.headBytes ++ x.report.detailField free ++ x.report.windowField free ++
        x.report.portField free ++ x.report.addressField free)
      (by simp only [List.append_assoc]; rfl) (by simp only [List.length_append, hhead, hdetail, hwindow, hport, haddress]) hepoch
  case remaining =>
    exact getElem?_of_eq_append rfl
      (by simp only [List.length_append, hhead, hdetail, hwindow, hport, haddress, hepoch])

end

/-- The byte at a position is the first of the field that begins there. -/
theorem getElem?_of_take_drop {α : Type} {l rest : List α} {a : α} {k n : Nat} (h : (l.drop k).take (n + 1) = a :: rest) :
    l[k]? = some a := by
  have := congrArg (·[0]?) h
  rwa [List.getElem?_take, if_pos (Nat.succ_pos n), List.getElem?_drop] at this

theorem detailField_some {r : Report} {y : Detail} (h : r.detail = some y) (free : Nat → Byte) :
    r.detailField free = Detail.bytes free y := by
  rw [Report.detailField, h]
  rfl

/-- A list of details whose codes run from 0 gives each its place as code. -/
theorem code_of_getElem? {α : Type} (f : α → Detail) {xs : List α}
    (h : xs.map (fun x => (f x).code.toNat) = List.range xs.length) {n : Nat} {x : α} (hx : xs[n]? = some x) :
    (f x).code.toNat = n := by
  obtain ⟨hn, rfl⟩ := List.getElem?_eq_some_iff.mp hx
  have := congrArg (·[n]?) h
  simpa [hn] using this

theorem summary_bits : ∀ lost ≤ 4, ∀ item ∈ [none, some ItemKind.epoch, some ItemKind.safe], ∀ answered : Bool,
    let b := (summaryKindCode item ||| bitByte answered 2 ||| (BitVec.ofNat 8 lost <<< 4)).toNat
    b % 4 = (summaryKindCode item).toNat ∧ b / 4 % 2 = (if answered then 1 else 0) ∧ b / 16 % 8 = lost := by
  decide

/-- The fields of byte 8 of a LINK_RESET record do not overlap. -/
theorem summary_code (y : LinkResetSummary) (h : y.postedLost ≤ 4) :
    let b := (Detail.linkReset y).code.toNat
    b % 4 = (summaryKindCode y.item).toNat ∧ b / 4 % 2 = (if y.answered then 1 else 0) ∧ b / 16 % 8 = y.postedLost := by
  refine summary_bits y.postedLost h y.item ?_ y.answered
  rcases y.item with - | - | - <;> simp

/-- Settles O42: the fields of `recordBytes_fields`; the codes are those of the model's tables. -/
theorem readLogReturnsTheOldest : Obligations.ReadLogReturnsTheOldest := by
  refine ⟨fun s hs => ?log, rfl, ?codes, ?summary, rfl, rfl⟩
  case log =>
    have hexec := exec_readLog s hs
    refine ⟨fun hempty => hexec.trans (next_congr s ?_), fun x rest hx => ?_⟩
    · rw [Device.takeOldest, hempty]
      rfl
    obtain ⟨hlength, hhead, hdetail, hwindow, hport, haddress, hepoch, hremaining⟩ :=
      recordBytes_fields x rest.length (Config.absentByte s.dev.freeIndex)
    refine ⟨x.bytes rest.length (Config.absentByte s.dev.freeIndex), s.dev.freeIndex + 1, ?taken, hlength, hhead, ?detail,
      ?linkReset, ?window, ?port, ?address, ?epoch, hremaining⟩
    case taken =>
      refine hexec.trans (next_congr s ?_)
      rw [Device.takeOldest, hx]
      rfl
    case detail =>
      intro y hy
      obtain ⟨l, hl⟩ := detailBytes_head (Config.absentByte s.dev.freeIndex) y
      exact getElem?_of_take_drop (hdetail.trans ((detailField_some hy _).trans hl))
    case linkReset =>
      intro y hy
      have := congrArg (List.drop 1) (hdetail.trans (detailField_some hy _))
      rw [List.drop_take, List.drop_drop] at this
      exact this
    case window =>
      intro w hw
      rw [Report.windowField, hw] at hwindow
      exact getElem?_of_take_drop hwindow
    case port =>
      intro p hp
      rw [Report.portField, hp] at hport
      exact getElem?_of_take_drop hport
    case address =>
      intro a ha
      rw [Report.addressField, ha] at haddress
      exact haddress
    case epoch =>
      intro e he
      rw [Report.epochField, he] at hepoch
      exact hepoch
  case codes =>
    intro n codes
    have hcodes : ∀ {α : Type} (f : α → Detail) (xs : List α),
        xs.map (fun x => (f x).code.toNat) = List.range xs.length → codes f xs :=
      fun f xs h x hx => code_of_getElem? f h hx
    exact ⟨hcodes _ _ rfl, hcodes _ _ rfl, hcodes _ _ rfl, hcodes _ _ rfl, hcodes _ _ rfl, hcodes _ _ rfl, hcodes _ _ rfl,
      hcodes _ _ rfl, hcodes _ _ rfl⟩
  case summary =>
    intro y hy
    obtain ⟨hkind, hanswered, hlost⟩ := summary_code y hy
    refine ⟨hkind.trans ?_, hanswered, hlost⟩
    rcases y.item with - | - | - <;> rfl

/-! ## The reading commands (R107, R140, R165, R177, R178, R180) -/

theorem statusBytes_length (d : Device) : d.statusBytes.length = 15 := by
  simp [Device.statusBytes, beBytes_length]

theorem flagBytes_length (u : FaultUnit) : u.flagBytes.length = 22 := by
  simp [FaultUnit.flagBytes, beBytes_length]

theorem monitorBytes_length (d : Device) (x : Strobe) : (d.monitorBytes x).length = 12 := by
  simp [Device.monitorBytes, beBytes_length]

theorem sourceBytes_length (d : Device) : d.sourceBytes.length = 58 := by
  simp [Device.sourceBytes, Lct.bytes, monitorBytes_length, beBytes_length]

theorem portBytes_length (d : Device) (p : Port) : (d.portBytes p).length = 17 := by
  simp [Device.portBytes, beBytes_length]

theorem portsBytes_length (d : Device) : d.portsBytes.length = 35 := by
  simp [Device.portsBytes, portBytes_length]

theorem causeBytes_length (c : ResetCause) : c.bytes.length = 7 := by
  obtain ⟨x, - | i, n⟩ := c <;> simp [ResetCause.bytes, beBytes_length]

theorem itemBytes_length (i : Option Item) : (itemBytes i).length = 6 := by
  rcases i with - | ⟨w, k, - | pr⟩ <;> simp [itemBytes, beBytes_length]

theorem windowBytes_length (d : Device) (w : Slot16) (h : ∀ ds, (d.win w).desc = some ds → ds.words.length = 8) :
    (d.windowBytes w).length = 75 := by
  rw [Device.windowBytes]
  split
  · rfl
  case h_2 ds hd =>
    simp [beBytes_length, WindowCounters.bytes, itemBytes_length, -List.length_flatMap, wordsBytes_length, h ds hd]

/-- Byte i of a number written in n bytes, the most significant first. -/
theorem beBytes_getElem? (n x : Nat) {i : Nat} (hi : i < n) :
    (beBytes n x)[i]? = some (BitVec.ofNat 8 (x / 256 ^ (n - 1 - i))) := by
  induction n generalizing i with
  | zero => exact absurd hi (Nat.not_lt_zero i)
  | succ n ih =>
    cases i with
    | zero =>
      rw [beBytes, List.getElem?_cons_zero, Nat.shiftRight_eq_div_pow, Nat.pow_mul]
      rfl
    | succ i =>
      rw [beBytes, List.getElem?_cons_succ, ih (by omega), show n + 1 - 1 - (i + 1) = n - 1 - i by omega]

/-- A field that reads all ones while it is absent. -/
theorem beBytes_three_getD (o : Option Nat) :
    beBytes 3 (o.getD 0xFFFFFF) = (match o with | none => [0xFF, 0xFF, 0xFF] | some t => beBytes 3 t) := by
  cases o <;> rfl

theorem beBytes_two_getD (o : Option Nat) :
    beBytes 2 (o.getD 0xFFFF) = (match o with | none => [0xFF, 0xFF] | some t => beBytes 2 t) := by
  cases o <;> rfl

theorem beBytes_three_watchdog (o : Option Nat) :
    beBytes 3 (o.getD 0) = (match o with | none => [0, 0, 0] | some t => beBytes 3 t) := by
  cases o <;> rfl

theorem itemBytes_eq (i : Option Item) : itemBytes i = (match i with
    | none => [0, 0, 0, 0, 0, 0]
    | some ⟨v, k, none⟩ => [itemByte v k false, 0, 0, 0, 0, 0]
    | some ⟨v, k, some pr⟩ =>
      [itemByte v k true, pr.phase.code ||| bitByte pr.writeError 7] ++ beBytes 2 pr.planned ++ beBytes 2 pr.written) := by
  rcases i with - | ⟨v, k, - | pr⟩ <;> rfl

/-- Settles O43: the lengths are those of the fields, and each block's bytes are the model's by definition, but for the fields that an
absent value fills. -/
theorem readsChangeOnlyTheAnswer : Obligations.ReadsChangeOnlyTheAnswer := by
  refine ⟨?commands, ?bytes, rfl, rfl, rfl, rfl, rfl, rfl, rfl, rfl, fun _ => rfl, rfl, ?locks, ?booleans, ?bits,
    fun n x => ⟨beBytes_length n x, fun i hi => beBytes_getElem? n x hi⟩⟩
  case commands =>
    intro s hs hp answers running
    refine ⟨⟨exec_readId s hs hp, rfl⟩, ⟨exec_readStatus s hs hp, statusBytes_length s.dev⟩, fun hready => ?_⟩
    have hserving : Serving s.dev := ⟨hs, hready, hp⟩
    refine ⟨⟨exec_readFlags s hserving, flagBytes_length _⟩, ⟨exec_readSources s hserving, sourceBytes_length _⟩,
      ⟨exec_readPorts s hserving, portsBytes_length _⟩, ⟨exec_readResetCause s hserving, causeBytes_length _⟩, ?window, ?empty,
      ?refused⟩
    case window =>
      intro index w hw hwords
      refine ⟨(exec_readWindow s index hserving).trans (next_congr s ?_), windowBytes_length s.dev w hwords⟩
      rw [slotOfByte_val hw]
      rfl
    case empty =>
      intro index w _ hd
      rw [Device.windowBytes, hd]
      rfl
    case refused =>
      intro index h
      refine (exec_readWindow s index hserving).trans (next_congr s ?_)
      rw [slotOfByte_none h]
      rfl
  case bytes =>
    intro d outputs monitor port item
    have hmonitor (x : Strobe) : d.monitorBytes x = monitor x := by
      unfold Device.monitorBytes
      cases h : (d.monitors.get x).since <;> simp only [monitor, h] <;> rfl
    have hport (p : Port) : d.portBytes p = port p := by
      simp only [Device.portBytes, beBytes_two_getD] <;> rfl
    refine ⟨rfl, ?sources, ?ports, fun _ _ => rfl, fun _ _ _ _ _ _ => rfl, ?window⟩
    case sources =>
      simp only [Device.sourceBytes, hmonitor, Lct.bytes, beBytes_three_getD] <;> rfl
    case ports => simp only [Device.portsBytes, hport]
    case window =>
      intro w ds hd r c
      rw [Device.windowBytes, hd]
      simp only [List.flatMap_def, beBytes_three_watchdog, itemBytes_eq] <;> rfl
  case locks =>
    intro k a n rem kind
    have hkind : k.bit = kind := by cases k <;> rfl
    have hsum (i : Byte) (hi : i = 1 ∨ i = 2 ∨ i = 3) : i ||| k.bit = i + kind := by
      rw [hkind]
      rcases hi with rfl | rfl | rfl <;> cases k <;> simp only [kind] <;> decide
    exact ⟨rfl, hsum 1 (.inl rfl), hsum 2 (.inr (.inl rfl)), hsum 3 (.inr (.inr rfl)), rfl⟩
  case booleans => decide
  case bits => decide

end Sys2Proof.Machine

/-! SUPPORT. The window commands (R9 to R16, R86, R178) and the management frames (R174 to R176). -/

namespace Sys2Proof.Machine

/-! ## Windows by command -/

theorem rearm_eq {d : Device} {w : Slot16} {ds : Descriptor} (hd : (d.win w).desc = some ds) :
    d.rearm w = d.modRt w fun r =>
      { r with state := .running, safeLoadPending := false, watchdog := ds.watchdogPeriod.map (· * 10) } := by
  rw [Device.rearm, restartWatchdog_eq ((Device.desc_modRt d w w _).trans hd), Device.modRt_modRt]

theorem enableWindow_eq {d : Device} {w : Slot16} {ds : Descriptor} (hd : (d.win w).desc = some ds) :
    d.enableWindow w ds = d.modRt w fun r =>
      { r.enterRunning ds with effective := tableSource d.monitors r.selected ds.fallback } := by
  rw [Device.enableWindow, refreshWindow_modRt d w _ ds hd]
  simp only [Keeps.effective_eq]
  rfl

/-- A command on a defined window that is for one state is refused in the others (step 5 of R176). -/
theorem requireState_state (d : Device) (w : Slot16) (x : WindowState) (f : Device → Device) :
    (d.requireState ((d.rt w).state == x) f) = if (d.rt w).state = x then f d else d.answering [1] := by
  by_cases h : (d.rt w).state = x
  · rw [if_pos h, h, beq_self_eq_true, requireState_true]
  · rw [if_neg h, beq_eq_false_iff_ne.mpr h, requireState_false]

/-- Settles O45: each of the four goes through `onDefined` and `requireState`. -/
theorem windowControlsFollowTheState : Obligations.WindowControlsFollowTheState := by
  intro s index hs controls answers
  have henable := exec_enable s index hs
  have hpause := exec_pause s index hs
  have hresume := exec_resume s index hs
  have hrearm := exec_rearm s index hs
  beta_reduce at henable hpause hresume hrearm
  refine ⟨fun h c hc => ?refused, fun w ds hw hd => ?defined⟩
  case refused =>
    rw [onDefined_refused h] at henable hpause hresume hrearm
    simp only [controls, List.mem_cons, List.not_mem_nil, or_false] at hc
    rcases hc with rfl | rfl | rfl | rfl
    · exact henable
    · exact hpause
    · exact hresume
    · exact hrearm
  case defined =>
    intro full sets st
    rw [onDefined_some hw hd, requireState_state] at henable hpause hresume hrearm
    refine ⟨?e1, ?e2, ?p1, ?p2, ?r1, ?r2, ?a1, ?a2⟩ <;> intro h
    case e1 => exact henable.trans (next_congr s (if_neg h))
    case e2 =>
      refine henable.trans (next_congr s ((if_pos h).trans ?_))
      rw [enableWindow_eq hd]
      rfl
    case p1 => exact hpause.trans (next_congr s (if_neg h))
    case p2 => exact hpause.trans (next_congr s (if_pos h))
    case r1 => exact hresume.trans (next_congr s (if_neg h))
    case r2 => exact hresume.trans (next_congr s (if_pos h))
    case a1 => exact hrearm.trans (next_congr s (if_neg h))
    case a2 =>
      refine hrearm.trans (next_congr s ((if_pos h).trans ?_))
      rw [rearm_eq hd]
      rfl

/-! ## DISABLE (R12, R47, R57, R86) -/

/-- Every entry of a window is of its open or of its draining epoch. -/
theorem length_window_entries (d : Device) (w : Slot16) :
    (d.entries.filter fun e => e.window == w).length = (d.openList w).length + (d.drainList w).length := by
  unfold Device.openList Device.drainList
  induction d.entries with
  | nil => rfl
  | cons e es ih =>
    simp only [List.filter_cons, Entry.isOpen, Entry.isDraining] at ih ⊢
    cases e.window == w <;> cases he : e.epoch <;> simp [ih] <;> omega

theorem discardCount_eq (d : Device) (w : Slot16) :
    d.discardCount w = (d.openList w).length + (d.drainList w).length - (if d.inFlight (.drain w) then 1 else 0) := by
  rw [Device.discardCount, length_window_entries]

/-- The part after a change of one window's record, its entries and item gone and the writes of its item cut off. -/
def Device.emptiedOf (d : Device) (w : Slot16) (f : Runtime → Runtime) : Device :=
  { d.modRt w f with
    entries := d.entries.filter fun e => e.window != w
    commitQueue := d.commitQueue.filter fun it => it.window != w
    mem := { d.mem with outstanding := d.mem.outstanding.map (cutOffIf (·.isOf w)) } }

theorem emptiedOf_modRt (d : Device) (w : Slot16) (f g : Runtime → Runtime) :
    (d.emptiedOf w f).modRt w g = d.emptiedOf w fun r => g (f r) :=
  congrArg (fun t : Device => { t with
    entries := d.entries.filter fun e => e.window != w
    commitQueue := d.commitQueue.filter fun it => it.window != w
    mem := { d.mem with outstanding := d.mem.outstanding.map (cutOffIf (·.isOf w)) } }) (Device.modRt_modRt d w f g)

/-- What DISABLE makes of the part once the window's waiter is withdrawn. -/
theorem disableWindow_eq {d x : Device} {w : Slot16} {n : Nat} (hx : d.withdraw w = x) (hn : x.discardCount w = n) :
    d.disableWindow w = x.emptiedOf w fun r =>
      { r with counters := { r.counters with discarded := satAdd r.counters.discarded n } }.goOff := by
  subst hx hn
  exact emptiedOf_modRt _ w (fun r => { r with
    counters := { r.counters with discarded := satAdd r.counters.discarded ((d.withdraw w).discardCount w) } }) Runtime.goOff

theorem exec_disable_slot {s : State} {index : Byte} {w : Slot16} (hs : ServingWindows s.dev) (hw : index.toNat = w.val) :
    exec (.disable index) s = .next { s with dev := (s.dev.disableSlot w).done [] } := by
  refine (exec_disable s index hs).trans (next_congr s ?_)
  rw [slotOfByte_val hw]

theorem disableSlot_off {d : Device} {w : Slot16} (h : (d.win w).desc = none ∨ (d.rt w).state = .off) : d.disableSlot w = d := by
  unfold Device.disableSlot
  rcases h with h | h
  · rw [h]
  · split
    · rfl
    · rw [if_pos h]

theorem disableSlot_on {d : Device} {w : Slot16} {ds : Descriptor} (hd : (d.win w).desc = some ds) (h : (d.rt w).state ≠ .off) :
    d.disableSlot w = d.disableWindow w := by
  simp only [Device.disableSlot, hd, if_neg h]

/-- Settles O46: DISABLE of a window that is not OFF is `disableWindow_eq`, after the withdrawal of its waiter. -/
theorem disableTakesTheWindowOff : Obligations.DisableTakesTheWindowOff := by
  intro s index hs
  refine ⟨fun h => ?_, fun w hw hoff => ?_, fun w ds hw hd hon => ?_⟩
  · refine (exec_disable s index hs).trans (next_congr s ?_)
    rw [slotOfByte_none h]
    rfl
  · refine (exec_disable_slot hs hw).trans (next_congr s ?_)
    rw [disableSlot_off hoff, done_nil]
  · intro d lost
    have hdisabled := (disableSlot_on hd hon).trans (disableWindow_eq (x := d) (n := lost) rfl (discardCount_eq d w))
    exact (exec_disable_slot hs hw).trans (next_congr s (congrArg (Device.done · []) hdisabled))

/-! ## What keeps a command from being carried out (R175, R176) -/

theorem command_while_reset {d : Device} (h : Settled d) (hp : d.startup.pwrRst = true) (f : Device → Device) : d.command f = d := by
  simp only [Device.command, settle_of_settled h, hp, if_true]

theorem managed_not_ready {d : Device} (h : Settled d) (hp : d.startup.pwrRst = false) (hr : d.startup.state ≠ .ready)
    (f : Device → Device) : d.managed f = d.answering [3] :=
  (command_of_settled h hp _).trans (if_neg hr)

theorem managedWindow_transparent {d : Device} (h : Serving d) (ht : d.startup.transparent = true) (f : Device → Device) :
    d.managedWindow f = d.answering [1] :=
  (managed_of_serving h _).trans (if_pos ht)

/-- A command that needs READY is taken by `Device.managed`. -/
theorem exec_managed {c : Instr} (h : needsReady c = true) : ∃ f, ∀ s, exec c s = .next (s.onDevice fun d => d.managed f) := by
  cases c
  case unknownCommand u =>
    cases u
    case edge => exact absurd h Bool.false_ne_true
    case command => exact absurd h Bool.false_ne_true
    all_goals exact ⟨_, fun _ => rfl⟩
  all_goals first
    | exact absurd h Bool.false_ne_true
    | exact ⟨_, fun _ => rfl⟩

/-- What a frame carries is taken by `Device.command`: the commands that need READY, and the three that do not. -/
theorem exec_command {c : Instr} (h : managementCommand c = true) :
    ∃ f, ∀ s, exec c s = .next (s.onDevice fun d => d.command f) := by
  by_cases hr : needsReady c = true
  · obtain ⟨f, hf⟩ := exec_managed hr
    exact ⟨(·.whenReady f), hf⟩
  cases c
  case readId => exact ⟨_, fun _ => rfl⟩
  case readStatus => exact ⟨_, fun _ => rfl⟩
  case unknownCommand u =>
    cases u with
    | command code => exact ⟨(·.respond .unknownCommand []), fun _ => rfl⟩
    | windowCtrl w a => exact absurd h hr
    | timer a p => exact absurd h hr
    | softReset t => exact absurd h hr
    | edge e => exact absurd h hr
  all_goals exact absurd h hr

/-- A command that needs a loaded image is taken by `Device.managedWindow`. -/
theorem exec_managedWindow {c : Instr} (h : needsImage c = true) :
    ∃ f, ∀ s, exec c s = .next (s.onDevice fun d => d.managedWindow f) := by
  cases c
  case unknownCommand u =>
    cases u
    case windowCtrl => exact ⟨_, fun _ => rfl⟩
    all_goals exact absurd h Bool.false_ne_true
  all_goals first
    | exact absurd h Bool.false_ne_true
    | exact ⟨_, fun _ => rfl⟩

/-! ## The edges of a frame (R174, R175) -/

theorem exec_edge_held {s : State} (h : Settled s.dev) (hp : s.dev.startup.pwrRst = true) (e : LinkEdge) :
    exec (.unknownCommand (.edge e)) s = .next { s with dev := { s.dev with link := s.dev.link.heldEdge e } } := by
  rw [exec_edge s e h (if_pos hp), Device.linkEdge, if_pos hp]

theorem frameTaken_eq {d : Device} (hp : d.startup.pwrRst = false) (e : LinkEdge) : d.frameTaken e = d.link.completes e :=
  if_neg (Bool.eq_false_iff.mp hp)

theorem exec_edge_moves {s : State} (h : Settled s.dev) (hp : s.dev.startup.pwrRst = false) {e : LinkEdge}
    (hc : s.dev.link.completes e = none) :
    exec (.unknownCommand (.edge e)) s = .next { s with dev := { s.dev with link := s.dev.link.edge e } } := by
  rw [exec_edge s e h ((frameTaken_eq hp e).trans hc), Device.linkEdge, if_neg (Bool.eq_false_iff.mp hp)]

section
variable {u : Link}

theorem completes_rise_elsewhere (h : ¬(u.phase = .command ∨ u.phase = .argument)) (b : Bool) : u.completes (.rise b) = none :=
  if_neg fun hc => h hc.1

theorem completes_rise_early (h : u.bits.length < 7) (b : Bool) : u.completes (.rise b) = none :=
  if_neg fun hc => absurd hc.2 (Nat.not_le.mpr h)

theorem completes_rise_last (h : u.phase = .command ∨ u.phase = .argument) (h7 : u.bits.length = 7) (b : Bool) :
    u.completes (.rise b) = decodeFrame (u.received ++ [byteOfBits (u.bits ++ [b])]) := if_pos ⟨h, h7.ge⟩

theorem fall_receiving (h : u.phase = .command ∨ u.phase = .argument) : u.fall = u := by
  rcases h with h | h <;> simp only [Link.fall, h]

theorem rise_receiving (h : u.phase = .command ∨ u.phase = .argument) (b : Bool) : u.rise b = u.sample b := by
  rcases h with h | h <;> simp only [Link.rise, h]

theorem fall_response (h : u.phase = .response) : u.fall = { u with mdo := some (serialBit u.response (u.clocks - 8)) } := by
  simp only [Link.fall, h]

end

theorem serialBit_past {bytes : List Byte} {n : Nat} (h : 8 * bytes.length ≤ n) : serialBit bytes n = false := by
  unfold serialBit
  rw [List.getElem?_eq_none (by omega)]

/-- Settles O44: a command goes through `Device.command`, `managed` or `managedWindow`, each of which turns it away by its own
condition; an edge moves the link unit by the phase it stands in. -/
theorem framesAreTurnedAway : Obligations.FramesAreTurnedAway := by
  refine ⟨fun s hs => ?commands, fun s hs => ?link⟩
  case commands =>
    intro answers
    refine ⟨fun hp c hc => ?held, fun hp => ⟨fun code => ?code, fun hr c hc => ?notReady, fun hr ht c hc => ?transparent,
      fun hr ht w a => ?control, fun hr => ⟨fun a p => ?timer, fun t => ?reset⟩⟩⟩
    case held =>
      obtain ⟨f, hf⟩ := exec_command hc
      exact (hf s).trans (next_congr s (command_while_reset hs hp f))
    case code => exact next_congr s (command_of_settled hs hp (·.respond .unknownCommand []))
    case notReady =>
      obtain ⟨f, hf⟩ := exec_managed hc
      exact (hf s).trans (next_congr s (managed_not_ready hs hp hr f))
    case transparent =>
      obtain ⟨f, hf⟩ := exec_managedWindow hc
      exact (hf s).trans (next_congr s (managedWindow_transparent ⟨hs, hr, hp⟩ ht f))
    case control => exact next_congr s (managedWindow_of_serving ⟨⟨hs, hr, hp⟩, ht⟩ _)
    case timer => exact next_congr s (managed_of_serving ⟨hs, hr, hp⟩ _)
    case reset => exact next_congr s (managed_of_serving ⟨hs, hr, hp⟩ _)
  case link =>
    intro u becomes
    refine ⟨exec_frameAbort s hs, fun hp => ?heldEdges, fun hp => ?edges⟩
    case heldEdges => exact ⟨exec_edge_held hs hp _, fun b => exec_edge_held hs hp _, exec_edge_held hs hp _⟩
    case edges =>
      have hbecomes {e : LinkEdge} {v : Link} (hc : u.completes e = none) (hv : u.edge e = v) : becomes e v :=
        (exec_edge_moves hs hp hc).trans (next_congr s (congrArg (fun x => { s.dev with link := x }) hv))
      refine ⟨fun hm => hbecomes rfl (if_neg (Bool.eq_false_iff.mp hm)), fun hm => hbecomes rfl (if_pos hm), fun hidle => ?idle,
        fun hreceiving => ?receiving, fun hturn => ?turnaround, fun hresponse hclocks => ?response⟩
      case idle =>
        refine ⟨fun b => hbecomes (completes_rise_elsewhere (by simp [hidle]) b) ?_, hbecomes rfl ?_⟩
        · simp only [Link.edge, Link.rise, hidle]
        · simp only [Link.edge, Link.fall, hidle]
      case receiving =>
        refine ⟨hbecomes rfl (fall_receiving hreceiving), fun b h7 => ?bit, fun b x h7 hx => ?byte⟩
        case bit => exact hbecomes (completes_rise_early h7 b) ((rise_receiving hreceiving b).trans (if_pos h7))
        case byte =>
          have hbyte : byteOfBits (u.bits ++ [b]) = x := byteOfBits_eq _ x (by simp [h7]) hx
          have hcompletes := completes_rise_last hreceiving h7 b
          rw [hbyte] at hcompletes
          refine ⟨fun hnone => hbecomes (hcompletes.trans hnone) ?_, fun c hc => ?_⟩
          · refine (rise_receiving hreceiving b).trans ?_
            rw [Link.sample, if_neg (by omega), hbyte]
          · exact exec_edge_taken s _ c hs ((frameTaken_eq hp _).trans (hcompletes.trans hc))
      case turnaround =>
        have hcount (b : Bool) : u.edge (.rise b) = u.count := by simp only [Link.edge, Link.rise, hturn]
        have helsewhere (b : Bool) := completes_rise_elsewhere (u := u) (by simp [hturn]) b
        refine ⟨hbecomes rfl ?_, fun b h7 => hbecomes (helsewhere b) ((hcount b).trans ?_),
          fun b h7 => hbecomes (helsewhere b) ((hcount b).trans ?_)⟩
        · simp only [Link.edge, Link.fall, hturn]
        · rw [Link.count, if_neg (by omega)]
        · rw [Link.count, if_pos (by omega), h7]
      case response =>
        refine ⟨fun b => hbecomes (completes_rise_elsewhere (by simp [hresponse]) b) ?_, fun x n i hx hi hn => ?_, fun hpast => ?_⟩
        · simp only [Link.edge, Link.rise, hresponse, Link.count]
          rw [if_pos (by omega)]
        · refine hbecomes rfl ((fall_response hresponse).trans ?_)
          rw [show u.clocks - 8 = 8 * n + i by omega, serialBit_eq u.response n i x hx hi]
        · refine hbecomes rfl ((fall_response hresponse).trans ?_)
          rw [serialBit_past (by omega)]

/-! ## A frame spells its command (R174) -/

/-- The bytes of a command are read back, whatever follows them. -/
theorem decodeFrame_encodeFrame {i : Instr} {bytes : List Byte} (more : List Byte) (hwf : i.wf = true)
    (he : encodeFrame i = some bytes) : decodeFrame (bytes ++ more) = some i := by
  cases i
  case clearFlags m =>
    cases he
    exact congrArg (fun x => some (Instr.clearFlags x)) (maskOfBytes_bytesOfMask m)
  case setEnable m v =>
    cases he
    exact congrArg (fun x => some (Instr.setEnable x v)) (maskOfBytes_bytesOfMask m)
  case setLevel m v =>
    cases he
    exact congrArg (fun x => some (Instr.setLevel x v)) (maskOfBytes_bytesOfMask m)
  case timerStart p =>
    cases he
    exact congrArg (fun x => some (Instr.timerStart x)) (Sys2Proof.wordOfBytes_bytesOfWord p)
  case timerStop p =>
    cases he
    exact congrArg (fun x => some (Instr.timerStop x)) (Sys2Proof.wordOfBytes_bytesOfWord p)
  case timerPeriod p =>
    cases he
    exact congrArg (fun x => some (Instr.timerPeriod x)) (Sys2Proof.wordOfBytes_bytesOfWord p)
  case unknownCommand u =>
    cases u with
    | command c =>
      cases he
      exact decodeFrame_unnamed c more hwf
    | windowCtrl w a =>
      cases he
      exact congrArg some (decodeWindowCtrl_unnamed w a hwf)
    | timer a p =>
      cases he
      exact (congrArg (fun x => some (decodeTimer a x)) (Sys2Proof.wordOfBytes_bytesOfWord p)).trans
        (congrArg some (decodeTimer_unnamed a p hwf))
    | softReset t =>
      cases he
      exact congrArg some (decodeSoftReset_unnamed t hwf)
    | edge e => cases he
  all_goals
    cases he
    try rfl

/-- Settles O60: the bytes are read back by `decodeFrame_encodeFrame`; the edges take the command with the last of them
(`frame_edges`), because no shorter part of them spells one. -/
theorem frameBytesSpellTheirCommand : Obligations.FrameBytesSpellTheirCommand := by
  refine ⟨fun i bytes more hwf he => decodeFrame_encodeFrame more hwf he, fun s i bytes hs hp hwf he => ?_⟩
  obtain ⟨hne, hshort⟩ := decodeFrame_take i bytes he
  have hwhole := decodeFrame_encodeFrame [] hwf he
  rw [List.append_nil] at hwhole
  exact frame_edges s i bytes hs hp hne hshort hwhole

end Sys2Proof.Machine

/-! SUPPORT. The resets, the link reset and the states of start-up (R25, R26, R129, R142 to R144, R150, R168, R183 to R186). -/

namespace Sys2Proof.Machine

/-! ## The four recorded resets -/

/-- What a reset of the datapath leaves (R25, R109). -/
theorem datapathReset_eq (d : Device) : d.datapathReset =
    let x := d.commonReset .softDatapath
    { x with
      windows := Vector.ofFn fun i => restarted d.windows[i]
      monitors := .reset, lct := .configured d.config
      fault := x.fault.configure d.config } := by
  simp only [Device.datapathReset, restart_reset]
  rfl

/-- Settles O47: `commonReset_eq` block by block, with the configuration taken over again. -/
theorem datapathResetKeepsTheConfiguration : Obligations.DatapathResetKeepsTheConfiguration := by
  intro s hs d
  refine (exec_softResetDatapath s hs).trans (next_congr s ?_)
  rw [datapathReset_eq, commonReset_eq]
  rfl

/-- What a reset that enters RESET leaves (R25, R108, R166, R183, R184). -/
def Device.inReset (d : Device) (source : ResetSource) (u : Startup) : Device :=
  { d with
    windows := Vector.replicate 16 .empty
    entries := [], poolWait := [], safeStore := [], commitQueue := []
    mem := ⟨d.mem.outstanding.map cutOff, Requester.order, .free⟩
    portA := resetPort d .a, portB := resetPort d .b
    monitors := .reset, lct := .configured .transparent
    fault := { d.fault with flags := 0, enables := 0, levels := 0, threshold := 0 }
    clock := { d.clock with deviceTime := 0, sub := 0 }
    startup := { u with
      state := .reset, transparent := false, settleTimer := none, rstOut := true, rstOutTimer := none
      loader := .idle, flashTimer := none, fsel := false, flash := .idle
      cause := ⟨source, d.runningCut, d.unissued .a + d.unissued .b⟩ }
    config := .transparent }

theorem fullReset_eq (d : Device) (source : ResetSource) : d.fullReset source = d.inReset source d.startup := by
  rw [Device.fullReset, commonReset_eq]
  rfl

theorem rstInReset_eq (d : Device) : d.rstInReset = d.inReset .rstIn { d.startup with rstIn := true } := by
  rw [Device.rstInReset, fullReset_eq]
  rfl

/-- Settles O48: both commands leave `Device.inReset`, RST_IN with its own level. -/
theorem fullResetsEnterReset : Obligations.FullResetsEnterReset := by
  intro s hs d emptied
  refine ⟨fun hr hp => ?_, ?_⟩
  · refine (exec_softResetFull s ⟨hs, hr, hp⟩).trans (next_congr s ?_)
    rw [fullReset_eq]
    rfl
  · exact (exec_rstIn s hs).trans (next_congr s (rstInReset_eq d))

/-- Settles O49: a full reset, then what PWR_RST alone clears. -/
theorem powerOnResetForgetsEverything : Obligations.PowerOnResetForgetsEverything := by
  intro s hs d answer
  refine (exec_pwrRst s hs).trans (next_congr s ?_)
  rw [Device.pwrRstReset, fullReset_eq]
  rfl

/-! ## The link reset (R168) -/

theorem producedByB_of {d : Device} {w : Slot16} {ds : Descriptor} (hd : (d.win w).desc = some ds) (hb : ds.producer = .b) :
    d.producedByB w = true := by
  simp only [Device.producedByB, hd, hb, beq_self_eq_true]

/-- Each slot after a link reset: B's windows start again, the others stand (R26). -/
theorem win_linkReset (d : Device) (w : Slot16) :
    d.linkReset.win w = if d.producedByB w then (d.win w).restart d.monitors else d.win w := by
  simp [Device.win, Device.linkReset, Device.offer]

theorem linkItem_eq (d : Device) : d.linkItem =
    match d.commitQueue with
    | ⟨w, k, some pr⟩ :: _ => if d.producedByB w then some ⟨w, k, pr.written, pr.planned⟩ else none
    | _ => none := by
  rw [Device.linkItem, Device.runningCut]
  rcases d.commitQueue with - | ⟨⟨w, k, - | pr⟩, rest⟩ <;> rfl

theorem withoutB_eq (x : ExclusiveLock) : x.withoutB = if x = .held .b ∨ x = .reserved .b then .free else x := by
  rcases x with - | (- | -) | (- | -) <;> rfl

theorem getD_map_eq (o : Option CutItem) (f : CutItem → Nat) :
    (o.map f).getD 0 = match o with | some c => f c | none => 0 := by
  cases o <;> rfl

/-- Settles O50: each block is read off the link reset, and the windows by `win_linkReset`. -/
theorem linkResetTouchesOnlyB : Obligations.LinkResetTouchesOnlyB := by
  intro s hs
  have hexec := exec_linkReset s hs
  refine ⟨fun hr => hexec.trans (next_congr s (if_neg hr)), fun hr => ?_⟩
  intro d cut lost report
  have hcut : d.linkItem = cut := linkItem_eq d
  have hreport : d.linkReport = report := by
    rw [Device.linkReport, hcut, getD_map_eq, getD_map_eq] <;> rfl
  refine ⟨d.linkReset, hexec.trans (next_congr s (if_pos hr)), fun w ds hd hb => ?ofB, fun w hw => ?others, rfl, rfl, ?pool,
    rfl, ?portB, rfl, ?lock, rfl, ?fault, rfl⟩
  case ofB => rw [win_linkReset, if_pos (producedByB_of hd hb)]
  case others => rw [win_linkReset, if_neg (Bool.eq_false_iff.mp hw)]
  case pool =>
    refine List.filter_congr fun x _ => ?_
    rcases x.port with - | - <;> rfl
  case portB =>
    show ({ d.portB.cutShort with
      counters := { d.portB.counters with postedLost := satAdd d.portB.counters.postedLost (d.unissued .b) } } : PortUnit) = _
    rw [cutShort_eq]
    rfl
  case lock => exact withoutB_eq d.mem.exclusive
  case fault =>
    show d.fault.offer d.clock.deviceTime d.linkReport = _
    rw [hreport]

/-! ## Start-up (R129, R182, R183) -/

/-- Settles O51: the branches of `releaseReset` and `leaveReset`, and the straps by `sampleStraps_eq`. -/
theorem resetIsLeftThroughStraps : Obligations.ResetIsLeftThroughStraps := by
  intro s straps
  refine ⟨fun hr hsettled => ?settle, fun hr hsettled => ?straps, fun hr => ?elsewhere, fun t ht => ?settleEnd,
    fun hs hp hin => ?release⟩
  case settle =>
    exact (exec_resetRelease s straps).trans (next_congr s ((if_pos hr).trans (if_neg (Bool.eq_false_iff.mp hsettled))))
  case straps =>
    exact (exec_resetRelease s straps).trans (next_congr s ((if_pos hr).trans ((if_pos hsettled).trans (sampleStraps_eq straps _))))
  case elsewhere => exact next_congr s (if_neg hr)
  case settleEnd =>
    exact (exec_settleEnd s straps ht).trans (next_congr s (congrArg Device.tripExpired (sampleStraps_eq straps _)))
  case release => exact (exec_pwrRstRelease s hs).trans (next_congr s (if_pos ⟨hp, hin⟩))

end Sys2Proof.Machine

/-! SUPPORT. The flash link and the checks and fields of the configuration image (R1 to R5, R181, R182, and the layout tables of 10). -/

namespace Sys2Proof.Machine

/-! ## The flash (R181, R184) -/

theorem sampled_load {x : Straps} (h : x.cfgEn = true) (d : Device) : (sampled x d).startup =
    { d.startup with state := .load, loader := .awaiting, flashTimer := some 50000, fsel := true, flash := .idle } := by
  rw [sampled]
  exact congrArg Device.startup (if_pos h)

theorem readCommand_bit : ∀ n < 32, serialBit readCommand n = (0x03000000#32).getLsbD (31 - n) := by decide

theorem FlashLink.fall_command {u : FlashLink} (h : u.sent < 32) :
    u.fall = { u with fclk := false, fdo := some ((0x03000000#32).getLsbD (31 - u.sent)) } := by
  rw [FlashLink.fall, if_pos h, readCommand_bit _ h]

theorem FlashLink.fall_after {u : FlashLink} (h : 32 ≤ u.sent) : u.fall = { u with fclk := false, fdo := none } := by
  rw [FlashLink.fall, if_neg (Nat.not_lt.mpr h)]

theorem flashAnswers_data {d : Device} {b : Byte} (h : d.startup.loader = .awaiting) (hb : b ≠ 0xFF) : d.flashAnswers b =
    { d with startup := { d.startup with loader := .header, flashTimer := none, flash := .shifted [b] } } :=
  (if_pos h).trans (if_neg hb)

theorem flashAnswers_busy {d : Device} {b : Byte} (h : d.startup.loader = .awaiting) (hb : b = 0xFF) : d.flashAnswers b =
    { d with startup := { d.startup with loader := .retryWait 1000, fsel := false, flash := .idle } } :=
  (if_pos h).trans (if_pos hb)

/-- Settles O52: an edge is one of the cases of `Laws/FlashLink`, and the expiries are those of their rows. -/
theorem flashIsAwaitedFiftyMilliseconds : Obligations.FlashIsAwaitedFiftyMilliseconds := by
  intro s u
  refine ⟨fun straps hr hsettled hcfg => ?load, fun hs hl b => ⟨fun ha hb => ?data, fun ha hb => ?busy, fun ha => ?other⟩,
    fun hs => ?edges, fun t ht => exec_flashRetryWaitEnd s ht, fun t ht => exec_flashTimeout s ht,
    fun t ht => exec_rstOutRelease s ht⟩
  case load =>
    obtain ⟨-, hleft, -⟩ := resetIsLeftThroughStraps s straps
    have hstartup := sampled_load hcfg { s.dev with startup := { s.dev.startup with pwrRst := false, rstIn := false } }
    refine ⟨_, hleft hr hsettled, ?_, ?_, ?_, ?_, ?_⟩
    · exact congrArg Startup.state hstartup
    · exact congrArg Startup.loader hstartup
    · exact congrArg Startup.flashTimer hstartup
    · exact congrArg Startup.fsel hstartup
    · exact congrArg Startup.flash hstartup
  case data =>
    exact (exec_flashAnswer s b hs).trans (next_congr s ((flashReturns_of_agrees ha _).trans (flashAnswers_data hl hb)))
  case busy =>
    exact (exec_flashAnswer s b hs).trans (next_congr s ((flashReturns_of_agrees ha _).trans (flashAnswers_busy hl hb)))
  case other => exact (exec_flashAnswer s b hs).trans (next_congr s (flashReturns_of_not ha _))
  case edges =>
    intro edge becomes
    have hexec (fdi : Bool) := exec_flashEdge s fdi hs
    refine ⟨fun hsel fdi => (hexec fdi).trans (next_congr s (flashEdge_deselected hsel fdi)), fun hsel fdi => ?_⟩
    have hbecomes {v w : FlashLink} (hv : s.dev.flashEdge fdi = s.dev.withFlash w) (hw : w = v) : becomes fdi v :=
      (hexec fdi).trans (next_congr s (hv.trans (congrArg s.dev.withFlash hw)))
    refine ⟨fun hf h32 => ?fallCommand, fun hf h32 => ?fallAfter, fun hf h32 => ?riseCommand, fun hf h32 h7 => ?riseBit,
      fun x hf h32 h7 hx hl hr => ?riseByte⟩
    case fallCommand => exact hbecomes (flashEdge_fall hsel hf fdi) (FlashLink.fall_command h32)
    case fallAfter => exact hbecomes (flashEdge_fall hsel hf fdi) (FlashLink.fall_after h32)
    case riseCommand => exact hbecomes (flashEdge_command hsel hf h32 fdi) rfl
    case riseBit => exact hbecomes (flashEdge_bit hsel hf h32 h7 fdi) rfl
    case riseByte =>
      exact ((hexec fdi).trans (next_congr s (flashEdge_answer hsel hl hf h32 h7 hx hr))).trans (exec_flashAnswer s x hs).symm

/-! ## The checks of a load, in their order (R181) -/

theorem headerFault_badHeader {w0 w1 w2 : Word} (h : w0 ≠ 0x48533120 ∨ w2 ≠ 1) : headerFault w0 w1 w2 = some .badHeader :=
  if_pos h

theorem headerFault_length {w0 w1 w2 : Word} (h0 : w0 = 0x48533120) (h2 : w2 = 1) :
    headerFault w0 w1 w2 = if 146 ≤ w1.toNat ∧ w1.toNat ≤ 658 then none else some .badLength := by
  have hgood : ¬(w0 ≠ 0x48533120#32 ∨ w2 ≠ 1#32) := by
    rintro (h | h)
    · exact h h0
    · exact h h2
  rw [headerFault, if_neg hgood]
  by_cases h : 146 ≤ w1.toNat ∧ w1.toNat ≤ 658
  · rw [if_pos h, if_neg (not_not_intro ((within_iff 146 658 _).mpr h))]
  · rw [if_neg h, if_pos (mt (within_iff 146 658 _).mp h)]

section
variable {ws : List Word}

theorem imageFault_crc (h : crcHolds ws = false) : imageFault ws = some .badCrc := by
  rw [imageFault, if_pos (Bool.eq_false_iff.mp h)]

variable (hcrc : crcHolds ws = true)
include hcrc

theorem imageFault_fields (h : fieldsHold ws = false) : imageFault ws = some .badField := by
  rw [imageFault, if_neg (not_not_intro hcrc), if_pos (Bool.eq_false_iff.mp h)]

variable (hfields : fieldsHold ws = true)
include hfields

theorem imageFault_total (h : 512 < safeTotal (readSlots ws)) : imageFault ws = some .safeTotal := by
  rw [imageFault, if_neg (not_not_intro hcrc), if_neg (not_not_intro hfields), if_pos h]

variable (htotal : safeTotal (readSlots ws) ≤ 512)
include htotal

theorem imageFault_length (h : ws.length ≠ 146 + safeTotal (readSlots ws)) : imageFault ws = some .badLength := by
  rw [imageFault, if_neg (not_not_intro hcrc), if_neg (not_not_intro hfields), if_neg (Nat.not_lt.mpr htotal), if_pos h]

variable (hlength : ws.length = 146 + safeTotal (readSlots ws))
include hlength

theorem imageFault_ranges : imageFault ws = if rangesHold ws then none else some .overlap := by
  rw [imageFault, if_neg (not_not_intro hcrc), if_neg (not_not_intro hfields), if_neg (Nat.not_lt.mpr htotal),
    if_neg (not_not_intro hlength)]
  cases rangesHold ws <;> rfl

end

section
variable {d : Device} {w0 w1 w2 : Word}

theorem headerRead_fault (h : d.startup.loader = .header) {k : ConfigCause} (hk : headerFault w0 w1 w2 = some k) :
    d.headerRead w0 w1 w2 = failedLoad d k := by
  rw [Device.headerRead, if_pos h, hk]
  rfl

theorem headerRead_good (h : d.startup.loader = .header) (hk : headerFault w0 w1 w2 = none) : d.headerRead w0 w1 w2 =
    { d with startup := { d.startup with loader := .image w0 w1 w2, flash := .shifted [] } } := by
  rw [Device.headerRead, if_pos h, hk]

variable {rest : List Word}

theorem imageRead_eq (h : d.startup.loader = .image w0 w1 w2) (hn : rest.length + 3 = w1.toNat) : d.imageRead rest =
    match imageFault (w0 :: w1 :: w2 :: rest) with
    | some k => failedLoad d k
    | none => d.completeLoad (w0 :: w1 :: w2 :: rest) := by
  simp only [Device.imageRead, h, if_pos hn] <;> rfl

theorem imageRead_fault (h : d.startup.loader = .image w0 w1 w2) (hn : rest.length + 3 = w1.toNat) {k : ConfigCause}
    (hk : imageFault (w0 :: w1 :: w2 :: rest) = some k) : d.imageRead rest = failedLoad d k := by
  simp only [imageRead_eq h hn, hk]

theorem imageRead_good (h : d.startup.loader = .image w0 w1 w2) (hn : rest.length + 3 = w1.toNat)
    (hk : imageFault (w0 :: w1 :: w2 :: rest) = none) : d.imageRead rest = d.completeLoad (w0 :: w1 :: w2 :: rest) := by
  simp only [imageRead_eq h hn, hk]

theorem imageRead_other_length (h : d.startup.loader = .image w0 w1 w2) (hn : rest.length + 3 ≠ w1.toNat) :
    d.imageRead rest = d := by
  simp only [Device.imageRead, h, if_neg hn]

end

/-! ## Fields as parts of a word's value -/

/-- A field of a word of the image. -/
def fieldValue (image : List Word) (n low width : Nat) : Nat := (image.getD n 0).toNat / 2 ^ low % 2 ^ width

theorem field_imageWord (image : List Word) (n low width : Nat) :
    field (imageWord image n) low width = fieldValue image n low width := field_eq _ low width

theorem getLsbD_imageWord (image : List Word) (n i : Nat) :
    (imageWord image n).getLsbD i = decide (fieldValue image n i 1 = 1) := by
  rw [Bool.eq_iff_iff, decide_eq_true_iff]
  exact getLsbD_iff (imageWord image n) i

theorem fieldValue_mod (image : List Word) (n : Nat) {k m : Nat} (h : k ≤ m) :
    fieldValue image n 0 m % 2 ^ k = fieldValue image n 0 k := by
  rw [fieldValue, fieldValue, Nat.mod_mod_of_dvd _ (Nat.pow_dvd_pow 2 h)]

/-- A field of a slot, by the number of its word in the slot. -/
def slotField (image : List Word) (w i low width : Nat) : Nat := fieldValue image (17 + 8 * w + i) low width

/-- A field of a slot's word, read in the image itself. -/
theorem field_slotWords (image : List Word) (w : Nat) {i : Nat} (hi : i < 8) (low width : Nat) :
    field (imageWord (slotWords image w) i) low width = slotField image w i low width := by
  rw [imageWord_slotWords image w i hi, field_imageWord, slotField]

theorem getLsbD_slotWords (image : List Word) (w : Nat) {i : Nat} (hi : i < 8) (n : Nat) :
    (imageWord (slotWords image w) i).getLsbD n = decide (slotField image w i n 1 = 1) := by
  rw [imageWord_slotWords image w i hi, getLsbD_imageWord, slotField]

/-! ## The CRC and the ranges of the fields (check 3 and check 4 of R181) -/

/-- The CRC as the statement writes it, bit by bit. -/
theorem crcBit_eq (c : BitVec 16) (b : Bool) : crcBit c b = (c <<< 1) ^^^ (if c.getLsbD 15 = b then 0 else 0x1021) := by
  unfold crcBit
  cases c.getLsbD 15 <;> cases b <;> rfl

theorem crcHolds_iff (image : List Word) : crcHolds image = true ↔
    image.getD (image.length - 1) 0 = (((image.take (image.length - 1)).flatMap fun x =>
      (List.range 32).map fun i => x.getLsbD (31 - i)).foldl
        (fun (c : BitVec 16) b => (c <<< 1) ^^^ (if c.getLsbD 15 = b then 0 else 0x1021)) 0xFFFF#16).setWidth 32 := by
  rw [crcHolds, beq_iff_eq, crcWords_bits, show crcBit = _ from funext₂ crcBit_eq]
  rfl

/-- The ranges of the device section, the optional field through `Option.all`. -/
theorem deviceConfig_valid_eq (c : DeviceConfig) : c.valid =
    (within 1 1023 c.holdLimitA && within 1 1023 c.holdLimitB && within 1 255 c.lockLimit &&
      c.statusArea.all (fun b => decide (b % 256 = 0)) && within 10 1000000 c.lctPeriod &&
      within 10 100000 c.periodTsa && within 10 100000 c.periodTsb && within 10 100000 c.periodFms &&
      within 10 100000 c.periodFme) := by
  unfold DeviceConfig.valid
  cases c.statusArea <;> rfl

/-- The checks of a descriptor, the optional fields through `Option.elim` and `Option.all`. -/
theorem descriptor_valid_eq (ds : Descriptor) (area : Option Nat) : ds.valid area =
    (decide (ds.base % 4 = 0) && decide (ds.base + 4 * ds.length ≤ 16777216) && within 1 4096 ds.length &&
      (Source.ofByte (BitVec.ofNat 8 (field (imageWord ds.words 2) 0 3))).isSome &&
      ds.closeOffset.elim (ds.closePolicy == .loose) (fun k => decide (k < ds.length)) && within 1 256 ds.quota &&
      ds.safeImage.all (fun i => within 1 64 i.count && decide (i.offset + i.count ≤ ds.length)) &&
      (!ds.statusBlock || area.isSome) && imageWord ds.words 6 == 0 && imageWord ds.words 7 == 0) := by
  unfold Descriptor.valid
  cases ds.closeOffset <;> cases ds.safeImage <;> rfl

theorem statusArea_eq (image : List Word) : (readDevice image).statusArea =
    if fieldValue image 6 31 1 = 1 then some (fieldValue image 6 0 24) else none := by
  simp only [readDevice, getLsbD_imageWord, field_imageWord, decide_eq_true_iff]

theorem statusArea_aligned_iff (image : List Word) :
    ((readDevice image).statusArea.all fun b => decide (b % 256 = 0)) = true ↔
      (fieldValue image 6 31 1 = 1 → fieldValue image 6 0 8 = 0) := by
  rw [statusArea_eq, ← fieldValue_mod image 6 (by decide : 8 ≤ 24)]
  split
  case isTrue h => simp [h]
  case isFalse h => simp [h]

theorem forall_period_iff (P : Nat → Prop) : (∀ n, 8 ≤ n → n ≤ 11 → P n) ↔ P 8 ∧ P 9 ∧ P 10 ∧ P 11 := by
  constructor
  · intro h
    exact ⟨h 8 (by decide) (by decide), h 9 (by decide) (by decide), h 10 (by decide) (by decide), h 11 (by decide) (by decide)⟩
  · rintro ⟨h8, h9, h10, h11⟩ n hlow hhigh
    interval_cases n <;> assumption

theorem deviceConfig_valid_iff (image : List Word) : (readDevice image).valid = true ↔
    (1 ≤ fieldValue image 3 0 10 ∧ fieldValue image 3 0 10 ≤ 1023) ∧ (1 ≤ fieldValue image 4 0 10 ∧ fieldValue image 4 0 10 ≤ 1023) ∧
    (1 ≤ fieldValue image 5 0 8 ∧ fieldValue image 5 0 8 ≤ 255) ∧ (fieldValue image 6 31 1 = 1 → fieldValue image 6 0 8 = 0) ∧
    (10 ≤ fieldValue image 7 0 20 ∧ fieldValue image 7 0 20 ≤ 1000000) ∧
    ∀ n, 8 ≤ n → n ≤ 11 → 10 ≤ fieldValue image n 0 17 ∧ fieldValue image n 0 17 ≤ 100000 := by
  rw [deviceConfig_valid_eq, forall_period_iff]
  simp only [Bool.and_eq_true, statusArea_aligned_iff, within_iff, and_assoc]
  simp only [readDevice, field_imageWord]

/-! ## The checks of a slot (R5) -/

theorem sourceOfByte_isSome (n : Nat) (h : n < 8) : (Source.ofByte (BitVec.ofNat 8 n)).isSome = true ↔ n ≤ 6 := by
  interval_cases n <;> decide

section
variable (image : List Word) (w : Nat)

/-- The descriptor that the words of a slot spell. -/
def slotDescriptor : Descriptor := readDescriptor (slotWords image w)

theorem slotDescriptor_base : (slotDescriptor image w).base = slotField image w 0 0 24 :=
  field_slotWords image w (by decide) 0 24
theorem slotDescriptor_length : (slotDescriptor image w).length = slotField image w 1 0 13 :=
  field_slotWords image w (by decide) 0 13
theorem slotDescriptor_quota : (slotDescriptor image w).quota = slotField image w 3 0 9 :=
  field_slotWords image w (by decide) 0 9
theorem slotDescriptor_statusBlock : (slotDescriptor image w).statusBlock = decide (slotField image w 1 21 1 = 1) :=
  getLsbD_slotWords image w (by decide) 21
theorem slotDescriptor_closeOffset : (slotDescriptor image w).closeOffset =
    if slotField image w 2 15 1 = 1 then some (slotField image w 2 16 12) else none := by
  simp only [slotDescriptor, readDescriptor, getLsbD_slotWords image w (by decide : 2 < 8),
    field_slotWords image w (by decide : 2 < 8), decide_eq_true_iff]
theorem slotDescriptor_closePolicy : (slotDescriptor image w).closePolicy =
    if slotField image w 2 5 1 = 1 then .strict else .loose := by
  simp only [slotDescriptor, readDescriptor, getLsbD_slotWords image w (by decide : 2 < 8), decide_eq_true_iff]
theorem slotDescriptor_safeImage : (slotDescriptor image w).safeImage =
    if slotField image w 5 31 1 = 1 then some ⟨slotField image w 5 0 12, slotField image w 5 16 7⟩ else none := by
  simp only [slotDescriptor, readDescriptor, getLsbD_slotWords image w (by decide : 5 < 8),
    field_slotWords image w (by decide : 5 < 8), decide_eq_true_iff]

theorem readSlot_eq : readSlot image w = if slotField image w 1 0 13 = 0 then none else some (slotDescriptor image w) := by
  rw [← slotDescriptor_length]
  rfl

theorem readSlot_some_iff {ds : Descriptor} :
    readSlot image w = some ds ↔ slotField image w 1 0 13 ≠ 0 ∧ slotDescriptor image w = ds := by
  rw [readSlot_eq]
  split
  case isTrue h => simp [h]
  case isFalse h => simp [h]

theorem slotField_bit (i n : Nat) : slotField image w i n 1 = 0 ↔ ¬slotField image w i n 1 = 1 := by
  have : slotField image w i n 1 < 2 := Nat.mod_lt _ (by decide)
  omega

theorem closeOffset_valid_iff :
    (slotDescriptor image w).closeOffset.elim ((slotDescriptor image w).closePolicy == .loose)
      (fun k => decide (k < (slotDescriptor image w).length)) = true ↔
    (slotField image w 2 15 1 = 1 → slotField image w 2 16 12 < slotField image w 1 0 13) ∧
      (slotField image w 2 15 1 = 0 → slotField image w 2 5 1 = 0) := by
  rw [slotDescriptor_closeOffset, slotDescriptor_closePolicy, slotDescriptor_length, slotField_bit image w 2 15,
    slotField_bit image w 2 5]
  by_cases h : slotField image w 2 15 1 = 1
  · simp [h]
  · by_cases h5 : slotField image w 2 5 1 = 1 <;> simp [h, h5]

theorem safeImage_valid_iff :
    ((slotDescriptor image w).safeImage.all fun i =>
      within 1 64 i.count && decide (i.offset + i.count ≤ (slotDescriptor image w).length)) = true ↔
    (slotField image w 5 31 1 = 1 → (1 ≤ slotField image w 5 16 7 ∧ slotField image w 5 16 7 ≤ 64) ∧
      slotField image w 5 0 12 + slotField image w 5 16 7 ≤ slotField image w 1 0 13) := by
  rw [slotDescriptor_safeImage, slotDescriptor_length]
  by_cases h : slotField image w 5 31 1 = 1 <;> simp [h, within_iff]

theorem statusBlock_valid_iff : (!(slotDescriptor image w).statusBlock || (readDevice image).statusArea.isSome) = true ↔
    (slotField image w 1 21 1 = 1 → fieldValue image 6 31 1 = 1) := by
  rw [slotDescriptor_statusBlock, statusArea_eq]
  by_cases h : fieldValue image 6 31 1 = 1 <;> simp [h]

theorem source_valid_iff : (Source.ofByte (BitVec.ofNat 8 (field (imageWord (slotDescriptor image w).words 2) 0 3))).isSome = true ↔
    slotField image w 2 0 3 ≤ 6 := by
  rw [show field (imageWord (slotDescriptor image w).words 2) 0 3 = slotField image w 2 0 3 from
    field_slotWords image w (by decide) 0 3]
  exact sourceOfByte_isSome _ (Nat.mod_lt _ (by decide))

theorem slotWord_eq {i : Nat} (hi : i < 8) : imageWord (slotDescriptor image w).words i = image.getD (17 + 8 * w + i) 0 :=
  imageWord_slotWords image w i hi

theorem descriptor_valid_iff (hlength : slotField image w 1 0 13 ≠ 0) :
    (slotDescriptor image w).valid (readDevice image).statusArea = true ↔
      slotField image w 0 0 24 % 4 = 0 ∧ slotField image w 0 0 24 + 4 * slotField image w 1 0 13 ≤ 2 ^ 24 ∧
      slotField image w 1 0 13 ≤ 4096 ∧ slotField image w 2 0 3 ≤ 6 ∧
      (slotField image w 2 15 1 = 1 → slotField image w 2 16 12 < slotField image w 1 0 13) ∧
      (slotField image w 2 15 1 = 0 → slotField image w 2 5 1 = 0) ∧
      (1 ≤ slotField image w 3 0 9 ∧ slotField image w 3 0 9 ≤ 256) ∧
      (slotField image w 5 31 1 = 1 → (1 ≤ slotField image w 5 16 7 ∧ slotField image w 5 16 7 ≤ 64) ∧
        slotField image w 5 0 12 + slotField image w 5 16 7 ≤ slotField image w 1 0 13) ∧
      (slotField image w 1 21 1 = 1 → fieldValue image 6 31 1 = 1) ∧
      image.getD (17 + 8 * w + 6) 0 = 0 ∧ image.getD (17 + 8 * w + 7) 0 = 0 := by
  have hpositive : 1 ≤ slotField image w 1 0 13 := Nat.one_le_iff_ne_zero.mpr hlength
  rw [descriptor_valid_eq]
  simp only [Bool.and_eq_true, closeOffset_valid_iff, safeImage_valid_iff, statusBlock_valid_iff, source_valid_iff,
    slotWord_eq image w (by decide : 6 < 8), slotWord_eq image w (by decide : 7 < 8)]
  simp only [within_iff, beq_iff_eq, slotDescriptor_base, slotDescriptor_length, slotDescriptor_quota, decide_eq_true_iff,
    hpositive, true_and, and_assoc]
  rfl

end

/-- Every slot of an image, and only those. -/
theorem forall_readSlots {image : List Word} {P : Option Descriptor → Prop} :
    (∀ s ∈ readSlots image, P s) ↔ ∀ w < 16, P (readSlot image w) := by
  simp [readSlots]

theorem fieldsHold_iff (image : List Word) : fieldsHold image = true ↔ (readDevice image).valid = true ∧
    ∀ w < 16, slotField image w 1 0 13 ≠ 0 → (slotDescriptor image w).valid (readDevice image).statusArea = true := by
  rw [fieldsHold, Bool.and_eq_true, List.all_eq_true, forall_readSlots]
  refine and_congr_right fun _ => forall₂_congr fun w _ => ?_
  rw [readSlot_eq]
  by_cases h : slotField image w 1 0 13 = 0 <;> simp [h]

theorem safeCount_readSlot (image : List Word) (w : Nat) :
    (match readSlot image w with | some ds => ds.safeCount | none => 0) =
      if slotField image w 1 0 13 ≠ 0 ∧ slotField image w 5 31 1 = 1 then slotField image w 5 16 7 else 0 := by
  rw [readSlot_eq]
  by_cases h : slotField image w 1 0 13 = 0
  · simp [h]
  · by_cases hs : slotField image w 5 31 1 = 1 <;> simp [h, hs, Descriptor.safeCount, slotDescriptor_safeImage]

/-- Check 7 between the windows (R5). -/
theorem windowsDisjoint_readSlots (image : List Word) : windowsDisjoint (readSlots image) = true ↔
    ∀ v w, v < w → w < 16 → slotField image v 1 0 13 ≠ 0 → slotField image w 1 0 13 ≠ 0 →
      slotField image v 0 0 24 + 4 * slotField image v 1 0 13 ≤ slotField image w 0 0 24 ∨
        slotField image w 0 0 24 + 4 * slotField image w 1 0 13 ≤ slotField image v 0 0 24 := by
  rw [windowsDisjoint_iff, readSlots, List.pairwise_map, List.pairwise_iff_getElem]
  simp only [List.length_range, List.getElem_range, readSlot_some_iff]
  constructor
  · intro h v w hvw hw hv0 hw0
    have := h v w (by omega) hw hvw _ _ ⟨hv0, rfl⟩ ⟨hw0, rfl⟩
    simpa only [slotDescriptor_base, slotDescriptor_length] using this
  · rintro h v w - hw hvw a b ⟨hv0, rfl⟩ ⟨hw0, rfl⟩
    simpa only [slotDescriptor_base, slotDescriptor_length] using h v w hvw hw hv0 hw0

theorem rangesHold_iff (image : List Word) : rangesHold image = true ↔ windowsDisjoint (readSlots image) = true ∧
    (fieldValue image 6 31 1 = 1 → ∀ w < 16, slotField image w 1 0 13 ≠ 0 →
      fieldValue image 6 0 24 + 256 ≤ slotField image w 0 0 24 ∨
        slotField image w 0 0 24 + 4 * slotField image w 1 0 13 ≤ fieldValue image 6 0 24) := by
  rw [rangesHold, Bool.and_eq_true, statusArea_eq]
  refine and_congr_right fun _ => ?_
  by_cases h : fieldValue image 6 31 1 = 1
  · rw [if_pos h, clearOf_iff]
    simp only [h, true_implies, readSlots, List.mem_map, List.mem_range]
    constructor
    · intro hclear w hw hw0
      have := hclear (slotDescriptor image w) ⟨w, hw, (readSlot_some_iff image w).mpr ⟨hw0, rfl⟩⟩
      rwa [slotDescriptor_base, slotDescriptor_length] at this
    · rintro hclear ds ⟨w, hw, hds⟩
      obtain ⟨hw0, rfl⟩ := (readSlot_some_iff image w).mp hds
      rw [slotDescriptor_base, slotDescriptor_length]
      exact hclear w hw hw0
  · simp [h]

/-- Settles O53: the first check that fails is the one that `imageFault` names, the edges are those of `Laws/FlashLink`, and the checks
are read field by field. -/
theorem firstFailedCheckEndsTheLoad : Obligations.FirstFailedCheckEndsTheLoad := by
  refine ⟨fun s w0 w1 w2 rest hs => ?loads, fun image => ?checks⟩
  case loads =>
    intro image total u stored ends
    have hheader := exec_headerReadComplete s w0 w1 w2 hs
    have himage := exec_imageReadComplete s rest hs
    refine ⟨fun hl ha => ?header, fun ha => hheader.trans (next_congr s (flashReturns_of_not ha _)), fun hl hn ha => ?image,
      fun hl hother => ?other, fun fdi x hsel hf h32 h7 hx => ?edges⟩
    case header =>
      have hends {k : ConfigCause} (hk : headerFault w0 w1 w2 = some k) : ends (.headerReadComplete w0 w1 w2) k :=
        hheader.trans (next_congr s ((flashReturns_of_agrees ha _).trans (headerRead_fault hl hk)))
      refine ⟨fun h => hends (headerFault_badHeader h), fun h0 h2 h1 => hends ?_, fun h0 h2 hlow hhigh => ?_⟩
      · rw [headerFault_length h0 h2, if_neg (by omega)]
      · refine hheader.trans (next_congr s ((flashReturns_of_agrees ha _).trans (headerRead_good hl ?_)))
        rw [headerFault_length h0 h2, if_pos ⟨hlow, hhigh⟩]
    case image =>
      have hends {k : ConfigCause} (hk : imageFault image = some k) : ends (.imageReadComplete rest) k :=
        himage.trans (next_congr s ((flashReturns_of_agrees ha _).trans (imageRead_fault hl hn hk)))
      refine ⟨fun hcrc => hends (imageFault_crc hcrc), fun hcrc hfields => hends (imageFault_fields hcrc hfields),
        fun hcrc hfields htotal => hends (imageFault_total hcrc hfields htotal),
        fun hcrc hfields htotal hlength => hends (imageFault_length hcrc hfields htotal fun h => hlength (hn.symm.trans h)),
        fun hcrc hfields htotal hlength hranges => hends ?_⟩
      rw [imageFault_ranges hcrc hfields htotal (hn.trans hlength), hranges]
      rfl
    case other =>
      by_cases ha : u.Agrees (stored rest)
      · have hn := hother.resolve_right (not_not_intro ha)
        exact himage.trans (next_congr s ((flashReturns_of_agrees ha _).trans (imageRead_other_length hl hn)))
      · exact himage.trans (next_congr s (flashReturns_of_not ha _))
    case edges =>
      intro gathered more
      have hedge := exec_flashEdge s fdi hs
      have hgathered : gathered.length = s.dev.startup.flash.received.length + 1 := by simp [gathered, u]
      refine ⟨fun hl => ⟨fun hshort => ?headerMore, fun hg => ?headerEnds⟩, fun hl => ⟨fun hshort => ?imageMore, fun hn hg => ?imageEnds⟩⟩
      case headerMore => exact hedge.trans (next_congr s (flashEdge_header_more hsel hl hf h32 h7 hx (by omega)))
      case headerEnds => exact (hedge.trans (next_congr s (flashEdge_header hsel hl hf h32 h7 hx hg))).trans hheader.symm
      case imageMore => exact hedge.trans (next_congr s (flashEdge_image_more hsel hl hf h32 h7 hx (by omega)))
      case imageEnds => exact (hedge.trans (next_congr s (flashEdge_image hsel hl hf h32 h7 hx hn hg))).trans himage.symm
  case checks =>
    intro word f between at' base length bits crc
    refine ⟨crcHolds_iff image, (fieldsHold_iff image).trans ⟨?sound, ?complete⟩, ?total,
      (rangesHold_iff image).trans (and_congr_left' (windowsDisjoint_readSlots image))⟩
    case sound =>
      rintro ⟨hdevice, hslots⟩
      obtain ⟨h3, h4, h5, h6, h7, hperiods⟩ := (deviceConfig_valid_iff image).mp hdevice
      exact ⟨h3, h4, h5, h6, h7, hperiods, fun w hw hl => (descriptor_valid_iff image w hl).mp (hslots w hw hl)⟩
    case complete =>
      rintro ⟨h3, h4, h5, h6, h7, hperiods, hslots⟩
      exact ⟨(deviceConfig_valid_iff image).mpr ⟨h3, h4, h5, h6, h7, hperiods⟩,
        fun w hw hl => (descriptor_valid_iff image w hl).mpr (hslots w hw hl)⟩
    case total =>
      exact (safeTotal_eq_sum image).trans (congrArg List.sum (List.map_congr_left fun w _ => safeCount_readSlot image w))

/-! ## A good image (R181, and the layout tables) -/

theorem completeLoad_windows (ws : List Word) : (Vector.ofFn fun i : Fin 16 => ({ desc := readSlot ws i.val, rt := .off } : Window).restart .reset) =
    Vector.ofFn fun i : Fin 16 => restarted { desc := readSlot ws i.val, rt := .off } :=
  congrArg Vector.ofFn (funext fun _ => restart_reset _)

/-- The enables stand in word 12 and in the low byte of word 13. -/
theorem enables_readDevice (image : List Word) {p : Nat} (hp : p < 40) :
    (readDevice image).enables.getLsbD p = (imageWord image (12 + p / 32)).getLsbD (p % 32) := by
  rw [readDevice, BitVec.getLsbD_append]
  by_cases h : p < 32
  · rw [if_pos h, show p / 32 = 0 by omega, show p % 32 = p by omega]
  · rw [if_neg h, show p / 32 = 1 by omega, show p % 32 = p - 32 by omega, BitVec.getLsbD_extractLsb', Nat.zero_add,
      decide_eq_true (by omega), Bool.true_and]

/-- The level of a flag stands in word 14, 15 or 16, sixteen to a word. -/
theorem levels_readDevice (image : List Word) {p : Nat} (hp : p < 40) :
    (readDevice image).levels.extractLsb' (2 * p) 2 = (imageWord image (14 + p / 16)).extractLsb' (2 * (p % 16)) 2 := by
  apply BitVec.eq_of_getLsbD_eq
  intro i hi
  have hword : p / 16 = 0 ∨ p / 16 = 1 ∨ p / 16 = 2 := by omega
  rw [readDevice, BitVec.getLsbD_extractLsb', BitVec.getLsbD_extractLsb', BitVec.getLsbD_append, BitVec.getLsbD_append]
  rcases hword with h | h | h
  · rw [if_pos (by omega), h, show 2 * (p % 16) = 2 * p by omega]
  · rw [if_neg (by omega), if_pos (by omega), h, show 2 * (p % 16) + i = 2 * p + i - 32 by omega]
  · rw [if_neg (by omega), if_neg (by omega), BitVec.getLsbD_extractLsb', decide_eq_true (p := 2 * p + i - 32 - 32 < 16) (by omega),
      Bool.true_and, h, show 2 * (p % 16) + i = 0 + (2 * p + i - 32 - 32) by omega]

/-- The source of a slot is the one that its code names. -/
theorem slotDescriptor_source {image : List Word} {w : Nat} {x : Source}
    (hx : [Source.tsa, .tsb, .fms, .fme, .lct, .close, .manual][slotField image w 2 0 3]? = some x) :
    (slotDescriptor image w).source = x := by
  have hlt : slotField image w 2 0 3 < 8 := Nat.mod_lt _ (by decide)
  show (Source.ofByte (BitVec.ofNat 8 (field (imageWord (slotWords image w) 2) 0 3))).getD .manual = x
  rw [field_slotWords image w (by decide), sourceOfByte_eq, BitVec.toNat_ofNat, Nat.mod_eq_of_lt (by omega), hx]
  rfl

/-- Settles O54: no check fails, so the load completes; each reading is a field or a bit of one word of the image. -/
theorem goodImageIsAppliedWhole : Obligations.GoodImageIsAppliedWhole := by
  refine ⟨fun s w0 w1 w2 rest hs => ?applied, fun image => ?fields⟩
  case applied =>
    intro image c hl hn ha hcrc hfields htotal hlength hranges
    have hgood : imageFault image = none := by
      rw [imageFault_ranges hcrc hfields htotal (hn.trans hlength), hranges]
      rfl
    refine (exec_imageReadComplete s rest hs).trans (next_congr s ?_)
    rw [flashReturns_of_agrees ha, imageRead_good hl hn hgood, Device.completeLoad, completeLoad_windows]
    rfl
  case fields =>
    intro word f c
    have hfield (n low width : Nat) : field (imageWord image n) low width = f n low width := field_imageWord image n low width
    refine ⟨?limits, hfield 5 0 8, statusArea_eq image, ?lct, ?periods, fun p hp => enables_readDevice image hp,
      hfield 13 8 2, fun p hp => ?levels, fun w hw => ?slot⟩
    case limits => exact Prod.ext (hfield 3 0 10) (Prod.ext rfl (Prod.ext (hfield 4 0 10) rfl))
    case lct => exact Prod.ext rfl (hfield 7 0 20)
    case periods => exact Prod.ext (hfield 8 0 17) (Prod.ext (hfield 9 0 17) (Prod.ext (hfield 10 0 17) (hfield 11 0 17)))
    case levels =>
      rw [levels_readDevice image hp]
      exact hfield (14 + p / 16) (2 * (p % 16)) 2
    case slot =>
      intro g bit
      have hbit {i : Nat} (hi : i < 8) (n : Nat) : (imageWord (slotWords image w) i).getLsbD n = bit i n :=
        congrArg (·.getLsbD n) (imageWord_slotWords image w i hi)
      have hvalue {i : Nat} (hi : i < 8) (low width : Nat) : field (imageWord (slotWords image w) i) low width = g i low width :=
        field_slotWords image w hi low width
      have hchoice {α : Type} (x y : α) {i : Nat} (hi : i < 8) (n : Nat) :
          (if (imageWord (slotWords image w) i).getLsbD n then x else y) = if bit i n then x else y :=
        congrArg (fun b : Bool => if b then x else y) (hbit hi n)
      refine ⟨fun h0 => (readSlot_eq image w).trans (if_pos h0), fun h0 => ⟨slotDescriptor image w,
        (readSlot_eq image w).trans (if_neg h0), rfl, slotDescriptor_base image w, slotDescriptor_length image w,
        hchoice Port.b Port.a (by decide : 1 < 8) 16, hbit (by decide) 17,
        hchoice Privilege.supervisor Privilege.user (by decide : 1 < 8) 18,
        hchoice Privilege.supervisor Privilege.user (by decide : 1 < 8) 19, hbit (by decide) 20, hbit (by decide) 21,
        fun x hx => slotDescriptor_source hx, hchoice Fallback.lct Fallback.hold (by decide : 2 < 8) 4,
        hchoice ClosePolicy.strict ClosePolicy.loose (by decide : 2 < 8) 5, ?close, slotDescriptor_quota image w, ?watchdog,
        hchoice TripMode.atEvent TripMode.immediate (by decide : 4 < 8) 16, hbit (by decide) 17, ?safe⟩⟩
      case close => exact (hchoice _ _ (by decide) 15).trans (by rw [hvalue (by decide)])
      case watchdog =>
        simp only [slotDescriptor, readDescriptor, hvalue (by decide : 4 < 8)]
      case safe => exact (hchoice _ _ (by decide) 31).trans (by rw [hvalue (by decide), hvalue (by decide)])

end Sys2Proof.Machine

/-! SUPPORT. The events of a moment: when each is due, and what the commands that are none of them do (log 2, R44, R71 to R73, R132, R136,
R153, R183). -/

namespace Sys2Proof.Machine

/-! ## When an event of the moment is due -/

/-- A test of a port's request is true of no empty port. -/
theorem current_test_iff {d : Device} {p : Port} {ready : Bool} {P : Current → Prop}
    (hnone : (d.port p).current = none → ready = false)
    (hsome : ∀ c, (d.port p).current = some c → (ready = true ↔ P c)) :
    ready = true ↔ ∃ c, (d.port p).current = some c ∧ P c := by
  cases hc : (d.port p).current with
  | none => simp [hnone hc]
  | some c => simp [hsome c hc]

theorem handoffReady_iff_due (d : Device) (p : Port) : d.handoffReady p = true ↔ Due d (.reservation p) := by
  refine (current_test_iff (P := fun c => d.mem.exclusive = .free ∧ c.phase = .held .lockWait) (fun hc => ?_)
    fun c hc => handoffReady_iff hc).trans ?_
  · simp [Device.handoffReady, Device.heldOn, hc]
  · exact ⟨fun ⟨c, hc, hfree, hph⟩ => ⟨hfree, c, hc, hph⟩, fun ⟨hfree, c, hc, hph⟩ => ⟨c, hc, hfree, hph⟩⟩

theorem orderingDone_iff_due (d : Device) (p : Port) : d.orderingDone p = true ↔ Due d (.orderingEnd p) :=
  current_test_iff (fun hc => by simp [Device.orderingDone, hc]) fun c hc => by simp [Device.orderingDone, hc]

theorem queueReady_iff_due (d : Device) (p : Port) : d.queueReady p = true ↔ Due d (.queueSpace p) :=
  current_test_iff (fun hc => by simp [Device.queueReady, hc]) fun c hc => queueReady_iff hc

theorem readReady_iff_due (d : Device) (p : Port) : d.readReady p = true ↔ Due d (.readAdmitted p) :=
  current_test_iff (fun hc => by simp [Device.readReady, hc]) fun c hc =>
    (readReady_iff hc).trans (and_congr_right fun _ => readBlocked_false_iff d c)

theorem poolCheckDue_iff_due (d : Device) : d.poolCheckDue = true ↔ Due d .poolService := by
  cases hp : d.poolWait with
  | nil => simp [Device.poolCheckDue, Due, hp]
  | cons x rest =>
    have hcheck : x.checkDue d.freeCount = true ↔ ∀ n, x.checkedAt = some n → n < 256 - d.entries.length := by
      rw [checkDue_iff]
      cases x.checkedAt <;> simp [Device.freeCount]
    rw [Device.poolCheckDue, hp]
    simp only [Bool.and_eq_true, Option.isSome_iff_ne_none, hcheck]
    exact ⟨fun ⟨hc, hn⟩ => ⟨x, rest, hp, hc, hn⟩, fun ⟨y, r, hy, hc, hn⟩ => by
      obtain ⟨rfl, -⟩ := List.cons.inj (hp.symm.trans hy)
      exact ⟨hc, hn⟩⟩

theorem holdCanBeSet_iff_due (d : Device) : d.holdCanBeSet = true ↔ Due d .holdSet := by
  refine ⟨fun h => ?_, fun ⟨w, k, pr, rest, hq, hdue⟩ => (holdCanBeSet_iff hq).mpr hdue⟩
  rcases hq : d.commitQueue with - | ⟨⟨w, k, - | pr⟩, rest⟩
  · simp [Device.holdCanBeSet, hq] at h
  · simp [Device.holdCanBeSet, hq] at h
  · exact ⟨w, k, pr, rest, hq, (holdCanBeSet_iff hq).mp h⟩

theorem itemCanStart_iff_due (d : Device) : d.itemCanStart = true ↔ Due d .itemStart := by
  rcases hq : d.commitQueue with - | ⟨⟨w, k, - | pr⟩, rest⟩ <;> simp [Device.itemCanStart, Due, hq]

/-- An event is taken exactly when what it waits for has come. -/
theorem isReady_iff_due (d : Device) (u : Urgent) : d.isReady u = true ↔ Due d u := by
  cases u with
  | resetRelease => simp [Device.isReady, Device.resetCanEnd, Due, and_assoc]
  | reservation p => exact handoffReady_iff_due d p
  | orderingEnd p => exact orderingDone_iff_due d p
  | queueSpace p => exact queueReady_iff_due d p
  | poolService => exact poolCheckDue_iff_due d
  | readAdmitted p => exact readReady_iff_due d p
  | holdSet => exact holdCanBeSet_iff_due d
  | itemStart => exact itemCanStart_iff_due d

/-- The first due event in the model's order. -/
theorem urgent_iff (d : Device) (u : Urgent) : d.urgent = some u ↔
    ∃ before after, urgentOrder = before ++ u :: after ∧ Due d u ∧ ∀ v ∈ before, ¬Due d v := by
  rw [Device.urgent, List.find?_eq_some_iff_append]
  simp only [isReady_iff_due, Bool.not_eq_true', ← Bool.not_eq_true]
  constructor
  · rintro ⟨hu, before, after, horder, hbefore⟩
    exact ⟨before, after, horder, hu, hbefore⟩
  · rintro ⟨before, after, horder, hu, hbefore⟩
    exact ⟨hu, before, after, horder, hbefore⟩

theorem exec_row (d : Device) (u : Urgent) (q : List Instr) : exec (u.row d.straps) ⟨d, q⟩ = .next ⟨d.take u, q⟩ := by
  cases u <;> rfl

/-! ## A command that is no event of the moment -/

/-- It sees the part only as the events of the moment leave it. -/
theorem exec_congr_settle {c : Instr} (hc : ownEvent c = false) {d t : Device} (h : d.settle = t.settle) (q : List Instr) :
    exec c ⟨d, q⟩ = exec c ⟨t, q⟩ := by
  have next (f : Device → Device) : (.next ⟨f d.settle, q⟩ : Host.Outcome State Fault Refusal) = .next ⟨f t.settle, q⟩ := by
    rw [h]
  by_cases hm : managementCommand c = true
  · obtain ⟨f, hf⟩ := exec_command hm
    rw [hf, hf]
    exact next fun x => if x.startup.pwrRst then x else f x
  cases c
  case portRequest p r => exact next (·.takeRequest p r)
  case arbiterGrant => exact next Device.grant
  case memoryCompletion merr data => exact next (·.memoryCompletes merr data)
  case holdLimitExpiry p => exact next (·.runTo (.holdLimit p))
  case poolWaitExpiry p => exact next (·.runTo (.poolWait p))
  case lockLimitExpiry p => exact next (·.runTo (.lockLimit p))
  case watchdogExpiry w => exact next (·.runTo (.watchdog w))
  case strobePulse x after => exact next (·.strobe x after)
  case acquisitionTimeout x => exact next (·.runTo (.acquisition x))
  case syncLost x => exact next (·.runTo (.sync x))
  case lctExpiry => exact next (·.runTo .lct)
  case pwrRst => exact next Device.pwrRstReset
  case rstIn => exact next Device.rstInReset
  case linkReset => exact next Device.takeLinkReset
  case pwrRstRelease => exact next Device.releasePwrRst
  case settleEnd straps => exact next (·.runTo (.settleEnd straps))
  case flashAnswer input =>
    cases input with
    | byte b => exact next (·.flashReturns [b] fun d => d.flashAnswers b)
    | edge fdi => exact next (·.flashEdge fdi)
  case flashRetryWaitEnd => exact next (·.runTo .flashRetry)
  case flashTimeout => exact next (·.runTo .flashTimeout)
  case headerReadComplete w0 w1 w2 =>
    exact next (·.flashReturns ([w0, w1, w2].flatMap bytesOfWord) fun d => d.headerRead w0 w1 w2)
  case imageReadComplete ws => exact next (·.flashReturns (ws.flatMap bytesOfWord) fun d => d.imageRead ws)
  case rstOutRelease => exact next (·.runTo .rstOut)
  case frameAbort => exact next Device.abortFrame
  case unknownCommand u =>
    cases u with
    | edge e =>
      show takeEdge e ⟨d, q⟩ = takeEdge e ⟨t, q⟩
      simp only [takeEdge, h]
    | command code => exact absurd rfl hm
    | windowCtrl w a => exact absurd rfl hm
    | timer a p => exact absurd rfl hm
    | softReset x => exact absurd rfl hm
  all_goals first
    | exact absurd rfl hm
    | exact absurd hc Bool.noConfusion

/-- The events of a moment come to an end, in the state that `settle` gives. -/
theorem exists_moment (n : Nat) : ∀ d : Device, d.remaining ≤ n → ∃ events, Moment events d d.settle := by
  induction n with
  | zero =>
    intro d hn
    cases h : d.urgent with
    | none => exact ⟨[], settle_of_settled h, h⟩
    | some u =>
      have := take_lt (isReady_of_urgent h)
      omega
  | succ n ih =>
    intro d hn
    cases h : d.urgent with
    | none => exact ⟨[], settle_of_settled h, h⟩
    | some u =>
      have := take_lt (isReady_of_urgent h)
      obtain ⟨events, hevents⟩ := ih (d.take u) (by omega)
      exact ⟨u :: events, h, settle_of_urgent h ▸ hevents⟩

/-- Settles O3: `settle` takes the first due event and settles what it leaves, and every other command sees the settled part only. -/
theorem commandsFollowEventsOfTheMoment : Obligations.CommandsFollowEventsOfTheMoment := by
  refine ⟨urgent_iff, fun c d u q hc hu => ⟨exec_row d u q, exec_congr_settle hc (settle_of_urgent hu) q⟩, fun d q => ?_⟩
  obtain ⟨events, hevents⟩ := exists_moment d.remaining d (Nat.le_refl _)
  exact ⟨events, d.settle, hevents, settled_settle d, rfl⟩

end Sys2Proof.Machine

/-! SUPPORT. What the part does with no command waiting, its timers, and the passing of time (log 3, log 4, R90, R98, R166). -/

namespace Sys2Proof.Machine

/-! ## The four things that the part does by itself (log 3) -/

theorem step_idle (d : Device) : step ⟨d, []⟩ = .next ⟨d.idle, []⟩ := rfl

theorem idle_urgent {d : Device} {u : Urgent} (h : d.urgent = some u) : d.idle = d.take u := by
  simp only [Device.idle, h]

theorem idle_expiry {d : Device} {e : Expiry} (hs : Settled d) (h : d.dueExpiry = some e) : d.idle = (d.expire e).tripExpired := by
  simp only [Device.idle, show d.urgent = none from hs, h]

theorem idle_quiet {d : Device} (hs : Settled d) (h : d.dueExpiry = none) :
    d.idle = if d.mem.outstanding.isNone ∧ d.winner.isSome then d.grant else (d.advance 1).tripExpired := by
  simp only [Device.idle, show d.urgent = none from hs, h]

/-- The row of a timer that is the next thing due runs it out at its moment. -/
theorem exec_expiry_row {s : State} {e : Expiry} {t : Nat} (h : NextDue s.dev e t) :
    exec e.row s = .next { s with dev := ((s.dev.reached t).expire e).tripExpired } := by
  cases e with
  | holdLimit p => exact exec_holdLimitExpiry s p h
  | poolWait p => exact exec_poolWaitExpiry s p h
  | lockLimit p => exact exec_lockLimitExpiry s p h
  | watchdog w => exact exec_watchdogExpiry s w h
  | acquisition x => exact exec_acquisitionTimeout s x h
  | sync x => exact exec_syncLost s x h
  | lct => exact exec_lctExpiry s h
  | settleEnd straps => exact exec_settleEnd s straps h
  | flashRetry => exact exec_flashRetryWaitEnd s h
  | flashTimeout => exact exec_flashTimeout s h
  | rstOut => exact exec_rstOutRelease s h

theorem exec_expired_row {d : Device} {e : Expiry} (hs : Settled d) (h : d.timeLeft e = some 0) (q : List Instr) :
    exec e.row ⟨d, q⟩ = .next ⟨(d.expire e).tripExpired, q⟩ :=
  exec_expiry_row (s := ⟨d, q⟩) (t := 0) ⟨hs, h, fun _ _ => Nat.zero_le _⟩

theorem expiryOrder_eq (d : Device) : d.expiryOrder =
    ([.holdLimit .a, .holdLimit .b, .poolWait .a, .poolWait .b, .lockLimit .a, .lockLimit .b] : List Expiry) ++
      (List.finRange 16).map Expiry.watchdog ++
      ([.acquisition .tsa, .sync .tsa, .acquisition .tsb, .sync .tsb, .acquisition .fms, .sync .fms, .acquisition .fme,
        .sync .fme, .lct, .settleEnd d.straps, .flashRetry, .flashTimeout, .rstOut] : List Expiry) := by
  rw [Device.expiryOrder, allWindows_eq_finRange, List.append_assoc]
  rfl

theorem dueExpiry_of_first {d : Device} {before after : List Expiry} {e : Expiry} (horder : d.expiryOrder = before ++ e :: after)
    (he : d.timeLeft e = some 0) (hbefore : ∀ x ∈ before, d.timeLeft x ≠ some 0) : d.dueExpiry = some e :=
  List.find?_eq_some_iff_append.mpr ⟨beq_iff_eq.mpr he, before, after, horder, fun x hx => by
    rw [Bool.not_eq_true', beq_eq_false_iff_ne]
    exact hbefore x hx⟩

theorem dueExpiry_none {d : Device} (h : ∀ e, d.timeLeft e ≠ some 0) : d.dueExpiry = none :=
  List.find?_eq_none.mpr fun e _ => by
    rw [beq_iff_eq]
    exact h e

/-- A grant can be made when some requester in the rotation order is eligible (R148, R149). -/
theorem winner_isSome_iff (d : Device) : d.winner.isSome = true ↔ ∃ r ∈ d.mem.rotation, d.eligible r = true := by
  rw [Device.winner, List.find?_isSome]

/-! ## What the passing of time gives (R90, R98, R110, R166) -/

section
variable (d : Device) (n : Nat)

theorem advance_port (p : Port) : (d.advance n).port p = (d.port p).elapse ((d.clock.sub + n) / d.clock.perUs) := by
  cases p <;> rfl

theorem lock_elapse (us : Nat) (l : LockRecord) : l.elapse us = (match l with
    | .opened k a rem => .opened k a (rem - us)
    | .closing k a rem => .closing k a (rem.map (· - us))
    | l => l) := by
  cases l <;> rfl

theorem loader_elapse (us : Nat) (l : Loader) : l.elapse us = (match l with | .retryWait rem => .retryWait (rem - us) | l => l) := by
  cases l <;> rfl

theorem advance_monitors (x : Strobe) :
    (d.advance n).monitors.get x = { d.monitors.get x with since := (d.monitors.get x).since.map (· + n) } := by
  cases x <;> rfl

end

/-! ## How far off an expiry is (R90, R166) -/

section
variable (d : Device)

theorem untilLoss_none {x : Strobe} (h : (d.monitors.get x).since = none) : d.untilLoss x = none := by
  rw [Device.untilLoss, h]
  rfl

/-- The loss deadline stands one and a half periods after the reference (R90). -/
theorem untilLoss_some {x : Strobe} {e : Nat} (h : (d.monitors.get x).since = some e) :
    ∃ u, d.untilLoss x = some u ∧ ∀ n, u ≤ n ↔ 3 * (d.period x * d.clock.perUs) ≤ 2 * (e + n) := by
  refine ⟨(3 * d.period x * d.clock.perUs + 1) / 2 - e, ?_, fun n => ?_⟩
  · rw [Device.untilLoss, h]
    rfl
  · rw [Nat.mul_assoc]
    omega

theorem heldOn_iff (p : Port) (k : HoldCause) :
    d.heldOn p k = true ↔ ∃ c, (d.port p).current = some c ∧ c.phase = .held k :=
  current_test_iff (fun hc => by simp [Device.heldOn, hc]) fun c hc => by simp [Device.heldOn, hc]

theorem heldByLimit_iff (p : Port) : d.heldByLimit p = true ↔
    ∃ c k, (d.port p).current = some c ∧ c.phase = .held k ∧ k ≠ .poolWait := by
  simp only [Device.heldByLimit, Bool.or_eq_true, heldOn_iff]
  constructor
  · rintro ((⟨c, hc, hph⟩ | ⟨c, hc, hph⟩) | ⟨c, hc, hph⟩)
    · exact ⟨c, _, hc, hph, by decide⟩
    · exact ⟨c, _, hc, hph, by decide⟩
    · exact ⟨c, _, hc, hph, by decide⟩
  · rintro ⟨c, k, hc, hph, hk⟩
    cases k with
    | consumerHold => exact .inl (.inl ⟨c, hc, hph⟩)
    | queueSpace => exact .inl (.inr ⟨c, hc, hph⟩)
    | lockWait => exact .inr ⟨c, hc, hph⟩
    | poolWait => exact absurd rfl hk

theorem timeLeft_holdLimit_of_held {p : Port} {c : Current} {k : HoldCause} (hc : (d.port p).current = some c)
    (hph : c.phase = .held k) (hk : k ≠ .poolWait) :
    d.timeLeft (.holdLimit p) = (d.port p).holdTimer.map d.clock.untilZero :=
  if_pos ((heldByLimit_iff d p).mpr ⟨c, k, hc, hph, hk⟩)

theorem timeLeft_holdLimit_of_free {p : Port}
    (h : ∀ c k, (d.port p).current = some c → c.phase = .held k → k = .poolWait) : d.timeLeft (.holdLimit p) = none :=
  if_neg fun hheld => by
    obtain ⟨c, k, hc, hph, hk⟩ := (heldByLimit_iff d p).mp hheld
    exact hk (h c k hc hph)

theorem timeLeft_poolWait_of_held {p : Port} {c : Current} (hc : (d.port p).current = some c) (hph : c.phase = .held .poolWait) :
    d.timeLeft (.poolWait p) = (d.port p).holdTimer.map d.clock.untilZero :=
  if_pos ((heldOn_iff d p .poolWait).mpr ⟨c, hc, hph⟩)

theorem timeLeft_poolWait_of_free {p : Port} (h : ∀ c, (d.port p).current = some c → c.phase ≠ .held .poolWait) :
    d.timeLeft (.poolWait p) = none :=
  if_neg fun hheld => by
    obtain ⟨c, hc, hph⟩ := (heldOn_iff d p .poolWait).mp hheld
    exact h c hc hph

theorem lock_limit_some_iff (l : LockRecord) (n : Nat) :
    l.limit = some n ↔ (∃ k a, l = .opened k a n) ∨ ∃ k a, l = .closing k a (some n) := by
  cases l <;> simp [LockRecord.limit]

theorem wait_some_iff (l : Loader) (n : Nat) : l.wait? = some n ↔ l = .retryWait n := by
  cases l <;> simp [Loader.wait?]

theorem exists_port {P : Port → Prop} : (∃ p, P p) ↔ P .a ∨ P .b :=
  ⟨fun ⟨p, hp⟩ => by cases p with
    | a => exact .inl hp
    | b => exact .inr hp, fun h => h.elim (fun h => ⟨.a, h⟩) fun h => ⟨.b, h⟩⟩

/-- The microsecond timers that run. -/
theorem mem_timers (a : Nat) : a ∈ d.timers ↔
    (∃ w, (d.rt w).watchdog = some a) ∨ (∃ p, (d.port p).holdTimer = some a) ∨ (∃ p, (d.port p).lock.limit = some a) ∨
    d.lct.remaining = some a ∨ d.startup.settleTimer = some a ∨ d.startup.rstOutTimer = some a ∨
    d.startup.loader.wait? = some a ∨ d.startup.flashTimer = some a := by
  simp only [Device.timers, List.mem_append, List.mem_filterMap, mem_allWindows, true_and, id, exists_port, Device.port,
    List.mem_cons, List.not_mem_nil, or_false, exists_eq_right, or_assoc, eq_comm]

/-- A thing is due in t bus clock periods exactly when a timer or a loss deadline says so. -/
theorem mem_dueTimes_iff (t : Nat) : t ∈ d.dueTimes ↔
    (∃ a ∈ d.timers, d.clock.untilZero a = t) ∨ ∃ x, d.untilLoss x = some t := by
  have hstrobe (x : Strobe) : x ∈ [Strobe.tsa, .tsb, .fms, .fme] := by cases x <;> simp
  simp only [Device.dueTimes, List.mem_append, List.mem_map, List.mem_filterMap, hstrobe, true_and]

end

/-- A timer that counts down to 0 in t bus clock periods. -/
theorem left_some_iff {d : Device} {o : Option Nat} {t : Nat} :
    o.map d.clock.untilZero = some t ↔ ∃ a, o = some a ∧ d.clock.untilZero a = t := Option.map_eq_some_iff

theorem left_iff_timer (d : Device) (t : Nat) : (∃ a ∈ d.timers, d.clock.untilZero a = t) ↔
    (∃ w, (d.rt w).watchdog.map d.clock.untilZero = some t) ∨ (∃ p, (d.port p).holdTimer.map d.clock.untilZero = some t) ∨
    (∃ p k a rem, (d.port p).lock = .opened k a rem ∧ (some rem).map d.clock.untilZero = some t) ∨
    (∃ p k a rem, (d.port p).lock = .closing k a rem ∧ rem.map d.clock.untilZero = some t) ∨
    d.lct.remaining.map d.clock.untilZero = some t ∨ d.startup.settleTimer.map d.clock.untilZero = some t ∨
    d.startup.rstOutTimer.map d.clock.untilZero = some t ∨
    (∃ rem, d.startup.loader = .retryWait rem ∧ (some rem).map d.clock.untilZero = some t) ∨
    d.startup.flashTimer.map d.clock.untilZero = some t := by
  simp only [mem_timers, left_some_iff, lock_limit_some_iff, wait_some_iff, Option.some.injEq]
  constructor
  · rintro ⟨a, hw | hp | ⟨p, ⟨k, b, hl⟩ | ⟨k, b, hl⟩⟩ | hlct | hsettle | hout | hwait | hflash, ht⟩
    · exact .inl (hw.imp fun w h => ⟨a, h, ht⟩)
    · exact .inr (.inl (hp.imp fun p h => ⟨a, h, ht⟩))
    · exact .inr (.inr (.inl ⟨p, k, b, a, hl, a, rfl, ht⟩))
    · exact .inr (.inr (.inr (.inl ⟨p, k, b, some a, hl, a, rfl, ht⟩)))
    · exact .inr (.inr (.inr (.inr (.inl ⟨a, hlct, ht⟩))))
    · exact .inr (.inr (.inr (.inr (.inr (.inl ⟨a, hsettle, ht⟩)))))
    · exact .inr (.inr (.inr (.inr (.inr (.inr (.inl ⟨a, hout, ht⟩))))))
    · exact .inr (.inr (.inr (.inr (.inr (.inr (.inr (.inl ⟨a, hwait, a, rfl, ht⟩)))))))
    · exact .inr (.inr (.inr (.inr (.inr (.inr (.inr (.inr ⟨a, hflash, ht⟩)))))))
  · rintro (⟨w, a, hw, ht⟩ | ⟨p, a, hp, ht⟩ | ⟨p, k, b, rem, hl, a, rfl, ht⟩ | ⟨p, k, b, rem, hl, a, rfl, ht⟩ | ⟨a, h, ht⟩ |
      ⟨a, h, ht⟩ | ⟨a, h, ht⟩ | ⟨rem, h, a, rfl, ht⟩ | ⟨a, h, ht⟩)
    · exact ⟨a, .inl ⟨w, hw⟩, ht⟩
    · exact ⟨a, .inr (.inl ⟨p, hp⟩), ht⟩
    · exact ⟨rem, .inr (.inr (.inl ⟨p, .inl ⟨k, b, hl⟩⟩)), ht⟩
    · exact ⟨a, .inr (.inr (.inl ⟨p, .inr ⟨k, b, hl⟩⟩)), ht⟩
    · exact ⟨a, .inr (.inr (.inr (.inl h))), ht⟩
    · exact ⟨a, .inr (.inr (.inr (.inr (.inl h)))), ht⟩
    · exact ⟨a, .inr (.inr (.inr (.inr (.inr (.inl h))))), ht⟩
    · exact ⟨rem, .inr (.inr (.inr (.inr (.inr (.inr (.inl h)))))), ht⟩
    · exact ⟨a, .inr (.inr (.inr (.inr (.inr (.inr (.inr h)))))), ht⟩

/-! ## The statement -/

/-- Settles O2: the four branches of `Device.idle` are the rows of what is due; what time gives is `Device.advance` block by block; and
how far off an expiry is follows from its timer or its reference. -/
theorem idleStepActsByItself : Obligations.IdleStepActsByItself := by
  refine ⟨fun d q => ⟨fun u => exec_row d u q, isReady_iff_due d, fun e hs h => exec_expired_row hs h q⟩, fun d => ?idle,
    fun d n => ?passing, fun d hclock => ?left⟩
  case idle =>
    intro expiries quiet eligible
    have helig (r : Requester) : d.eligible r = true ↔ eligible r := eligible_iff d r
    refine ⟨fun u hu => ?urgent, fun before e after hs horder he hbefore => ?expiry, fun hquiet hout hwin => ?grant,
      fun hquiet hnone => ?tick⟩
    case urgent => rw [step_idle, idle_urgent hu, exec_row]
    case expiry =>
      rw [step_idle, idle_expiry hs (dueExpiry_of_first ((expiryOrder_eq d).trans horder) he hbefore), exec_expired_row hs he]
    case grant =>
      obtain ⟨hs, htimers⟩ := hquiet
      have hwinner : d.winner.isSome = true := (winner_isSome_iff d).mpr (hwin.imp fun r h => h.imp_right (helig r).mpr)
      rw [step_idle, idle_quiet hs (dueExpiry_none htimers), if_pos ⟨Option.isNone_iff_eq_none.mpr hout, hwinner⟩,
        exec_arbiterGrant _ hs]
    case tick =>
      obtain ⟨hs, htimers⟩ := hquiet
      rw [step_idle, idle_quiet hs (dueExpiry_none htimers), if_neg]
      rintro ⟨hout, hwinner⟩
      rcases hnone with h | h
      · exact h (Option.isNone_iff_eq_none.mp hout)
      · obtain ⟨r, hr, he⟩ := (winner_isSome_iff d).mp hwinner
        exact h r hr ((helig r).mp he)
  case passing =>
    intro us down t
    refine ⟨rfl, fun w => advance_win d n w, fun p => ?port, fun x => advance_monitors d n x, rfl, ?startup, rfl⟩
    case port =>
      refine (advance_port d n p).trans ?_
      rw [PortUnit.elapse, lock_elapse] <;> rfl
    case startup =>
      show d.startup.elapse us = _
      rw [Startup.elapse, loader_elapse] <;> rfl
  case left =>
    intro left
    refine ⟨fun us n => untilZero_le d.clock us n hclock, fun x hx => untilLoss_none d hx, fun x e hx => untilLoss_some d hx,
      fun p c k hc hph hk => timeLeft_holdLimit_of_held d hc hph hk, fun p h => timeLeft_holdLimit_of_free d h,
      fun p c hc hph => timeLeft_poolWait_of_held d hc hph, fun p h => timeLeft_poolWait_of_free d h, fun p k a rem hl => ?opened,
      fun p k a rem hl => ?closing, fun p hopened hclosing => ?noLimit, fun w => rfl, fun x => rfl, fun x => rfl, rfl,
      fun straps => rfl, fun rem hl => ?wait, fun hl => ?noWait, rfl, rfl, mem_dueTimes d, fun t => ?due⟩
    case opened => rw [Device.timeLeft, hl]; rfl
    case closing => rw [Device.timeLeft, hl]; rfl
    case noLimit =>
      rw [Device.timeLeft, Option.map_eq_none_iff, Option.eq_none_iff_forall_ne_some]
      intro a ha
      rcases (lock_limit_some_iff _ a).mp ha with ⟨k, b, h⟩ | ⟨k, b, h⟩
      · exact hopened k b a h
      · exact hclosing k b (some a) h
    case wait => rw [Device.timeLeft, hl]; rfl
    case noWait =>
      rw [Device.timeLeft, Option.map_eq_none_iff, Option.eq_none_iff_forall_ne_some]
      exact fun a ha => hl a ((wait_some_iff _ a).mp ha)
    case due =>
      rw [mem_dueTimes_iff, left_iff_timer]
      simp only [or_assoc]
      rfl

end Sys2Proof.Machine
